-- ==== Sys2Proof/Word.lean ====
section
/-! DEFINITION. The word types of the block: bytes, caller-memory addresses, pipe numbers. -/

namespace Sys2Proof

/-- A byte of caller memory or of a FIFO stream. -/
abbrev Byte := BitVec 8

/-- A caller-memory address: 32-bit unsigned, 0 is the null pointer (00_scope.md R17). -/
abbrev Addr := BitVec 32

/-- A transfer length or count operand: 32-bit unsigned (00_scope.md R17). -/
abbrev Len := BitVec 32

/-- A pipe number: `NPIPE = 10`, pipes 0 to 9 (00_scope.md R9). -/
abbrev Pipe := Fin 10

/-- The name of a class-layer function: which function a callback pointer designates (10_state.md R38). -/
abbrev CbId := Nat

end Sys2Proof
end

