-- ==== Sys2Proof/Syntax.lean ====
section
/-! DEFINITION. The syntax: operand records, the commands, and `Instr`, one constructor per row of
spec/opcode_table.json; then `Input`, the encoded form an instruction arrives in. -/

namespace Sys2Proof

/-- The three FIFOs (00_scope.md R10). -/
inductive FifoId
  | C | D0 | D1
  deriving DecidableEq, Repr, Inhabited

/-- Transfer direction: IN is device-to-host, OUT is host-to-device (00_scope.md R26). -/
inductive Dir
  | IN | OUT
  deriving DecidableEq, Repr, Inhabited

/-- Transfer type of a pipe (10_state.md R43; CONTROL is pipe 0's, R44). -/
inductive PipeKind
  | control | bulk | interrupt | isochronous
  deriving DecidableEq, Repr, Inhabited

/-- The four pipe classes a command can name (00_scope.md R14, 30_encoding.md R141). -/
inductive PipeClass
  | control | bulkIn | bulkOut | intIn
  deriving DecidableEq, Repr, Inhabited

/-- The configuration of one pipe, less its `valid` mark (10_state.md R43). -/
structure EpCfg where
  kind      : PipeKind
  dir       : Dir
  epNum     : Nat
  fifo      : FifoId
  dblBuf    : Bool
  bufSize   : Nat
  bufOffset : Nat
  mps       : Nat
  interval  : Nat
  deriving DecidableEq, Repr, Inhabited

/-- One record of the configuration table of `resetEndpoints` (44_device_hal.md R349). The pipe is a
plain number here, since a record that names no pipe 1..9 is answered STATE (10_state.md R52). -/
structure CfgRec where
  pipe : Nat
  ep   : EpCfg
  deriving DecidableEq, Repr, Inhabited

/-- A descriptor blob: where it lies in caller memory and its length in bytes (10_state.md R37). -/
structure Blob where
  addr : Addr
  len  : Len
  deriving DecidableEq, Repr, Inhabited

/-- The descriptor set supplied at `init` (10_state.md R37); `none` is an absent blob. -/
structure DescSet where
  device     : Option Blob
  config     : Option Blob
  qualifier  : Option Blob
  otherSpeed : Option Blob
  strings    : List Blob
  langId     : BitVec 16
  deriving DecidableEq, Repr, Inhabited

/-- The callback table registered at `init` (10_state.md R38). -/
structure Callbacks where
  onSetup           : CbId
  onCableChange     : CbId
  onError           : CbId
  onControlOutDone  : CbId
  onBulkOutDone     : CbId
  onBulkInDone      : CbId
  onInterruptInDone : CbId
  deriving DecidableEq, Repr, Inhabited

/-- A command of the downward contract with its operand record (30_encoding.md R140): what the class
layer issues inside a callback (60_exceptions.md R441). -/
inductive Cmd
  | init (d : DescSet) (c : Callbacks)
  | controlAck
  | controlIn (len : Len) (buf : Addr)
  | controlOut (len : Len) (buf : Addr) (k : Option CbId)
  | bulkIn (len : Len) (buf : Addr) (k : Option CbId)
  | bulkOut (len : Len) (buf : Addr) (k : Option CbId)
  | interruptIn (len : Len) (buf : Addr) (k : Option CbId)
  | stall (cls : PipeClass)
  | getDeviceState
  | isEndpointStalled (pipe : BitVec 4)
  | cancel
  | reset
  | resetEndpoints (t : List CfgRec)
  deriving DecidableEq, Repr, Inhabited

/-- What `onSetup` answers (44_device_hal.md R324). -/
inductive SetupAnswer
  | handled | unknown
  deriving DecidableEq, Repr, Inhabited

/-- What the class layer does in one callback invocation: the commands it issues, in order, and, for
`onSetup`, its answer (93_implementation_defined.md U10, 60_exceptions.md R441). -/
structure ClassStep where
  answer : SetupAnswer
  cmds   : List Cmd
  deriving DecidableEq, Repr, Inhabited

/-- The instructions: one constructor per row of spec/opcode_table.json. The fields of a setup row are
the bits of the packet its mask leaves open (30_encoding.md R130, R131, R136). -/
inductive Instr
  -- setup rows (30_encoding.md R136)
  | srGetStatusDevice (value index length : BitVec 16)
  | srGetStatusInterface (value index length : BitVec 16)
  | srGetStatusEndpoint (value index length : BitVec 16)
  | srClearFeatureEpHalt (index length : BitVec 16)
  | srSetFeatureEpHalt (index length : BitVec 16)
  | srSetAddress (value index length : BitVec 16)
  | srGetDescriptorDevice (descIndex : BitVec 8) (index length : BitVec 16)
  | srGetDescriptorConfiguration (descIndex : BitVec 8) (index length : BitVec 16)
  | srGetDescriptorString (descIndex : BitVec 8) (index length : BitVec 16)
  | srGetDescriptorDeviceQualifier (descIndex : BitVec 8) (index length : BitVec 16)
  | srGetDescriptorOtherSpeed (descIndex : BitVec 8) (index length : BitVec 16)
  | srGetConfiguration (value index length : BitVec 16)
  | srSetConfiguration (value index length : BitVec 16)
  | srGetInterface (value index length : BitVec 16)
  | srSetInterface (value index length : BitVec 16)
  | srStandardOther (dir : BitVec 1) (recipient : BitVec 5) (request : BitVec 8) (value index length : BitVec 16)
  | srClass (dir : BitVec 1) (recipient : BitVec 5) (request : BitVec 8) (value index length : BitVec 16)
  | srVendor (dir : BitVec 1) (recipient : BitVec 5) (request : BitVec 8) (value index length : BitVec 16)
  | srReservedType (dir : BitVec 1) (recipient : BitVec 5) (request : BitVec 8) (value index length : BitVec 16)
  -- command rows (30_encoding.md R140)
  | init (d : DescSet) (c : Callbacks)
  | controlAck
  | controlIn (len : Len) (buf : Addr)
  | controlOut (len : Len) (buf : Addr) (k : Option CbId)
  | bulkIn (len : Len) (buf : Addr) (k : Option CbId)
  | bulkOut (len : Len) (buf : Addr) (k : Option CbId)
  | interruptIn (len : Len) (buf : Addr) (k : Option CbId)
  | stallControl
  | stallBulkIn
  | stallBulkOut
  | stallIntIn
  | getDeviceState
  | isEndpointStalled (pipe : BitVec 4)
  | cancel
  | reset
  | resetEndpoints (t : List CfgRec)
  -- event rows (30_encoding.md R145)
  | evtIsr
  | evtBemp0
  | evtNrdy0
  | evtBrdy0
  | evtBemp (pipe : BitVec 4)
  | evtNrdy (pipe : BitVec 4)
  | evtBrdy (pipe : BitVec 4)
  | evtDvst
  | evtCtrt
  | evtResm
  | evtVbint
  deriving DecidableEq, Repr, Inhabited

/-- The operand record beside a command word (30_encoding.md R140): the spec gives it no bytes, so it
is a record of typed fields, and a command reads the fields its row names. -/
structure Operands where
  desc  : DescSet := ⟨none, none, none, none, [], 0⟩
  cb    : Callbacks := ⟨0, 0, 0, 0, 0, 0, 0⟩
  len   : Len := 0
  buf   : Addr := 0
  k     : Option CbId := none
  table : List CfgRec := []
  deriving DecidableEq, Repr, Inhabited

/-- An encoded input: the three formats of 30_encoding.md R155. -/
inductive Input
  | setup (S : BitVec 64)
  | cmd (w : BitVec 32) (ops : Operands)
  | evt (e : BitVec 16)
  deriving DecidableEq, Repr, Inhabited

end Sys2Proof
end

