-- ==== Sys2Proof/Config.lean ====
section
/-! DEFINITION. What an implementation fixes (`Params`) and the free values: the answers of the
environment that the spec leaves open, each an opaque constant without a body. -/

namespace Sys2Proof

/-- The control pipe's max packet size, `MPS0` in {8, 16, 32, 64} (00_scope.md R15). -/
inductive Mps0
  | m8 | m16 | m32 | m64
  deriving DecidableEq, Repr, Inhabited

/-- `MPS0` as a count of bytes. -/
def Mps0.bytes : Mps0 → Nat
  | .m8 => 8
  | .m16 => 16
  | .m32 => 32
  | .m64 => 64

/-- The implementation parameters (00_scope.md R13 to R16), fixed while the machine runs. -/
structure Params where
  bindPollBudget   : Nat
  uncondAttempts   : Nat
  ctrlInPollBudget : Nat
  mps0             : Mps0
  pipeBulkOut      : Pipe
  pipeIntIn        : Pipe
  nsp2             : Bool
  autoClearHalt    : Bool
  respBase         : Addr
  deriving DecidableEq, Repr, Inhabited

/-- The legal parameter values: 00_scope.md R14 for the pipes, 20_memory.md R123 for `RESP_BASE`. -/
abbrev Params.Legal (c : Params) : Prop :=
  c.pipeBulkOut ≠ 0 ∧ c.pipeBulkOut ≠ 2 ∧ c.pipeIntIn ≠ 0 ∧ c.pipeIntIn ≠ 2 ∧
    c.pipeBulkOut ≠ c.pipeIntIn ∧ c.respBase.toNat % 2 = 0 ∧ c.respBase.toNat + 2 ≤ 2 ^ 32

/-- `NRDY_RETRY_LIMIT` (00_scope.md R11). -/
def Config.nrdyRetryLimit : Nat := 3

/-- Pipe 2 is the primary bulk-in pipe (00_scope.md R14). -/
def Config.pipeBulkIn : Pipe := 2

/-- `AUTO_CLEAR_HALT` has no default (00_scope.md R16): a free value. -/
opaque Config.autoClearHalt : Bool

/-- The spec's default parameters (00_scope.md R13 to R16). -/
def Config.defaultParams : Params where
  bindPollBudget := 20
  uncondAttempts := 3
  ctrlInPollBudget := 20
  mps0 := .m64
  pipeBulkOut := 1
  pipeIntIn := 6
  nsp2 := false
  autoClearHalt := Config.autoClearHalt
  respBase := 0x20000000

/-! ### Draws of the environment (93_implementation_defined.md U1 to U10)
Each is applied to the counter of draws, so that two reads are two independent values. -/

/-- A poll of `fifoCur[f]` (10_state.md R62, U1). -/
opaque Config.freeFifoCur : Nat → Option Pipe
/-- The received count before it is bounded by the buffer size (10_state.md R64, U2). -/
opaque Config.freeRcvLen : Nat → Nat
/-- A byte the host sends (10_state.md R65, U3), or a byte left after an overrun (U9). -/
opaque Config.freeByte : Nat → Byte
/-- A byte that a race leaves in caller memory, or that a racing read observes (20_memory.md R122, U12). -/
opaque Config.freeRaceByte : Nat → Byte
/-- A raw VBUS sample (10_state.md R71, U4). -/
opaque Config.freeVbus : Nat → Bool
/-- A read of the in-buffer monitor bit (10_state.md R76, U5). -/
opaque Config.freeInbufm : Nat → Bool
/-- A read of the FIFO-ready indication (10_state.md R63, U6). -/
opaque Config.freeFifoReady : Nat → Bool
/-- What the class layer does in a callback (44_device_hal.md R324, 60_exceptions.md R441, U10). -/
opaque Config.freeClassStep : Nat → ClassStep

end Sys2Proof
end

