-- ==== Sys2Proof/WellFormed.lean ====
section
/-! DEFINITION. Which terms of `Instr` stand for an encoded input: the bounds the encoding puts on
the fields of an instruction (30_encoding.md R136, R137, R150). -/

namespace Sys2Proof

/-- A per-pipe event of the dispatcher names one of the pipes 1..9 (30_encoding.md R145, R150). -/
def dataPipe (p : BitVec 4) : Bool := 1 ≤ p.toNat && p.toNat ≤ 9

/-- The low 16 bits of the setup rows that only fix `bmRequestType` and `bRequest` (30_encoding.md R136). -/
def servedTypeRequest : List (BitVec 8 × BitVec 8) :=
  [(0x80, 0x00), (0x81, 0x00), (0x82, 0x00), (0x00, 0x05), (0x80, 0x08), (0x00, 0x09), (0x81, 0x0A), (0x01, 0x0B)]

/-- Whether an earlier row of 30_encoding.md R136 takes a packet of type STANDARD: then the packet is
not SR_STANDARD_OTHER (R137). -/
def servedStandard (dir : BitVec 1) (recipient : BitVec 5) (request : BitVec 8) (value : BitVec 16) : Bool :=
  let t : BitVec 8 := dir ++ (0 : BitVec 2) ++ recipient
  servedTypeRequest.contains (t, request)
    || ((t == 0x02) && (request == 0x01 || request == 0x03) && value == 0)
    || ((t == 0x80) && request == 0x06 && [0x01, 0x02, 0x03, 0x06, 0x07].contains (value.extractLsb' 8 8))

/-- The bounds on an instruction's fields: only the pipe of a per-pipe event and the catch-all row of
type STANDARD have any. -/
def Instr.wellFormed : Instr → Bool
  | .srStandardOther dir recipient request value _ _ => !servedStandard dir recipient request value
  | .evtBemp p => dataPipe p
  | .evtNrdy p => dataPipe p
  | .evtBrdy p => dataPipe p
  | .srGetStatusDevice _ _ _ => true
  | .srGetStatusInterface _ _ _ => true
  | .srGetStatusEndpoint _ _ _ => true
  | .srClearFeatureEpHalt _ _ => true
  | .srSetFeatureEpHalt _ _ => true
  | .srSetAddress _ _ _ => true
  | .srGetDescriptorDevice _ _ _ => true
  | .srGetDescriptorConfiguration _ _ _ => true
  | .srGetDescriptorString _ _ _ => true
  | .srGetDescriptorDeviceQualifier _ _ _ => true
  | .srGetDescriptorOtherSpeed _ _ _ => true
  | .srGetConfiguration _ _ _ => true
  | .srSetConfiguration _ _ _ => true
  | .srGetInterface _ _ _ => true
  | .srSetInterface _ _ _ => true
  | .srClass _ _ _ _ _ _ => true
  | .srVendor _ _ _ _ _ _ => true
  | .srReservedType _ _ _ _ _ _ => true
  | .init _ _ => true
  | .controlAck => true
  | .controlIn _ _ => true
  | .controlOut _ _ _ => true
  | .bulkIn _ _ _ => true
  | .bulkOut _ _ _ => true
  | .interruptIn _ _ _ => true
  | .stallControl => true
  | .stallBulkIn => true
  | .stallBulkOut => true
  | .stallIntIn => true
  | .getDeviceState => true
  | .isEndpointStalled _ => true
  | .cancel => true
  | .reset => true
  | .resetEndpoints _ => true
  | .evtIsr => true
  | .evtBemp0 => true
  | .evtNrdy0 => true
  | .evtBrdy0 => true
  | .evtDvst => true
  | .evtCtrt => true
  | .evtResm => true
  | .evtVbint => true

/-- An instruction is well formed when some input decodes to it. -/
abbrev WellFormed (i : Instr) : Prop := i.wellFormed = true

end Sys2Proof
end

