-- ==== Sys2Proof/Decode.lean ====
section
/-! DEFINITION. The decoder, total on every input and refusing by name, and after it the encoder, both
written from the tables of 30_encoding.md; then the table-word entry the host probes. -/

namespace Sys2Proof

/-! ### The setup packet (30_encoding.md R130, R131) -/

/-- The word S of eight wire bytes: byte i is bits `8*i+7 .. 8*i` (30_encoding.md R130). -/
def setupOfBytes (b0 b1 b2 b3 b4 b5 b6 b7 : Byte) : BitVec 64 :=
  b7 ++ b6 ++ b5 ++ b4 ++ b3 ++ b2 ++ b1 ++ b0

/-- Byte i of a setup packet, in wire order (30_encoding.md R130). -/
def setupByte (S : BitVec 64) (i : Nat) : Byte := S.extractLsb' (8 * i) 8

/-- `bmRequestType = S[7:0]`. -/
def bmRequestType (S : BitVec 64) : BitVec 8 := S.extractLsb' 0 8
/-- `bRequest = S[15:8]`. -/
def bRequest (S : BitVec 64) : BitVec 8 := S.extractLsb' 8 8
/-- `wValue = S[31:16]`. -/
def wValue (S : BitVec 64) : BitVec 16 := S.extractLsb' 16 16
/-- `wIndex = S[47:32]`. -/
def wIndex (S : BitVec 64) : BitVec 16 := S.extractLsb' 32 16
/-- `wLength = S[63:48]`. -/
def wLength (S : BitVec 64) : BitVec 16 := S.extractLsb' 48 16
/-- `dir = bmRequestType[7]`, 1 is device-to-host (30_encoding.md R131). -/
def reqDir (S : BitVec 64) : BitVec 1 := S.extractLsb' 7 1
/-- `type = bmRequestType[6:5]` (30_encoding.md R131). -/
def reqType (S : BitVec 64) : BitVec 2 := S.extractLsb' 5 2
/-- `recipient = bmRequestType[4:0]` (30_encoding.md R131). -/
def reqRecipient (S : BitVec 64) : BitVec 5 := S.extractLsb' 0 5
/-- The descriptor index `wValue[7:0]` of GET_DESCRIPTOR (30_encoding.md R133). -/
def descIndex (S : BitVec 64) : BitVec 8 := S.extractLsb' 16 8
/-- The descriptor type `wValue[15:8]` of GET_DESCRIPTOR (30_encoding.md R133). -/
def descType (S : BitVec 64) : BitVec 8 := S.extractLsb' 24 8

/-- The endpoint number `e[3:0]` of an endpoint address (30_encoding.md R135). -/
def epNumber (index : BitVec 16) : BitVec 4 := index.extractLsb' 0 4
/-- The direction `e[7]` of an endpoint address, 1 is IN (30_encoding.md R135). -/
def epDir (index : BitVec 16) : Dir := if index.getLsbD 7 then .IN else .OUT

/-- The rows of the standard-request decode table (30_encoding.md R136). -/
inductive SrRow
  | getStatusDevice | getStatusInterface | getStatusEndpoint
  | clearFeatureEpHalt | setFeatureEpHalt | setAddress
  | getDescriptorDevice | getDescriptorConfiguration | getDescriptorString
  | getDescriptorDeviceQualifier | getDescriptorOtherSpeed
  | getConfiguration | setConfiguration | getInterface | setInterface
  | standardOther | classRequest | vendor | reservedType
  deriving DecidableEq, Repr, Inhabited

/-- One line of the table: the row, its match and its mask. -/
structure SrLine where
  row   : SrRow
  value : BitVec 64
  mask  : BitVec 64
  deriving DecidableEq, Repr, Inhabited

/-- The rows that fix `bmRequestType` and `bRequest`, the halt features and the descriptor types. -/
def servedLines : List SrLine :=
  [⟨.getStatusDevice, 0x00000080, 0x0000FFFF⟩,
   ⟨.getStatusInterface, 0x00000081, 0x0000FFFF⟩,
   ⟨.getStatusEndpoint, 0x00000082, 0x0000FFFF⟩,
   ⟨.clearFeatureEpHalt, 0x00000102, 0xFFFFFFFF⟩,
   ⟨.setFeatureEpHalt, 0x00000302, 0xFFFFFFFF⟩,
   ⟨.setAddress, 0x00000500, 0x0000FFFF⟩,
   ⟨.getDescriptorDevice, 0x01000680, 0xFF00FFFF⟩,
   ⟨.getDescriptorConfiguration, 0x02000680, 0xFF00FFFF⟩,
   ⟨.getDescriptorString, 0x03000680, 0xFF00FFFF⟩,
   ⟨.getDescriptorDeviceQualifier, 0x06000680, 0xFF00FFFF⟩,
   ⟨.getDescriptorOtherSpeed, 0x07000680, 0xFF00FFFF⟩,
   ⟨.getConfiguration, 0x00000880, 0x0000FFFF⟩,
   ⟨.setConfiguration, 0x00000900, 0x0000FFFF⟩,
   ⟨.getInterface, 0x00000A81, 0x0000FFFF⟩,
   ⟨.setInterface, 0x00000B01, 0x0000FFFF⟩]

/-- The four rows that fix the request type only; together they match every packet (R137). -/
def typeLines : List SrLine :=
  [⟨.standardOther, 0x00, 0x60⟩,
   ⟨.classRequest, 0x20, 0x60⟩,
   ⟨.vendor, 0x40, 0x60⟩,
   ⟨.reservedType, 0x60, 0x60⟩]

/-- The decode table of 30_encoding.md R136, in its order. -/
def setupTable : List SrLine := servedLines ++ typeLines

/-- Whether a line matches: `(S AND mask) = match`. -/
def SrLine.hits (l : SrLine) (S : BitVec 64) : Bool := (S &&& l.mask) == l.value

/-- The row a packet selects: the first that matches (30_encoding.md R136). The last line's row
stands for the case that none matches, which R137 rules out. -/
def rowOf (S : BitVec 64) : SrRow :=
  match setupTable.find? (·.hits S) with
  | some l => l.row
  | none => .reservedType

/-- The instruction of a setup packet; every packet is one (30_encoding.md R151). -/
def decodeSetup (S : BitVec 64) : Instr :=
  match rowOf S with
  | .getStatusDevice => .srGetStatusDevice (wValue S) (wIndex S) (wLength S)
  | .getStatusInterface => .srGetStatusInterface (wValue S) (wIndex S) (wLength S)
  | .getStatusEndpoint => .srGetStatusEndpoint (wValue S) (wIndex S) (wLength S)
  | .clearFeatureEpHalt => .srClearFeatureEpHalt (wIndex S) (wLength S)
  | .setFeatureEpHalt => .srSetFeatureEpHalt (wIndex S) (wLength S)
  | .setAddress => .srSetAddress (wValue S) (wIndex S) (wLength S)
  | .getDescriptorDevice => .srGetDescriptorDevice (descIndex S) (wIndex S) (wLength S)
  | .getDescriptorConfiguration => .srGetDescriptorConfiguration (descIndex S) (wIndex S) (wLength S)
  | .getDescriptorString => .srGetDescriptorString (descIndex S) (wIndex S) (wLength S)
  | .getDescriptorDeviceQualifier => .srGetDescriptorDeviceQualifier (descIndex S) (wIndex S) (wLength S)
  | .getDescriptorOtherSpeed => .srGetDescriptorOtherSpeed (descIndex S) (wIndex S) (wLength S)
  | .getConfiguration => .srGetConfiguration (wValue S) (wIndex S) (wLength S)
  | .setConfiguration => .srSetConfiguration (wValue S) (wIndex S) (wLength S)
  | .getInterface => .srGetInterface (wValue S) (wIndex S) (wLength S)
  | .setInterface => .srSetInterface (wValue S) (wIndex S) (wLength S)
  | .standardOther => .srStandardOther (reqDir S) (reqRecipient S) (bRequest S) (wValue S) (wIndex S) (wLength S)
  | .classRequest => .srClass (reqDir S) (reqRecipient S) (bRequest S) (wValue S) (wIndex S) (wLength S)
  | .vendor => .srVendor (reqDir S) (reqRecipient S) (bRequest S) (wValue S) (wIndex S) (wLength S)
  | .reservedType => .srReservedType (reqDir S) (reqRecipient S) (bRequest S) (wValue S) (wIndex S) (wLength S)

/-! ### Command and event words (30_encoding.md R140, R141, R145, R150) -/

/-- Why a word is refused (30_encoding.md R150). -/
inductive DecodeError
  /-- A command word whose op is 0x00 or 0x0E..0xFF. -/
  | reservedOpcode
  /-- A command word with `W[31:12]` not 0, or an event word with `E[15:12]` not 0. -/
  | reservedBits
  /-- A command that takes no argument with `arg` not 0, or an event that takes no pipe with a pipe. -/
  | argNotZero
  /-- A STALL with class 4..15. -/
  | reservedStallClass
  /-- An event code that R145 does not list. -/
  | reservedEventCode
  /-- A per-pipe event with `pipe > 9`. -/
  | eventPipeOutOfRange
  deriving DecidableEq, Repr, Inhabited

/-- `op = W[7:0]`. -/
def cmdOp (w : BitVec 32) : BitVec 8 := w.extractLsb' 0 8
/-- `arg = W[11:8]`. -/
def cmdArg (w : BitVec 32) : BitVec 4 := w.extractLsb' 8 4
/-- `W[31:12]`. -/
def cmdRest (w : BitVec 32) : BitVec 20 := w.extractLsb' 12 20
/-- `code = E[7:0]`. -/
def evtCode (e : BitVec 16) : BitVec 8 := e.extractLsb' 0 8
/-- `pipe = E[11:8]`. -/
def evtPipe (e : BitVec 16) : BitVec 4 := e.extractLsb' 8 4
/-- `E[15:12]`. -/
def evtRest (e : BitVec 16) : BitVec 4 := e.extractLsb' 12 4

/-- A command that takes no argument: `arg` must be 0 (30_encoding.md R141). -/
def noArg (arg : BitVec 4) (i : Instr) : Except DecodeError Instr :=
  if arg = 0 then .ok i else .error .argNotZero

/-- A command word and its operand record (30_encoding.md R140, R141). -/
def decodeCmd (w : BitVec 32) (o : Operands) : Except DecodeError Instr :=
  if cmdRest w ≠ 0 then .error .reservedBits
  else match (cmdOp w).toNat with
    | 0x01 => noArg (cmdArg w) (.init o.desc o.cb)
    | 0x02 => noArg (cmdArg w) .controlAck
    | 0x03 => noArg (cmdArg w) (.controlIn o.len o.buf)
    | 0x04 => noArg (cmdArg w) (.controlOut o.len o.buf o.k)
    | 0x05 => noArg (cmdArg w) (.bulkIn o.len o.buf o.k)
    | 0x06 => noArg (cmdArg w) (.bulkOut o.len o.buf o.k)
    | 0x07 => noArg (cmdArg w) (.interruptIn o.len o.buf o.k)
    | 0x08 => match (cmdArg w).toNat with
      | 0 => .ok .stallControl
      | 1 => .ok .stallBulkIn
      | 2 => .ok .stallBulkOut
      | 3 => .ok .stallIntIn
      | _ => .error .reservedStallClass
    | 0x09 => noArg (cmdArg w) .getDeviceState
    | 0x0A => .ok (.isEndpointStalled (cmdArg w))
    | 0x0B => noArg (cmdArg w) .cancel
    | 0x0C => noArg (cmdArg w) .reset
    | 0x0D => noArg (cmdArg w) (.resetEndpoints o.table)
    | _ => .error .reservedOpcode

/-- A per-pipe event: pipe 0 is the control pipe's row, 1..9 the dispatcher's (30_encoding.md R145). -/
def pipeEvent (p : BitVec 4) (zero : Instr) (data : BitVec 4 → Instr) : Except DecodeError Instr :=
  if p = 0 then .ok zero
  else if dataPipe p then .ok (data p)
  else .error .eventPipeOutOfRange

/-- An event word (30_encoding.md R145). A word with a bit of `E[15:12]` set, or with pipe bits set beside a code
that takes no pipe, is refused: R145 gives those bits as 0, and R150 does not list such a word (log 41). -/
def decodeEvt (e : BitVec 16) : Except DecodeError Instr :=
  if evtRest e ≠ 0 then .error .reservedBits
  else match (evtCode e).toNat with
    | 0x00 => noArg (evtPipe e) .evtIsr
    | 0x01 => pipeEvent (evtPipe e) .evtBemp0 .evtBemp
    | 0x02 => pipeEvent (evtPipe e) .evtNrdy0 .evtNrdy
    | 0x03 => pipeEvent (evtPipe e) .evtBrdy0 .evtBrdy
    | 0x10 => noArg (evtPipe e) .evtDvst
    | 0x11 => noArg (evtPipe e) .evtCtrt
    | 0x12 => noArg (evtPipe e) .evtResm
    | 0x13 => noArg (evtPipe e) .evtVbint
    | _ => .error .reservedEventCode

/-- The decoder. -/
def decode : Input → Except DecodeError Instr
  | .setup S => .ok (decodeSetup S)
  | .cmd w o => decodeCmd w o
  | .evt e => decodeEvt e

/-! ### The encoder, from the same tables -/

/-- A setup packet from its five wire fields (30_encoding.md R130). -/
def setupWord (t r : BitVec 8) (value index length : BitVec 16) : BitVec 64 :=
  length ++ index ++ value ++ r ++ t

/-- `bmRequestType` from its three fields (30_encoding.md R131). -/
def requestType (dir : BitVec 1) (type : BitVec 2) (recipient : BitVec 5) : BitVec 8 :=
  dir ++ type ++ recipient

/-- `wValue` of a GET_DESCRIPTOR from type and index (30_encoding.md R133). -/
def descValue (type index : BitVec 8) : BitVec 16 := type ++ index

/-- A command word from op and arg (30_encoding.md R140). -/
def cmdWord (op : BitVec 8) (arg : BitVec 4) : BitVec 32 := (0 : BitVec 20) ++ arg ++ op

/-- An event word from code and pipe (30_encoding.md R145). -/
def evtWord (code : BitVec 8) (pipe : BitVec 4) : BitVec 16 := (0 : BitVec 4) ++ pipe ++ code

/-- The input that encodes an instruction; a command's unused operand fields stay at their defaults. -/
def encode : Instr → Input
  | .srGetStatusDevice v i l => .setup (setupWord 0x80 0x00 v i l)
  | .srGetStatusInterface v i l => .setup (setupWord 0x81 0x00 v i l)
  | .srGetStatusEndpoint v i l => .setup (setupWord 0x82 0x00 v i l)
  | .srClearFeatureEpHalt i l => .setup (setupWord 0x02 0x01 0 i l)
  | .srSetFeatureEpHalt i l => .setup (setupWord 0x02 0x03 0 i l)
  | .srSetAddress v i l => .setup (setupWord 0x00 0x05 v i l)
  | .srGetDescriptorDevice x i l => .setup (setupWord 0x80 0x06 (descValue 0x01 x) i l)
  | .srGetDescriptorConfiguration x i l => .setup (setupWord 0x80 0x06 (descValue 0x02 x) i l)
  | .srGetDescriptorString x i l => .setup (setupWord 0x80 0x06 (descValue 0x03 x) i l)
  | .srGetDescriptorDeviceQualifier x i l => .setup (setupWord 0x80 0x06 (descValue 0x06 x) i l)
  | .srGetDescriptorOtherSpeed x i l => .setup (setupWord 0x80 0x06 (descValue 0x07 x) i l)
  | .srGetConfiguration v i l => .setup (setupWord 0x80 0x08 v i l)
  | .srSetConfiguration v i l => .setup (setupWord 0x00 0x09 v i l)
  | .srGetInterface v i l => .setup (setupWord 0x81 0x0A v i l)
  | .srSetInterface v i l => .setup (setupWord 0x01 0x0B v i l)
  | .srStandardOther d c r v i l => .setup (setupWord (requestType d 0 c) r v i l)
  | .srClass d c r v i l => .setup (setupWord (requestType d 1 c) r v i l)
  | .srVendor d c r v i l => .setup (setupWord (requestType d 2 c) r v i l)
  | .srReservedType d c r v i l => .setup (setupWord (requestType d 3 c) r v i l)
  | .init d c => .cmd (cmdWord 0x01 0) { desc := d, cb := c }
  | .controlAck => .cmd (cmdWord 0x02 0) {}
  | .controlIn len buf => .cmd (cmdWord 0x03 0) { len := len, buf := buf }
  | .controlOut len buf k => .cmd (cmdWord 0x04 0) { len := len, buf := buf, k := k }
  | .bulkIn len buf k => .cmd (cmdWord 0x05 0) { len := len, buf := buf, k := k }
  | .bulkOut len buf k => .cmd (cmdWord 0x06 0) { len := len, buf := buf, k := k }
  | .interruptIn len buf k => .cmd (cmdWord 0x07 0) { len := len, buf := buf, k := k }
  | .stallControl => .cmd (cmdWord 0x08 0) {}
  | .stallBulkIn => .cmd (cmdWord 0x08 1) {}
  | .stallBulkOut => .cmd (cmdWord 0x08 2) {}
  | .stallIntIn => .cmd (cmdWord 0x08 3) {}
  | .getDeviceState => .cmd (cmdWord 0x09 0) {}
  | .isEndpointStalled p => .cmd (cmdWord 0x0A p) {}
  | .cancel => .cmd (cmdWord 0x0B 0) {}
  | .reset => .cmd (cmdWord 0x0C 0) {}
  | .resetEndpoints t => .cmd (cmdWord 0x0D 0) { table := t }
  | .evtIsr => .evt (evtWord 0x00 0)
  | .evtBemp0 => .evt (evtWord 0x01 0)
  | .evtNrdy0 => .evt (evtWord 0x02 0)
  | .evtBrdy0 => .evt (evtWord 0x03 0)
  | .evtBemp p => .evt (evtWord 0x01 p)
  | .evtNrdy p => .evt (evtWord 0x02 p)
  | .evtBrdy p => .evt (evtWord 0x03 p)
  | .evtDvst => .evt (evtWord 0x10 0)
  | .evtCtrt => .evt (evtWord 0x11 0)
  | .evtResm => .evt (evtWord 0x12 0)
  | .evtVbint => .evt (evtWord 0x13 0)

/-! ### The table's words -/

/-- Whether a served row (not one of the four catch-all rows) matches a packet. -/
def servedRow (S : BitVec 64) : Bool := servedLines.any (·.hits S)

/-- The input that a table word stands for. The table's rows come in three formats and a word does not
say its own: 64 bits (or fewer than 16) are a setup packet, 32 bits a command word with an empty
operand record, 16 bits an event word; a word of 32 or 16 bits that no command or event has, and that
a served setup row matches, is the low part of a setup packet whose other bits are 0. -/
def tableInput (nbits w : Nat) : Input :=
  let S := BitVec.ofNat 64 w
  if nbits = 32 then
    match decodeCmd (BitVec.ofNat 32 w) {} with
    | .ok _ => .cmd (BitVec.ofNat 32 w) {}
    | .error _ => if servedRow S then .setup S else .cmd (BitVec.ofNat 32 w) {}
  else if nbits = 16 then
    match decodeEvt (BitVec.ofNat 16 w) with
    | .ok _ => .evt (BitVec.ofNat 16 w)
    | .error _ => if servedRow S then .setup S else .evt (BitVec.ofNat 16 w)
  else .setup S

/-- The instruction the decoder reads from a table word. -/
def decodeTableWord (nbits w : Nat) : Option Instr :=
  match decode (tableInput nbits w) with
  | .ok i => some i
  | .error _ => none

end Sys2Proof
end

