-- ==== Sys2Proof/Machine/State.lean ====
section
/-! DEFINITION. The state of the machine, as plain data: the channel and the controller interface of
10_state.md, caller memory, and the model's own fields (the schedule, the environment's answers, the
observations). Then the reasons a step stops, the free power-on values and `State.reset`. -/

namespace Sys2Proof.Machine

/-! ### The channel's enumerations -/

/-- `devState` (10_state.md R31). -/
inductive DevState
  | disconnected | ready | controlSetup | controlIn | controlOut
  deriving DecidableEq, Repr, Inhabited

/-- `pstate[p]` (10_state.md R39). -/
inductive PState
  | idle | waiting | done | stall | noResponse
  deriving DecidableEq, Repr, Inhabited

/-- The error codes (60_exceptions.md R410). -/
inductive ErrCode
  | ok | bindTimeout | stall | noResponse | notConnected | busy | unknownRequest | state | overrun
  deriving DecidableEq, Repr, Inhabited

/-- `pid[p]` (10_state.md R67). -/
inductive Pid
  | nak | buf | stall
  deriving DecidableEq, Repr, Inhabited

/-- `toggle[p]` (10_state.md R75). -/
inductive Toggle
  | data0 | data1
  deriving DecidableEq, Repr, Inhabited

/-- `usbState` (10_state.md R72): POWERED, DEFAULT, ADDRESS, CONFIGURED, SUSPENDED. -/
inductive UsbState
  | powered | defaultState | address | configured | suspended
  deriving DecidableEq, Repr, Inhabited

/-- `ctrlStage` (10_state.md R73): the block tells only SETUP_RECEIVED from every other stage. -/
inductive CtrlStage
  | setupReceived | other
  deriving DecidableEq, Repr, Inhabited

/-- The context a command is issued in (60_exceptions.md R442): a task, the ISR pass with its callbacks, and
`onSetup`, the callback inside which the control commands are legal (70_reset_and_hazards.md R473). -/
inductive Context
  | task | isr | onSetup
  deriving DecidableEq, Repr, Inhabited

/-! ### Records of the channel and the controller interface -/

/-- A transfer record (10_state.md R40). `pos`, `total` and `remaining` are counts of bytes. -/
structure Xfer where
  active    : Bool
  dir       : Dir
  buf       : Addr
  pos       : Nat
  total     : Nat
  remaining : Nat
  done      : Option CbId
  deriving DecidableEq, Repr, Inhabited

/-- Everything the spec holds per pipe: the channel's fields (10_state.md R39 to R44), the controller's
(R67 to R69, R75, R77), and the send side of the pipe's buffer: the packet being built in it
(20_memory.md R105) and the packets handed to the controller, in order (42_transfer_engine.md R236). -/
structure PipeState where
  pstate    : PState
  xfer      : Xfer
  busy      : Bool
  resLen    : Nat
  resErr    : ErrCode
  nrdyCount : Nat
  cfgValid  : Bool
  cfg       : EpCfg
  pid       : Pid
  toggle    : Toggle
  pipeReg   : EpCfg
  brdySts   : Bool
  nrdySts   : Bool
  bempSts   : Bool
  brdyEnb   : Bool
  nrdyEnb   : Bool
  bempEnb   : Bool
  building  : List Byte
  sent      : List (List Byte)
  deriving DecidableEq, Repr, Inhabited

/-- Everything held per FIFO: the pipe-select field (10_state.md R61) and the owner (R62). The bytes
pushed into its data port (R65) stand in the buffer of the pipe bound to it (20_memory.md R105). -/
structure FifoPort where
  sel   : Option Pipe
  owner : Option Pipe
  deriving DecidableEq, Repr, Inhabited

/-- The current setup packet (10_state.md R36). -/
structure SetupPacket where
  raw       : BitVec 64
  dir       : BitVec 1
  reqType   : BitVec 2
  recipient : BitVec 5
  request   : BitVec 8
  value     : BitVec 16
  index     : BitVec 16
  length    : BitVec 16
  deriving DecidableEq, Repr, Inhabited

/-- The seven master enables (10_state.md R70). -/
structure Masters where
  vbse  : Bool
  rsme  : Bool
  dvse  : Bool
  ctre  : Bool
  brdye : Bool
  nrdye : Bool
  bempe : Bool
  deriving DecidableEq, Repr, Inhabited

/-- The four device-level status bits (10_state.md R70). -/
structure DevSts where
  vbint : Bool
  resm  : Bool
  dvst  : Bool
  ctrt  : Bool
  deriving DecidableEq, Repr, Inhabited

/-- Which master enable a trace entry writes (10_state.md R70). -/
inductive Master
  | vbse | rsme | dvse | ctre | brdye | nrdye | bempe
  deriving DecidableEq, Repr, Inhabited

/-- An entry of the controller write trace: a field and the value written, or an action
(10_state.md R60, R66). A `Clr` entry is the write that clears a status bit. -/
inductive TraceEntry
  | fifoSel (f : FifoId) (p : Option Pipe)
  | fifoIsel (d : Dir)
  | dataValid (f : FifoId)
  | bufferClear (f : FifoId)
  | ctrlComplete
  | pid (p : Pipe) (v : Pid)
  | brdyClr (p : Pipe)
  | nrdyClr (p : Pipe)
  | bempClr (p : Pipe)
  | brdyEnb (p : Pipe) (b : Bool)
  | nrdyEnb (p : Pipe) (b : Bool)
  | bempEnb (p : Pipe) (b : Bool)
  | vbintClr
  | resmClr
  | dvstClr
  | ctrtClr
  | master (m : Master) (b : Bool)
  | setupValid (b : Bool)
  | toggle (p : Pipe) (t : Toggle)
  | pipeReg (p : Pipe) (r : EpCfg)
  deriving DecidableEq, Repr, Inhabited

/-! ### Observations and the environment -/

/-- The callbacks (60_exceptions.md R440): the seven registered ones and the per-call one. -/
inductive CbKind
  | onSetup | onCableChange | onError | onControlOutDone | onBulkOutDone | onBulkInDone | onInterruptInDone | perCall
  deriving DecidableEq, Repr, Inhabited

/-- The arguments of a callback (10_state.md R38). -/
inductive CbArgs
  | raw (S : BitVec 64)
  | connected (b : Bool)
  | code (e : ErrCode)
  | doneCount (e : ErrCode) (n : Nat)
  | doneOnly (e : ErrCode)
  deriving DecidableEq, Repr, Inhabited

/-- One callback invocation: which callback, the function it designates (`none` while no table is
registered), and its arguments. -/
structure Call where
  kind : CbKind
  fn   : Option CbId
  args : CbArgs
  deriving DecidableEq, Repr, Inhabited

/-- The value a command returns (30_encoding.md R142). -/
inductive CmdResult
  | code (e : ErrCode)
  | byte (b : Byte)
  | flag (b : Bool)
  deriving DecidableEq, Repr, Inhabited

/-- One poll of a task waiter (20_memory.md R117): whether the wait succeeded, and then the count and
the error it read. -/
structure WaitRead where
  pipe : Pipe
  done : Bool
  len  : Nat
  err  : ErrCode
  deriving DecidableEq, Repr, Inhabited

/-- One read of caller memory by the caller: the address and the byte it observed (20_memory.md R122). -/
structure CallerRead where
  addr : Addr
  byte : Byte
  deriving DecidableEq, Repr, Inhabited

/-- The environment: the answers lined up for the next reads and callbacks, each list used from its
head, and the counter the free values are applied to once a list is empty. -/
structure Env where
  fifoCur    : List (Option Pipe)
  fifoReady  : List Bool
  rcvLen     : List Nat
  data       : List Byte
  vbus       : List Bool
  inbufm     : List Bool
  classSteps : List ClassStep
  draws      : Nat
  deriving DecidableEq, Repr, Inhabited

/-- A controller step (30_encoding.md R160): what the controller may do between two steps of the block. -/
inductive CtlStep
  | setBrdy (p : Pipe)
  | setNrdy (p : Pipe)
  | setBemp (p : Pipe)
  | setVbint
  | setResm
  | setDvst
  | setCtrt
  | setup (S : BitVec 64)
  | stage
  | usbState (u : UsbState)
  | vbus (b : Bool)
  | vbusChatter
  | answers (e : Env)
  deriving DecidableEq, Repr, Inhabited

/-- One step of one agent (92_eei_decisions.md D1). -/
inductive Action
  /-- A task issues a command word with its operand record. -/
  | cmd (w : BitVec 32) (ops : Operands)
  /-- An event word: 0x0000 is one ISR pass. -/
  | evt (e : BitVec 16)
  /-- The host sends a setup packet and the ISR runs (30_encoding.md R161 `host SETUP`). -/
  | setup (S : BitVec 64)
  /-- A controller step. -/
  | ctl (c : CtlStep)
  /-- A task waiter polls `busy[p]` once. -/
  | wait (p : Pipe)
  /-- The caller writes a byte of its memory. -/
  | callerWrite (a : Addr) (b : Byte)
  /-- The caller reads a byte of its memory. -/
  | callerRead (a : Addr)
  deriving DecidableEq, Repr, Inhabited

/-! ### Memory -/

/-- Caller memory: a sorted list of cells (20_memory.md R100). -/
abbrev Memory := List Host.Cell

/-! ### The state -/

structure State where
  params            : Params
  -- the channel
  devState          : DevState
  initialized       : Bool
  fatal             : Bool
  firstConnectFired : Bool
  configValue       : Byte
  vbusLevel         : Bool
  setup             : SetupPacket
  desc              : Option DescSet
  cb                : Option Callbacks
  pipes             : Vector PipeState 10
  -- the controller interface
  fifoC             : FifoPort
  fifoD0            : FifoPort
  fifoD1            : FifoPort
  fifoIsel          : Dir
  enb               : Masters
  sts               : DevSts
  usbState          : UsbState
  ctrlStage         : CtrlStage
  setupValid        : Bool
  setupData         : BitVec 64
  vbusHeld          : Option Bool
  trace             : List TraceEntry
  -- caller memory
  mem               : Memory
  -- the model's own
  env               : Env
  inputs            : List Action
  ctx               : Context
  result            : Option CmdResult
  calls             : List Call
  waits             : List WaitRead
  reads             : List CallerRead
  deriving DecidableEq, Repr

/-! ### Why a step stops -/

/-- The machine stops. -/
inductive Fault
  /-- Raised by every step and meaning once `fatal` is set: no agent has a step
  (60_exceptions.md R419, 70_reset_and_hazards.md R466). Safe. -/
  | stuckFatal
  deriving DecidableEq, Repr, Inhabited

/-- The machine gives the input no meaning. -/
inductive Refusal
  /-- Raised by an arm of `exec` whose instruction has no meaning yet. Safe. -/
  | notModelled (mnemonic : String)
  /-- Raised by the step for a reserved word (30_encoding.md R150). Safe. -/
  | reservedWord (e : DecodeError)
  /-- Raised by a control command issued from task context: the model gives its issuer no step
  (70_reset_and_hazards.md R473; 93_implementation_defined.md U17). Safe. -/
  | taskControlCommand
  deriving DecidableEq, Repr, Inhabited

/-! ### Free power-on values (10_state.md R78, R86; 93_implementation_defined.md U11) -/

opaque Config.powerOnCfg0Valid : Bool
opaque Config.powerOnCfg : Pipe → EpCfg
opaque Config.powerOnPid : Pipe → Pid
opaque Config.powerOnToggle : Pipe → Toggle
opaque Config.powerOnPipeReg : Pipe → EpCfg
opaque Config.powerOnFifoSel : FifoId → Option Pipe
opaque Config.powerOnFifoIsel : Dir
opaque Config.powerOnUsbState : UsbState
opaque Config.powerOnCtrlStage : CtrlStage
opaque Config.powerOnSetupValid : Bool
opaque Config.powerOnSetupData : BitVec 64

/-- No transfer (10_state.md R40). -/
def Xfer.none : Xfer :=
  { active := false, dir := .IN, buf := 0, pos := 0, total := 0, remaining := 0, done := Option.none }

/-- A pipe at power-on (10_state.md R85, R86). -/
def PipeState.powerOn (p : Pipe) : PipeState where
  pstate := .idle
  xfer := Xfer.none
  busy := false
  resLen := 0
  resErr := .ok
  nrdyCount := 0
  cfgValid := if p = 0 then Config.powerOnCfg0Valid else false
  cfg := Config.powerOnCfg p
  pid := Config.powerOnPid p
  toggle := Config.powerOnToggle p
  pipeReg := Config.powerOnPipeReg p
  brdySts := false
  nrdySts := false
  bempSts := false
  brdyEnb := false
  nrdyEnb := false
  bempEnb := false
  building := []
  sent := []

/-- A FIFO at power-on: no owner (10_state.md R85). -/
def FifoPort.powerOn (f : FifoId) : FifoPort where
  sel := Config.powerOnFifoSel f
  owner := none

/-- An environment with nothing lined up. -/
def Env.empty : Env where
  fifoCur := []
  fifoReady := []
  rcvLen := []
  data := []
  vbus := []
  inbufm := []
  classSteps := []
  draws := 0

/-- The setup record at power-on: all zero (10_state.md R85). -/
def SetupPacket.zero : SetupPacket where
  raw := 0
  dir := 0
  reqType := 0
  recipient := 0
  request := 0
  value := 0
  index := 0
  length := 0

/-- The machine at power-on, before `init` (10_state.md R85, R86; 70_reset_and_hazards.md R450). -/
def State.reset : State where
  params := Config.defaultParams
  devState := .disconnected
  initialized := false
  fatal := false
  firstConnectFired := false
  configValue := 0
  vbusLevel := false
  setup := SetupPacket.zero
  desc := none
  cb := none
  pipes := Vector.ofFn PipeState.powerOn
  fifoC := FifoPort.powerOn .C
  fifoD0 := FifoPort.powerOn .D0
  fifoD1 := FifoPort.powerOn .D1
  fifoIsel := Config.powerOnFifoIsel
  enb := ⟨false, false, false, false, false, false, false⟩
  sts := ⟨false, false, false, false⟩
  usbState := Config.powerOnUsbState
  ctrlStage := Config.powerOnCtrlStage
  setupValid := Config.powerOnSetupValid
  setupData := Config.powerOnSetupData
  vbusHeld := none
  trace := []
  mem := []
  env := Env.empty
  inputs := []
  ctx := .task
  result := none
  calls := []
  waits := []
  reads := []

end Sys2Proof.Machine
end

