-- ==== Sys2Proof/Machine/Ops.lean ====
section
/-! DEFINITION. The named operations every meaning is written over: the result of an operation, caller
memory, the per-pipe and per-FIFO state, controller writes, draws of the environment, callback
records, and the interrupt: entry, pass and return. -/

namespace Sys2Proof.Machine

/-! ### The result of an operation -/

/-- How an operation ends: with a value and the next state; halted, when the block has set `fatal` and
does nothing more in this step (41_fifo_binding.md R210); or refused. -/
inductive Res (α : Type) where
  | done (a : α) (s : State)
  | halt (s : State)
  | refused (r : Refusal)

/-- Sequencing: the second operation runs where the first is done. -/
def Res.bind {α β : Type} (r : Res α) (f : α → State → Res β) : Res β :=
  match r with
  | .done a s => f a s
  | .halt s => .halt s
  | .refused e => .refused e

/-- The outcome of a step whose operation ended so: a halted block has its last state, with `fatal`. -/
def Res.toOutcome (r : Res Unit) : Host.Outcome State Fault Refusal :=
  match r with
  | .done _ s => .next s
  | .halt s => .next s
  | .refused e => .refused e

/-- The same end, the context put back as it was. -/
def Res.inCtx {α : Type} (k : Context) (r : Res α) : Res α :=
  match r with
  | .done a s => .done a { s with ctx := k }
  | .halt s => .halt { s with ctx := k }
  | .refused e => .refused e

/-- A meaning: no step once `fatal` is set (70_reset_and_hazards.md R466), else the operation. -/
def runStep (f : State → Res Unit) (s : State) : Host.Outcome State Fault Refusal :=
  if s.fatal then .fault .stuckFatal else (f s).toOutcome

/-! ### Caller memory (20_memory.md R100, R101) -/

/-- What an address that no cell lists reads as (log 7). -/
def Memory.unlisted : Byte := 0

/-- The byte at an address. -/
def Memory.read : Memory → Nat → Byte
  | [], _ => Memory.unlisted
  | (k, b) :: m, a => if k = a then b else Memory.read m a

/-- Write one byte, keeping the cells sorted and listing no byte that reads as unlisted. -/
def Memory.write : Memory → Nat → Byte → Memory
  | [], a, b => if b = Memory.unlisted then [] else [(a, b)]
  | (k, v) :: m, a, b =>
    if a < k then (if b = Memory.unlisted then (k, v) :: m else (a, b) :: (k, v) :: m)
    else if a = k then (if b = Memory.unlisted then m else (a, b) :: m)
    else (k, v) :: Memory.write m a b

/-- Whether every address listed is above `lo`, they rise strictly, and no cell is redundant. -/
def Memory.wfFrom : Nat → Memory → Bool
  | _, [] => true
  | lo, (k, b) :: m => decide (lo ≤ k) && decide (k < 2 ^ 32) && !(b == Memory.unlisted) && Memory.wfFrom (k + 1) m

/-- The canonical form of a memory. -/
def Memory.wf (m : Memory) : Bool := Memory.wfFrom 0 m

/-- The n bytes from an address. -/
def Memory.readBytes (m : Memory) (a : Nat) : Nat → List Byte
  | 0 => []
  | n + 1 => m.read a :: Memory.readBytes m (a + 1) n

/-- Write one byte of the address space; there is none at or above 2^32 (log 8). -/
def Memory.store (m : Memory) (a : Nat) (b : Byte) : Memory := if a < 2 ^ 32 then m.write a b else m

/-- Write bytes in index order. -/
def Memory.writeBytes (m : Memory) (a : Nat) : List Byte → Memory
  | [] => m
  | b :: bs => Memory.writeBytes (m.store a b) (a + 1) bs

/-- `MemRead(a, n)` (20_memory.md R101). -/
def memRead (a n : Nat) (s : State) : List Byte := s.mem.readBytes a n

/-- `MemWrite(a, n, bs)` with n the number of bytes (20_memory.md R101). -/
def memWrite (a : Nat) (bs : List Byte) (s : State) : State := { s with mem := s.mem.writeBytes a bs }

/-! ### Pipes and FIFOs -/

/-- The state of pipe p. -/
def State.pipe (s : State) (p : Pipe) : PipeState := s.pipes[p]

/-- Change the state of pipe p. -/
def State.modPipe (s : State) (p : Pipe) (f : PipeState → PipeState) : State :=
  { s with pipes := s.pipes.set p.val (f (s.pipe p)) p.isLt }

/-- Change the state of every pipe. -/
def State.modAllPipes (s : State) (f : PipeState → PipeState) : State :=
  { s with pipes := Vector.ofFn fun p => f (s.pipe p) }

/-- The state of FIFO f. -/
def State.fifo (s : State) : FifoId → FifoPort
  | .C => s.fifoC
  | .D0 => s.fifoD0
  | .D1 => s.fifoD1

/-- Change the state of FIFO f. -/
def State.modFifo (s : State) (f : FifoId) (g : FifoPort → FifoPort) : State :=
  match f with
  | .C => { s with fifoC := g s.fifoC }
  | .D0 => { s with fifoD0 := g s.fifoD0 }
  | .D1 => { s with fifoD1 := g s.fifoD1 }

/-! ### Controller writes (00_scope.md R22, 10_state.md R60): the field and the trace entry -/

/-- Append entries to the controller write trace. -/
def State.logs (s : State) (es : List TraceEntry) : State := { s with trace := s.trace ++ es }

/-- `CtrlWrite(fifoSel[f], p)` and, for FIFO C, `CtrlWrite(fifoIsel[C], d)` (41_fifo_binding.md R200, R204). -/
def writeFifoSel (f : FifoId) (p : Option Pipe) (d : Dir) (s : State) : State :=
  let s := (s.modFifo f fun x => { x with sel := p }).logs [.fifoSel f p]
  if f = .C then { s with fifoIsel := d }.logs [.fifoIsel d] else s

/-- `DataValid(f)` (10_state.md R66). -/
def dataValid (f : FifoId) (s : State) : State := s.logs [.dataValid f]
/-- Change the state of the pipe bound to f, if there is one. -/
def State.modOwner (s : State) (f : FifoId) (g : PipeState → PipeState) : State :=
  match (s.fifo f).owner with
  | some p => s.modPipe p g
  | none => s
/-- `BufferClear(f)`: clears the buffer of the pipe bound to f (10_state.md R66). -/
def bufferClear (f : FifoId) (s : State) : State :=
  (s.modOwner f fun x => { x with building := [] }).logs [.bufferClear f]
/-- `CtrlComplete()` (10_state.md R66). -/
def ctrlComplete (s : State) : State := s.logs [.ctrlComplete]

/-- `CtrlWrite(pid[p], v)`. -/
def writePid (p : Pipe) (v : Pid) (s : State) : State :=
  (s.modPipe p fun x => { x with pid := v }).logs [.pid p v]
/-- `CtrlWrite(brdyEnb[p], b)`. -/
def writeBrdyEnb (p : Pipe) (b : Bool) (s : State) : State :=
  (s.modPipe p fun x => { x with brdyEnb := b }).logs [.brdyEnb p b]
/-- `CtrlWrite(nrdyEnb[p], b)`. -/
def writeNrdyEnb (p : Pipe) (b : Bool) (s : State) : State :=
  (s.modPipe p fun x => { x with nrdyEnb := b }).logs [.nrdyEnb p b]
/-- `CtrlWrite(bempEnb[p], b)`. -/
def writeBempEnb (p : Pipe) (b : Bool) (s : State) : State :=
  (s.modPipe p fun x => { x with bempEnb := b }).logs [.bempEnb p b]
/-- `CtrlWrite(toggle[p], DATA0)` (10_state.md R75). -/
def clearToggle (p : Pipe) (s : State) : State :=
  (s.modPipe p fun x => { x with toggle := .data0 }).logs [.toggle p .data0]
/-- `CtrlWrite(pipeReg[p], r)` (10_state.md R77). -/
def writePipeReg (p : Pipe) (r : EpCfg) (s : State) : State :=
  (s.modPipe p fun x => { x with pipeReg := r }).logs [.pipeReg p r]
/-- `CtrlWrite(setupValid, false)` (10_state.md R73). -/
def clearSetupValid (s : State) : State := { s with setupValid := false }.logs [.setupValid false]

/-- `SetPidBuf(p)`: NAK and then BUF (43_pipe_dispatcher.md R262). -/
def setPidBuf (p : Pipe) (s : State) : State := writePid p .buf (writePid p .nak s)
/-- `SetPidStall(p)` (43_pipe_dispatcher.md R263). -/
def setPidStall (p : Pipe) (s : State) : State := writePid p .stall s
/-- `SetPidNak(p)` (43_pipe_dispatcher.md R264). -/
def setPidNak (p : Pipe) (s : State) : State := writePid p .nak s

/-! ### Channel writes -/

/-- `devState <- d`. -/
def setDevState (d : DevState) (s : State) : State := { s with devState := d }
/-- `pstate[p] <- v`. -/
def setPState (p : Pipe) (v : PState) (s : State) : State := s.modPipe p fun x => { x with pstate := v }
/-- `nrdyCount[p] <- n`. -/
def setNrdyCount (p : Pipe) (n : Nat) (s : State) : State := s.modPipe p fun x => { x with nrdyCount := n }
/-- `xfer[p].active <- false`. -/
def deactivate (p : Pipe) (s : State) : State :=
  s.modPipe p fun x => { x with xfer := { x.xfer with active := false } }
/-- `xfer[p].remaining <- x.remaining - n`, and `pos <- x.pos + n` where the bytes lie in memory
(42_transfer_engine.md R237). -/
def advance (p : Pipe) (n : Nat) (inMemory : Bool) (s : State) : State :=
  s.modPipe p fun x =>
    { x with xfer := { x.xfer with
      pos := if inMemory then x.xfer.pos + n else x.xfer.pos
      remaining := x.xfer.remaining - n } }

/-! ### Draws (00_scope.md R22): the answer lined up, else a free value -/

/-- One more draw has been taken from the free values. -/
def State.tick (s : State) : State := { s with env := { s.env with draws := s.env.draws + 1 } }

/-- `CtrlRead(fifoCur[f])` (10_state.md R62). -/
def drawFifoCur (s : State) : Option Pipe × State :=
  match s.env.fifoCur with
  | x :: xs => (x, { s with env := { s.env with fifoCur := xs } })
  | [] => (Config.freeFifoCur s.env.draws, s.tick)

/-- `CtrlRead(fifoReady[f])` (10_state.md R63). -/
def drawFifoReady (s : State) : Bool × State :=
  match s.env.fifoReady with
  | x :: xs => (x, { s with env := { s.env with fifoReady := xs } })
  | [] => (Config.freeFifoReady s.env.draws, s.tick)

/-- `CtrlRead(rcvLen[f])`, a value in `0 .. bs` (10_state.md R64). -/
def drawRcvLen (bs : Nat) (s : State) : Nat × State :=
  match s.env.rcvLen with
  | x :: xs => (min x bs, { s with env := { s.env with rcvLen := xs } })
  | [] => (min (Config.freeRcvLen s.env.draws) bs, s.tick)

/-- One byte of the FIFO data port's receive side, or one byte left after an overrun (10_state.md R65). -/
def drawByte (s : State) : Byte × State :=
  match s.env.data with
  | x :: xs => (x, { s with env := { s.env with data := xs } })
  | [] => (Config.freeByte s.env.draws, s.tick)

/-- `CtrlRead(vbusRaw)`: the level held, which every read returns (30_encoding.md R160); while none is
held, the answer lined up, else a free value (10_state.md R71). -/
def drawVbus (s : State) : Bool × State :=
  match s.vbusHeld with
  | some b => (b, s)
  | none => match s.env.vbus with
    | x :: xs => (x, { s with env := { s.env with vbus := xs } })
    | [] => (Config.freeVbus s.env.draws, s.tick)

/-- `CtrlRead(inbufm[p])` (10_state.md R76). -/
def drawInbufm (s : State) : Bool × State :=
  match s.env.inbufm with
  | x :: xs => (x, { s with env := { s.env with inbufm := xs } })
  | [] => (Config.freeInbufm s.env.draws, s.tick)

/-- What the class layer does in the callback just invoked (44_device_hal.md R324). -/
def drawClassStep (s : State) : ClassStep × State :=
  match s.env.classSteps with
  | x :: xs => (x, { s with env := { s.env with classSteps := xs } })
  | [] => (Config.freeClassStep s.env.draws, s.tick)

/-- n bytes, in order. -/
def drawBytes : Nat → State → List Byte × State
  | 0, s => ([], s)
  | n + 1, s =>
    let (b, s) := drawByte s
    let (bs, s) := drawBytes n s
    (b :: bs, s)

/-! ### The FIFO data port (20_memory.md R105) -/

/-- `FifoWrite(f, bs)`: the bytes join the packet being built in the buffer of the pipe bound to f. -/
def fifoWrite (f : FifoId) (bs : List Byte) (s : State) : State :=
  s.modOwner f fun x => { x with building := x.building ++ bs }

/-- The packets of a buffer's bytes, at most `fuel` of them full before the last. -/
def packetsFuel (mps : Nat) : Nat → List Byte → List (List Byte)
  | 0, bs => [bs]
  | fuel + 1, bs => if bs.length ≤ mps then [bs] else bs.take mps :: packetsFuel mps fuel (bs.drop mps)

/-- The packets of a buffer's bytes: each of at most `mps` bytes, no bytes being one zero-length packet. -/
def packetsOf (mps : Nat) (bs : List Byte) : List (List Byte) := packetsFuel mps bs.length bs

/-- The buffer of the pipe bound to f is handed to the controller: the bytes written since the last
packet boundary are packets it sends (42_transfer_engine.md R236). -/
def handOver (f : FifoId) (mps : Nat) (s : State) : State :=
  s.modOwner f fun x => { x with sent := x.sent ++ packetsOf mps x.building, building := [] }

/-- `FifoRead(f, n)`: the next n received bytes, each a draw (10_state.md R65). -/
def fifoRead (n : Nat) (s : State) : List Byte × State := drawBytes n s

/-! ### Callback records (60_exceptions.md R440) -/

/-- The registered function of a kind; the per-call one is not in the table. -/
def callbackFn (c : Callbacks) : CbKind → Option CbId
  | .onSetup => some c.onSetup
  | .onCableChange => some c.onCableChange
  | .onError => some c.onError
  | .onControlOutDone => some c.onControlOutDone
  | .onBulkOutDone => some c.onBulkOutDone
  | .onBulkInDone => some c.onBulkInDone
  | .onInterruptInDone => some c.onInterruptInDone
  | .perCall => none

/-- The invocation of a registered callback. -/
def registeredCall (k : CbKind) (args : CbArgs) (s : State) : Call :=
  { kind := k, fn := s.cb.bind (callbackFn · k), args := args }

/-- Record an invocation. -/
def logCall (c : Call) (s : State) : State := { s with calls := s.calls ++ [c] }

/-- Record the value a command returns (30_encoding.md R142). -/
def setResult (r : CmdResult) (s : State) : State := { s with result := some r }

/-! ### The interrupt (44_device_hal.md R300, 60_exceptions.md R430 to R432) -/

/-- The interrupt sources (60_exceptions.md R405). -/
inductive Source
  | bemp (p : Pipe)
  | nrdy (p : Pipe)
  | brdy (p : Pipe)
  | dvst
  | ctrt
  | resm
  | vbint
  deriving DecidableEq, Repr

/-- Clear the status bit of a source, by a write (44_device_hal.md R305). -/
def clearSts : Source → State → State
  | .bemp p, s => (s.modPipe p fun x => { x with bempSts := false }).logs [.bempClr p]
  | .nrdy p, s => (s.modPipe p fun x => { x with nrdySts := false }).logs [.nrdyClr p]
  | .brdy p, s => (s.modPipe p fun x => { x with brdySts := false }).logs [.brdyClr p]
  | .dvst, s => { s with sts := { s.sts with dvst := false } }.logs [.dvstClr]
  | .ctrt, s => { s with sts := { s.sts with ctrt := false } }.logs [.ctrtClr]
  | .resm, s => { s with sts := { s.sts with resm := false } }.logs [.resmClr]
  | .vbint, s => { s with sts := { s.sts with vbint := false } }.logs [.vbintClr]

/-- Entry: nothing is saved (60_exceptions.md R430); what runs now runs in ISR context (R442). -/
def isrEnter (s : State) : State := { s with ctx := .isr }

/-- Return: nothing is restored but the context (60_exceptions.md R431). -/
def isrLeave (before : Context) (s : State) : State := { s with ctx := before }

/-- The sources of a pass in order, each served if the snapshot holds it: its status bit is cleared
and then its handler runs (44_device_hal.md R300, R305). -/
def serveAll (snap : Source → Bool) (handler : Source → State → Res Unit) : List Source → State → Res Unit
  | [], s => .done () s
  | x :: xs, s =>
    if snap x then (handler x (clearSts x s)).bind fun _ s => serveAll snap handler xs s
    else serveAll snap handler xs s

/-- Taking the interrupt: entry, the sources the snapshot holds, return. -/
def takeInterrupt (snap : Source → Bool) (handler : Source → State → Res Unit) (order : List Source)
    (s : State) : Res Unit :=
  (serveAll snap handler order (isrEnter s)).bind fun _ t => .done () (isrLeave s.ctx t)

end Sys2Proof.Machine
end

