-- ==== Sys2Proof/Machine/Flags.lean ====
section
/-! DEFINITION. The computed conditions: the interrupt snapshot and line, the packet classifications,
the stall and start tests, the legality of a configuration. -/

namespace Sys2Proof.Machine

/-! ### The interrupt snapshot (44_device_hal.md R301, R303) -/

/-- The snapshot term of a source: its status bit with its enables (44_device_hal.md R301). -/
def pending (s : State) : Source → Bool
  | .bemp p => s.enb.bempe && (s.pipe p).bempEnb && (s.pipe p).bempSts
  | .nrdy p => s.enb.nrdye && (s.pipe p).nrdyEnb && (s.pipe p).nrdySts
  | .brdy p => s.enb.brdye && (s.pipe p).brdyEnb && (s.pipe p).brdySts
  | .dvst => s.enb.dvse && s.sts.dvst
  | .ctrt => s.enb.ctre && s.sts.ctrt
  | .resm => s.enb.rsme && s.sts.resm
  | .vbint => s.enb.vbse && s.sts.vbint

/-- The data pipes 1..9, ascending. -/
def dataPipes : List Pipe := [1, 2, 3, 4, 5, 6, 7, 8, 9]

/-- The order of a pass (44_device_hal.md R302, 60_exceptions.md R420). -/
def passOrder : List Source :=
  [.bemp 0, .nrdy 0, .brdy 0] ++ dataPipes.map .bemp ++ dataPipes.map .nrdy ++ dataPipes.map .brdy
    ++ [.dvst, .ctrt, .resm, .vbint]

/-- Whether the ISR agent has a step (44_device_hal.md R303). -/
def lineAsserted (s : State) : Bool := s.initialized && !s.fatal && passOrder.any (pending s)

/-! ### Access outcomes (00_scope.md R27) -/

/-- The outcome of one access. -/
inductive Access
  | CONTINUE | END | SHORT | OVERRUN | ERROR
  deriving DecidableEq, Repr, Inhabited

/-- The packet test: a zero-length packet or one that is no multiple of the max packet size
(42_transfer_engine.md R221, R231). -/
def isShort (n mps : Nat) : Bool := n == 0 || n % mps != 0

/-- The classification of a final write access of n bytes (42_transfer_engine.md R222). -/
def classifyFinal (n mps : Nat) : Access := if isShort n mps then .SHORT else .END

/-- The classification of a read access of `rcv` bytes that leaves `rest` (42_transfer_engine.md R231). -/
def classifyRead (rcv mps rest : Nat) : Access :=
  if isShort rcv mps then .SHORT else if rest = 0 then .END else .CONTINUE

/-! ### Result codes (60_exceptions.md R410, 10_state.md R31) -/

/-- The number of an error code (60_exceptions.md R410). -/
def ErrCode.number : ErrCode → Nat
  | .ok => 0
  | .bindTimeout => 1
  | .stall => 2
  | .noResponse => 3
  | .notConnected => 4
  | .busy => 5
  | .unknownRequest => 6
  | .state => 7
  | .overrun => 8

/-- The byte of the sub-state (10_state.md R31). -/
def DevState.byte : DevState → Byte
  | .disconnected => 0x00
  | .ready => 0x01
  | .controlSetup => 0x02
  | .controlIn => 0x03
  | .controlOut => 0x04

/-- The sub-states of a control transfer. -/
def DevState.isControl : DevState → Bool
  | .controlSetup => true
  | .controlIn => true
  | .controlOut => true
  | .disconnected => false
  | .ready => false

/-! ### Configurations (10_state.md R52) -/

/-- A record is legal on its own (10_state.md R52). -/
def recLegal (r : CfgRec) : Bool :=
  decide (1 ≤ r.pipe) && decide (r.pipe ≤ 9) && decide (1 ≤ r.ep.mps) && decide (r.ep.mps ≤ r.ep.bufSize)
    && r.ep.bufSize % r.ep.mps == 0 && decide (1 ≤ r.ep.epNum) && decide (r.ep.epNum ≤ 15)
    && r.ep.kind != .control

/-- The configuration pipe p has once the table is applied: its record there, else its own if valid. -/
def cfgAfter (t : List CfgRec) (s : State) (p : Pipe) : Option EpCfg :=
  match t.find? (fun r => r.pipe == p.val) with
  | some r => some r.ep
  | none => if (s.pipe p).cfgValid then some (s.pipe p).cfg else none

/-- Two configurations bind the same endpoint: number and direction (10_state.md R45). -/
def sameEndpoint (a b : Option EpCfg) : Bool :=
  match a, b with
  | some a, some b => a.epNum == b.epNum && a.dir == b.dir
  | _, _ => false

/-- No two data pipes bind the same endpoint (10_state.md R52). -/
def endpointsDistinct (c : Pipe → Option EpCfg) : Bool :=
  dataPipes.all fun p => dataPipes.all fun q => p == q || !sameEndpoint (c p) (c q)

/-- No two records of a table name one pipe (44_device_hal.md R349). -/
def pipesDistinct : List CfgRec → Bool
  | [] => true
  | r :: rs => rs.all (fun q => q.pipe != r.pipe) && pipesDistinct rs

/-- The whole table is legal in a state (10_state.md R52, 44_device_hal.md R349). -/
def tableLegal (t : List CfgRec) (s : State) : Bool :=
  t.all recLegal && pipesDistinct t && endpointsDistinct (cfgAfter t s)

end Sys2Proof.Machine
end

