-- ==== Sys2Proof/Machine/Operands.lean ====
section
/-! DEFINITION. The operand forms: pipe classes, the geometry of a pipe, endpoint addresses, buffers,
descriptor blobs, the decoded setup packet, default callbacks. -/

namespace Sys2Proof.Machine

/-- `pipeOf(cls)` (00_scope.md R14). -/
def pipeOf (cls : PipeClass) (s : State) : Pipe :=
  match cls with
  | .control => 0
  | .bulkIn => Config.pipeBulkIn
  | .bulkOut => s.params.pipeBulkOut
  | .intIn => s.params.pipeIntIn

/-- `classOf(p)`; `none` is the class NONE (10_state.md R50). -/
def classOf (p : Pipe) (s : State) : Option PipeClass :=
  if p = 0 then some .control
  else if p = Config.pipeBulkIn then some .bulkIn
  else if p = s.params.pipeBulkOut then some .bulkOut
  else if p = s.params.pipeIntIn then some .intIn
  else none

/-- The FIFO of a pipe: C for pipe 0 (00_scope.md R15, 42_transfer_engine.md). -/
def fifoOf (p : Pipe) (s : State) : FifoId := if p = 0 then .C else (s.pipe p).cfg.fifo

/-- `bufferSize(p)` (00_scope.md R15). -/
def bufferSize (p : Pipe) (s : State) : Nat := if p = 0 then s.params.mps0.bytes else (s.pipe p).cfg.bufSize

/-- `maxPacketSize(p)` (00_scope.md R15). -/
def maxPacketSize (p : Pipe) (s : State) : Nat := if p = 0 then s.params.mps0.bytes else (s.pipe p).cfg.mps

/-- A buffer range that passes 2^32 (20_memory.md R102, 44_device_hal.md R330). -/
def bufferWraps (buf : Addr) (len : Len) : Bool := buf != 0 && decide (2 ^ 32 < buf.toNat + len.toNat)

/-- The access width of a chunk: address a, k bytes left (42_transfer_engine.md R240). -/
def accessWidth (a k : Nat) : Nat :=
  if a % 4 = 0 ∧ 4 ≤ k then 4 else if a % 2 = 0 ∧ 2 ≤ k then 2 else 1

/-- The chunks of a byte move, at most `fuel` of them (42_transfer_engine.md R240). -/
def chunksFuel : Nat → Nat → Nat → List (Nat × Nat)
  | 0, _, _ => []
  | fuel + 1, a, n =>
    if n = 0 then [] else (a, accessWidth a n) :: chunksFuel fuel (a + accessWidth a n) (n - accessWidth a n)

/-- The accesses that move n bytes at address a: address and width of each, in order (42_transfer_engine.md R240). -/
def chunks (a n : Nat) : List (Nat × Nat) := chunksFuel n a n

/-- `PipeOfEp(e)` (45_setup_decoder.md R365). -/
def pipeOfEp (index : BitVec 16) (s : State) : Option Pipe :=
  if epNumber index = 0 then some 0
  else dataPipes.find? fun p =>
    (s.pipe p).cfgValid && (s.pipe p).cfg.epNum == (epNumber index).toNat && (s.pipe p).cfg.dir == epDir index

/-- A pipe named by a 4-bit command argument, if there is one (44_device_hal.md R344). -/
def pipeOfArg (a : BitVec 4) : Option Pipe :=
  if h : a.toNat < 10 then some ⟨a.toNat, h⟩ else none

/-- A blob of the descriptor set; absent while no set is registered (10_state.md R37). -/
def blobOf (f : DescSet → Option Blob) (s : State) : Option Blob := s.desc.bind f

/-- The configuration record of pipe 0 (10_state.md R44); its other fields are not fixed. -/
def cfg0Of (c : Params) (old : EpCfg) : EpCfg :=
  { old with kind := .control, fifo := .C, bufSize := c.mps0.bytes, mps := c.mps0.bytes }

/-- `Decode(raw)` (45_setup_decoder.md R360). -/
def decodePacket (S : BitVec 64) : SetupPacket where
  raw := S
  dir := reqDir S
  reqType := reqType S
  recipient := reqRecipient S
  request := bRequest S
  value := wValue S
  index := wIndex S
  length := wLength S

/-- A new transfer record (44_device_hal.md R330, R338, R339). -/
def newXfer (d : Dir) (buf : Addr) (n : Nat) (k : Option CbId) : Xfer :=
  { active := true, dir := d, buf := buf, pos := buf.toNat, total := n, remaining := n, done := k }

/-- Whether a completion of pipe p carries the count (43_pipe_dispatcher.md R280). -/
def carriesCount (p : Pipe) (s : State) : Bool :=
  match classOf p s with
  | some .bulkOut => true
  | some .control => true
  | some .bulkIn => false
  | some .intIn => false
  | none => false

/-- The arguments of a completion (43_pipe_dispatcher.md R280). -/
def doneArgs (p : Pipe) (e : ErrCode) (n : Nat) (s : State) : CbArgs :=
  if carriesCount p s then .doneCount e n else .doneOnly e

/-- The default callback of a pipe's class (10_state.md R51). -/
def defaultKind (p : Pipe) (s : State) : Option CbKind :=
  match classOf p s with
  | some .bulkOut => some .onBulkOutDone
  | some .bulkIn => some .onBulkInDone
  | some .intIn => some .onInterruptInDone
  | some .control => some .onControlOutDone
  | none => none

/-- The callback a completion invokes: the per-call one if one was passed, else the default of the
class; a pipe of class NONE without one invokes nothing (43_pipe_dispatcher.md R280). -/
def completionCall (p : Pipe) (e : ErrCode) (n : Nat) (s : State) : Option Call :=
  match (s.pipe p).xfer.done with
  | some k => some { kind := .perCall, fn := some k, args := doneArgs p e n s }
  | none => (defaultKind p s).map fun k => registeredCall k (doneArgs p e n s) s

end Sys2Proof.Machine
end

