-- ==== Sys2Proof/Machine/Fifo.lean ====
section
/-! DEFINITION. FIFO port binding (41_fifo_binding.md): the fallible bind, the unconditional bind, the
release. -/

namespace Sys2Proof.Machine

/-- The polls of a bind: whether one of at most n polls of `fifoCur[f]` reports p (41_fifo_binding.md R200). -/
def pollFifoCur (p : Option Pipe) : Nat → State → Bool × State
  | 0, s => (false, s)
  | n + 1, s =>
    let (v, s) := drawFifoCur s
    if v = p then (true, s) else pollFifoCur p n s

/-- `Bind(p, f, d)`, with p possibly NONE (41_fifo_binding.md R200, R212): true is OK, false BIND_TIMEOUT. -/
def bindFifo (p : Option Pipe) (f : FifoId) (d : Dir) (s : State) : Bool × State :=
  let s := s.modFifo f fun x => { x with owner := none }
  let (ok, s) := pollFifoCur p s.params.bindPollBudget (writeFifoSel f p d s)
  if ok then (true, s.modFifo f fun x => { x with owner := p }) else (false, s)

/-- At most n attempts of a bind; none left is fatal, and the block stops there (41_fifo_binding.md R210). -/
def bindAttempts (p : Option Pipe) (f : FifoId) (d : Dir) : Nat → State → Res Unit
  | 0, s => .halt { s with fatal := true }
  | n + 1, s =>
    match bindFifo p f d s with
    | (true, s) => .done () s
    | (false, s) => bindAttempts p f d n s

/-- `BindUnconditional(p, f, d)` (41_fifo_binding.md R210). -/
def bindUnconditional (p : Option Pipe) (f : FifoId) (d : Dir) (s : State) : Res Unit :=
  bindAttempts p f d s.params.uncondAttempts s

/-- `Release(f)` (41_fifo_binding.md R212). -/
def release (f : FifoId) (s : State) : Res Unit := bindUnconditional none f .OUT s

/-- FIFO C bound to pipe 0, D0 and D1 released (41_fifo_binding.md R211). -/
def bindAdmin (s : State) : Res Unit :=
  (bindUnconditional (some 0) .C .OUT s).bind fun _ s =>
    (release .D0 s).bind fun _ s => release .D1 s

end Sys2Proof.Machine
end

