-- ==== Sys2Proof/Machine/Transfer.lean ====
section
/-! DEFINITION. The packet-accounting transfer engine (42_transfer_engine.md): byte movement, the write
access, the read access. -/

namespace Sys2Proof.Machine

/-- The accesses of `MoveOut`: each chunk is read from memory and pushed (42_transfer_engine.md R240). -/
def moveOutChunks (f : FifoId) : List (Nat × Nat) → State → State
  | [], s => s
  | (a, w) :: cs, s => moveOutChunks f cs (fifoWrite f (memRead a w s) s)

/-- `MoveOut(f, a, n)` (42_transfer_engine.md R240). -/
def moveOut (f : FifoId) (a n : Nat) (s : State) : State := moveOutChunks f (chunks a n) s

/-- The accesses of `MoveIn`: each chunk is popped and written to memory (42_transfer_engine.md R240). -/
def moveInChunks : List (Nat × Nat) → State → State
  | [], s => s
  | (a, w) :: cs, s =>
    let (bs, s) := fifoRead w s
    moveInChunks cs (memWrite a bs s)

/-- `MoveIn(f, a, n)` (42_transfer_engine.md R240). -/
def moveIn (a n : Nat) (s : State) : State := moveInChunks (chunks a n) s

/-- `DataValid(f)` at the end of a write: the bytes in the buffer become packets (42_transfer_engine.md R236). -/
def makeValid (p : Pipe) (s : State) : State :=
  handOver (fifoOf p s) (maxPacketSize p s) (dataValid (fifoOf p s) s)

/-- The end of a write access that moved n bytes (42_transfer_engine.md R221, R223, R236). A full buffer
that is not the last passes to the controller by itself (log 39). -/
def endWrite (p : Pipe) (n : Nat) (final : Bool) (s : State) : Access × State :=
  if final then
    if p = Config.pipeBulkIn ∧ s.params.nsp2 = true ∧ isShort n (maxPacketSize p s) = true then
      (.END, if n = 0 then s else makeValid p s)
    else (classifyFinal n (maxPacketSize p s), makeValid p s)
  else (.CONTINUE, handOver (fifoOf p s) (maxPacketSize p s) s)

/-- `WriteAccess(p)` (42_transfer_engine.md R221). -/
def writeAccess (p : Pipe) (s : State) : Access × State :=
  match bindFifo (some p) (fifoOf p s) .IN s with
  | (false, s) => (.ERROR, s)
  | (true, s) =>
    let x := (s.pipe p).xfer
    let n := min x.remaining (bufferSize p s)
    endWrite p n (decide (x.remaining ≤ bufferSize p s)) (advance p n true (moveOut (fifoOf p s) x.pos n s))

/-- The bytes an overrun leaves in the destination: any value each (42_transfer_engine.md R234). -/
def smear (a n : Nat) (s : State) : State :=
  let (bs, s) := drawBytes n s
  memWrite a bs s

/-- The received bytes go to memory, or are dropped when the destination is null (42_transfer_engine.md
R231, R235). -/
def takeBytes (x : Xfer) (n : Nat) (s : State) : State :=
  if x.buf = 0 then (fifoRead n s).2 else moveIn x.pos n s

/-- The end of a read access of `rcv` bytes, after the bookkeeping (42_transfer_engine.md R231, R236). -/
def endRead (p : Pipe) (rcv : Nat) (s : State) : Access × State :=
  let r := classifyRead rcv (maxPacketSize p s) (s.pipe p).xfer.remaining
  (r, if r = .CONTINUE then s else dataValid (fifoOf p s) s)

/-- `ReadAccess(p)` (42_transfer_engine.md R231). -/
def readAccess (p : Pipe) (s : State) : Access × State :=
  match bindFifo (some p) (fifoOf p s) .OUT s with
  | (false, s) => (.ERROR, s)
  | (true, s) =>
    let (rcv, s) := drawRcvLen (bufferSize p s) s
    let x := (s.pipe p).xfer
    if x.remaining < rcv then
      let s := if x.buf = 0 then s else smear x.pos x.remaining s
      (.OVERRUN, bufferClear (fifoOf p s) s)
    else endRead p rcv (advance p rcv (x.buf != 0) (takeBytes x rcv s))

end Sys2Proof.Machine
end

