-- ==== Sys2Proof/Machine/Commands.lean ====
section
/-! DEFINITION. The downward commands that invoke no callback (44_device_hal.md): data-transfer starts,
`controlAck`, `controlOut`, `stall`, the queries, `reset`, `cancel`, `resetEndpoints`, `init`. -/

namespace Sys2Proof.Machine

/-! ### Data-transfer starts (44_device_hal.md R330) -/

/-- The first check a start breaks, in the order of 44_device_hal.md R330 and 60_exceptions.md R421. No check looks
for a buffer over the response area, which 20_memory.md R123 forbids: such a transfer runs (the model's choice, log 43). -/
def startError (p : Pipe) (d : Dir) (len : Len) (buf : Addr) (s : State) : Option ErrCode :=
  if !s.initialized then some .state
  else if s.devState = .disconnected then some .notConnected
  else if !(s.pipe p).cfgValid || (s.pipe p).cfg.dir != d then some .state
  else if d = .IN ∧ buf = 0 ∧ len ≠ 0 then some .state
  else if bufferWraps buf len then some .state
  else if (s.pipe p).busy then some .busy
  else if (s.pipe p).pstate = .noResponse then some .noResponse
  else if (s.pipe p).pstate = .stall ∨ (s.pipe p).pid = .stall then some .stall
  else none

/-- The effects of a start that breaks no check (44_device_hal.md R330). -/
def startEffect (p : Pipe) (d : Dir) (len : Len) (buf : Addr) (k : Option CbId) (s : State) : State :=
  let s := s.modPipe p fun x =>
    { x with xfer := newXfer d buf len.toNat k, nrdyCount := 0, busy := true, pstate := .waiting }
  setPidBuf p (writeNrdyEnb p true (writeBrdyEnb p true (writeBempEnb p false s)))

/-- `Start(p, d, len, buf, k)` (44_device_hal.md R330). -/
def start (p : Pipe) (d : Dir) (len : Len) (buf : Addr) (k : Option CbId) (s : State) : ErrCode × State :=
  match startError p d len buf s with
  | some e => (e, s)
  | none => (.ok, startEffect p d len buf k s)

/-! ### Control commands (44_device_hal.md R335, R336, R339, R342) -/

/-- Whether a control command is legal by state (44_device_hal.md R335). -/
def controlLegal (s : State) : Bool := s.initialized && s.devState == .controlSetup

/-- The acknowledgement of the status stage: BUF and control complete, READY (44_device_hal.md R336). -/
def ackStatus (s : State) : State := setDevState .ready (ctrlComplete (setPidBuf 0 s))

/-- `ControlAck()` (44_device_hal.md R336). -/
def controlAck (s : State) : ErrCode × State :=
  if controlLegal s then (.ok, ackStatus s) else (.state, s)

/-- `ControlOut(len, buf, k)` (44_device_hal.md R339); a range that wraps is refused with STATE
(20_memory.md R102, 93_implementation_defined.md U22; log 40). -/
def controlOut (len : Len) (buf : Addr) (k : Option CbId) (s : State) : ErrCode × State :=
  if !controlLegal s then (.state, s)
  else if len.toNat ≠ s.setup.length.toNat ∨ len = 0 then (.state, s)
  else if bufferWraps buf len then (.state, s)
  else
    let s := s.modPipe 0 fun x => { x with cfg := { x.cfg with dir := .OUT }, xfer := newXfer .OUT buf len.toNat k }
    (.ok, setPidBuf 0 (writeBrdyEnb 0 true (setDevState .controlOut s)))

/-- `Stall(cls)` (44_device_hal.md R342). -/
def stallClass (cls : PipeClass) (s : State) : ErrCode × State :=
  if !s.initialized then (.state, s)
  else
    let s := setPidStall (pipeOf cls s) s
    if cls = .control ∧ s.devState.isControl = true then
      (.ok, setDevState .ready (writeBrdyEnb 0 false (deactivate 0 s)))
    else (.ok, s)

/-! ### Queries (44_device_hal.md R343, R344) -/

/-- `isEndpointStalled(pipe)` (44_device_hal.md R344). -/
def endpointStalled (a : BitVec 4) (s : State) : Bool :=
  match pipeOfArg a with
  | some p => s.initialized && (s.pipe p).pid == .stall
  | none => false

/-! ### Reset and cancel (44_device_hal.md R345, R346) -/

/-- All pipes, ascending. -/
def allPipes : List Pipe := 0 :: dataPipes

/-- The 37 enable writes of `Reset`, in order (44_device_hal.md R345). -/
def resetTrace : List TraceEntry :=
  allPipes.flatMap (fun p => [.brdyEnb p false, .nrdyEnb p false, .bempEnb p false])
    ++ [.vbse, .rsme, .dvse, .ctre, .brdye, .nrdye, .bempe].map (TraceEntry.master · true)

/-- The bookkeeping `Reset` clears for a pipe (44_device_hal.md R345). -/
def resetPipe (x : PipeState) : PipeState :=
  { x with
    xfer := { x.xfer with active := false }
    busy := false
    nrdyCount := 0
    pstate := .idle
    brdyEnb := false
    nrdyEnb := false
    bempEnb := false }

/-- The effects of `Reset` (44_device_hal.md R345). -/
def resetEffect (s : State) : State :=
  let s := { s.modAllPipes resetPipe with enb := ⟨true, true, true, true, true, true, true⟩ }.logs resetTrace
  if s.devState.isControl then setDevState .ready s else s

/-- `Reset()` (44_device_hal.md R345). -/
def blockReset (s : State) : ErrCode × State :=
  if s.initialized then (.ok, resetEffect s) else (.state, s)

/-- What `Cancel` writes for a pipe before the reset (44_device_hal.md R346). -/
def cancelPipe (x : PipeState) : PipeState :=
  if x.xfer.active || x.busy then { x with resLen := 0, resErr := .notConnected } else x

/-- `Cancel()` (44_device_hal.md R346). -/
def blockCancel (s : State) : ErrCode × State :=
  if s.initialized then blockReset (s.modAllPipes cancelPipe) else (.state, s)

/-! ### Endpoint configuration (44_device_hal.md R349) -/

/-- The pipe a record names, if there is one. -/
def recPipe (r : CfgRec) : Option Pipe := if h : r.pipe < 10 then some ⟨r.pipe, h⟩ else none

/-- Whether a listed pipe is busy. -/
def tableBusy (t : List CfgRec) (s : State) : Bool :=
  t.any fun r => match recPipe r with
    | some p => (s.pipe p).busy
    | none => false

/-- Program one pipe: NAK, configuration, toggle, interrupts off, IDLE (44_device_hal.md R349). -/
def programPipe (p : Pipe) (r : EpCfg) (s : State) : State :=
  let s := (setPidNak p s).modPipe p fun x => { x with cfg := r, cfgValid := true }
  let s := clearToggle p (writePipeReg p r s)
  let s := writeBempEnb p false (writeNrdyEnb p false (writeBrdyEnb p false s))
  setNrdyCount p 0 (setPState p .idle s)

/-- Apply a table, in its order (44_device_hal.md R349). -/
def programTable : List CfgRec → State → State
  | [], s => s
  | r :: rs, s =>
    match recPipe r with
    | some p => programTable rs (programPipe p r.ep s)
    | none => programTable rs s

/-- `ResetEndpoints(t)` (44_device_hal.md R349). -/
def resetEndpoints (t : List CfgRec) (s : State) : ErrCode × State :=
  if !s.initialized then (.state, s)
  else if !tableLegal t s then (.state, s)
  else if tableBusy t s then (.busy, s)
  else (.ok, programTable t s)

/-! ### VBUS and `init` (44_device_hal.md R314, R315, R340) -/

/-- `Debounce()`: the common value of three reads, or UNDECIDED (44_device_hal.md R314). -/
def debounce (s : State) : Option Bool × State :=
  let (a, s) := drawVbus s
  let (b, s) := drawVbus s
  let (c, s) := drawVbus s
  (if a = b ∧ b = c then some a else none, s)

/-- `Attach()` (44_device_hal.md R315). -/
def attach (s : State) : Res Unit := bindAdmin (blockReset s).2

/-- The channel after `init` has stored its arguments and cleared the flags (44_device_hal.md R340). -/
def initChannel (d : DescSet) (c : Callbacks) (s : State) : State :=
  let s := s.modPipe 0 fun x => { x with cfgValid := true, cfg := cfg0Of s.params x.cfg }
  { s with
    desc := some d
    cb := some c
    initialized := true
    firstConnectFired := false
    configValue := 0
    vbusLevel := false
    devState := .disconnected }

/-- The end of `init`: the debounced VBUS level, and the attach if it is high (44_device_hal.md R340). -/
def initVbus (s : State) : Res ErrCode :=
  match debounce s with
  | (some true, s) => (attach { s with vbusLevel := true }).bind fun _ s => .done .ok s
  | (_, s) => .done .ok s

/-- `Init(d, c)` (44_device_hal.md R340, 70_reset_and_hazards.md R456). -/
def blockInit (d : DescSet) (c : Callbacks) (s : State) : Res ErrCode :=
  if d.device.isNone || d.config.isNone then .done .state s
  else (bindAdmin (blockReset (initChannel d c s)).2).bind fun _ s => initVbus s

/-! ### The commands that invoke no callback, with their results (30_encoding.md R142) -/

/-- A command ends with a result code. -/
def returnCode (r : ErrCode × State) : Res Unit := .done () (setResult (.code r.1) r.2)

/-- A command ends with a result code. -/
def returnRes (r : Res ErrCode) : Res Unit := r.bind fun e s => .done () (setResult (.code e) s)

/-- A control command: STATE before `init` (44_device_hal.md R341); inside `onSetup` its own effect; in any
other callback, where it is not legal (60_exceptions.md R441), STATE and nothing written (R417; log 15); and
from a task no step (70_reset_and_hazards.md R473). -/
def insideOnSetup (f : State → Res Unit) (s : State) : Res Unit :=
  if !s.initialized then returnCode (.state, s)
  else match s.ctx with
    | .onSetup => f s
    | .isr => returnCode (.state, s)
    | .task => .refused .taskControlCommand

def cmdInit (d : DescSet) (c : Callbacks) (s : State) : Res Unit := returnRes (blockInit d c s)
def cmdControlAck (s : State) : Res Unit := insideOnSetup (fun s => returnCode (controlAck s)) s
def cmdControlOut (len : Len) (buf : Addr) (k : Option CbId) (s : State) : Res Unit :=
  insideOnSetup (fun s => returnCode (controlOut len buf k s)) s
/-- `bulkIn` (44_device_hal.md R331). -/
def cmdBulkIn (len : Len) (buf : Addr) (k : Option CbId) (s : State) : Res Unit :=
  returnCode (start (pipeOf .bulkIn s) .IN len buf k s)
/-- `bulkOut` (44_device_hal.md R332). -/
def cmdBulkOut (len : Len) (buf : Addr) (k : Option CbId) (s : State) : Res Unit :=
  returnCode (start (pipeOf .bulkOut s) .OUT len buf k s)
/-- `interruptIn` (44_device_hal.md R333). -/
def cmdInterruptIn (len : Len) (buf : Addr) (k : Option CbId) (s : State) : Res Unit :=
  returnCode (start (pipeOf .intIn s) .IN len buf k s)
/-- `stall(CONTROL)` is a control command (70_reset_and_hazards.md R473). -/
def cmdStallControl (s : State) : Res Unit := insideOnSetup (fun s => returnCode (stallClass .control s)) s
def cmdStallBulkIn (s : State) : Res Unit := returnCode (stallClass .bulkIn s)
def cmdStallBulkOut (s : State) : Res Unit := returnCode (stallClass .bulkOut s)
def cmdStallIntIn (s : State) : Res Unit := returnCode (stallClass .intIn s)
/-- `getDeviceState` (44_device_hal.md R343). -/
def cmdGetDeviceState (s : State) : Res Unit := .done () (setResult (.byte s.devState.byte) s)
/-- `isEndpointStalled` (44_device_hal.md R344). -/
def cmdIsEndpointStalled (a : BitVec 4) (s : State) : Res Unit := .done () (setResult (.flag (endpointStalled a s)) s)
def cmdCancel (s : State) : Res Unit := returnCode (blockCancel s)
def cmdReset (s : State) : Res Unit := returnCode (blockReset s)
def cmdResetEndpoints (t : List CfgRec) (s : State) : Res Unit := returnCode (resetEndpoints t s)

end Sys2Proof.Machine
end

