-- ==== Sys2Proof/Machine/Control.lean ====
section
/-! DEFINITION. Callbacks and the commands issued inside them (60_exceptions.md R440, R441), and
`controlIn`, the one command that itself invokes a callback (44_device_hal.md R338); then the meaning
of every command row of spec/opcode_table.json. -/

namespace Sys2Proof.Machine

/-- A command issued inside a callback, inline in the step (60_exceptions.md R441); `ctlIn` is what a
`controlIn` does there. -/
def issueWith (ctlIn : Len → Addr → State → Res Unit) (c : Cmd) (s : State) : Res Unit :=
  match c with
  | .init d cb => cmdInit d cb s
  | .controlAck => cmdControlAck s
  | .controlIn len buf => insideOnSetup (ctlIn len buf) s
  | .controlOut len buf k => cmdControlOut len buf k s
  | .bulkIn len buf k => cmdBulkIn len buf k s
  | .bulkOut len buf k => cmdBulkOut len buf k s
  | .interruptIn len buf k => cmdInterruptIn len buf k s
  | .stall .control => cmdStallControl s
  | .stall .bulkIn => cmdStallBulkIn s
  | .stall .bulkOut => cmdStallBulkOut s
  | .stall .intIn => cmdStallIntIn s
  | .getDeviceState => cmdGetDeviceState s
  | .isEndpointStalled p => cmdIsEndpointStalled p s
  | .cancel => cmdCancel s
  | .reset => cmdReset s
  | .resetEndpoints t => cmdResetEndpoints t s

/-- Commands issued one after the other. -/
def runCmds (issue : Cmd → State → Res Unit) : List Cmd → State → Res Unit
  | [], s => .done () s
  | c :: cs, s => (issue c s).bind fun _ s => runCmds issue cs s

/-- `call cb(args)`: the invocation is recorded, and the class layer issues its commands and answers
(00_scope.md R23, 60_exceptions.md R441). -/
def invoke (issue : Cmd → State → Res Unit) (c : Call) (s : State) : Res SetupAnswer :=
  let (k, s) := drawClassStep (logCall c s)
  (runCmds issue k.cmds s).bind fun _ s => .done k.answer s

/-- A `controlIn` issued inside the `onError` of a `controlIn`: the sub-state has left CONTROL_SETUP, and
no command enters it, so it returns STATE (44_device_hal.md R335). -/
def controlInNested (_ : Len) (_ : Addr) (s : State) : Res Unit := returnCode (.state, s)

/-- `call cb.onError(e)` (60_exceptions.md R440), from inside `controlIn`. -/
def onErrorInControlIn (e : ErrCode) (s : State) : Res Unit :=
  (invoke (issueWith controlInNested) (registeredCall .onError (.code e) s) s).bind fun _ s => .done () s

/-! ### `controlIn` (44_device_hal.md R338) -/

/-- The wait for FIFO C between two packets: at most n polls (44_device_hal.md R338). -/
def pollFifoReady : Nat → State → Bool × State
  | 0, s => (false, s)
  | n + 1, s =>
    let (v, s) := drawFifoReady s
    if v then (true, s) else pollFifoReady n s

/-- The loop of accesses: true when one ended END or SHORT, false when a wait or a bind timed out. The
first argument bounds the accesses; every access but the last moves bytes, so it is never used up. -/
def controlInLoop : Nat → Bool → State → Bool × State
  | 0, _, s => (false, s)
  | k + 1, first, s =>
    let (ready, s) := if first then (true, s) else pollFifoReady s.params.ctrlInPollBudget s
    if ready then
      match writeAccess 0 s with
      | (.CONTINUE, s) => controlInLoop k false s
      | (.END, s) => (true, s)
      | (.SHORT, s) => (true, s)
      | (.OVERRUN, s) => (false, s)
      | (.ERROR, s) => (false, s)
    else (false, s)

/-- The data stage of n bytes: bind and clear the FIFO, then the accesses (44_device_hal.md R338). -/
def controlInData (n : Nat) (s : State) : Bool × State :=
  match bindFifo (some 0) .C .IN s with
  | (false, s) => (false, s)
  | (true, s) => controlInLoop (n + 1) true (bufferClear .C s)

/-- The failure of a control-IN data stage (44_device_hal.md R338). -/
def controlInFail (s : State) : Res ErrCode :=
  let s := setDevState .ready (setPidStall 0 (deactivate 0 s))
  (onErrorInControlIn .bindTimeout s).bind fun _ s => .done .bindTimeout s

/-- The set-up of a control-IN data stage of n bytes (44_device_hal.md R338). -/
def controlInBegin (n : Nat) (buf : Addr) (s : State) : State :=
  (setDevState .controlIn s).modPipe 0 fun x =>
    { x with cfg := { x.cfg with dir := .IN }, xfer := newXfer .IN buf n none }

/-- `ControlIn(len, buf)` (44_device_hal.md R337, R338); a range that wraps is refused with STATE
(20_memory.md R102, 93_implementation_defined.md U22; log 40). -/
def controlIn (len : Len) (buf : Addr) (s : State) : Res ErrCode :=
  if !controlLegal s then .done .state s
  else if s.setup.length = 0 then
    let (e, s) := controlAck s
    .done e s
  else
    let n := min len.toNat s.setup.length.toNat
    if buf = 0 ∧ n ≠ 0 then .done .state s
    else if bufferWraps buf len then .done .state s
    else match controlInData n (controlInBegin n buf s) with
      | (true, s) => .done .ok (ackStatus (deactivate 0 s))
      | (false, s) => controlInFail s

/-- `controlIn` as a command, its context already checked. -/
def controlInCmd (len : Len) (buf : Addr) (s : State) : Res Unit := returnRes (controlIn len buf s)

def cmdControlIn (len : Len) (buf : Addr) (s : State) : Res Unit := insideOnSetup (controlInCmd len buf) s

/-- A command issued inside a callback of the ISR pass. -/
def issue (c : Cmd) (s : State) : Res Unit := issueWith controlInCmd c s

/-- `call cb(args)` from the ISR pass, for a callback without an answer. -/
def callback (c : Call) (s : State) : Res Unit := (invoke issue c s).bind fun _ s => .done () s

/-- `call cb.onSetup(raw)` (44_device_hal.md R324): what runs until it returns runs inside `onSetup`. -/
def callOnSetup (S : BitVec 64) (s : State) : Res SetupAnswer :=
  (invoke issue (registeredCall .onSetup (.raw S) s) { s with ctx := .onSetup }).inCtx s.ctx

/-! ### The command rows -/

def execInit (d : DescSet) (c : Callbacks) (s : State) : Host.Outcome State Fault Refusal := runStep (cmdInit d c) s
def execControlAck (s : State) : Host.Outcome State Fault Refusal := runStep cmdControlAck s
def execControlIn (len : Len) (buf : Addr) (s : State) : Host.Outcome State Fault Refusal :=
  runStep (cmdControlIn len buf) s
def execControlOut (len : Len) (buf : Addr) (k : Option CbId) (s : State) : Host.Outcome State Fault Refusal :=
  runStep (cmdControlOut len buf k) s
def execBulkIn (len : Len) (buf : Addr) (k : Option CbId) (s : State) : Host.Outcome State Fault Refusal :=
  runStep (cmdBulkIn len buf k) s
def execBulkOut (len : Len) (buf : Addr) (k : Option CbId) (s : State) : Host.Outcome State Fault Refusal :=
  runStep (cmdBulkOut len buf k) s
def execInterruptIn (len : Len) (buf : Addr) (k : Option CbId) (s : State) : Host.Outcome State Fault Refusal :=
  runStep (cmdInterruptIn len buf k) s
def execStallControl (s : State) : Host.Outcome State Fault Refusal := runStep cmdStallControl s
def execStallBulkIn (s : State) : Host.Outcome State Fault Refusal := runStep cmdStallBulkIn s
def execStallBulkOut (s : State) : Host.Outcome State Fault Refusal := runStep cmdStallBulkOut s
def execStallIntIn (s : State) : Host.Outcome State Fault Refusal := runStep cmdStallIntIn s
def execGetDeviceState (s : State) : Host.Outcome State Fault Refusal := runStep cmdGetDeviceState s
def execIsEndpointStalled (a : BitVec 4) (s : State) : Host.Outcome State Fault Refusal :=
  runStep (cmdIsEndpointStalled a) s
def execCancel (s : State) : Host.Outcome State Fault Refusal := runStep cmdCancel s
def execReset (s : State) : Host.Outcome State Fault Refusal := runStep cmdReset s
def execResetEndpoints (t : List CfgRec) (s : State) : Host.Outcome State Fault Refusal :=
  runStep (cmdResetEndpoints t) s

end Sys2Proof.Machine
end

