-- ==== Sys2Proof/Machine/Dispatcher.lean ====
section
/-! DEFINITION. The pipe interrupt dispatcher (43_pipe_dispatcher.md): the end of a transfer, the
latches, the Buffer-Ready, Buffer-Not-Ready and Buffer-Empty handlers of pipes 1..9. -/

namespace Sys2Proof.Machine

/-- The bookkeeping that ends the transfer of pipe p with error e: count, error, then idle and not
busy (43_pipe_dispatcher.md R280, 20_memory.md R118). -/
def endTransfer (p : Pipe) (e : ErrCode) (s : State) : State :=
  s.modPipe p fun x =>
    { x with
      resLen := x.xfer.total - x.xfer.remaining
      resErr := e
      xfer := { x.xfer with active := false }
      busy := false }

/-- `Finish(p, e)` (43_pipe_dispatcher.md R280). -/
def finish (p : Pipe) (e : ErrCode) (s : State) : Res Unit :=
  let n := (s.pipe p).xfer.total - (s.pipe p).xfer.remaining
  let t := endTransfer p e s
  match completionCall p e n t with
  | some c => callback c t
  | none => .done () t

/-- Disable the Ready and Not-Ready interrupts of a pipe (43_pipe_dispatcher.md R266). -/
def disableReady (p : Pipe) (s : State) : State := writeNrdyEnb p false (writeBrdyEnb p false s)

/-- Disable the three interrupts of a pipe (43_pipe_dispatcher.md R272). -/
def disableAll (p : Pipe) (s : State) : State := writeBempEnb p false (disableReady p s)

/-- `BindFailure(p)` (43_pipe_dispatcher.md R268). -/
def bindFailure (p : Pipe) (s : State) : Res Unit :=
  let s := endTransfer p .bindTimeout (disableReady p s)
  let s := setNrdyCount p 0 (setPState p .idle s)
  callback (registeredCall .onError (.code .bindTimeout) s) s

/-- `LatchStall(p)` (43_pipe_dispatcher.md R272). -/
def latchStall (p : Pipe) (s : State) : Res Unit :=
  let s := disableAll p (setPState p .stall s)
  if (s.pipe p).xfer.active then finish p .stall s else .done () s

/-- `LatchNoResponse(p)` (43_pipe_dispatcher.md R274). -/
def latchNoResponse (p : Pipe) (s : State) : Res Unit :=
  let s := setPidNak p (disableAll p (setPState p .noResponse s))
  if (s.pipe p).xfer.active then finish p .noResponse s else .done () s

/-- The end of a transfer that its final access completed (43_pipe_dispatcher.md R266). -/
def onFinalAccess (p : Pipe) (s : State) : Res Unit :=
  let s := disableReady p s
  let s := if (s.pipe p).cfg.dir = .OUT then setPState p .done (setPidNak p s) else writeBempEnb p true s
  finish p .ok s

/-- The end of a transfer by an overrun (43_pipe_dispatcher.md R266). -/
def onOverrun (p : Pipe) (s : State) : Res Unit :=
  finish p .overrun (setPState p .done (setPidNak p (disableReady p s)))

/-- What a Buffer-Ready access leads to (43_pipe_dispatcher.md R266, R267, R271). -/
def afterAccess (p : Pipe) (r : Access) (s : State) : Res Unit :=
  match r with
  | .CONTINUE => .done () (setNrdyCount p 0 s)
  | .END => onFinalAccess p (setNrdyCount p 0 s)
  | .SHORT => onFinalAccess p (setNrdyCount p 0 s)
  | .OVERRUN => onOverrun p (setNrdyCount p 0 s)
  | .ERROR => bindFailure p s

/-- `OnBrdy(p)`, p in 1..9 (43_pipe_dispatcher.md R266). -/
def onBrdy (p : Pipe) (s : State) : Res Unit :=
  if !(s.pipe p).xfer.active then .done () (writeBrdyEnb p false s)
  else
    let (r, s) := if (s.pipe p).cfg.dir = .OUT then readAccess p s else writeAccess p s
    afterAccess p r s

/-- `OnNrdy(p)`, p in 1..9 (43_pipe_dispatcher.md R270). -/
def onNrdy (p : Pipe) (s : State) : Res Unit :=
  if (s.pipe p).pid = .stall then latchStall p s
  else if !(s.pipe p).xfer.active then .done () (writeNrdyEnb p false s)
  else
    let n := (s.pipe p).nrdyCount + 1
    let s := setNrdyCount p n s
    if Config.nrdyRetryLimit ≤ n then latchNoResponse p s else .done () (setPidBuf p s)

/-- `OnBemp(p)`, p in 1..9 (43_pipe_dispatcher.md R273). -/
def onBemp (p : Pipe) (s : State) : Res Unit :=
  if (s.pipe p).pid = .stall then latchStall p s
  else if (s.pipe p).cfg.dir = .OUT then .done () (writeBempEnb p false s)
  else
    let (full, s) := drawInbufm s
    if full then .done () s else .done () (setPState p .done (writeBempEnb p false s))

end Sys2Proof.Machine
end

