-- ==== Sys2Proof/Machine/SetupCore.lean ====
section
/-! DEFINITION. The setup-packet core (45_setup_decoder.md): the rule of every row of the standard
request table, and the resolver. A rule answers true for RESOLVED, false for UNKNOWN. -/

namespace Sys2Proof.Machine

/-- Answer with a control-IN data stage; RESOLVED whatever the response's result (45_setup_decoder.md R363, R364). -/
def respond (len : Len) (buf : Addr) (s : State) : Res Bool :=
  (controlIn len buf s).bind fun _ s => .done true s

/-- Answer with a plain acknowledgement (45_setup_decoder.md R363). -/
def acknowledge (s : State) : Res Bool := .done true (controlAck s).2

/-- Send bytes the core builds itself, from the response area (10_state.md R53, 45_setup_decoder.md R370). It is
written as ordinary memory even where the caller has placed a buffer or a blob over it (the model's choice, log 43). -/
def respondBytes (bs : List Byte) (s : State) : Res Bool :=
  respond (BitVec.ofNat 32 bs.length) s.params.respBase (memWrite s.params.respBase.toNat bs s)

/-- `SendBlob(b)` (45_setup_decoder.md R378). -/
def sendBlob (b : Option Blob) (s : State) : Res Bool :=
  match b with
  | some b => respond b.len b.addr s
  | none => .done false s

/-- SR_GET_STATUS_DEVICE (45_setup_decoder.md R370). -/
def ruleGetStatusDevice (_ : SetupPacket) (s : State) : Res Bool := respondBytes [0x00, 0x00] s

/-- SR_GET_STATUS_INTERFACE (45_setup_decoder.md R371). -/
def ruleGetStatusInterface (_ : SetupPacket) (s : State) : Res Bool := respondBytes [0x00, 0x00] s

/-- The status word of an endpoint: halt in bit 0 (45_setup_decoder.md R372). -/
def endpointStatus (p : Pipe) (s : State) : BitVec 16 := if (s.pipe p).pid = .stall then 0x0001 else 0x0000

/-- A status word in wire order, low byte first (20_memory.md R106). -/
def wireOrder (st : BitVec 16) : List Byte := [st.extractLsb' 0 8, st.extractLsb' 8 8]

/-- SR_GET_STATUS_ENDPOINT (45_setup_decoder.md R372). -/
def ruleGetStatusEndpoint (q : SetupPacket) (s : State) : Res Bool :=
  match pipeOfEp q.index s with
  | none => .done false s
  | some p => respondBytes (wireOrder (endpointStatus p s)) s

/-- The auto-clear of a halt on a data pipe (45_setup_decoder.md R374). -/
def autoClear (p : Pipe) (s : State) : State :=
  let s := if (s.pipe p).pid = .stall then setPidBuf p s else s
  let s := clearToggle p s
  if (s.pipe p).pstate = .stall then setPState p .idle s else s

/-- SR_CLEAR_FEATURE_EP_HALT (45_setup_decoder.md R374). -/
def ruleClearFeatureEpHalt (q : SetupPacket) (s : State) : Res Bool :=
  match pipeOfEp q.index s with
  | none => .done false s
  | some p => acknowledge (if p ≠ 0 ∧ s.params.autoClearHalt = true then autoClear p s else s)

/-- SR_SET_FEATURE_EP_HALT (45_setup_decoder.md R376). -/
def ruleSetFeatureEpHalt (q : SetupPacket) (s : State) : Res Bool :=
  match pipeOfEp q.index s with
  | none => .done false s
  | some p => acknowledge (if p ≠ 0 then setPidStall p s else s)

/-- SR_SET_ADDRESS (45_setup_decoder.md R377). -/
def ruleSetAddress (_ : SetupPacket) (s : State) : Res Bool := acknowledge s

/-- SR_GET_DESCRIPTOR_DEVICE (45_setup_decoder.md R379). -/
def ruleGetDescriptorDevice (_ : SetupPacket) (s : State) : Res Bool := sendBlob (blobOf DescSet.device s) s

/-- SR_GET_DESCRIPTOR_CONFIGURATION (45_setup_decoder.md R380). -/
def ruleGetDescriptorConfiguration (q : SetupPacket) (s : State) : Res Bool :=
  if descIndex q.raw = 0 then sendBlob (blobOf DescSet.config s) s else .done false s

/-- SR_GET_DESCRIPTOR_STRING (45_setup_decoder.md R381). -/
def ruleGetDescriptorString (q : SetupPacket) (s : State) : Res Bool :=
  let i := (descIndex q.raw).toNat
  if i = 0 then sendBlob (blobOf (fun d => d.strings[0]?) s) s
  else if s.desc.map DescSet.langId ≠ some q.index then .done false s
  else sendBlob (blobOf (fun d => d.strings[i]?) s) s

/-- SR_GET_DESCRIPTOR_DEVICE_QUALIFIER (45_setup_decoder.md R382). -/
def ruleGetDescriptorDeviceQualifier (_ : SetupPacket) (s : State) : Res Bool :=
  sendBlob (blobOf DescSet.qualifier s) s

/-- SR_GET_DESCRIPTOR_OTHER_SPEED_CONFIGURATION (45_setup_decoder.md R383). -/
def ruleGetDescriptorOtherSpeed (q : SetupPacket) (s : State) : Res Bool :=
  if descIndex q.raw = 0 then sendBlob (blobOf DescSet.otherSpeed s) s else .done false s

/-- SR_GET_CONFIGURATION (45_setup_decoder.md R385). -/
def ruleGetConfiguration (_ : SetupPacket) (s : State) : Res Bool := respondBytes [s.configValue] s

/-- SR_GET_INTERFACE (45_setup_decoder.md R386). -/
def ruleGetInterface (_ : SetupPacket) (s : State) : Res Bool := respondBytes [0x00] s

/-- SR_SET_INTERFACE (45_setup_decoder.md R387). -/
def ruleSetInterface (_ : SetupPacket) (s : State) : Res Bool := acknowledge s

/-- SR_STANDARD_OTHER (45_setup_decoder.md R388). -/
def ruleStandardOther (_ : SetupPacket) (s : State) : Res Bool := .done false s

/-- SR_CLASS (45_setup_decoder.md R389). -/
def ruleClass (_ : SetupPacket) (s : State) : Res Bool := .done false s

/-- SR_VENDOR (45_setup_decoder.md R389). -/
def ruleVendor (_ : SetupPacket) (s : State) : Res Bool := .done false s

/-- SR_RESERVED_TYPE (45_setup_decoder.md R389). -/
def ruleReservedType (_ : SetupPacket) (s : State) : Res Bool := .done false s

/-- `FirstConnect()` (44_device_hal.md R322). -/
def firstConnect (s : State) : Res Unit :=
  if s.firstConnectFired then .done () s
  else
    let s := { s with firstConnectFired := true }
    callback (registeredCall .onCableChange (.connected true) s) s

/-- SR_SET_CONFIGURATION, taken by the HAL: `SetConfiguration()` (44_device_hal.md R323). -/
def ruleSetConfiguration (q : SetupPacket) (s : State) : Res Bool :=
  (firstConnect (controlAck { s with configValue := q.value.extractLsb' 0 8 }).2).bind fun _ s => .done true s

/-- `Resolve(s)`: the rule of the row the packet selects (45_setup_decoder.md R361; SR_SET_CONFIGURATION
is the HAL's, 44_device_hal.md R321). -/
def resolve (q : SetupPacket) (s : State) : Res Bool :=
  match rowOf q.raw with
  | .getStatusDevice => ruleGetStatusDevice q s
  | .getStatusInterface => ruleGetStatusInterface q s
  | .getStatusEndpoint => ruleGetStatusEndpoint q s
  | .clearFeatureEpHalt => ruleClearFeatureEpHalt q s
  | .setFeatureEpHalt => ruleSetFeatureEpHalt q s
  | .setAddress => ruleSetAddress q s
  | .getDescriptorDevice => ruleGetDescriptorDevice q s
  | .getDescriptorConfiguration => ruleGetDescriptorConfiguration q s
  | .getDescriptorString => ruleGetDescriptorString q s
  | .getDescriptorDeviceQualifier => ruleGetDescriptorDeviceQualifier q s
  | .getDescriptorOtherSpeed => ruleGetDescriptorOtherSpeed q s
  | .getConfiguration => ruleGetConfiguration q s
  | .setConfiguration => ruleSetConfiguration q s
  | .getInterface => ruleGetInterface q s
  | .setInterface => ruleSetInterface q s
  | .standardOther => ruleStandardOther q s
  | .classRequest => ruleClass q s
  | .vendor => ruleVendor q s
  | .reservedType => ruleReservedType q s

/-- `Delegate(raw)` (44_device_hal.md R324, 45_setup_decoder.md R362). -/
def delegate (S : BitVec 64) (s : State) : Res Unit :=
  (callOnSetup S s).bind fun a s =>
    if a = .unknown ∧ s.devState = .controlSetup then .done () (stallClass .control s).2 else .done () s

/-- A new SETUP drops a control-OUT data stage silently (44_device_hal.md R321). -/
def abortControl (s : State) : State :=
  if (s.pipe 0).xfer.active then writeBrdyEnb 0 false (deactivate 0 s) else s

/-- `SetupArrival(raw)` (44_device_hal.md R321). -/
def setupArrival (S : BitVec 64) (s : State) : Res Unit :=
  if s.devState = .disconnected then .done () (setPidStall 0 s)
  else
    let s := abortControl (setPidNak 0 s)
    let s := setDevState .controlSetup { s with setup := decodePacket S }
    (resolve s.setup s).bind fun resolved s => if resolved then .done () s else delegate S s

end Sys2Proof.Machine
end

