-- ==== Sys2Proof/Machine/Isr.lean ====
section
/-! DEFINITION. The ISR pass and its device-level handlers (44_device_hal.md R300 to R325), the
controller's steps, and the meanings of the event rows and the setup rows of spec/opcode_table.json. -/

namespace Sys2Proof.Machine

/-! ### Pipe 0 (44_device_hal.md R306, R307) -/

/-- `OnPipe0Other()`: no effect beyond the status clear (44_device_hal.md R306). -/
def onPipe0Other (s : State) : Res Unit := .done () s

/-- What a pipe-0 access leads to (44_device_hal.md R307). -/
def afterAccess0 (r : Access) (s : State) : Res Unit :=
  match r with
  | .CONTINUE => .done () s
  | .END => finish 0 .ok (ackStatus (writeBrdyEnb 0 false s))
  | .SHORT => finish 0 .ok (ackStatus (writeBrdyEnb 0 false s))
  | .OVERRUN => finish 0 .overrun (setDevState .ready (setPidStall 0 (writeBrdyEnb 0 false s)))
  | .ERROR =>
    let s := deactivate 0 (setDevState .ready (setPidStall 0 (writeBrdyEnb 0 false s)))
    callback (registeredCall .onError (.code .bindTimeout) s) s

/-- `OnBrdy0()` (44_device_hal.md R307). -/
def onBrdy0 (s : State) : Res Unit :=
  if s.devState = .controlOut ∧ (s.pipe 0).xfer.active = true then
    let (r, s) := readAccess 0 s
    afterAccess0 r s
  else .done () (writeBrdyEnb 0 false s)

/-! ### Device state (44_device_hal.md R316 to R319) -/

/-- `BusReset()` (44_device_hal.md R318). -/
def busReset (s : State) : Res Unit :=
  (bindAdmin (blockReset s).2).bind fun _ s =>
    let s := { s with configValue := 0 }
    .done () (if s.vbusLevel then setDevState .ready s else s)

/-- Clear the toggles of the configured BULK pipes of a list (44_device_hal.md R319). -/
def clearBulkToggles : List Pipe → State → State
  | [], s => s
  | p :: ps, s =>
    clearBulkToggles ps (if (s.pipe p).cfgValid ∧ (s.pipe p).cfg.kind = .bulk then clearToggle p s else s)

/-- `EnterConfigured()` (44_device_hal.md R319). -/
def enterConfigured (s : State) : Res Unit := firstConnect (clearBulkToggles dataPipes s)

/-- `OnDvst()` (44_device_hal.md R316). -/
def onDvst (s : State) : Res Unit :=
  match s.usbState with
  | .defaultState => busReset s
  | .configured => enterConfigured s
  | .powered => .done () s
  | .address => .done () s
  | .suspended => .done () s

/-! ### Control stage, resume and VBUS (44_device_hal.md R313, R317, R320, R325) -/

/-- `OnCtrt()` (44_device_hal.md R320). -/
def onCtrt (s : State) : Res Unit :=
  if s.ctrlStage = .setupReceived ∧ s.setupValid = true then setupArrival s.setupData (clearSetupValid s)
  else .done () s

/-- `OnResm()`: no effect beyond the status clear (44_device_hal.md R325). -/
def onResm (s : State) : Res Unit := .done () s

/-- `Detach()` (44_device_hal.md R317). -/
def detach (s : State) : Res Unit :=
  let s := setDevState .disconnected (blockCancel s).2
  if s.firstConnectFired then
    let s := { s with firstConnectFired := false }
    callback (registeredCall .onCableChange (.connected false) s) s
  else .done () s

/-- `OnVbint()` (44_device_hal.md R313). -/
def onVbint (s : State) : Res Unit :=
  match debounce s with
  | (none, s) => .done () s
  | (some lvl, s) =>
    if lvl = s.vbusLevel then .done () s
    else if lvl then attach { s with vbusLevel := lvl } else detach { s with vbusLevel := lvl }

/-! ### The pass (44_device_hal.md R300) -/

/-- The handler of a source (60_exceptions.md R405). -/
def handler : Source → State → Res Unit
  | .bemp p, s => if p = 0 then onPipe0Other s else onBemp p s
  | .nrdy p, s => if p = 0 then onPipe0Other s else onNrdy p s
  | .brdy p, s => if p = 0 then onBrdy0 s else onBrdy p s
  | .dvst, s => onDvst s
  | .ctrt, s => onCtrt s
  | .resm, s => onResm s
  | .vbint, s => onVbint s

/-- `IsrPass()`: the snapshot is sampled once, at entry (44_device_hal.md R300, R301). -/
def isrPass (s : State) : Res Unit := takeInterrupt (pending s) handler passOrder s

/-- The ISR agent's turn: a pass when the line is asserted, else nothing (44_device_hal.md R303). -/
def isrTurn (s : State) : Res Unit := if lineAsserted s then isrPass s else .done () s

/-- The part of a pass that serves one source, when a snapshot would hold it (30_encoding.md R145). -/
def serveOne (x : Source) (s : State) : Res Unit :=
  if s.initialized && pending s x then takeInterrupt (pending s) handler [x] s else .done () s

/-! ### Controller steps (30_encoding.md R160) -/

/-- `ctl setup`: the controller latches a packet and reports it (10_state.md R73, R74). -/
def ctlSetup (S : BitVec 64) (s : State) : State :=
  { s with setupData := S, ctrlStage := .setupReceived, setupValid := true, sts := { s.sts with ctrt := true } }

/-- Line up more answers after those there are. -/
def Env.append (a b : Env) : Env where
  fifoCur := a.fifoCur ++ b.fifoCur
  fifoReady := a.fifoReady ++ b.fifoReady
  rcvLen := a.rcvLen ++ b.rcvLen
  data := a.data ++ b.data
  vbus := a.vbus ++ b.vbus
  inbufm := a.inbufm ++ b.inbufm
  classSteps := a.classSteps ++ b.classSteps
  draws := a.draws

/-- A controller step. -/
def ctlStep (c : CtlStep) (s : State) : State :=
  match c with
  | .setBrdy p => s.modPipe p fun x => { x with brdySts := true }
  | .setNrdy p => s.modPipe p fun x => { x with nrdySts := true }
  | .setBemp p => s.modPipe p fun x => { x with bempSts := true }
  | .setVbint => { s with sts := { s.sts with vbint := true } }
  | .setResm => { s with sts := { s.sts with resm := true } }
  | .setDvst => { s with sts := { s.sts with dvst := true } }
  | .setCtrt => { s with sts := { s.sts with ctrt := true } }
  | .setup S => ctlSetup S s
  | .stage => { s with ctrlStage := .other, sts := { s.sts with ctrt := true } }
  | .usbState u => { s with usbState := u, sts := { s.sts with dvst := true } }
  | .vbus b => { s with vbusHeld := some b, sts := { s.sts with vbint := true } }
  | .vbusChatter => { s with vbusHeld := none, sts := { s.sts with vbint := true } }
  | .answers e => { s with env := Env.append s.env e }

/-! ### The event rows -/

/-- The dispatcher's event on the pipe a 4-bit field names (30_encoding.md R145, R150). -/
def serveField (x : Pipe → Source) (a : BitVec 4) (s : State) : Res Unit :=
  match pipeOfArg a with
  | some p => serveOne (x p) s
  | none => .refused (.reservedWord .eventPipeOutOfRange)

def execEvtIsr (s : State) : Host.Outcome State Fault Refusal := runStep isrTurn s
def execEvtBemp0 (s : State) : Host.Outcome State Fault Refusal := runStep (serveOne (.bemp 0)) s
def execEvtNrdy0 (s : State) : Host.Outcome State Fault Refusal := runStep (serveOne (.nrdy 0)) s
def execEvtBrdy0 (s : State) : Host.Outcome State Fault Refusal := runStep (serveOne (.brdy 0)) s
def execEvtBemp (a : BitVec 4) (s : State) : Host.Outcome State Fault Refusal := runStep (serveField .bemp a) s
def execEvtNrdy (a : BitVec 4) (s : State) : Host.Outcome State Fault Refusal := runStep (serveField .nrdy a) s
def execEvtBrdy (a : BitVec 4) (s : State) : Host.Outcome State Fault Refusal := runStep (serveField .brdy a) s
def execEvtDvst (s : State) : Host.Outcome State Fault Refusal := runStep (serveOne .dvst) s
def execEvtCtrt (s : State) : Host.Outcome State Fault Refusal := runStep (serveOne .ctrt) s
def execEvtResm (s : State) : Host.Outcome State Fault Refusal := runStep (serveOne .resm) s
def execEvtVbint (s : State) : Host.Outcome State Fault Refusal := runStep (serveOne .vbint) s

/-! ### The setup rows (30_encoding.md R136, R161)
Each is the arrival of that packet: the controller latches it and the ISR has its turn. -/

/-- `host SETUP`: `ctl setup` and then `isr` (30_encoding.md R161). -/
def hostSetup (S : BitVec 64) (s : State) : Res Unit := isrTurn (ctlSetup S s)

def execSrGetStatusDevice (v i l : BitVec 16) (s : State) : Host.Outcome State Fault Refusal :=
  runStep (hostSetup (setupWord 0x80 0x00 v i l)) s
def execSrGetStatusInterface (v i l : BitVec 16) (s : State) : Host.Outcome State Fault Refusal :=
  runStep (hostSetup (setupWord 0x81 0x00 v i l)) s
def execSrGetStatusEndpoint (v i l : BitVec 16) (s : State) : Host.Outcome State Fault Refusal :=
  runStep (hostSetup (setupWord 0x82 0x00 v i l)) s
def execSrClearFeatureEpHalt (i l : BitVec 16) (s : State) : Host.Outcome State Fault Refusal :=
  runStep (hostSetup (setupWord 0x02 0x01 0 i l)) s
def execSrSetFeatureEpHalt (i l : BitVec 16) (s : State) : Host.Outcome State Fault Refusal :=
  runStep (hostSetup (setupWord 0x02 0x03 0 i l)) s
def execSrSetAddress (v i l : BitVec 16) (s : State) : Host.Outcome State Fault Refusal :=
  runStep (hostSetup (setupWord 0x00 0x05 v i l)) s
def execSrGetDescriptorDevice (x : BitVec 8) (i l : BitVec 16) (s : State) : Host.Outcome State Fault Refusal :=
  runStep (hostSetup (setupWord 0x80 0x06 (descValue 0x01 x) i l)) s
def execSrGetDescriptorConfiguration (x : BitVec 8) (i l : BitVec 16) (s : State) : Host.Outcome State Fault Refusal :=
  runStep (hostSetup (setupWord 0x80 0x06 (descValue 0x02 x) i l)) s
def execSrGetDescriptorString (x : BitVec 8) (i l : BitVec 16) (s : State) : Host.Outcome State Fault Refusal :=
  runStep (hostSetup (setupWord 0x80 0x06 (descValue 0x03 x) i l)) s
def execSrGetDescriptorDeviceQualifier (x : BitVec 8) (i l : BitVec 16) (s : State) :
    Host.Outcome State Fault Refusal :=
  runStep (hostSetup (setupWord 0x80 0x06 (descValue 0x06 x) i l)) s
def execSrGetDescriptorOtherSpeed (x : BitVec 8) (i l : BitVec 16) (s : State) : Host.Outcome State Fault Refusal :=
  runStep (hostSetup (setupWord 0x80 0x06 (descValue 0x07 x) i l)) s
def execSrGetConfiguration (v i l : BitVec 16) (s : State) : Host.Outcome State Fault Refusal :=
  runStep (hostSetup (setupWord 0x80 0x08 v i l)) s
def execSrSetConfiguration (v i l : BitVec 16) (s : State) : Host.Outcome State Fault Refusal :=
  runStep (hostSetup (setupWord 0x00 0x09 v i l)) s
def execSrGetInterface (v i l : BitVec 16) (s : State) : Host.Outcome State Fault Refusal :=
  runStep (hostSetup (setupWord 0x81 0x0A v i l)) s
def execSrSetInterface (v i l : BitVec 16) (s : State) : Host.Outcome State Fault Refusal :=
  runStep (hostSetup (setupWord 0x01 0x0B v i l)) s
def execSrStandardOther (d : BitVec 1) (c : BitVec 5) (r : BitVec 8) (v i l : BitVec 16) (s : State) :
    Host.Outcome State Fault Refusal :=
  runStep (hostSetup (setupWord (requestType d 0 c) r v i l)) s
def execSrClass (d : BitVec 1) (c : BitVec 5) (r : BitVec 8) (v i l : BitVec 16) (s : State) :
    Host.Outcome State Fault Refusal :=
  runStep (hostSetup (setupWord (requestType d 1 c) r v i l)) s
def execSrVendor (d : BitVec 1) (c : BitVec 5) (r : BitVec 8) (v i l : BitVec 16) (s : State) :
    Host.Outcome State Fault Refusal :=
  runStep (hostSetup (setupWord (requestType d 2 c) r v i l)) s
def execSrReservedType (d : BitVec 1) (c : BitVec 5) (r : BitVec 8) (v i l : BitVec 16) (s : State) :
    Host.Outcome State Fault Refusal :=
  runStep (hostSetup (setupWord (requestType d 3 c) r v i l)) s

end Sys2Proof.Machine
end

