-- ==== Sys2Proof/Machine/Dispatch.lean ====
section
/-! DEFINITION. The dispatch: one arm per instruction, each one call of its meaning. -/

namespace Sys2Proof.Machine

def exec (i : Instr) (s : State) : Host.Outcome State Fault Refusal :=
  match i with
  | .srGetStatusDevice val idx ln => Sys2Proof.Machine.execSrGetStatusDevice val idx ln s
  | .srGetStatusInterface val idx ln => Sys2Proof.Machine.execSrGetStatusInterface val idx ln s
  | .srGetStatusEndpoint val idx ln => Sys2Proof.Machine.execSrGetStatusEndpoint val idx ln s
  | .srClearFeatureEpHalt idx ln => Sys2Proof.Machine.execSrClearFeatureEpHalt idx ln s
  | .srSetFeatureEpHalt idx ln => Sys2Proof.Machine.execSrSetFeatureEpHalt idx ln s
  | .srSetAddress val idx ln => Sys2Proof.Machine.execSrSetAddress val idx ln s
  | .srGetDescriptorDevice x idx ln => Sys2Proof.Machine.execSrGetDescriptorDevice x idx ln s
  | .srGetDescriptorConfiguration x idx ln => Sys2Proof.Machine.execSrGetDescriptorConfiguration x idx ln s
  | .srGetDescriptorString x idx ln => Sys2Proof.Machine.execSrGetDescriptorString x idx ln s
  | .srGetDescriptorDeviceQualifier x idx ln => Sys2Proof.Machine.execSrGetDescriptorDeviceQualifier x idx ln s
  | .srGetDescriptorOtherSpeed x idx ln => Sys2Proof.Machine.execSrGetDescriptorOtherSpeed x idx ln s
  | .srGetConfiguration val idx ln => Sys2Proof.Machine.execSrGetConfiguration val idx ln s
  | .srSetConfiguration val idx ln => Sys2Proof.Machine.execSrSetConfiguration val idx ln s
  | .srGetInterface val idx ln => Sys2Proof.Machine.execSrGetInterface val idx ln s
  | .srSetInterface val idx ln => Sys2Proof.Machine.execSrSetInterface val idx ln s
  | .srStandardOther dr rc rq val idx ln => Sys2Proof.Machine.execSrStandardOther dr rc rq val idx ln s
  | .srClass dr rc rq val idx ln => Sys2Proof.Machine.execSrClass dr rc rq val idx ln s
  | .srVendor dr rc rq val idx ln => Sys2Proof.Machine.execSrVendor dr rc rq val idx ln s
  | .srReservedType dr rc rq val idx ln => Sys2Proof.Machine.execSrReservedType dr rc rq val idx ln s
  | .init d c => Sys2Proof.Machine.execInit d c s
  | .controlAck => Sys2Proof.Machine.execControlAck s
  | .controlIn len buf => Sys2Proof.Machine.execControlIn len buf s
  | .controlOut len buf k => Sys2Proof.Machine.execControlOut len buf k s
  | .bulkIn len buf k => Sys2Proof.Machine.execBulkIn len buf k s
  | .bulkOut len buf k => Sys2Proof.Machine.execBulkOut len buf k s
  | .interruptIn len buf k => Sys2Proof.Machine.execInterruptIn len buf k s
  | .stallControl => Sys2Proof.Machine.execStallControl s
  | .stallBulkIn => Sys2Proof.Machine.execStallBulkIn s
  | .stallBulkOut => Sys2Proof.Machine.execStallBulkOut s
  | .stallIntIn => Sys2Proof.Machine.execStallIntIn s
  | .getDeviceState => Sys2Proof.Machine.execGetDeviceState s
  | .isEndpointStalled p => Sys2Proof.Machine.execIsEndpointStalled p s
  | .cancel => Sys2Proof.Machine.execCancel s
  | .reset => Sys2Proof.Machine.execReset s
  | .resetEndpoints t => Sys2Proof.Machine.execResetEndpoints t s
  | .evtIsr => Sys2Proof.Machine.execEvtIsr s
  | .evtBemp0 => Sys2Proof.Machine.execEvtBemp0 s
  | .evtNrdy0 => Sys2Proof.Machine.execEvtNrdy0 s
  | .evtBrdy0 => Sys2Proof.Machine.execEvtBrdy0 s
  | .evtBemp p => Sys2Proof.Machine.execEvtBemp p s
  | .evtNrdy p => Sys2Proof.Machine.execEvtNrdy p s
  | .evtBrdy p => Sys2Proof.Machine.execEvtBrdy p s
  | .evtDvst => Sys2Proof.Machine.execEvtDvst s
  | .evtCtrt => Sys2Proof.Machine.execEvtCtrt s
  | .evtResm => Sys2Proof.Machine.execEvtResm s
  | .evtVbint => Sys2Proof.Machine.execEvtVbint s

end Sys2Proof.Machine
end

