-- ==== Sys2Proof/Machine/Agents.lean ====
section
/-! DEFINITION. One step of each agent (92_eei_decisions.md D1): running an encoded input, the task
waiter, the caller's memory accesses; and where a table word is placed so that the next step runs it. -/

namespace Sys2Proof.Machine

/-- Run an encoded input: the instruction it decodes to; a reserved word is refused (30_encoding.md R150). -/
def runInput (x : Input) (s : State) : Host.Outcome State Fault Refusal :=
  match decode x with
  | .ok i => exec i s
  | .error e => .refused (.reservedWord e)

/-- A command that is a step of its own is issued from task context (60_exceptions.md R442,
70_reset_and_hazards.md R451); those of a callback run inline in the pass (60_exceptions.md R441). -/
def runCommand (w : BitVec 32) (o : Operands) (s : State) : Host.Outcome State Fault Refusal :=
  runInput (.cmd w o) { s with ctx := .task }

/-- A waiter reads `busy[p]`, and once it is false the count and the error (20_memory.md R117). R117 orders these
reads; that they are one atomic step, with nothing between them, is the model's choice (log 44). -/
def waitPoll (p : Pipe) (s : State) : State :=
  let x := s.pipe p
  let r : WaitRead :=
    if x.busy then { pipe := p, done := false, len := 0, err := .ok }
    else { pipe := p, done := true, len := x.resLen, err := x.resErr }
  { s with waits := s.waits ++ [r] }

/-- Whether an address lies in `[a, a + n)`. -/
def inRange (x a n : Nat) : Bool := decide (a ≤ x) && decide (x < a + n)

/-- Whether an address lies in a blob. -/
def inBlob (x : Nat) (b : Option Blob) : Bool :=
  match b with
  | some b => inRange x b.addr.toNat b.len.toNat
  | none => false

/-- Whether an address lies in a blob of a descriptor set. -/
def inDescSet (x : Nat) (d : DescSet) : Bool :=
  inBlob x d.device || inBlob x d.config || inBlob x d.qualifier || inBlob x d.otherSpeed
    || d.strings.any (fun b => inBlob x (some b))

/-- Whether an address lies in the buffer of pipe p's transfer while the block uses it (20_memory.md R122).
R122 speaks of `busy[p]`, which pipe 0 never sets; that the buffer of its control-OUT data stage is in use while
the transfer is active is the model's choice (log 42). -/
def inBuffer (s : State) (x : Nat) (p : Pipe) : Bool :=
  ((s.pipe p).busy || (s.pipe p).xfer.active) && (s.pipe p).xfer.buf != 0
    && inRange x (s.pipe p).xfer.buf.toNat (s.pipe p).xfer.total

/-- The bytes a caller must not write: a buffer in use, a descriptor blob after `init`, the response
area (20_memory.md R122, R123). -/
def inUse (s : State) (x : Nat) : Bool :=
  allPipes.any (inBuffer s x)
    || (match s.desc with
        | some d => inDescSet x d
        | none => false)
    || inRange x s.params.respBase.toNat 2

/-- The bytes a caller must not read either: the buffer of a read transfer in use (20_memory.md R122), pipe 0's
among them by the model's choice (log 42). -/
def inArrival (s : State) (x : Nat) : Bool := allPipes.any fun p => inBuffer s x p && (s.pipe p).xfer.dir == .OUT

/-- A byte that a race decides: any value (20_memory.md R122). -/
def drawRaceByte (s : State) : Byte × State := (Config.freeRaceByte s.env.draws, s.tick)

/-- The caller writes a byte of its memory; where that is a race, the byte holds any value after it
(20_memory.md R122; log 23). -/
def callerWrite (a : Addr) (b : Byte) (s : State) : State :=
  let (b, s) := if inUse s a.toNat then drawRaceByte s else (b, s)
  { s with mem := s.mem.write a.toNat b }

/-- The caller reads a byte of its memory; where that is a race, it observes any value (20_memory.md R122). -/
def callerRead (a : Addr) (s : State) : State :=
  let (b, s) := if inArrival s a.toNat then drawRaceByte s else (s.mem.read a.toNat, s)
  { s with reads := s.reads ++ [⟨a, b⟩] }

/-- One step of the agent whose turn it is. -/
def perform (a : Action) (s : State) : Host.Outcome State Fault Refusal :=
  match a with
  | .cmd w o => runCommand w o s
  | .evt e => runInput (.evt e) s
  | .setup S => runInput (.setup S) s
  | .ctl c => .next (ctlStep c s)
  | .wait p => .next (waitPoll p s)
  | .callerWrite x b => .next (callerWrite x b s)
  | .callerRead x => .next (callerRead x s)

/-- The step that runs a table word. -/
def tableAction (nbits w : Nat) : Action :=
  match tableInput nbits w with
  | .setup S => .setup S
  | .cmd w o => .cmd w o
  | .evt e => .evt e

end Sys2Proof.Machine
end

