-- ==== Sys2Proof/Machine/Step.lean ====
section
/-! DEFINITION. One step of the machine: the agent at the head of the schedule moves; with an empty
schedule the ISR has its turn. -/

namespace Sys2Proof.Machine

/-- One step. After `fatal` no agent has one (70_reset_and_hazards.md R466). -/
def step (s : State) : Host.Outcome State Fault Refusal :=
  if s.fatal then .fault .stuckFatal
  else match s.inputs with
    | [] => exec .evtIsr s
    | a :: rest => perform a { s with inputs := rest }

/-- A table word placed at the head of the schedule: the next step runs it. -/
def State.withFetchWord (s : State) (nbits w : Nat) : State :=
  { s with inputs := tableAction nbits w :: s.inputs }

end Sys2Proof.Machine
end

