-- ==== Sys2Proof/Safety.lean ====
section
/-! DEFINITION. What counts as a sound state and a sound trace, and the terms in which the statements
describe a pass that serves one source, a setup packet that has arrived, and an answered bind. -/

namespace Sys2Proof.Machine

/-! ### The invariant of the channel -/

/-- The configurations in force, as a function of the pipe. -/
def cfgInForce (s : State) (p : Pipe) : Option EpCfg := if (s.pipe p).cfgValid then some (s.pipe p).cfg else none

/-- What a step keeps of the channel. -/
structure State.Inv (s : State) : Prop where
  /-- The parameters are legal ones (00_scope.md R14, 20_memory.md R123). -/
  params : s.params.Legal
  /-- Memory has its canonical form. -/
  memory : s.mem.wf = true
  /-- The Not-Ready counter is 0 to 3, and below 3 while a transfer is active (10_state.md R42, 43_pipe_dispatcher.md R271). -/
  retries : ∀ p, (s.pipe p).nrdyCount ≤ 3 ∧ ((s.pipe p).xfer.active = true → (s.pipe p).nrdyCount < 3)
  /-- Counts stay below their total, and totals are 32-bit numbers (10_state.md R40, R41, R46). -/
  counts : ∀ p, (s.pipe p).xfer.remaining ≤ (s.pipe p).xfer.total ∧ (s.pipe p).xfer.total < 2 ^ 32
    ∧ (s.pipe p).resLen < 2 ^ 32
  /-- The position of an active transfer is where its count says, and a discarding one does not move (42_transfer_engine.md R237). -/
  position : ∀ p, (s.pipe p).xfer.active = true → (s.pipe p).xfer.pos = (s.pipe p).xfer.buf.toNat
    + (if (s.pipe p).xfer.buf = 0 then 0 else (s.pipe p).xfer.total - (s.pipe p).xfer.remaining)
  /-- A transfer's buffer does not pass 2^32, and a sending one with bytes to send has a buffer (20_memory.md R102, 44_device_hal.md R330). -/
  range : ∀ p, (s.pipe p).xfer.active = true →
    ((s.pipe p).xfer.buf ≠ 0 → (s.pipe p).xfer.buf.toNat + (s.pipe p).xfer.total ≤ 2 ^ 32)
    ∧ ((s.pipe p).xfer.dir = .IN → (s.pipe p).xfer.buf = 0 → (s.pipe p).xfer.total = 0)
  /-- An active transfer runs on a configured pipe in that pipe's direction (44_device_hal.md R330, R339). -/
  direction : ∀ p, (s.pipe p).xfer.active = true → (s.pipe p).cfgValid = true ∧ (s.pipe p).xfer.dir = (s.pipe p).cfg.dir
  /-- A data pipe is busy exactly while its transfer is active; pipe 0 never is (10_state.md R46). -/
  lease : ∀ p, (s.pipe p).busy = (if p = 0 then false else (s.pipe p).xfer.active)
  /-- Pipe 0 has an active transfer exactly in CONTROL_OUT, and its retry counter is never used (44_device_hal.md R307, R339). -/
  control : ((s.pipe 0).xfer.active = true ↔ s.devState = .controlOut) ∧ (s.pipe 0).nrdyCount = 0
  /-- CONTROL_IN is left before its command ends (44_device_hal.md R338). -/
  notControlIn : s.devState ≠ .controlIn
  /-- Out of DISCONNECTED, the debounced VBUS level is high (44_device_hal.md R311, R312). -/
  connected : s.devState ≠ .disconnected → s.vbusLevel = true
  /-- Every configured data pipe has a legal configuration, and no two the same endpoint (10_state.md R45, R52). -/
  config : (∀ p, p ≠ 0 → (s.pipe p).cfgValid = true → recLegal ⟨p.val, (s.pipe p).cfg⟩ = true)
    ∧ endpointsDistinct (cfgInForce s) = true
  /-- A FIFO's owner is the pipe its select field names (41_fifo_binding.md R200, R201). -/
  owner : ∀ f p, (s.fifo f).owner = some p → (s.fifo f).sel = some p
  /-- Before `init` nothing runs (70_reset_and_hazards.md R450). -/
  boot : s.initialized = false → s.devState = .disconnected ∧ s.firstConnectFired = false ∧ s.configValue = 0
    ∧ s.vbusLevel = false ∧ ∀ p, (s.pipe p).xfer.active = false ∧ (p ≠ 0 → (s.pipe p).cfgValid = false)
  /-- After `init` the required descriptors and the callbacks are there, and pipe 0 is configured (10_state.md R37, R38, R44). -/
  served : s.initialized = true → (∃ d, s.desc = some d ∧ d.device.isSome = true ∧ d.config.isSome = true)
    ∧ s.cb.isSome = true ∧ (s.pipe 0).cfgValid = true ∧ (s.pipe 0).cfg.kind = .control ∧ (s.pipe 0).cfg.fifo = .C
    ∧ (s.pipe 0).cfg.bufSize = s.params.mps0.bytes ∧ (s.pipe 0).cfg.mps = s.params.mps0.bytes
  /-- Between steps the context is the task's, unless a pass ended in the fatal state. -/
  context : s.fatal = false → s.ctx = .task

/-! ### The discipline of the trace (70_reset_and_hazards.md R471, R474) -/

/-- Whether an entry may follow the one before it: a write of BUF to a pipe, and a write of a pipe's
configuration, come right after a write of NAK to that pipe. -/
def mayFollow (before : Option TraceEntry) (e : TraceEntry) : Bool :=
  match e with
  | .pid p .buf => before == some (.pid p .nak)
  | .pipeReg p _ => before == some (.pid p .nak)
  | _ => true

/-- Every entry may follow the one before it. -/
def disciplinedFrom (before : Option TraceEntry) : List TraceEntry → Bool
  | [] => true
  | e :: es => mayFollow before e && disciplinedFrom (some e) es

/-- A disciplined trace. -/
def disciplined (es : List TraceEntry) : Bool := disciplinedFrom none es

/-! ### Terms of the statements -/

/-- The block runs: initialised and not fatal. -/
def live (s : State) : Prop := s.initialized = true ∧ s.fatal = false

/-- Source x is seen by a pass and no other source is (44_device_hal.md R301). -/
def onlyPending (x : Source) (s : State) : Prop := pending s x = true ∧ ∀ y, y ≠ x → pending s y = false

/-- The state of a fallible bind's success or failure, less the answers it consumed: the owner and,
in the FIFO, the select field and the trace (41_fifo_binding.md R200). -/
def afterBind (p : Option Pipe) (f : FifoId) (d : Dir) (ok : Bool) (s : State) : State :=
  let s := s.modFifo f fun x => { x with sel := p, owner := if ok then p else none }
  { s with
    fifoIsel := if f = .C then d else s.fifoIsel
    trace := s.trace ++ .fifoSel f p :: (if f = .C then [.fifoIsel d] else []) }

/-- The status bit of a source (60_exceptions.md R405). -/
def statusBit (s : State) : Source → Bool
  | .bemp p => (s.pipe p).bempSts
  | .nrdy p => (s.pipe p).nrdySts
  | .brdy p => (s.pipe p).brdySts
  | .dvst => s.sts.dvst
  | .ctrt => s.sts.ctrt
  | .resm => s.sts.resm
  | .vbint => s.sts.vbint

/-- The next three reads of VBUS return v1, v2, v3 and leave `vs` lined up: the level held, or the answers
lined up while none is held (10_state.md R71, 30_encoding.md R160). -/
def vbusReads (v1 v2 v3 : Bool) (vs : List Bool) (s : State) : Prop :=
  (s.vbusHeld = none ∧ s.env.vbus = v1 :: v2 :: v3 :: vs)
    ∨ (∃ b, s.vbusHeld = some b ∧ v1 = b ∧ v2 = b ∧ v3 = b ∧ vs = s.env.vbus)

/-- The entries of the administrative binds (41_fifo_binding.md R211), each confirmed at once. -/
def adminTrace : List TraceEntry := [.fifoSel .C (some 0), .fifoIsel .OUT, .fifoSel .D0 none, .fifoSel .D1 none]

/-- The FIFOs after the administrative binds. -/
def adminBound (s : State) : State :=
  { s with
    fifoC := { s.fifoC with sel := some 0, owner := some 0 }
    fifoD0 := { s.fifoD0 with sel := none, owner := none }
    fifoD1 := { s.fifoD1 with sel := none, owner := none }
    fifoIsel := .OUT }

/-- The state in which the setup core resolves packet S: the pass has cleared the status bit, taken
the packet, written NAK to pipe 0, dropped a control-OUT data stage, and entered CONTROL_SETUP
(44_device_hal.md R300, R320, R321); the context is that of the state before. -/
def arrived (S : BitVec 64) (s : State) : State :=
  { s.modPipe 0 fun x =>
      { x with
        pid := .nak
        xfer := { x.xfer with active := false }
        brdyEnb := if x.xfer.active then false else x.brdyEnb } with
    devState := .controlSetup
    setup := decodePacket S
    setupData := S
    ctrlStage := .setupReceived
    setupValid := false
    sts := { s.sts with ctrt := false }
    trace := s.trace ++ [.ctrtClr, .setupValid false, .pid 0 .nak]
      ++ (if (s.pipe 0).xfer.active then [.brdyEnb 0 false] else []) }

/-- A setup packet will be taken by the next pass, alone, and decoded (44_device_hal.md R303, R321). -/
def takesSetup (s : State) : Prop :=
  live s ∧ s.devState ≠ .disconnected ∧ s.enb.ctre = true ∧ ∀ y, y ≠ .ctrt → pending s y = false

/-- The state after an acknowledgement of the status stage (44_device_hal.md R336). -/
def acked (s : State) : State :=
  { s.modPipe 0 fun x => { x with pid := .buf } with
    devState := .ready
    trace := s.trace ++ [.pid 0 .nak, .pid 0 .buf, .ctrlComplete] }

/-- The packet an instruction of the setup rows stands for. -/
def packetOf (i : Instr) : Option (BitVec 64) :=
  match encode i with
  | .setup S => some S
  | .cmd _ _ => none
  | .evt _ => none

/-- The blob a descriptor request asks for, if the setup core serves it (45_setup_decoder.md R379 to R383). -/
def blobAsked (i : Instr) (s : State) : Option Blob :=
  match i, s.desc with
  | .srGetDescriptorDevice _ _ _, some d => d.device
  | .srGetDescriptorConfiguration x _ _, some d => if x = 0 then d.config else none
  | .srGetDescriptorString x idx _, some d =>
    if x = 0 then d.strings[0]? else if idx = d.langId then d.strings[x.toNat]? else none
  | .srGetDescriptorDeviceQualifier _ _ _, some d => d.qualifier
  | .srGetDescriptorOtherSpeed x _ _, some d => if x = 0 then d.otherSpeed else none
  | _, _ => none

/-- The setup requests the block passes to the class layer (45_setup_decoder.md R362): the catch-all
rows, a descriptor that is not there, an endpoint that no pipe binds. -/
def delegated (i : Instr) (s : State) : Bool :=
  match i with
  | .srStandardOther _ _ _ _ _ _ => true
  | .srClass _ _ _ _ _ _ => true
  | .srVendor _ _ _ _ _ _ => true
  | .srReservedType _ _ _ _ _ _ => true
  | .srGetDescriptorDevice _ _ _ => (blobAsked i s).isNone
  | .srGetDescriptorConfiguration _ _ _ => (blobAsked i s).isNone
  | .srGetDescriptorString _ _ _ => (blobAsked i s).isNone
  | .srGetDescriptorDeviceQualifier _ _ _ => (blobAsked i s).isNone
  | .srGetDescriptorOtherSpeed _ _ _ => (blobAsked i s).isNone
  | .srGetStatusEndpoint _ idx _ => (pipeOfEp idx s).isNone
  | .srClearFeatureEpHalt idx _ => (pipeOfEp idx s).isNone
  | .srSetFeatureEpHalt idx _ => (pipeOfEp idx s).isNone
  | _ => false

/-- The bytes the setup core answers from the response area, of a request it answers so
(45_setup_decoder.md R370 to R372, R385, R386). -/
def responseOf (i : Instr) (s : State) : Option (List Byte) :=
  match i with
  | .srGetStatusDevice _ _ _ => some [0x00, 0x00]
  | .srGetStatusInterface _ _ _ => some [0x00, 0x00]
  | .srGetStatusEndpoint _ idx _ =>
    (pipeOfEp idx s).map fun p => if p ≠ 0 ∧ (s.pipe p).pid = .stall then [0x01, 0x00] else [0x00, 0x00]
  | .srGetConfiguration _ _ _ => some [s.configValue]
  | .srGetInterface _ _ _ => some [0x00]
  | _ => none

/-- The number of accesses that send n bytes in buffers of bs bytes (42_transfer_engine.md R224, 90_conflicts.md C1). -/
def accessesFor (n bs : Nat) : Nat := max 1 ((n + bs - 1) / bs)

/-- The writes and actions of a control-IN data stage until k of its accesses have bound (44_device_hal.md R338). -/
def stageTrace (k : Nat) : List TraceEntry :=
  [.fifoSel .C (some 0), .fifoIsel .IN, .bufferClear .C] ++ (List.replicate k [TraceEntry.fifoSel .C (some 0), .fifoIsel .IN]).flatten

/-- The writes and actions of a control-IN data stage of k accesses that succeeds (44_device_hal.md R338). -/
def controlInTrace (k : Nat) : List TraceEntry :=
  stageTrace k ++ [.dataValid .C, .pid 0 .nak, .pid 0 .buf, .ctrlComplete]

/-- The state after a control-IN data stage that sends n bytes from `buf` in k accesses, each bind and
each wait answered at once (44_device_hal.md R338). -/
def sentIn (buf : Addr) (n k : Nat) (s : State) : State :=
  { s.modPipe 0 fun x =>
      { x with
        pid := .buf
        cfg := { x.cfg with dir := .IN }
        xfer := { active := false, dir := .IN, buf := buf, pos := buf.toNat + n, total := n, remaining := 0, done := none }
        building := []
        sent := x.sent ++ packetsOf s.params.mps0.bytes (s.mem.readBytes buf.toNat n) } with
    devState := .ready
    fifoC := { sel := some 0, owner := some 0 }
    fifoIsel := .IN
    trace := s.trace ++ controlInTrace k
    env := { s.env with fifoCur := s.env.fifoCur.drop (k + 1), fifoReady := s.env.fifoReady.drop (k - 1) } }

/-- What a `controlIn` that fails leaves when j full buffers of its data stage have been sent: BIND_TIMEOUT, READY,
pipe 0 stalled and its transfer dropped, `onError` called, and nothing else sent or written (44_device_hal.md R338). -/
def stageFailed (buf : Addr) (j : Nat) (s t : State) : Prop :=
  t.result = some (.code .bindTimeout) ∧ t.devState = .ready ∧ (t.pipe 0).pid = .stall ∧ (t.pipe 0).xfer.active = false
  ∧ (t.pipe 0).sent = (s.pipe 0).sent
      ++ (List.range j).map (fun i => s.mem.readBytes (buf.toNat + i * s.params.mps0.bytes) s.params.mps0.bytes)
  ∧ t.calls = s.calls ++ [⟨.onError, s.cb.map (·.onError), .code .bindTimeout⟩] ∧ t.mem = s.mem
  ∧ ∀ p, p ≠ 0 → t.pipe p = s.pipe p

/-- The first polls of the next k + 1 binds and k - 1 waits of a control-IN data stage succeed. -/
def answersIn (k : Nat) (s : State) : Prop :=
  0 < s.params.bindPollBudget ∧ 0 < s.params.ctrlInPollBudget
    ∧ s.env.fifoCur.take (k + 1) = List.replicate (k + 1) (some 0)
    ∧ s.env.fifoReady.take (k - 1) = List.replicate (k - 1) true

/-- The class layer does nothing in the next callback but answer. -/
def classIdle (a : SetupAnswer) (s : State) : Prop := s.env.classSteps.head? = some ⟨a, []⟩

/-- The state once that callback has been invoked and returned. -/
def called (c : Call) (s : State) : State :=
  { s with calls := s.calls ++ [c], env := { s.env with classSteps := s.env.classSteps.tail } }

/-- The checks of a data-transfer start, in their order, each with the error of the start that breaks
it first (44_device_hal.md R330, 60_exceptions.md R421). -/
def startChecks (p : Pipe) (d : Dir) (len : Len) (buf : Addr) (s : State) : List (Bool × ErrCode) :=
  [(!s.initialized, .state),
   (decide (s.devState = .disconnected), .notConnected),
   (!(s.pipe p).cfgValid || decide ((s.pipe p).cfg.dir ≠ d), .state),
   (decide (d = .IN ∧ buf = 0 ∧ 0 < len.toNat), .state),
   (decide (buf ≠ 0 ∧ 2 ^ 32 < buf.toNat + len.toNat), .state),
   ((s.pipe p).busy, .busy),
   (decide ((s.pipe p).pstate = .noResponse), .noResponse),
   (decide ((s.pipe p).pstate = .stall ∨ (s.pipe p).pid = .stall), .stall)]

/-- The error of a start: that of the first check it breaks. -/
def startBroken (p : Pipe) (d : Dir) (len : Len) (buf : Addr) (s : State) : Option ErrCode :=
  ((startChecks p d len buf s).find? (·.1)).map (·.2)

/-- The state after a start that breaks no check (44_device_hal.md R330). -/
def started (p : Pipe) (d : Dir) (len : Len) (buf : Addr) (k : Option CbId) (s : State) : State :=
  { s.modPipe p fun x =>
      { x with
        xfer := { active := true, dir := d, buf := buf, pos := buf.toNat, total := len.toNat, remaining := len.toNat, done := k }
        nrdyCount := 0
        busy := true
        pstate := .waiting
        bempEnb := false
        brdyEnb := true
        nrdyEnb := true
        pid := .buf } with
    trace := s.trace ++ [.bempEnb p false, .brdyEnb p true, .nrdyEnb p true, .pid p .nak, .pid p .buf]
    result := some (.code .ok) }

/-- A command that returns an error and writes nothing. -/
def turnedAway (e : ErrCode) (s : State) : State := { s with result := some (.code e) }

/-- A configuration table is legal in a state (10_state.md R52, 44_device_hal.md R349). -/
def LegalTable (t : List CfgRec) (s : State) : Prop :=
  (∀ r ∈ t, 1 ≤ r.pipe ∧ r.pipe ≤ 9 ∧ 1 ≤ r.ep.mps ∧ r.ep.mps ≤ r.ep.bufSize ∧ r.ep.bufSize % r.ep.mps = 0
    ∧ 1 ≤ r.ep.epNum ∧ r.ep.epNum ≤ 15 ∧ r.ep.kind ≠ .control)
  ∧ t.Pairwise (fun a b => a.pipe ≠ b.pipe)
  ∧ ∀ p q a b, p ≠ 0 → q ≠ 0 → p ≠ q → cfgAfter t s p = some a → cfgAfter t s q = some b →
      ¬ (a.epNum = b.epNum ∧ a.dir = b.dir)

/-- The entries that programming one record leaves (44_device_hal.md R349). -/
def programTrace (r : CfgRec) : List TraceEntry :=
  match recPipe r with
  | some p => [.pid p .nak, .pipeReg p r.ep, .toggle p .data0, .brdyEnb p false, .nrdyEnb p false, .bempEnb p false]
  | none => []

/-- A pipe that a record has programmed (44_device_hal.md R349). -/
def programmed (r : EpCfg) (x : PipeState) : PipeState :=
  { x with
    pid := .nak
    cfg := r
    cfgValid := true
    pipeReg := r
    toggle := .data0
    brdyEnb := false
    nrdyEnb := false
    bempEnb := false
    pstate := .idle
    nrdyCount := 0 }

/-- A pipe after `Reset` (44_device_hal.md R345). -/
def silenced (x : PipeState) : PipeState :=
  { x with
    xfer := { x.xfer with active := false }
    busy := false
    nrdyCount := 0
    pstate := .idle
    brdyEnb := false
    nrdyEnb := false
    bempEnb := false }

/-- The outcomes of the accesses of a write, up to the first that is not CONTINUE, at most `fuel` of them. -/
def writeOutcomes (p : Pipe) : Nat → State → List Access
  | 0, _ => []
  | n + 1, s =>
    match writeAccess p s with
    | (r, t) => r :: (if r = .CONTINUE then writeOutcomes p n t else [])

/-- The state in which the handler of a per-pipe event runs: its status bit cleared, the context the ISR's
(44_device_hal.md R305). -/
def brdyEntered (p : Pipe) (s : State) : State :=
  { s.modPipe p fun x => { x with brdySts := false } with trace := s.trace ++ [.brdyClr p], ctx := .isr }

/-- The transfer of a pipe, ended with an error code (43_pipe_dispatcher.md R280). -/
def ended (e : ErrCode) (x : PipeState) : PipeState :=
  { x with
    resLen := x.xfer.total - x.xfer.remaining
    resErr := e
    xfer := { x.xfer with active := false }
    busy := false }

/-- The callback that ends the transfer of pipe p invoked, if it has one, and nothing else done. -/
def notified (p : Pipe) (e : ErrCode) (s : State) : State :=
  match completionCall p e ((s.pipe p).xfer.total - (s.pipe p).xfer.remaining) s with
  | some c => called c s
  | none => s

end Sys2Proof.Machine
end

