-- ==== Sys2Proof/Certificates/Slice0/Obligations.lean ====
section
/-! DEFINITION. The statements for the provers. A state after an instruction is written out in full, as a
record update of the state before, so that a statement is also the instruction's frame. -/

open Sys2Proof Sys2Proof.Machine

/-! ### Encoding -/

/-- Decoding what the encoder writes gives the instruction back, for every well-formed instruction
(30_encoding.md R130, R136, R140, R145). -/
def Obligations.DecodeEncode : Prop :=
  ∀ i : Instr, WellFormed i → decode (encode i) = .ok i

/-- Every setup packet is one well-formed instruction, and a command or event word that decodes is one; the input
is that instruction's encoding (30_encoding.md R137, R140, R145, R151). For event words this rests on the model's
reading that a word with bits set that R145 gives as 0 is refused (log 41). -/
def Obligations.DecodedInputIsEncoding : Prop :=
  (∀ S : BitVec 64, decode (.setup S) = .ok (decodeSetup S) ∧ WellFormed (decodeSetup S) ∧ encode (decodeSetup S) = .setup S)
  ∧ (∀ w o i, decode (.cmd w o) = .ok i → WellFormed i ∧ ∃ o', encode i = .cmd w o')
  ∧ ∀ e i, decode (.evt e) = .ok i → WellFormed i ∧ encode i = .evt e

/-- The reserved words, each refused, and no other command word (30_encoding.md R150). -/
def Obligations.ReservedWordsRefused : Prop :=
  (∀ w o, (∃ e, decode (.cmd w o) = .error e) ↔
    (cmdOp w = 0 ∨ 0x0E ≤ (cmdOp w).toNat ∨ cmdRest w ≠ 0
      ∨ (cmdOp w ≠ 0x08 ∧ cmdOp w ≠ 0x0A ∧ cmdArg w ≠ 0) ∨ (cmdOp w = 0x08 ∧ 4 ≤ (cmdArg w).toNat)))
  ∧ (∀ e, (evtCode e ∉ [0x00, 0x01, 0x02, 0x03, 0x10, 0x11, 0x12, 0x13]
      ∨ (evtCode e ∈ [0x01, 0x02, 0x03] ∧ 9 < (evtPipe e).toNat)) → ∃ r, decode (.evt e) = .error r)
  ∧ (∀ x r s, decode x = .error r → runInput x s = .refused (.reservedWord r))
  ∧ ∀ (a : BitVec 4) (s : State), s.fatal = false → 10 ≤ a.toNat →
      exec (.isEndpointStalled a) s = .next { s with result := some (.flag false) }

/-- Words of 95_test_vectors.md, part 2, and the instructions they stand for. -/
def Obligations.DecodedWords : Prop :=
  decode (.cmd 0x00000005 {}) = .ok (.bulkIn 0 0 none)
  ∧ decode (.cmd 0x00000108 {}) = .ok .stallBulkIn
  ∧ decode (.cmd 0x0000020A {}) = .ok (.isEndpointStalled 2)
  ∧ decode (.evt 0x0203) = .ok (.evtBrdy 2)
  ∧ decode (.evt 0x0013) = .ok .evtVbint
  ∧ decode (.setup 0x0040000001000680) = .ok (.srGetDescriptorDevice 0 0 64)
  ∧ decode (.setup 0x0000008100000102) = .ok (.srClearFeatureEpHalt 0x81 0)
  ∧ decode (.setup 0x0008000002000921) = .ok (.srClass 0 1 9 0x0200 0 8)

/-! ### The step -/

/-- A step runs the instruction its input decodes to: a command in task context, an event or a setup
packet as it is, and with nothing scheduled the ISR's turn (logs 1, 2, 13). -/
def Obligations.StepRunsDecoded : Prop :=
  ∀ s : State, s.fatal = false →
    (∀ w o rest i, s.inputs = .cmd w o :: rest → decode (.cmd w o) = .ok i →
      step s = exec i { s with inputs := rest, ctx := .task })
    ∧ (∀ e rest i, s.inputs = .evt e :: rest → decode (.evt e) = .ok i → step s = exec i { s with inputs := rest })
    ∧ (∀ S rest i, s.inputs = .setup S :: rest → decode (.setup S) = .ok i → step s = exec i { s with inputs := rest })
    ∧ (s.inputs = [] → step s = exec .evtIsr s)

/-- After `fatal` nothing has a step; and an `init` whose binds exhaust their attempts ends with
`fatal` set and no result of its own (70_reset_and_hazards.md R466). -/
def Obligations.FatalIsStuck : Prop :=
  (∀ s : State, s.fatal = true → step s = .fault .stuckFatal ∧ ∀ i, exec i s = .fault .stuckFatal)
  ∧ ∀ (d : DescSet) (c : Callbacks) (s t : State), s.fatal = false → exec (.init d c) s = .next t →
      t.fatal = true → t.result = s.result

/-! ### Power-on, `init`, reset -/

/-- The channel at power-on (10_state.md R85). -/
def Obligations.PowerOnChannel : Prop :=
  State.reset.initialized = false ∧ State.reset.fatal = false ∧ State.reset.devState = .disconnected
  ∧ State.reset.firstConnectFired = false ∧ State.reset.configValue = 0 ∧ State.reset.vbusLevel = false
  ∧ State.reset.setup = ⟨0, 0, 0, 0, 0, 0, 0, 0⟩ ∧ State.reset.desc = none ∧ State.reset.cb = none
  ∧ (∀ p, (State.reset.pipe p).pstate = .idle ∧ (State.reset.pipe p).xfer.active = false
      ∧ (State.reset.pipe p).busy = false ∧ (State.reset.pipe p).resLen = 0 ∧ (State.reset.pipe p).resErr = .ok
      ∧ (State.reset.pipe p).nrdyCount = 0 ∧ (p ≠ 0 → (State.reset.pipe p).cfgValid = false))
  ∧ ∀ f, (State.reset.fifo f).owner = none

/-- Before the first successful `init` every command but three returns STATE and writes nothing
(44_device_hal.md R341). -/
def Obligations.CommandsBeforeInit : Prop :=
  ∀ s : State, s.fatal = false → s.initialized = false →
    (∀ i ∈ [Instr.controlAck, .stallControl, .stallBulkIn, .stallBulkOut, .stallIntIn, .cancel, .reset],
      exec i s = .next (turnedAway .state s))
    ∧ (∀ len buf, exec (.controlIn len buf) s = .next (turnedAway .state s))
    ∧ (∀ len buf k, exec (.controlOut len buf k) s = .next (turnedAway .state s)
        ∧ exec (.bulkIn len buf k) s = .next (turnedAway .state s)
        ∧ exec (.bulkOut len buf k) s = .next (turnedAway .state s)
        ∧ exec (.interruptIn len buf k) s = .next (turnedAway .state s))
    ∧ (∀ t, exec (.resetEndpoints t) s = .next (turnedAway .state s))
    ∧ (s.devState = .disconnected → exec .getDeviceState s = .next { s with result := some (.byte 0x00) })
    ∧ ∀ a, exec (.isEndpointStalled a) s = .next { s with result := some (.flag false) }

/-- `init` with the administrative binds confirmed at once and no agreement on VBUS high: everything
44_device_hal.md R340 writes, and nothing else (the fields of pipe 0's configuration that it does not name are kept, log 32). -/
def Obligations.InitWithoutVbus : Prop :=
  ∀ (d : DescSet) (c : Callbacks) (s : State) (xs : List (Option Pipe)) (v1 v2 v3 : Bool) (vs : List Bool),
    s.fatal = false → d.device.isSome = true → d.config.isSome = true →
    0 < s.params.bindPollBudget → 0 < s.params.uncondAttempts →
    s.env.fifoCur = some 0 :: none :: none :: xs → vbusReads v1 v2 v3 vs s →
    (v1 && v2 && v3) = false →
    exec (.init d c) s = .next
      { adminBound ((s.modPipe 0 fun x =>
          { x with
            cfgValid := true
            cfg := { x.cfg with kind := .control, fifo := .C, bufSize := s.params.mps0.bytes,
                                mps := s.params.mps0.bytes } }).modAllPipes silenced) with
        desc := some d
        cb := some c
        initialized := true
        firstConnectFired := false
        configValue := 0
        vbusLevel := false
        devState := .disconnected
        enb := ⟨true, true, true, true, true, true, true⟩
        trace := s.trace ++ resetTrace ++ adminTrace
        env := { s.env with fifoCur := xs, vbus := vs }
        result := some (.code .ok) }

/-- `init` with VBUS debounced high repeats the reset and the administrative binds and stays
DISCONNECTED (44_device_hal.md R340, R315); without a device or a configuration descriptor it returns
STATE. -/
def Obligations.InitAttaches : Prop :=
  (∀ (d : DescSet) (c : Callbacks) (s : State) (xs : List (Option Pipe)) (vs : List Bool),
    s.fatal = false → d.device.isSome = true → d.config.isSome = true →
    0 < s.params.bindPollBudget → 0 < s.params.uncondAttempts →
    s.env.fifoCur = some 0 :: none :: none :: some 0 :: none :: none :: xs → vbusReads true true true vs s →
    ∃ t, exec (.init d c) s = .next t ∧ t.devState = .disconnected ∧ t.vbusLevel = true ∧ t.initialized = true
      ∧ t.trace = s.trace ++ resetTrace ++ adminTrace ++ resetTrace ++ adminTrace
      ∧ t.fifoC.owner = some 0 ∧ t.fifoD0.owner = none ∧ t.fifoD1.owner = none
      ∧ t.result = some (.code .ok))
  ∧ ∀ (d : DescSet) (c : Callbacks) (s : State), s.fatal = false → (d.device = none ∨ d.config = none) →
      exec (.init d c) s = .next (turnedAway .state s)

/-- `reset` (44_device_hal.md R345). -/
def Obligations.ResetCommand : Prop :=
  ∀ s : State, s.fatal = false →
    exec .reset s = .next
      (if s.initialized then
        { s.modAllPipes silenced with
          enb := ⟨true, true, true, true, true, true, true⟩
          devState := match s.devState with
            | .controlSetup => .ready
            | .controlIn => .ready
            | .controlOut => .ready
            | .disconnected => .disconnected
            | .ready => .ready
          trace := s.trace
            ++ [.brdyEnb 0 false, .nrdyEnb 0 false, .bempEnb 0 false, .brdyEnb 1 false, .nrdyEnb 1 false, .bempEnb 1 false,
                .brdyEnb 2 false, .nrdyEnb 2 false, .bempEnb 2 false, .brdyEnb 3 false, .nrdyEnb 3 false, .bempEnb 3 false,
                .brdyEnb 4 false, .nrdyEnb 4 false, .bempEnb 4 false, .brdyEnb 5 false, .nrdyEnb 5 false, .bempEnb 5 false,
                .brdyEnb 6 false, .nrdyEnb 6 false, .bempEnb 6 false, .brdyEnb 7 false, .nrdyEnb 7 false, .bempEnb 7 false,
                .brdyEnb 8 false, .nrdyEnb 8 false, .bempEnb 8 false, .brdyEnb 9 false, .nrdyEnb 9 false, .bempEnb 9 false]
            ++ [.master .vbse true, .master .rsme true, .master .dvse true, .master .ctre true, .master .brdye true,
                .master .nrdye true, .master .bempe true]
          result := some (.code .ok) }
      else turnedAway .state s)

/-- `reset` twice leaves the state of once, but for the same 37 writes again in the trace
(44_device_hal.md R347). -/
def Obligations.ResetTwice : Prop :=
  ∀ s t : State, live s → exec .reset s = .next t →
    (∃ es, es.length = 37 ∧ t.trace = s.trace ++ es ∧ exec .reset t = .next { t with trace := t.trace ++ es })
    ∧ ∀ p, (t.pipe p).pstate = .idle ∧ (t.pipe p).nrdyCount = 0

/-- `cancel` (44_device_hal.md R346): the count and the error of every pending transfer, then the reset;
no callback. -/
def Obligations.CancelCommand : Prop :=
  ∀ s : State, s.fatal = false →
    exec .cancel s = .next
      (if s.initialized then
        { s.modAllPipes fun x =>
            silenced (if x.xfer.active || x.busy then { x with resLen := 0, resErr := .notConnected } else x) with
          enb := ⟨true, true, true, true, true, true, true⟩
          devState := if s.devState.isControl then .ready else s.devState
          trace := s.trace ++ resetTrace
          result := some (.code .ok) }
      else turnedAway .state s)

/-! ### Data-transfer starts -/

/-- A start that breaks no check starts the transfer and writes nothing else (44_device_hal.md R330 to R333). -/
def Obligations.StartsTransfer : Prop :=
  ∀ (len : Len) (buf : Addr) (k : Option CbId) (s : State), s.fatal = false →
    (startBroken 2 .IN len buf s = none → exec (.bulkIn len buf k) s = .next (started 2 .IN len buf k s))
    ∧ (startBroken s.params.pipeBulkOut .OUT len buf s = none →
        exec (.bulkOut len buf k) s = .next (started s.params.pipeBulkOut .OUT len buf k s))
    ∧ (startBroken s.params.pipeIntIn .IN len buf s = none →
        exec (.interruptIn len buf k) s = .next (started s.params.pipeIntIn .IN len buf k s))

/-- A start that breaks several checks reports the first and writes nothing (60_exceptions.md R421). -/
def Obligations.StartReportsFirstError : Prop :=
  ∀ (len : Len) (buf : Addr) (k : Option CbId) (s : State) (e : ErrCode), s.fatal = false →
    (startBroken 2 .IN len buf s = some e → exec (.bulkIn len buf k) s = .next (turnedAway e s))
    ∧ (startBroken s.params.pipeBulkOut .OUT len buf s = some e → exec (.bulkOut len buf k) s = .next (turnedAway e s))
    ∧ (startBroken s.params.pipeIntIn .IN len buf s = some e → exec (.interruptIn len buf k) s = .next (turnedAway e s))

/-! ### Control commands, stall, queries, configuration -/

/-- `controlAck` inside `onSetup` (44_device_hal.md R335, R336; issued in another callback: log 15). -/
def Obligations.ControlAckCommand : Prop :=
  ∀ s : State, s.fatal = false → s.ctx = .onSetup →
    exec .controlAck s = .next
      (if s.initialized = true ∧ s.devState = .controlSetup then
        { s.modPipe 0 fun x => { x with pid := .buf } with
          devState := .ready
          trace := s.trace ++ [.pid 0 .nak, .pid 0 .buf, .ctrlComplete]
          result := some (.code .ok) }
      else turnedAway .state s)

/-- `controlOut` inside `onSetup` (44_device_hal.md R339); a range that wraps is refused with STATE too
(93_implementation_defined.md U22, log 40). -/
def Obligations.ControlOutCommand : Prop :=
  ∀ (len : Len) (buf : Addr) (k : Option CbId) (s : State), s.fatal = false → s.ctx = .onSetup →
    exec (.controlOut len buf k) s = .next
      (if s.initialized = true ∧ s.devState = .controlSetup ∧ len.toNat = s.setup.length.toNat ∧ len ≠ 0
          ∧ (buf ≠ 0 → buf.toNat + len.toNat ≤ 2 ^ 32) then
        { s.modPipe 0 fun x =>
            { x with
              cfg := { x.cfg with dir := .OUT }
              xfer := { active := true, dir := .OUT, buf := buf, pos := buf.toNat, total := len.toNat,
                        remaining := len.toNat, done := k }
              brdyEnb := true
              pid := .buf } with
          devState := .controlOut
          trace := s.trace ++ [.brdyEnb 0 true, .pid 0 .nak, .pid 0 .buf]
          result := some (.code .ok) }
      else turnedAway .state s)

/-- `controlIn` inside `onSetup` sends `min(len, setup.length)` bytes from `buf` and returns to READY, each
bind and each wait answered at once; with no data stage it acknowledges; in the wrong sub-state, from
the null buffer, or of a range that wraps it returns STATE (44_device_hal.md R335, R337, R338,
93_implementation_defined.md U22, log 40). The packets are the model's reading (logs 21, 39). -/
def Obligations.ControlInCommand : Prop :=
  ∀ (len : Len) (buf : Addr) (s : State), live s → s.ctx = .onSetup →
    let n := min len.toNat s.setup.length.toNat
    let k := accessesFor n s.params.mps0.bytes
    (s.devState = .controlSetup → s.setup.length ≠ 0 → (buf = 0 → n = 0) → (buf ≠ 0 → buf.toNat + len.toNat ≤ 2 ^ 32) →
      answersIn k s →
      exec (.controlIn len buf) s = .next { sentIn buf n k s with result := some (.code .ok) })
    ∧ (s.devState = .controlSetup → s.setup.length = 0 →
      exec (.controlIn len buf) s = .next { acked s with result := some (.code .ok) })
    ∧ (s.devState ≠ .controlSetup
        ∨ (s.setup.length ≠ 0 ∧ ((buf = 0 ∧ n ≠ 0) ∨ (buf ≠ 0 ∧ 2 ^ 32 < buf.toNat + len.toNat))) →
      exec (.controlIn len buf) s = .next (turnedAway .state s))

/-- A `controlIn` that fails stalls pipe 0, returns to READY, calls `onError` and returns BIND_TIMEOUT; the full
buffers of the accesses that went before are sent, and nothing else (44_device_hal.md R338, 41_fifo_binding.md R205;
logs 21, 39). It fails when the bind that opens its data stage is never confirmed, when the bind of an access is not, and
when the wait before an access finds FIFO C not ready CTRL_IN_POLL_BUDGET times; every bind and wait before is
answered at once, and the class layer does nothing in the callback. -/
def Obligations.ControlInBindTimeout : Prop :=
  ∀ (len : Len) (buf : Addr) (s : State) (xs : List (Option Pipe)), live s → s.ctx = .onSetup →
    s.devState = .controlSetup → s.setup.length ≠ 0 → (buf = 0 → min len.toNat s.setup.length.toNat = 0) →
    (buf ≠ 0 → buf.toNat + len.toNat ≤ 2 ^ 32) → (∃ a, classIdle a s) →
    (∀ ws : List (Option Pipe), ws.length = s.params.bindPollBudget → (∀ w ∈ ws, w ≠ some 0) →
      (s.env.fifoCur = ws ++ xs →
        ∃ t, exec (.controlIn len buf) s = .next t ∧ stageFailed buf 0 s t ∧ t.fifoC.owner = none
          ∧ t.trace = s.trace ++ [.fifoSel .C (some 0), .fifoIsel .IN, .pid 0 .stall]
          ∧ t.env.fifoCur = xs ∧ t.env.fifoReady = s.env.fifoReady)
      ∧ ∀ (j : Nat) (rs : List Bool),
        (j = 0 ∨ j * s.params.mps0.bytes < min len.toNat s.setup.length.toNat) →
        0 < s.params.bindPollBudget → 0 < s.params.ctrlInPollBudget →
        s.env.fifoCur = List.replicate (j + 1) (some 0) ++ ws ++ xs → s.env.fifoReady = List.replicate j true ++ rs →
        ∃ t, exec (.controlIn len buf) s = .next t ∧ stageFailed buf j s t ∧ t.fifoC.owner = none
          ∧ t.trace = s.trace ++ stageTrace (j + 1) ++ [.pid 0 .stall] ∧ t.env.fifoCur = xs ∧ t.env.fifoReady = rs)
    ∧ ∀ (j : Nat) (rs : List Bool), 0 < j → j * s.params.mps0.bytes < min len.toNat s.setup.length.toNat →
        0 < s.params.bindPollBudget → 0 < s.params.ctrlInPollBudget →
        s.env.fifoCur = List.replicate (j + 1) (some 0) ++ xs →
        s.env.fifoReady = List.replicate (j - 1) true ++ List.replicate s.params.ctrlInPollBudget false ++ rs →
        ∃ t, exec (.controlIn len buf) s = .next t ∧ stageFailed buf j s t ∧ t.fifoC.owner = some 0
          ∧ t.trace = s.trace ++ stageTrace j ++ [.pid 0 .stall] ∧ t.env.fifoCur = xs ∧ t.env.fifoReady = rs

/-- A control command from task context has no step (70_reset_and_hazards.md R473); inside `onSetup` it has
one, with the result its sub-state gives it (44_device_hal.md R335); and in any other callback it returns STATE and
writes nothing, which is the model's reading (60_exceptions.md R417, R441; logs 13, 15). -/
def Obligations.ControlCommandContext : Prop :=
  ∀ s : State, live s →
    (s.ctx = .task → exec .controlAck s = .refused .taskControlCommand
      ∧ (∀ len buf, exec (.controlIn len buf) s = .refused .taskControlCommand)
      ∧ (∀ len buf k, exec (.controlOut len buf k) s = .refused .taskControlCommand)
      ∧ exec .stallControl s = .refused .taskControlCommand)
    ∧ (s.ctx = .isr → exec .controlAck s = .next (turnedAway .state s)
      ∧ (∀ len buf, exec (.controlIn len buf) s = .next (turnedAway .state s))
      ∧ (∀ len buf k, exec (.controlOut len buf k) s = .next (turnedAway .state s))
      ∧ exec .stallControl s = .next (turnedAway .state s))
    ∧ (s.ctx = .onSetup → s.devState ≠ .controlSetup → exec .controlAck s = .next (turnedAway .state s)
      ∧ (∀ len buf, exec (.controlIn len buf) s = .next (turnedAway .state s))
      ∧ ∀ len buf k, exec (.controlOut len buf k) s = .next (turnedAway .state s))

/-- `stall` of every class, of the control class inside `onSetup` (in another callback: log 15); before `init` each
returns STATE (44_device_hal.md R342). -/
def Obligations.StallCommand : Prop :=
  ∀ s : State, s.fatal = false →
    let stalled (p : Pipe) : State :=
      if s.initialized then
        { s.modPipe p fun x => { x with pid := .stall } with trace := s.trace ++ [.pid p .stall], result := some (.code .ok) }
      else turnedAway .state s
    exec .stallBulkIn s = .next (stalled 2)
    ∧ exec .stallBulkOut s = .next (stalled s.params.pipeBulkOut)
    ∧ exec .stallIntIn s = .next (stalled s.params.pipeIntIn)
    ∧ (s.ctx = .onSetup → exec .stallControl s = .next
        (if s.initialized = true ∧ s.devState ∈ [.controlSetup, .controlIn, .controlOut] then
          { s.modPipe 0 fun x =>
              { x with pid := .stall, xfer := { x.xfer with active := false }, brdyEnb := false } with
            devState := .ready
            trace := s.trace ++ [.pid 0 .stall, .brdyEnb 0 false]
            result := some (.code .ok) }
        else stalled 0))

/-- `getDeviceState` and `isEndpointStalled` return what they say and write nothing
(44_device_hal.md R343, R344). -/
def Obligations.QueryCommands : Prop :=
  ∀ s : State, s.fatal = false →
    exec .getDeviceState s = .next
      { s with result := some (.byte (match s.devState with
        | .disconnected => 0x00
        | .ready => 0x01
        | .controlSetup => 0x02
        | .controlIn => 0x03
        | .controlOut => 0x04)) }
    ∧ ∀ a : BitVec 4, exec (.isEndpointStalled a) s = .next
        { s with result := some (.flag (decide (s.initialized = true ∧ ∃ p : Pipe, p.val = a.toNat ∧ (s.pipe p).pid = .stall))) }

/-- `resetEndpoints` of a legal table with no listed pipe busy: every listed pipe is programmed, every
other pipe is left alone; before `init`, or with an illegal table, it returns STATE, and with a busy pipe BUSY,
with nothing written (44_device_hal.md R349). -/
def Obligations.ResetEndpointsCommand : Prop :=
  ∀ (t : List CfgRec) (s : State), s.fatal = false →
    (s.initialized = true → LegalTable t s → (∀ r ∈ t, ∀ p : Pipe, p.val = r.pipe → (s.pipe p).busy = false) →
      ∃ u, exec (.resetEndpoints t) s = .next u
        ∧ (∀ r ∈ t, ∀ p : Pipe, p.val = r.pipe → u.pipe p = programmed r.ep (s.pipe p))
        ∧ (∀ p : Pipe, (∀ r ∈ t, p.val ≠ r.pipe) → u.pipe p = s.pipe p)
        ∧ u = { s with pipes := u.pipes, trace := s.trace ++ t.flatMap programTrace, result := some (.code .ok) })
    ∧ (s.initialized = false ∨ ¬ LegalTable t s → exec (.resetEndpoints t) s = .next (turnedAway .state s))
    ∧ (s.initialized = true → LegalTable t s → (∃ r ∈ t, ∃ p : Pipe, p.val = r.pipe ∧ (s.pipe p).busy = true) →
      exec (.resetEndpoints t) s = .next (turnedAway .busy s))

/-! ### FIFO binding -/

/-- The fallible bind (41_fifo_binding.md R200): it confirms at the first poll, within the budget, that
reports the pipe, and times out after a budget of polls that do not. -/
def Obligations.BindOutcome : Prop :=
  ∀ (p : Option Pipe) (f : FifoId) (d : Dir) (s : State) (ws xs : List (Option Pipe)), (∀ w ∈ ws, w ≠ p) →
    (ws.length < s.params.bindPollBudget → s.env.fifoCur = ws ++ p :: xs →
      bindFifo p f d s = (true, { afterBind p f d true s with env := { s.env with fifoCur := xs } }))
    ∧ (ws.length = s.params.bindPollBudget → s.env.fifoCur = ws ++ xs →
      bindFifo p f d s = (false, { afterBind p f d false s with env := { s.env with fifoCur := xs } }))

/-- The unconditional bind repeats the bind up to its attempts; exhausting them sets `fatal` and the block
stops there (41_fifo_binding.md R210). -/
def Obligations.UnconditionalBind : Prop :=
  ∀ (p : Option Pipe) (f : FifoId) (d : Dir) (s : State) (ws xs : List (Option Pipe)), (∀ w ∈ ws, w ≠ p) →
    (ws.length < s.params.uncondAttempts * s.params.bindPollBudget → s.env.fifoCur = ws ++ p :: xs →
      ∃ t, bindUnconditional p f d s = .done () t ∧ (t.fifo f).owner = p ∧ t.fatal = s.fatal ∧ t.env.fifoCur = xs)
    ∧ (ws.length = s.params.uncondAttempts * s.params.bindPollBudget → s.env.fifoCur = ws ++ xs →
      ∃ t, bindUnconditional p f d s = .halt t ∧ t.fatal = true ∧ t.env.fifoCur = xs
        ∧ (0 < s.params.uncondAttempts → (t.fifo f).owner = none))

/-! ### The transfer engine -/

/-- A write access (42_transfer_engine.md R221, R223): with its bind confirmed, the bytes moved into the pipe's
buffer, the bookkeeping, the outcome, the data-valid action, and the packets the buffer's bytes become (at
CONTINUE by the model's reading, log 39, and several for a buffer above the max packet size, log 21); and ERROR, with nothing moved, when the bind times out. -/
def Obligations.WriteAccessOutcome : Prop :=
  ∀ (p : Pipe) (s u : State),
    let x := (s.pipe p).xfer
    let f := if p = 0 then .C else (s.pipe p).cfg.fifo
    let bs := if p = 0 then s.params.mps0.bytes else (s.pipe p).cfg.bufSize
    let m := if p = 0 then s.params.mps0.bytes else (s.pipe p).cfg.mps
    let n := min x.remaining bs
    let short := n = 0 ∨ n % m ≠ 0
    let quiet := p = 2 ∧ s.params.nsp2 = true
    let held := (s.pipe p).building ++ s.mem.readBytes x.pos n
    let kept := x.remaining ≤ bs ∧ quiet ∧ n = 0
    (bindFifo (some p) f .IN s = (true, u) →
      ∃ t, writeAccess p s =
          (if bs < x.remaining then .CONTINUE else if short ∧ ¬ quiet then .SHORT else .END, t)
        ∧ t.pipe p = { s.pipe p with
            xfer := { x with pos := x.pos + n, remaining := x.remaining - n }
            building := if kept then held else []
            sent := (s.pipe p).sent ++ (if kept then [] else packetsOf m held) }
        ∧ (∀ q, q ≠ p → t.pipe q = s.pipe q) ∧ t.mem = s.mem ∧ (t.fifo f).owner = some p ∧ t.env = u.env
        ∧ t.trace = u.trace ++ (if bs < x.remaining ∨ kept then [] else [.dataValid f]))
    ∧ (bindFifo (some p) f .IN s = (false, u) → writeAccess p s = (.ERROR, u))

/-- A read access that receives no more than its transfer still holds (42_transfer_engine.md R231, R235):
the bytes received go to memory, or are dropped for a null destination; the bookkeeping, the outcome, the
data-valid action. And ERROR, with nothing moved, when its bind times out (R231, R238). -/
def Obligations.ReadAccessOutcome : Prop :=
  (∀ (p : Pipe) (s : State) (xs : List (Option Pipe)) (rs : List Nat) (bytes ys : List Byte),
    let x := (s.pipe p).xfer
    let f := if p = 0 then .C else (s.pipe p).cfg.fifo
    let bs := if p = 0 then s.params.mps0.bytes else (s.pipe p).cfg.bufSize
    let m := if p = 0 then s.params.mps0.bytes else (s.pipe p).cfg.mps
    let rcv := bytes.length
    0 < s.params.bindPollBudget → s.env.fifoCur = some p :: xs → s.env.rcvLen = rcv :: rs → rcv ≤ bs →
    s.env.data = bytes ++ ys → rcv ≤ x.remaining →
    let r := if rcv = 0 ∨ rcv % m ≠ 0 then Access.SHORT else if x.remaining = rcv then .END else .CONTINUE
    ∃ t, readAccess p s = (r, t)
      ∧ t.mem = (if x.buf = 0 then s.mem else s.mem.writeBytes x.pos bytes)
      ∧ t.pipe p = { s.pipe p with xfer :=
          { x with pos := if x.buf = 0 then x.pos else x.pos + rcv, remaining := x.remaining - rcv } }
      ∧ (∀ q, q ≠ p → t.pipe q = s.pipe q) ∧ t.env.data = ys ∧ (t.fifo f).owner = some p
      ∧ t.trace = s.trace ++ .fifoSel f (some p) :: (if f = .C then [.fifoIsel .OUT] else [])
          ++ (if r = .CONTINUE then [] else [.dataValid f]))
  ∧ ∀ (p : Pipe) (s u : State), bindFifo (some p) (if p = 0 then .C else (s.pipe p).cfg.fifo) .OUT s = (false, u) →
      readAccess p s = (.ERROR, u)

/-- An overrun (42_transfer_engine.md R234): the record is kept, the FIFO buffer is cleared, and memory outside
the bytes still awaited is not written; those bytes hold whatever the environment leaves. -/
def Obligations.ReadAccessOverrun : Prop :=
  ∀ (p : Pipe) (s : State) (xs : List (Option Pipe)) (rcv : Nat) (rs : List Nat),
    let x := (s.pipe p).xfer
    let f := if p = 0 then .C else (s.pipe p).cfg.fifo
    let bs := if p = 0 then s.params.mps0.bytes else (s.pipe p).cfg.bufSize
    0 < s.params.bindPollBudget → s.env.fifoCur = some p :: xs → s.env.rcvLen = rcv :: rs → rcv ≤ bs →
    x.remaining < rcv →
    ∃ t, readAccess p s = (.OVERRUN, t) ∧ t.pipe p = { s.pipe p with building := [] }
      ∧ (∀ q, q ≠ p → t.pipe q = s.pipe q)
      ∧ (∀ a, (x.buf = 0 ∨ a < x.pos ∨ x.pos + x.remaining ≤ a) → t.mem.read a = s.mem.read a)
      ∧ t.trace = s.trace ++ .fifoSel f (some p) :: (if f = .C then [.fifoIsel .OUT] else []) ++ [.bufferClear f]

/-- Whatever the controller answers, a read access writes only inside its transfer's buffer, and none of
memory for a null destination; and a command that passes a range past 2^32 is refused with STATE
(20_memory.md R102, R103). -/
def Obligations.ReadStaysInBounds : Prop :=
  (∀ (p : Pipe) (s t : State) (r : Access), s.Inv → (s.pipe p).xfer.active = true → readAccess p s = (r, t) →
    ∀ a, ((s.pipe p).xfer.buf = 0 ∨ a < (s.pipe p).xfer.buf.toNat
        ∨ (s.pipe p).xfer.buf.toNat + (s.pipe p).xfer.total ≤ a) → t.mem.read a = s.mem.read a)
  ∧ ∀ (len : Len) (buf : Addr) (k : Option CbId) (s : State), live s → s.devState ≠ .disconnected →
      2 ^ 32 < buf.toNat + len.toNat →
      exec (.bulkOut len buf k) s = .next (turnedAway .state s) ∧ exec (.bulkIn len buf k) s = .next (turnedAway .state s)
      ∧ exec (.interruptIn len buf k) s = .next (turnedAway .state s)
      ∧ (s.ctx = .onSetup → exec (.controlOut len buf k) s = .next (turnedAway .state s)
        ∧ (s.setup.length ≠ 0 → exec (.controlIn len buf) s = .next (turnedAway .state s)))

/-- Whatever the controller answers, an access never raises `remaining`, never lowers `pos`, and on OVERRUN or
ERROR changes neither (42_transfer_engine.md R237, R239). -/
def Obligations.AccessIsMonotone : Prop :=
  ∀ (p : Pipe) (s t : State) (r : Access), (writeAccess p s = (r, t) ∨ readAccess p s = (r, t)) →
    (t.pipe p).xfer.remaining ≤ (s.pipe p).xfer.remaining ∧ (s.pipe p).xfer.pos ≤ (t.pipe p).xfer.pos
    ∧ (t.pipe p).xfer.buf = (s.pipe p).xfer.buf ∧ (t.pipe p).xfer.total = (s.pipe p).xfer.total
    ∧ ((r = .OVERRUN ∨ r = .ERROR) → (t.pipe p).xfer = (s.pipe p).xfer)

/-- A write of `remaining` bytes, if no access of it ends in ERROR, takes `max(1, ceil(remaining / bufferSize))` accesses; all but the last are
CONTINUE, and the last is SHORT exactly when the count is 0 or no multiple of the max packet size
(42_transfer_engine.md R224). -/
def Obligations.WriteAccessCount : Prop :=
  ∀ (p : Pipe) (s : State),
    let L := (s.pipe p).xfer.remaining
    let bs := if p = 0 then s.params.mps0.bytes else (s.pipe p).cfg.bufSize
    let m := if p = 0 then s.params.mps0.bytes else (s.pipe p).cfg.mps
    let k := max 1 ((L + bs - 1) / bs)
    1 ≤ m → m ≤ bs → bs % m = 0 → (s.params.nsp2 = false ∨ p ≠ 2) →
    ∀ fuel, k ≤ fuel → .ERROR ∉ writeOutcomes p fuel s →
      writeOutcomes p fuel s = List.replicate (k - 1) .CONTINUE ++ [if L = 0 ∨ L % m ≠ 0 then .SHORT else .END]

/-- Every caller-memory access of a byte move is aligned to its width, 1, 2 or 4 bytes, and the accesses cover the
range in address order (20_memory.md R110, 42_transfer_engine.md R240); the byte sequence that joins the packet
being built is the memory's in address order, and the byte sequence received is the stream's in order, whatever
widths are chosen (42_transfer_engine.md R241); and the packets of a buffer hold its bytes in order, all but the
last full, none above the max packet size. -/
def Obligations.ByteMoves : Prop :=
  (∀ a n : Nat, (∀ x w, (x, w) ∈ chunks a n → x % w = 0 ∧ (w = 1 ∨ w = 2 ∨ w = 4))
    ∧ (chunks a n).flatMap (fun c => List.range' c.1 c.2) = List.range' a n)
  ∧ (∀ (f : FifoId) (a n : Nat) (s : State),
    (∀ p, (s.fifo f).owner = some p → moveOut f a n s =
      s.modPipe p fun x => { x with building := x.building ++ s.mem.readBytes a n })
    ∧ ∀ bytes ys, a + n ≤ 2 ^ 32 → s.mem.wf = true → s.env.data = bytes ++ ys → bytes.length = n →
        let t := moveIn a n s
        t.mem.readBytes a n = bytes ∧ t.env.data = ys ∧ t.pipes = s.pipes
          ∧ ∀ x, (x < a ∨ a + n ≤ x) → t.mem.read x = s.mem.read x)
  ∧ ∀ (m : Nat) (bs : List Byte), 0 < m → (packetsOf m bs).flatten = bs ∧ packetsOf m bs ≠ []
      ∧ (∀ q ∈ packetsOf m bs, q.length ≤ m) ∧ ∀ q ∈ (packetsOf m bs).dropLast, q.length = m

/-! ### Caller memory, the waiter, the controller -/

/-- The caller's accesses to its memory. A byte written is read back, every other address is left alone, and
the canonical form is kept; a byte read is the one memory holds. In a race (20_memory.md R122) the byte that is
written, or observed, is a free value: the race goes on (logs 7, 23). That pipe 0's buffer is in use while its
transfer is active is the model's choice, since R122 speaks of `busy[p]` (log 42). -/
def Obligations.CallerAccessesMemory : Prop :=
  ∀ (s : State) (a : Addr) (b : Byte) (rest : List Action), s.fatal = false →
    let race := Config.freeRaceByte s.env.draws
    let drawn := { s.env with draws := s.env.draws + 1 }
    (s.inputs = .callerWrite a b :: rest → s.mem.wf = true → ∃ m : Memory, m.wf = true
      ∧ step s = .next { s with inputs := rest, mem := m, env := if inUse s a.toNat then drawn else s.env }
      ∧ m.read a.toNat = (if inUse s a.toNat then race else b) ∧ ∀ x, x ≠ a.toNat → m.read x = s.mem.read x)
    ∧ (s.inputs = .callerRead a :: rest → step s = .next { s with
        inputs := rest
        env := if inArrival s a.toNat then drawn else s.env
        reads := s.reads ++ [⟨a, if inArrival s a.toNat then race else s.mem.read a.toNat⟩] })

/-- A waiter that finds `busy` false reads the count and the error, and one that finds it true reads neither;
the wait changes nothing else (20_memory.md R117, log 24). That the three reads are one step is the model's choice
(log 44). -/
def Obligations.WaiterReads : Prop :=
  ∀ (s : State) (p : Pipe) (rest : List Action), s.fatal = false → s.inputs = .wait p :: rest →
    step s = .next { s with
      inputs := rest
      waits := s.waits ++ [if (s.pipe p).busy then ⟨p, false, 0, .ok⟩ else ⟨p, true, (s.pipe p).resLen, (s.pipe p).resErr⟩] }

/-! ### Per-pipe events -/

/-- A Buffer-Ready of a pipe with no active transfer only disables its interrupt; and what one does with the outcome
of its access, the class layer doing nothing in the callback (43_pipe_dispatcher.md R266, R268, R280). -/
def Obligations.BrdyOutcome : Prop :=
  (∀ (p : Pipe) (a : BitVec 4) (s : State), a.toNat = p.val → p ≠ 0 → live s → pending s (.brdy p) = true →
    (s.pipe p).xfer.active = false →
    exec (.evtBrdy a) s = .next
      { s.modPipe p fun x => { x with brdySts := false, brdyEnb := false } with
        trace := s.trace ++ [.brdyClr p, .brdyEnb p false] })
  ∧ ∀ (p : Pipe) (a : BitVec 4) (s u : State) (r : Access) (ans : SetupAnswer),
    a.toNat = p.val → p ≠ 0 → live s → pending s (.brdy p) = true → (s.pipe p).xfer.active = true →
    (if (s.pipe p).cfg.dir = .OUT then readAccess p (brdyEntered p s) else writeAccess p (brdyEntered p s)) = (r, u) →
    (r ≠ .CONTINUE → classIdle ans u) →
    let off : List TraceEntry := [.brdyEnb p false, .nrdyEnb p false]
    exec (.evtBrdy a) s = .next
      (match r with
      | .CONTINUE => { u.modPipe p fun x => { x with nrdyCount := 0 } with ctx := s.ctx }
      | .OVERRUN =>
        { notified p .overrun (u.modPipe p fun x =>
            ended .overrun { x with nrdyCount := 0, brdyEnb := false, nrdyEnb := false, pid := .nak, pstate := .done }) with
          trace := u.trace ++ off ++ [.pid p .nak], ctx := s.ctx }
      | .ERROR =>
        { called ⟨.onError, u.cb.map (·.onError), .code .bindTimeout⟩ (u.modPipe p fun x =>
            ended .bindTimeout { x with nrdyCount := 0, brdyEnb := false, nrdyEnb := false, pstate := .idle }) with
          trace := u.trace ++ off, ctx := s.ctx }
      | _ =>
        if (s.pipe p).cfg.dir = .OUT then
          { notified p .ok (u.modPipe p fun x =>
              ended .ok { x with nrdyCount := 0, brdyEnb := false, nrdyEnb := false, pid := .nak, pstate := .done }) with
            trace := u.trace ++ off ++ [.pid p .nak], ctx := s.ctx }
        else
          { notified p .ok (u.modPipe p fun x =>
              ended .ok { x with nrdyCount := 0, brdyEnb := false, nrdyEnb := false, bempEnb := true }) with
            trace := u.trace ++ off ++ [.bempEnb p true], ctx := s.ctx })

/-- A Buffer-Ready of an IN pipe whose last bytes fit its buffer sends them and completes the transfer, once
(43_pipe_dispatcher.md R266, scenario B). That a buffer above the max packet size is sent as several packets, where
42_transfer_engine.md R236 speaks of a packet, is the model's choice (log 21). -/
def Obligations.BrdyCompletesIn : Prop :=
  ∀ (p : Pipe) (a : BitVec 4) (s : State) (xs : List (Option Pipe)) (ans : SetupAnswer),
    a.toNat = p.val → p ≠ 0 → live s → pending s (.brdy p) = true → (s.pipe p).xfer.active = true →
    (s.pipe p).cfg.dir = .IN → (s.pipe p).xfer.remaining ≤ (s.pipe p).cfg.bufSize →
    (p = 2 → s.params.nsp2 = true → (s.pipe p).xfer.remaining ≠ 0) →
    0 < s.params.bindPollBudget → s.env.fifoCur = some p :: xs → classIdle ans s →
    ∃ t, exec (.evtBrdy a) s = .next t
      ∧ (t.pipe p).building = [] ∧ (t.pipe p).sent = (s.pipe p).sent ++ packetsOf (s.pipe p).cfg.mps
          ((s.pipe p).building ++ s.mem.readBytes (s.pipe p).xfer.pos (s.pipe p).xfer.remaining)
      ∧ (t.pipe p).busy = false ∧ (t.pipe p).xfer.active = false ∧ (t.pipe p).resErr = .ok
      ∧ (t.pipe p).resLen = (s.pipe p).xfer.total ∧ (t.pipe p).bempEnb = true ∧ (t.pipe p).pstate = (s.pipe p).pstate
      ∧ t.calls = s.calls ++ (completionCall p .ok (s.pipe p).xfer.total s).toList
      ∧ t.mem = s.mem ∧ (∀ q, q ≠ p → t.pipe q = s.pipe q)

/-- Every Not-Ready event (43_pipe_dispatcher.md R270, R272, R274): STALL latches, a pipe with no transfer
disables its interrupt, the first two of an active transfer re-issue BUF, the third latches NO_RESPONSE;
the class layer doing nothing in the callback. -/
def Obligations.NrdyEvent : Prop :=
  ∀ (p : Pipe) (a : BitVec 4) (s : State) (ans : SetupAnswer), a.toNat = p.val → p ≠ 0 → live s →
    pending s (.nrdy p) = true → ((s.pipe p).xfer.active = true → classIdle ans s) →
    let clr := fun (g : PipeState → PipeState) => s.modPipe p fun x => g { x with nrdySts := false }
    let off := fun (x : PipeState) => { x with brdyEnb := false, nrdyEnb := false, bempEnb := false }
    let offTrace : List TraceEntry := [.brdyEnb p false, .nrdyEnb p false, .bempEnb p false]
    exec (.evtNrdy a) s = .next
      (if (s.pipe p).pid = .stall then
        if (s.pipe p).xfer.active then
          { notified p .stall (clr fun x => ended .stall (off { x with pstate := .stall })) with
            trace := s.trace ++ .nrdyClr p :: offTrace }
        else
          { clr fun x => off { x with pstate := .stall } with trace := s.trace ++ .nrdyClr p :: offTrace }
      else if (s.pipe p).xfer.active = false then
        { clr fun x => { x with nrdyEnb := false } with trace := s.trace ++ [.nrdyClr p, .nrdyEnb p false] }
      else if (s.pipe p).nrdyCount < 2 then
        { clr fun x => { x with nrdyCount := x.nrdyCount + 1, pid := .buf } with
          trace := s.trace ++ [.nrdyClr p, .pid p .nak, .pid p .buf] }
      else
        { notified p .noResponse (clr fun x =>
            ended .noResponse (off { x with nrdyCount := x.nrdyCount + 1, pid := .nak, pstate := .noResponse })) with
          trace := s.trace ++ .nrdyClr p :: offTrace ++ [.pid p .nak] })

/-- Every Buffer-Empty event of a data pipe (43_pipe_dispatcher.md R273): STALL latches, an OUT pipe disables
its interrupt, a drained IN pipe becomes DONE, an undrained one waits. -/
def Obligations.BempEvent : Prop :=
  ∀ (p : Pipe) (a : BitVec 4) (s : State) (ans : SetupAnswer) (full : Bool) (fs : List Bool),
    a.toNat = p.val → p ≠ 0 → live s → pending s (.bemp p) = true → ((s.pipe p).xfer.active = true → classIdle ans s) →
    s.env.inbufm = full :: fs →
    let clr := fun (g : PipeState → PipeState) => s.modPipe p fun x => g { x with bempSts := false }
    let off := fun (x : PipeState) => { x with brdyEnb := false, nrdyEnb := false, bempEnb := false, pstate := .stall }
    let offTrace : List TraceEntry := [.bempClr p, .brdyEnb p false, .nrdyEnb p false, .bempEnb p false]
    exec (.evtBemp a) s = .next
      (if (s.pipe p).pid = .stall then
        if (s.pipe p).xfer.active then
          { notified p .stall (clr fun x => ended .stall (off x)) with trace := s.trace ++ offTrace }
        else { clr off with trace := s.trace ++ offTrace }
      else if (s.pipe p).cfg.dir = .OUT then
        { clr fun x => { x with bempEnb := false } with trace := s.trace ++ [.bempClr p, .bempEnb p false] }
      else if full then
        { clr id with trace := s.trace ++ [.bempClr p], env := { s.env with inbufm := fs } }
      else
        { clr fun x => { x with bempEnb := false, pstate := .done } with
          trace := s.trace ++ [.bempClr p, .bempEnb p false], env := { s.env with inbufm := fs } })

/-- Pipe 0's Buffer-Empty and Not-Ready, and RESUME, have no effect beyond the status clear, the last in a pass of
its own too (44_device_hal.md R300, R306, R325). -/
def Obligations.QuietEvents : Prop :=
  ∀ s : State, live s →
    (pending s (.bemp 0) = true → exec .evtBemp0 s = .next
      { s.modPipe 0 fun x => { x with bempSts := false } with trace := s.trace ++ [.bempClr 0] })
    ∧ (pending s (.nrdy 0) = true → exec .evtNrdy0 s = .next
      { s.modPipe 0 fun x => { x with nrdySts := false } with trace := s.trace ++ [.nrdyClr 0] })
    ∧ (pending s .resm = true → exec .evtResm s = .next
      { s with sts := { s.sts with resm := false }, trace := s.trace ++ [.resmClr] })
    ∧ (onlyPending .resm s → exec .evtIsr s = .next
      { s with sts := { s.sts with resm := false }, trace := s.trace ++ [.resmClr] })

/-- Pipe 0's Buffer-Ready (44_device_hal.md R307): outside a control-OUT data stage it disables its interrupt;
inside, the outcome of the read access decides, the class layer doing nothing in the callback. -/
def Obligations.Brdy0Event : Prop :=
  ∀ s : State, live s → pending s (.brdy 0) = true →
    (¬ (s.devState = .controlOut ∧ (s.pipe 0).xfer.active = true) → exec .evtBrdy0 s = .next
      { s.modPipe 0 fun x => { x with brdySts := false, brdyEnb := false } with
        trace := s.trace ++ [.brdyClr 0, .brdyEnb 0 false] })
    ∧ ∀ (u : State) (r : Access) (ans : SetupAnswer), s.devState = .controlOut → (s.pipe 0).xfer.active = true →
        readAccess 0 (brdyEntered 0 s) = (r, u) → (r ≠ .CONTINUE → classIdle ans u) →
        exec .evtBrdy0 s = .next
          (match r with
          | .CONTINUE => { u with ctx := s.ctx }
          | .OVERRUN =>
            { notified 0 .overrun (u.modPipe 0 fun x => ended .overrun { x with brdyEnb := false, pid := .stall }) with
              devState := .ready, trace := u.trace ++ [.brdyEnb 0 false, .pid 0 .stall], ctx := s.ctx }
          | .ERROR =>
            { called ⟨.onError, u.cb.map (·.onError), .code .bindTimeout⟩ (u.modPipe 0 fun x =>
                { x with brdyEnb := false, pid := .stall, xfer := { x.xfer with active := false } }) with
              devState := .ready, trace := u.trace ++ [.brdyEnb 0 false, .pid 0 .stall], ctx := s.ctx }
          | _ =>
            { notified 0 .ok (u.modPipe 0 fun x => ended .ok { x with brdyEnb := false, pid := .buf }) with
              devState := .ready
              trace := u.trace ++ [.brdyEnb 0 false, .pid 0 .nak, .pid 0 .buf, .ctrlComplete]
              ctx := s.ctx })

/-! ### Device-level events -/

/-- A bus reset (44_device_hal.md R316, R318), the administrative binds confirmed at once. -/
def Obligations.BusResetEvent : Prop :=
  ∀ (s : State) (xs : List (Option Pipe)), live s → pending s .dvst = true → s.usbState = .defaultState →
    0 < s.params.bindPollBudget → 0 < s.params.uncondAttempts → s.env.fifoCur = some 0 :: none :: none :: xs →
    exec .evtDvst s = .next
      { adminBound (s.modAllPipes silenced) with
        sts := { s.sts with dvst := false }
        enb := ⟨true, true, true, true, true, true, true⟩
        devState := if s.vbusLevel then .ready else if s.devState.isControl then .ready else s.devState
        configValue := 0
        trace := s.trace ++ .dvstClr :: resetTrace ++ adminTrace
        env := { s.env with fifoCur := xs } }

/-- The other device states (44_device_hal.md R316, R319, R322): CONFIGURED clears the toggles of the
configured BULK pipes and, the first time since the connection, calls `onCableChange(true)`; POWERED, ADDRESS
and SUSPENDED have no effect. -/
def Obligations.DeviceStateEvent : Prop :=
  ∀ (s : State) (ans : SetupAnswer), live s → pending s .dvst = true →
    ((s.usbState = .powered ∨ s.usbState = .address ∨ s.usbState = .suspended) → exec .evtDvst s = .next
      { s with sts := { s.sts with dvst := false }, trace := s.trace ++ [.dvstClr] })
    ∧ (s.usbState = .configured → (s.firstConnectFired = false → classIdle ans s) →
      let bulk := dataPipes.filter fun p => (s.pipe p).cfgValid && (s.pipe p).cfg.kind == .bulk
      ∃ t, exec .evtDvst s = .next t
        ∧ (∀ p, t.pipe p = if p ∈ bulk then { s.pipe p with toggle := .data0 } else s.pipe p)
        ∧ t.firstConnectFired = true
        ∧ t.calls = s.calls ++ (if s.firstConnectFired then [] else
            [⟨.onCableChange, s.cb.map (·.onCableChange), .connected true⟩])
        ∧ t.trace = s.trace ++ .dvstClr :: bulk.map (fun p => .toggle p .data0)
        ∧ t.devState = s.devState ∧ t.mem = s.mem)

/-- A control-stage event that reports no valid SETUP has no effect beyond the status clear, and one that
does takes the packet: alone, it does what the setup row of the latched packet does, and a setup row is the packet's
arrival and the ISR's turn (30_encoding.md R161, log 12); while DISCONNECTED the packet only stalls pipe 0
(44_device_hal.md R320, R321). -/
def Obligations.ControlStageEvent : Prop :=
  (∀ s : State, live s → pending s .ctrt = true →
    (¬ (s.ctrlStage = .setupReceived ∧ s.setupValid = true) → exec .evtCtrt s = .next
      { s with sts := { s.sts with ctrt := false }, trace := s.trace ++ [.ctrtClr] })
    ∧ (s.ctrlStage = .setupReceived → s.setupValid = true → s.devState = .disconnected → exec .evtCtrt s = .next
      { s.modPipe 0 fun x => { x with pid := .stall } with
        sts := { s.sts with ctrt := false }
        setupValid := false
        trace := s.trace ++ [.ctrtClr, .setupValid false, .pid 0 .stall] }))
  ∧ (∀ (i : Instr) (S : BitVec 64) (s : State), packetOf i = some S → exec i s = exec .evtIsr (ctlSetup S s))
  ∧ ∀ (i : Instr) (s : State), live s → onlyPending .ctrt s → s.ctrlStage = .setupReceived → s.setupValid = true →
      packetOf i = some s.setupData → exec .evtCtrt s = exec i s

/-- A VBUS change (44_device_hal.md R313, R314, R315, R317): three reads that disagree, or agree with the level
held, are ignored; a rise attaches and stays in its sub-state; a fall cancels, disconnects, and calls
`onCableChange(false)` if the connection had been signalled. -/
def Obligations.VbusEvent : Prop :=
  ∀ (s : State) (v1 v2 v3 : Bool) (vs : List Bool) (xs : List (Option Pipe)) (ans : SetupAnswer),
    live s → pending s .vbint = true → vbusReads v1 v2 v3 vs s →
    ((¬ (v1 = v2 ∧ v2 = v3) ∨ v1 = s.vbusLevel) → exec .evtVbint s = .next
      { s with sts := { s.sts with vbint := false }, trace := s.trace ++ [.vbintClr], env := { s.env with vbus := vs } })
    ∧ (v1 = true → v2 = true → v3 = true → s.vbusLevel = false →
      0 < s.params.bindPollBudget → 0 < s.params.uncondAttempts → s.env.fifoCur = some 0 :: none :: none :: xs →
      exec .evtVbint s = .next
        { adminBound (s.modAllPipes silenced) with
          sts := { s.sts with vbint := false }
          vbusLevel := true
          enb := ⟨true, true, true, true, true, true, true⟩
          devState := if s.devState.isControl then .ready else s.devState
          trace := s.trace ++ .vbintClr :: resetTrace ++ adminTrace
          env := { s.env with fifoCur := xs, vbus := vs } })
    ∧ (v1 = false → v2 = false → v3 = false → s.vbusLevel = true →
      (s.firstConnectFired = true → classIdle ans s) →
      exec .evtVbint s = .next
        { s.modAllPipes fun x =>
            silenced (if x.xfer.active || x.busy then { x with resLen := 0, resErr := .notConnected } else x) with
          sts := { s.sts with vbint := false }
          vbusLevel := false
          enb := ⟨true, true, true, true, true, true, true⟩
          devState := .disconnected
          firstConnectFired := false
          trace := s.trace ++ .vbintClr :: resetTrace
          calls := s.calls ++ (if s.firstConnectFired then
            [⟨.onCableChange, s.cb.map (·.onCableChange), .connected false⟩] else [])
          env := { s.env with
            vbus := vs
            classSteps := if s.firstConnectFired then s.env.classSteps.tail else s.env.classSteps } })

/-! ### The ISR pass -/

/-- A pass whose snapshot holds one source is that source's event; with the line low the ISR has no effect
(44_device_hal.md R300, R303, logs 10, 11). -/
def Obligations.IsrServesOne : Prop :=
  ∀ s : State, live s →
    ((∀ x, pending s x = false) → exec .evtIsr s = .next s)
    ∧ (onlyPending (.bemp 0) s → exec .evtIsr s = exec .evtBemp0 s)
    ∧ (onlyPending (.nrdy 0) s → exec .evtIsr s = exec .evtNrdy0 s)
    ∧ (onlyPending (.brdy 0) s → exec .evtIsr s = exec .evtBrdy0 s)
    ∧ (∀ (p : Pipe) (a : BitVec 4), p ≠ 0 → a.toNat = p.val →
        (onlyPending (.bemp p) s → exec .evtIsr s = exec (.evtBemp a) s)
        ∧ (onlyPending (.nrdy p) s → exec .evtIsr s = exec (.evtNrdy a) s)
        ∧ (onlyPending (.brdy p) s → exec .evtIsr s = exec (.evtBrdy a) s))
    ∧ (onlyPending .dvst s → exec .evtIsr s = exec .evtDvst s)
    ∧ (onlyPending .ctrt s → exec .evtIsr s = exec .evtCtrt s)
    ∧ (onlyPending .resm s → exec .evtIsr s = exec .evtResm s)
    ∧ (onlyPending .vbint s → exec .evtIsr s = exec .evtVbint s)

/-- The third Not-Ready and a Ready of one pipe in one pass: the Not-Ready is handled first and latches
NO_RESPONSE, and the Ready then only disables its interrupt (60_exceptions.md R420). -/
def Obligations.NrdyBeforeBrdy : Prop :=
  ∀ (p : Pipe) (s : State) (ans : SetupAnswer), p ≠ 0 → live s → pending s (.nrdy p) = true → pending s (.brdy p) = true →
    (∀ y, y ≠ .nrdy p → y ≠ .brdy p → pending s y = false) → (s.pipe p).xfer.active = true →
    (s.pipe p).pid ≠ .stall → (s.pipe p).nrdyCount = 2 → classIdle ans s →
    ∃ t, exec .evtIsr s = .next t ∧ (t.pipe p).pstate = .noResponse ∧ (t.pipe p).nrdyCount = 3
      ∧ (t.pipe p).resErr = .noResponse ∧ (t.pipe p).busy = false ∧ t.mem = s.mem
      ∧ t.calls.length = s.calls.length + (completionCall p .noResponse
          ((s.pipe p).xfer.total - (s.pipe p).xfer.remaining) s).toList.length
      ∧ t.trace = s.trace ++ [.nrdyClr p, .brdyEnb p false, .nrdyEnb p false, .bempEnb p false, .pid p .nak, .brdyClr p,
          .brdyEnb p false]

/-! ### The setup core -/

/-- `PipeOfEp` (45_setup_decoder.md R365), under the invariant that no two configured pipes bind one endpoint. -/
def Obligations.EndpointLookup : Prop :=
  ∀ (idx : BitVec 16) (s : State), s.Inv →
    let num := (idx.extractLsb' 0 4).toNat
    let d := if idx.extractLsb' 7 1 = 1 then Dir.IN else .OUT
    (num = 0 → pipeOfEp idx s = some 0)
    ∧ (num ≠ 0 → ∀ p, pipeOfEp idx s = some p ↔
        p ≠ 0 ∧ (s.pipe p).cfgValid = true ∧ (s.pipe p).cfg.epNum = num ∧ (s.pipe p).cfg.dir = d)

/-- SET_ADDRESS and SET_INTERFACE are acknowledged and change nothing else; so are the halt requests to
endpoint 0 (45_setup_decoder.md R377, R387, R374, R376). -/
def Obligations.AcknowledgedRequests : Prop :=
  ∀ (val idx ln : BitVec 16) (s : State), takesSetup s →
    exec (.srSetAddress val idx ln) s = .next (acked (arrived (setupWord 0x00 0x05 val idx ln) s))
    ∧ exec (.srSetInterface val idx ln) s = .next (acked (arrived (setupWord 0x01 0x0B val idx ln) s))
    ∧ (epNumber idx = 0 →
      exec (.srClearFeatureEpHalt idx ln) s = .next (acked (arrived (setupWord 0x02 0x01 0 idx ln) s))
      ∧ exec (.srSetFeatureEpHalt idx ln) s = .next (acked (arrived (setupWord 0x02 0x03 0 idx ln) s)))

/-- The halt requests to a data pipe (45_setup_decoder.md R374, R376): SET_FEATURE writes STALL; CLEAR_FEATURE
under the auto-clear policy writes NAK and BUF to a stalled pipe, clears the toggle and a latched STALL, and
without it changes nothing; both are acknowledged. -/
def Obligations.HaltRequests : Prop :=
  ∀ (idx ln : BitVec 16) (s : State) (p : Pipe), takesSetup s → pipeOfEp idx s = some p → p ≠ 0 →
    (let s' := arrived (setupWord 0x02 0x03 0 idx ln) s
     exec (.srSetFeatureEpHalt idx ln) s = .next
        (acked { s'.modPipe p fun x => { x with pid := .stall } with trace := s'.trace ++ [.pid p .stall] }))
    ∧ (let s' := arrived (setupWord 0x02 0x01 0 idx ln) s
       (s.params.autoClearHalt = false → exec (.srClearFeatureEpHalt idx ln) s = .next (acked s'))
       ∧ (s.params.autoClearHalt = true → exec (.srClearFeatureEpHalt idx ln) s = .next
        (acked { s'.modPipe p fun x =>
            { x with
              pid := if x.pid = .stall then .buf else x.pid
              toggle := .data0
              pstate := if x.pstate = .stall then .idle else x.pstate } with
          trace := s'.trace ++ (if (s.pipe p).pid = .stall then [.pid p .nak, .pid p .buf] else []) ++ [.toggle p .data0] })))

/-- GET_STATUS, GET_CONFIGURATION and GET_INTERFACE (45_setup_decoder.md R370, R371, R372, R385, R386): the answer is
written to the response area, and its first `min(length, wLength)` bytes are sent from there; with `wLength`
0 the request is acknowledged. -/
def Obligations.AnsweredRequests : Prop :=
  ∀ (i : Instr) (S : BitVec 64) (s : State) (bytes : List Byte), takesSetup s → packetOf i = some S →
    responseOf i s = some bytes → s.params.respBase ≠ 0 → s.params.respBase.toNat + 2 ≤ 2 ^ 32 → s.mem.wf = true →
    let s' := { arrived S s with mem := s.mem.writeBytes s.params.respBase.toNat bytes }
    let n := min bytes.length (wLength S).toNat
    (wLength S = 0 → exec i s = .next (acked s'))
    ∧ (wLength S ≠ 0 → answersIn 1 s →
      exec i s = .next (sentIn s.params.respBase n 1 s')
      ∧ ((sentIn s.params.respBase n 1 s').pipe 0).sent = (s.pipe 0).sent ++ [bytes.take n])

/-- GET_DESCRIPTOR (45_setup_decoder.md R378 to R384): the bytes given to the controller are those of the blob as
supplied, truncated to `min(suppliedLength, wLength)`, in packets of MPS0 bytes; with `wLength` 0 the request is
acknowledged; a blob that `controlIn` refuses with STATE (a null one with bytes to send, or one that wraps, log 40)
is sent not at all, and the sub-state stays CONTROL_SETUP. The packets are the model's reading (logs 21, 39). -/
def Obligations.DescriptorRequests : Prop :=
  ∀ (i : Instr) (S : BitVec 64) (s : State) (b : Blob), takesSetup s → packetOf i = some S → blobAsked i s = some b →
    let n := min b.len.toNat (wLength S).toNat
    let k := accessesFor n s.params.mps0.bytes
    let wraps := b.addr ≠ 0 ∧ 2 ^ 32 < b.addr.toNat + b.len.toNat
    (wLength S = 0 → exec i s = .next (acked (arrived S s)))
    ∧ (wLength S ≠ 0 → (b.addr = 0 → n = 0) → ¬ wraps → answersIn k s →
      exec i s = .next (sentIn b.addr n k (arrived S s))
      ∧ ((sentIn b.addr n k (arrived S s)).pipe 0).sent =
          (s.pipe 0).sent ++ packetsOf s.params.mps0.bytes (s.mem.readBytes b.addr.toNat n))
    ∧ (wLength S ≠ 0 → ((b.addr = 0 ∧ n ≠ 0) ∨ wraps) → exec i s = .next (arrived S s))

/-- SET_CONFIGURATION (44_device_hal.md R323, R322): the value is taken, the request acknowledged, and the first
connection signalled once; the class layer is not asked. -/
def Obligations.SetConfigurationRequest : Prop :=
  ∀ (val idx ln : BitVec 16) (s : State) (ans : SetupAnswer), takesSetup s →
    (s.firstConnectFired = false → classIdle ans s) →
    let s' := acked { arrived (setupWord 0x00 0x09 val idx ln) s with configValue := val.extractLsb' 0 8 }
    exec (.srSetConfiguration val idx ln) s = .next
      (if s.firstConnectFired then s'
      else { called ⟨.onCableChange, s.cb.map (·.onCableChange), .connected true⟩ s' with firstConnectFired := true })

/-- A request the setup core does not serve is passed to `onSetup`; if the class layer does not know it either,
pipe 0 is stalled, and if it says HANDLED and issues nothing the sub-state stays CONTROL_SETUP
(45_setup_decoder.md R362, R388, R389, 44_device_hal.md R324). -/
def Obligations.DelegatedRequests : Prop :=
  ∀ (i : Instr) (S : BitVec 64) (s : State), takesSetup s → WellFormed i → packetOf i = some S → delegated i s = true →
    let s' := called ⟨.onSetup, s.cb.map (·.onSetup), .raw S⟩ (arrived S s)
    (classIdle .unknown s → exec i s = .next
      { s'.modPipe 0 fun x => { x with pid := .stall, brdyEnb := false } with
        devState := .ready
        trace := s'.trace ++ [.pid 0 .stall, .brdyEnb 0 false] })
    ∧ (classIdle .handled s → exec i s = .next s')

/-- A HANDLED class request that issues `controlOut` inside `onSetup` arms the data stage: the sub-state is
CONTROL_OUT when the pass ends (44_device_hal.md R324, R339, 60_exceptions.md R441). -/
def Obligations.ClassArmsDataStage : Prop :=
  ∀ (i : Instr) (S : BitVec 64) (s : State) (buf : Addr) (k : Option CbId), takesSetup s → WellFormed i →
    packetOf i = some S → delegated i s = true → wLength S ≠ 0 →
    (buf ≠ 0 → buf.toNat + (wLength S).toNat ≤ 2 ^ 32) →
    s.env.classSteps.head? = some ⟨.handled, [.controlOut ((wLength S).setWidth 32) buf k]⟩ →
    ∃ t, exec i s = .next t ∧ t.devState = .controlOut ∧ (t.pipe 0).xfer.active = true ∧ (t.pipe 0).xfer.buf = buf
      ∧ (t.pipe 0).xfer.total = (wLength S).toNat ∧ (t.pipe 0).brdyEnb = true ∧ (t.pipe 0).pid = .buf
      ∧ t.result = some (.code .ok) ∧ t.ctx = s.ctx ∧ t.mem = s.mem

/-- A setup packet while DISCONNECTED only stalls pipe 0, whatever it asks (44_device_hal.md R321). -/
def Obligations.SetupWhileDisconnected : Prop :=
  ∀ (i : Instr) (S : BitVec 64) (s : State), packetOf i = some S → live s → s.devState = .disconnected →
    s.enb.ctre = true → (∀ y, y ≠ .ctrt → pending s y = false) →
    exec i s = .next
      { s.modPipe 0 fun x => { x with pid := .stall } with
        setupData := S
        ctrlStage := .setupReceived
        setupValid := false
        sts := { s.sts with ctrt := false }
        trace := s.trace ++ [.ctrtClr, .setupValid false, .pid 0 .stall] }

/-! ### Invariants and whole-machine rules -/

/-- No command clears a status bit, and a pass clears only bits its snapshot holds (60_exceptions.md R407). -/
def Obligations.StatusBitsKept : Prop :=
  (∀ (i : Instr) (s t : State), (∃ w o, encode i = .cmd w o) → exec i s = .next t → ∀ x, statusBit t x = statusBit s x)
  ∧ ∀ s t : State, exec .evtIsr s = .next t → ∀ x, pending s x = false → statusBit t x = statusBit s x

/-- The invariant holds at power-on. -/
def Obligations.PowerOnInv : Prop := State.reset.Inv

/-- Every step keeps the invariant of the channel. -/
def Obligations.StepKeepsInv : Prop :=
  ∀ s t : State, s.Inv → step s = .next t → t.Inv

/-- Every step only adds to the trace, and in what it adds a write of BUF comes right after a write of NAK to the
same pipe, and so does a write of a pipe's configuration (70_reset_and_hazards.md R471, R474). -/
def Obligations.StepKeepsTrace : Prop :=
  ∀ s t : State, step s = .next t → ∃ es, t.trace = s.trace ++ es ∧ disciplined es = true

/-- Only a bus reset, with VBUS debounced high, leaves DISCONNECTED (70_reset_and_hazards.md R460). -/
def Obligations.OnlyBusResetConnects : Prop :=
  ∀ s t : State, s.Inv → step s = .next t → s.devState = .disconnected → t.devState ≠ .disconnected →
    s.initialized = true ∧ s.usbState = .defaultState ∧ s.sts.dvst = true ∧ s.enb.dvse = true ∧ t.vbusLevel = true
end

