-- ==== Sys2Proof/Laws/State.lean ====
section
/-! SUPPORT. The state's updates: one lemma per field per update, so that no proof unfolds a record update. -/

namespace Sys2Proof.Machine

/-! ### `modPipe` -/

@[simp] theorem State.modPipe_params (s : State) (p : Pipe) (g : PipeState → PipeState) : (s.modPipe p g).params = s.params := rfl
@[simp] theorem State.modPipe_devState (s : State) (p : Pipe) (g : PipeState → PipeState) : (s.modPipe p g).devState = s.devState := rfl
@[simp] theorem State.modPipe_initialized (s : State) (p : Pipe) (g : PipeState → PipeState) : (s.modPipe p g).initialized = s.initialized := rfl
@[simp] theorem State.modPipe_fatal (s : State) (p : Pipe) (g : PipeState → PipeState) : (s.modPipe p g).fatal = s.fatal := rfl
@[simp] theorem State.modPipe_firstConnectFired (s : State) (p : Pipe) (g : PipeState → PipeState) : (s.modPipe p g).firstConnectFired = s.firstConnectFired := rfl
@[simp] theorem State.modPipe_configValue (s : State) (p : Pipe) (g : PipeState → PipeState) : (s.modPipe p g).configValue = s.configValue := rfl
@[simp] theorem State.modPipe_vbusLevel (s : State) (p : Pipe) (g : PipeState → PipeState) : (s.modPipe p g).vbusLevel = s.vbusLevel := rfl
@[simp] theorem State.modPipe_setup (s : State) (p : Pipe) (g : PipeState → PipeState) : (s.modPipe p g).setup = s.setup := rfl
@[simp] theorem State.modPipe_desc (s : State) (p : Pipe) (g : PipeState → PipeState) : (s.modPipe p g).desc = s.desc := rfl
@[simp] theorem State.modPipe_cb (s : State) (p : Pipe) (g : PipeState → PipeState) : (s.modPipe p g).cb = s.cb := rfl
@[simp] theorem State.modPipe_fifoC (s : State) (p : Pipe) (g : PipeState → PipeState) : (s.modPipe p g).fifoC = s.fifoC := rfl
@[simp] theorem State.modPipe_fifoD0 (s : State) (p : Pipe) (g : PipeState → PipeState) : (s.modPipe p g).fifoD0 = s.fifoD0 := rfl
@[simp] theorem State.modPipe_fifoD1 (s : State) (p : Pipe) (g : PipeState → PipeState) : (s.modPipe p g).fifoD1 = s.fifoD1 := rfl
@[simp] theorem State.modPipe_fifoIsel (s : State) (p : Pipe) (g : PipeState → PipeState) : (s.modPipe p g).fifoIsel = s.fifoIsel := rfl
@[simp] theorem State.modPipe_enb (s : State) (p : Pipe) (g : PipeState → PipeState) : (s.modPipe p g).enb = s.enb := rfl
@[simp] theorem State.modPipe_sts (s : State) (p : Pipe) (g : PipeState → PipeState) : (s.modPipe p g).sts = s.sts := rfl
@[simp] theorem State.modPipe_usbState (s : State) (p : Pipe) (g : PipeState → PipeState) : (s.modPipe p g).usbState = s.usbState := rfl
@[simp] theorem State.modPipe_ctrlStage (s : State) (p : Pipe) (g : PipeState → PipeState) : (s.modPipe p g).ctrlStage = s.ctrlStage := rfl
@[simp] theorem State.modPipe_setupValid (s : State) (p : Pipe) (g : PipeState → PipeState) : (s.modPipe p g).setupValid = s.setupValid := rfl
@[simp] theorem State.modPipe_setupData (s : State) (p : Pipe) (g : PipeState → PipeState) : (s.modPipe p g).setupData = s.setupData := rfl
@[simp] theorem State.modPipe_vbusHeld (s : State) (p : Pipe) (g : PipeState → PipeState) : (s.modPipe p g).vbusHeld = s.vbusHeld := rfl
@[simp] theorem State.modPipe_trace (s : State) (p : Pipe) (g : PipeState → PipeState) : (s.modPipe p g).trace = s.trace := rfl
@[simp] theorem State.modPipe_mem (s : State) (p : Pipe) (g : PipeState → PipeState) : (s.modPipe p g).mem = s.mem := rfl
@[simp] theorem State.modPipe_env (s : State) (p : Pipe) (g : PipeState → PipeState) : (s.modPipe p g).env = s.env := rfl
@[simp] theorem State.modPipe_inputs (s : State) (p : Pipe) (g : PipeState → PipeState) : (s.modPipe p g).inputs = s.inputs := rfl
@[simp] theorem State.modPipe_ctx (s : State) (p : Pipe) (g : PipeState → PipeState) : (s.modPipe p g).ctx = s.ctx := rfl
@[simp] theorem State.modPipe_result (s : State) (p : Pipe) (g : PipeState → PipeState) : (s.modPipe p g).result = s.result := rfl
@[simp] theorem State.modPipe_calls (s : State) (p : Pipe) (g : PipeState → PipeState) : (s.modPipe p g).calls = s.calls := rfl
@[simp] theorem State.modPipe_waits (s : State) (p : Pipe) (g : PipeState → PipeState) : (s.modPipe p g).waits = s.waits := rfl
@[simp] theorem State.modPipe_reads (s : State) (p : Pipe) (g : PipeState → PipeState) : (s.modPipe p g).reads = s.reads := rfl

/-! ### `modAllPipes` -/

@[simp] theorem State.modAllPipes_params (s : State) (g : PipeState → PipeState) : (s.modAllPipes g).params = s.params := rfl
@[simp] theorem State.modAllPipes_devState (s : State) (g : PipeState → PipeState) : (s.modAllPipes g).devState = s.devState := rfl
@[simp] theorem State.modAllPipes_initialized (s : State) (g : PipeState → PipeState) : (s.modAllPipes g).initialized = s.initialized := rfl
@[simp] theorem State.modAllPipes_fatal (s : State) (g : PipeState → PipeState) : (s.modAllPipes g).fatal = s.fatal := rfl
@[simp] theorem State.modAllPipes_firstConnectFired (s : State) (g : PipeState → PipeState) : (s.modAllPipes g).firstConnectFired = s.firstConnectFired := rfl
@[simp] theorem State.modAllPipes_configValue (s : State) (g : PipeState → PipeState) : (s.modAllPipes g).configValue = s.configValue := rfl
@[simp] theorem State.modAllPipes_vbusLevel (s : State) (g : PipeState → PipeState) : (s.modAllPipes g).vbusLevel = s.vbusLevel := rfl
@[simp] theorem State.modAllPipes_setup (s : State) (g : PipeState → PipeState) : (s.modAllPipes g).setup = s.setup := rfl
@[simp] theorem State.modAllPipes_desc (s : State) (g : PipeState → PipeState) : (s.modAllPipes g).desc = s.desc := rfl
@[simp] theorem State.modAllPipes_cb (s : State) (g : PipeState → PipeState) : (s.modAllPipes g).cb = s.cb := rfl
@[simp] theorem State.modAllPipes_fifoC (s : State) (g : PipeState → PipeState) : (s.modAllPipes g).fifoC = s.fifoC := rfl
@[simp] theorem State.modAllPipes_fifoD0 (s : State) (g : PipeState → PipeState) : (s.modAllPipes g).fifoD0 = s.fifoD0 := rfl
@[simp] theorem State.modAllPipes_fifoD1 (s : State) (g : PipeState → PipeState) : (s.modAllPipes g).fifoD1 = s.fifoD1 := rfl
@[simp] theorem State.modAllPipes_fifoIsel (s : State) (g : PipeState → PipeState) : (s.modAllPipes g).fifoIsel = s.fifoIsel := rfl
@[simp] theorem State.modAllPipes_enb (s : State) (g : PipeState → PipeState) : (s.modAllPipes g).enb = s.enb := rfl
@[simp] theorem State.modAllPipes_sts (s : State) (g : PipeState → PipeState) : (s.modAllPipes g).sts = s.sts := rfl
@[simp] theorem State.modAllPipes_usbState (s : State) (g : PipeState → PipeState) : (s.modAllPipes g).usbState = s.usbState := rfl
@[simp] theorem State.modAllPipes_ctrlStage (s : State) (g : PipeState → PipeState) : (s.modAllPipes g).ctrlStage = s.ctrlStage := rfl
@[simp] theorem State.modAllPipes_setupValid (s : State) (g : PipeState → PipeState) : (s.modAllPipes g).setupValid = s.setupValid := rfl
@[simp] theorem State.modAllPipes_setupData (s : State) (g : PipeState → PipeState) : (s.modAllPipes g).setupData = s.setupData := rfl
@[simp] theorem State.modAllPipes_vbusHeld (s : State) (g : PipeState → PipeState) : (s.modAllPipes g).vbusHeld = s.vbusHeld := rfl
@[simp] theorem State.modAllPipes_trace (s : State) (g : PipeState → PipeState) : (s.modAllPipes g).trace = s.trace := rfl
@[simp] theorem State.modAllPipes_mem (s : State) (g : PipeState → PipeState) : (s.modAllPipes g).mem = s.mem := rfl
@[simp] theorem State.modAllPipes_env (s : State) (g : PipeState → PipeState) : (s.modAllPipes g).env = s.env := rfl
@[simp] theorem State.modAllPipes_inputs (s : State) (g : PipeState → PipeState) : (s.modAllPipes g).inputs = s.inputs := rfl
@[simp] theorem State.modAllPipes_ctx (s : State) (g : PipeState → PipeState) : (s.modAllPipes g).ctx = s.ctx := rfl
@[simp] theorem State.modAllPipes_result (s : State) (g : PipeState → PipeState) : (s.modAllPipes g).result = s.result := rfl
@[simp] theorem State.modAllPipes_calls (s : State) (g : PipeState → PipeState) : (s.modAllPipes g).calls = s.calls := rfl
@[simp] theorem State.modAllPipes_waits (s : State) (g : PipeState → PipeState) : (s.modAllPipes g).waits = s.waits := rfl
@[simp] theorem State.modAllPipes_reads (s : State) (g : PipeState → PipeState) : (s.modAllPipes g).reads = s.reads := rfl

/-! ### `logs` -/

@[simp] theorem State.logs_params (s : State) (es : List TraceEntry) : (s.logs es).params = s.params := rfl
@[simp] theorem State.logs_devState (s : State) (es : List TraceEntry) : (s.logs es).devState = s.devState := rfl
@[simp] theorem State.logs_initialized (s : State) (es : List TraceEntry) : (s.logs es).initialized = s.initialized := rfl
@[simp] theorem State.logs_fatal (s : State) (es : List TraceEntry) : (s.logs es).fatal = s.fatal := rfl
@[simp] theorem State.logs_firstConnectFired (s : State) (es : List TraceEntry) : (s.logs es).firstConnectFired = s.firstConnectFired := rfl
@[simp] theorem State.logs_configValue (s : State) (es : List TraceEntry) : (s.logs es).configValue = s.configValue := rfl
@[simp] theorem State.logs_vbusLevel (s : State) (es : List TraceEntry) : (s.logs es).vbusLevel = s.vbusLevel := rfl
@[simp] theorem State.logs_setup (s : State) (es : List TraceEntry) : (s.logs es).setup = s.setup := rfl
@[simp] theorem State.logs_desc (s : State) (es : List TraceEntry) : (s.logs es).desc = s.desc := rfl
@[simp] theorem State.logs_cb (s : State) (es : List TraceEntry) : (s.logs es).cb = s.cb := rfl
@[simp] theorem State.logs_pipes (s : State) (es : List TraceEntry) : (s.logs es).pipes = s.pipes := rfl
@[simp] theorem State.logs_fifoC (s : State) (es : List TraceEntry) : (s.logs es).fifoC = s.fifoC := rfl
@[simp] theorem State.logs_fifoD0 (s : State) (es : List TraceEntry) : (s.logs es).fifoD0 = s.fifoD0 := rfl
@[simp] theorem State.logs_fifoD1 (s : State) (es : List TraceEntry) : (s.logs es).fifoD1 = s.fifoD1 := rfl
@[simp] theorem State.logs_fifoIsel (s : State) (es : List TraceEntry) : (s.logs es).fifoIsel = s.fifoIsel := rfl
@[simp] theorem State.logs_enb (s : State) (es : List TraceEntry) : (s.logs es).enb = s.enb := rfl
@[simp] theorem State.logs_sts (s : State) (es : List TraceEntry) : (s.logs es).sts = s.sts := rfl
@[simp] theorem State.logs_usbState (s : State) (es : List TraceEntry) : (s.logs es).usbState = s.usbState := rfl
@[simp] theorem State.logs_ctrlStage (s : State) (es : List TraceEntry) : (s.logs es).ctrlStage = s.ctrlStage := rfl
@[simp] theorem State.logs_setupValid (s : State) (es : List TraceEntry) : (s.logs es).setupValid = s.setupValid := rfl
@[simp] theorem State.logs_setupData (s : State) (es : List TraceEntry) : (s.logs es).setupData = s.setupData := rfl
@[simp] theorem State.logs_vbusHeld (s : State) (es : List TraceEntry) : (s.logs es).vbusHeld = s.vbusHeld := rfl
@[simp] theorem State.logs_mem (s : State) (es : List TraceEntry) : (s.logs es).mem = s.mem := rfl
@[simp] theorem State.logs_env (s : State) (es : List TraceEntry) : (s.logs es).env = s.env := rfl
@[simp] theorem State.logs_inputs (s : State) (es : List TraceEntry) : (s.logs es).inputs = s.inputs := rfl
@[simp] theorem State.logs_ctx (s : State) (es : List TraceEntry) : (s.logs es).ctx = s.ctx := rfl
@[simp] theorem State.logs_result (s : State) (es : List TraceEntry) : (s.logs es).result = s.result := rfl
@[simp] theorem State.logs_calls (s : State) (es : List TraceEntry) : (s.logs es).calls = s.calls := rfl
@[simp] theorem State.logs_waits (s : State) (es : List TraceEntry) : (s.logs es).waits = s.waits := rfl
@[simp] theorem State.logs_reads (s : State) (es : List TraceEntry) : (s.logs es).reads = s.reads := rfl

/-! ### `modFifo` -/

@[simp] theorem State.modFifo_params (s : State) (f : FifoId) (g : FifoPort → FifoPort) : (s.modFifo f g).params = s.params := by cases f <;> rfl
@[simp] theorem State.modFifo_devState (s : State) (f : FifoId) (g : FifoPort → FifoPort) : (s.modFifo f g).devState = s.devState := by cases f <;> rfl
@[simp] theorem State.modFifo_initialized (s : State) (f : FifoId) (g : FifoPort → FifoPort) : (s.modFifo f g).initialized = s.initialized := by cases f <;> rfl
@[simp] theorem State.modFifo_fatal (s : State) (f : FifoId) (g : FifoPort → FifoPort) : (s.modFifo f g).fatal = s.fatal := by cases f <;> rfl
@[simp] theorem State.modFifo_firstConnectFired (s : State) (f : FifoId) (g : FifoPort → FifoPort) : (s.modFifo f g).firstConnectFired = s.firstConnectFired := by cases f <;> rfl
@[simp] theorem State.modFifo_configValue (s : State) (f : FifoId) (g : FifoPort → FifoPort) : (s.modFifo f g).configValue = s.configValue := by cases f <;> rfl
@[simp] theorem State.modFifo_vbusLevel (s : State) (f : FifoId) (g : FifoPort → FifoPort) : (s.modFifo f g).vbusLevel = s.vbusLevel := by cases f <;> rfl
@[simp] theorem State.modFifo_setup (s : State) (f : FifoId) (g : FifoPort → FifoPort) : (s.modFifo f g).setup = s.setup := by cases f <;> rfl
@[simp] theorem State.modFifo_desc (s : State) (f : FifoId) (g : FifoPort → FifoPort) : (s.modFifo f g).desc = s.desc := by cases f <;> rfl
@[simp] theorem State.modFifo_cb (s : State) (f : FifoId) (g : FifoPort → FifoPort) : (s.modFifo f g).cb = s.cb := by cases f <;> rfl
@[simp] theorem State.modFifo_pipes (s : State) (f : FifoId) (g : FifoPort → FifoPort) : (s.modFifo f g).pipes = s.pipes := by cases f <;> rfl
@[simp] theorem State.modFifo_fifoIsel (s : State) (f : FifoId) (g : FifoPort → FifoPort) : (s.modFifo f g).fifoIsel = s.fifoIsel := by cases f <;> rfl
@[simp] theorem State.modFifo_enb (s : State) (f : FifoId) (g : FifoPort → FifoPort) : (s.modFifo f g).enb = s.enb := by cases f <;> rfl
@[simp] theorem State.modFifo_sts (s : State) (f : FifoId) (g : FifoPort → FifoPort) : (s.modFifo f g).sts = s.sts := by cases f <;> rfl
@[simp] theorem State.modFifo_usbState (s : State) (f : FifoId) (g : FifoPort → FifoPort) : (s.modFifo f g).usbState = s.usbState := by cases f <;> rfl
@[simp] theorem State.modFifo_ctrlStage (s : State) (f : FifoId) (g : FifoPort → FifoPort) : (s.modFifo f g).ctrlStage = s.ctrlStage := by cases f <;> rfl
@[simp] theorem State.modFifo_setupValid (s : State) (f : FifoId) (g : FifoPort → FifoPort) : (s.modFifo f g).setupValid = s.setupValid := by cases f <;> rfl
@[simp] theorem State.modFifo_setupData (s : State) (f : FifoId) (g : FifoPort → FifoPort) : (s.modFifo f g).setupData = s.setupData := by cases f <;> rfl
@[simp] theorem State.modFifo_vbusHeld (s : State) (f : FifoId) (g : FifoPort → FifoPort) : (s.modFifo f g).vbusHeld = s.vbusHeld := by cases f <;> rfl
@[simp] theorem State.modFifo_trace (s : State) (f : FifoId) (g : FifoPort → FifoPort) : (s.modFifo f g).trace = s.trace := by cases f <;> rfl
@[simp] theorem State.modFifo_mem (s : State) (f : FifoId) (g : FifoPort → FifoPort) : (s.modFifo f g).mem = s.mem := by cases f <;> rfl
@[simp] theorem State.modFifo_env (s : State) (f : FifoId) (g : FifoPort → FifoPort) : (s.modFifo f g).env = s.env := by cases f <;> rfl
@[simp] theorem State.modFifo_inputs (s : State) (f : FifoId) (g : FifoPort → FifoPort) : (s.modFifo f g).inputs = s.inputs := by cases f <;> rfl
@[simp] theorem State.modFifo_ctx (s : State) (f : FifoId) (g : FifoPort → FifoPort) : (s.modFifo f g).ctx = s.ctx := by cases f <;> rfl
@[simp] theorem State.modFifo_result (s : State) (f : FifoId) (g : FifoPort → FifoPort) : (s.modFifo f g).result = s.result := by cases f <;> rfl
@[simp] theorem State.modFifo_calls (s : State) (f : FifoId) (g : FifoPort → FifoPort) : (s.modFifo f g).calls = s.calls := by cases f <;> rfl
@[simp] theorem State.modFifo_waits (s : State) (f : FifoId) (g : FifoPort → FifoPort) : (s.modFifo f g).waits = s.waits := by cases f <;> rfl
@[simp] theorem State.modFifo_reads (s : State) (f : FifoId) (g : FifoPort → FifoPort) : (s.modFifo f g).reads = s.reads := by cases f <;> rfl

/-! ### `tick` -/

@[simp] theorem State.tick_params (s : State) : (s.tick).params = s.params := rfl
@[simp] theorem State.tick_devState (s : State) : (s.tick).devState = s.devState := rfl
@[simp] theorem State.tick_initialized (s : State) : (s.tick).initialized = s.initialized := rfl
@[simp] theorem State.tick_fatal (s : State) : (s.tick).fatal = s.fatal := rfl
@[simp] theorem State.tick_firstConnectFired (s : State) : (s.tick).firstConnectFired = s.firstConnectFired := rfl
@[simp] theorem State.tick_configValue (s : State) : (s.tick).configValue = s.configValue := rfl
@[simp] theorem State.tick_vbusLevel (s : State) : (s.tick).vbusLevel = s.vbusLevel := rfl
@[simp] theorem State.tick_setup (s : State) : (s.tick).setup = s.setup := rfl
@[simp] theorem State.tick_desc (s : State) : (s.tick).desc = s.desc := rfl
@[simp] theorem State.tick_cb (s : State) : (s.tick).cb = s.cb := rfl
@[simp] theorem State.tick_pipes (s : State) : (s.tick).pipes = s.pipes := rfl
@[simp] theorem State.tick_fifoC (s : State) : (s.tick).fifoC = s.fifoC := rfl
@[simp] theorem State.tick_fifoD0 (s : State) : (s.tick).fifoD0 = s.fifoD0 := rfl
@[simp] theorem State.tick_fifoD1 (s : State) : (s.tick).fifoD1 = s.fifoD1 := rfl
@[simp] theorem State.tick_fifoIsel (s : State) : (s.tick).fifoIsel = s.fifoIsel := rfl
@[simp] theorem State.tick_enb (s : State) : (s.tick).enb = s.enb := rfl
@[simp] theorem State.tick_sts (s : State) : (s.tick).sts = s.sts := rfl
@[simp] theorem State.tick_usbState (s : State) : (s.tick).usbState = s.usbState := rfl
@[simp] theorem State.tick_ctrlStage (s : State) : (s.tick).ctrlStage = s.ctrlStage := rfl
@[simp] theorem State.tick_setupValid (s : State) : (s.tick).setupValid = s.setupValid := rfl
@[simp] theorem State.tick_setupData (s : State) : (s.tick).setupData = s.setupData := rfl
@[simp] theorem State.tick_vbusHeld (s : State) : (s.tick).vbusHeld = s.vbusHeld := rfl
@[simp] theorem State.tick_trace (s : State) : (s.tick).trace = s.trace := rfl
@[simp] theorem State.tick_mem (s : State) : (s.tick).mem = s.mem := rfl
@[simp] theorem State.tick_inputs (s : State) : (s.tick).inputs = s.inputs := rfl
@[simp] theorem State.tick_ctx (s : State) : (s.tick).ctx = s.ctx := rfl
@[simp] theorem State.tick_result (s : State) : (s.tick).result = s.result := rfl
@[simp] theorem State.tick_calls (s : State) : (s.tick).calls = s.calls := rfl
@[simp] theorem State.tick_waits (s : State) : (s.tick).waits = s.waits := rfl
@[simp] theorem State.tick_reads (s : State) : (s.tick).reads = s.reads := rfl

/-! ### What the updates change -/

@[simp] theorem State.logs_trace (s : State) (es : List TraceEntry) : (s.logs es).trace = s.trace ++ es := rfl

theorem State.logs_logs (s : State) (a b : List TraceEntry) : (s.logs a).logs b = s.logs (a ++ b) := by
  simp [State.logs]

/-- Reading a pipe after changing one. -/
theorem State.pipe_modPipe (s : State) (p q : Pipe) (g : PipeState → PipeState) :
    (s.modPipe p g).pipe q = if p = q then g (s.pipe p) else s.pipe q := by
  simp [State.pipe, State.modPipe, Vector.getElem_set, Fin.ext_iff]

@[simp] theorem State.pipe_modPipe_self (s : State) (p : Pipe) (g : PipeState → PipeState) :
    (s.modPipe p g).pipe p = g (s.pipe p) := by
  simp [State.pipe_modPipe]

theorem State.pipe_modPipe_ne (s : State) {p q : Pipe} (g : PipeState → PipeState) (h : p ≠ q) :
    (s.modPipe p g).pipe q = s.pipe q := by
  simp [State.pipe_modPipe, h]

@[simp] theorem State.pipe_modAllPipes (s : State) (p : Pipe) (g : PipeState → PipeState) :
    (s.modAllPipes g).pipe p = g (s.pipe p) := by
  simp [State.pipe, State.modAllPipes]

@[simp] theorem State.pipe_logs (s : State) (p : Pipe) (es : List TraceEntry) : (s.logs es).pipe p = s.pipe p := rfl

@[simp] theorem State.pipe_modFifo (s : State) (p : Pipe) (f : FifoId) (g : FifoPort → FifoPort) :
    (s.modFifo f g).pipe p = s.pipe p := by
  cases f <;> rfl

@[simp] theorem State.pipe_tick (s : State) (p : Pipe) : s.tick.pipe p = s.pipe p := rfl

/-- Two changes of one pipe are one. -/
@[simp] theorem State.modPipe_modPipe (s : State) (p : Pipe) (g h : PipeState → PipeState) :
    (s.modPipe p g).modPipe p h = s.modPipe p fun x => h (g x) := by
  simp [State.modPipe, State.pipe]

/-- Changes of different pipes commute. -/
theorem State.modPipe_comm (s : State) {p q : Pipe} (g h : PipeState → PipeState) (n : p ≠ q) :
    (s.modPipe p g).modPipe q h = (s.modPipe q h).modPipe p g := by
  have n' : p.val ≠ q.val := fun e => n (Fin.ext e)
  simp only [State.modPipe, State.pipe, Fin.getElem_fin]
  rw [Vector.getElem_set_ne _ _ n', Vector.getElem_set_ne _ _ (Ne.symm n'), Vector.set_comm _ _ n']

/-- Two changes that agree on the pipe as it is are one. -/
theorem State.modPipe_congr (s : State) (p : Pipe) {g h : PipeState → PipeState} (e : g (s.pipe p) = h (s.pipe p)) :
    s.modPipe p g = s.modPipe p h := by
  simp only [State.modPipe, e]

/-- Changing a pipe to what it is changes nothing. -/
theorem State.modPipe_id (s : State) (p : Pipe) {g : PipeState → PipeState} (h : g (s.pipe p) = s.pipe p) :
    s.modPipe p g = s := by
  have e : s.pipes.set p.val (g (s.pipe p)) p.isLt = s.pipes := by
    rw [h]
    exact Vector.set_getElem_self p.isLt
  simp only [State.modPipe, e]

/-- Two changes of every pipe are one. -/
theorem State.modAllPipes_modAllPipes (s : State) (g h : PipeState → PipeState) :
    (s.modAllPipes g).modAllPipes h = s.modAllPipes fun x => h (g x) := by
  simp [State.modAllPipes, State.pipe]

@[simp] theorem State.fifo_modPipe (s : State) (p : Pipe) (f : FifoId) (g : PipeState → PipeState) :
    (s.modPipe p g).fifo f = s.fifo f := by
  cases f <;> rfl

@[simp] theorem State.fifo_modAllPipes (s : State) (f : FifoId) (g : PipeState → PipeState) :
    (s.modAllPipes g).fifo f = s.fifo f := by
  cases f <;> rfl

@[simp] theorem State.fifo_logs (s : State) (f : FifoId) (es : List TraceEntry) : (s.logs es).fifo f = s.fifo f := by
  cases f <;> rfl

@[simp] theorem State.fifo_tick (s : State) (f : FifoId) : s.tick.fifo f = s.fifo f := by
  cases f <;> rfl

/-- Reading a FIFO after changing one. -/
theorem State.fifo_modFifo (s : State) (f e : FifoId) (g : FifoPort → FifoPort) :
    (s.modFifo f g).fifo e = if f = e then g (s.fifo f) else s.fifo e := by
  cases f <;> cases e <;> rfl

@[simp] theorem State.fifo_modFifo_self (s : State) (f : FifoId) (g : FifoPort → FifoPort) :
    (s.modFifo f g).fifo f = g (s.fifo f) := by
  simp [State.fifo_modFifo]

/-- Two changes of one FIFO are one. -/
@[simp] theorem State.modFifo_modFifo (s : State) (f : FifoId) (g h : FifoPort → FifoPort) :
    (s.modFifo f g).modFifo f h = s.modFifo f fun x => h (g x) := by
  cases f <;> rfl

/-- Two states are equal when their fields are; the pipes one by one. -/
theorem State.pipes_ext {a b : State} (h : ∀ p, a.pipe p = b.pipe p) : a.pipes = b.pipes := by
  apply Vector.ext
  intro i hi
  exact h ⟨i, hi⟩

/-! ### The named writes, as changes of one pipe and entries of the trace -/

theorem writePid_eq (p : Pipe) (v : Pid) (s : State) :
    writePid p v s = (s.modPipe p fun x => { x with pid := v }).logs [.pid p v] := rfl

/-- NAK, then BUF: the pipe ends BUF and the trace has both entries. -/
theorem setPidBuf_eq (p : Pipe) (s : State) :
    setPidBuf p s = (s.modPipe p fun x => { x with pid := .buf }).logs [.pid p .nak, .pid p .buf] := by
  simp [setPidBuf, writePid, State.logs, State.modPipe, State.pipe]

theorem setPidStall_eq (p : Pipe) (s : State) :
    setPidStall p s = (s.modPipe p fun x => { x with pid := .stall }).logs [.pid p .stall] := rfl

theorem setPidNak_eq (p : Pipe) (s : State) :
    setPidNak p s = (s.modPipe p fun x => { x with pid := .nak }).logs [.pid p .nak] := rfl

/-- Changing a pipe and logging commute. -/
@[simp] theorem State.logs_modPipe (s : State) (p : Pipe) (g : PipeState → PipeState) (es : List TraceEntry) :
    (s.logs es).modPipe p g = (s.modPipe p g).logs es := rfl

end Sys2Proof.Machine
end

