-- ==== Sys2Proof/Laws/Memory.lean ====
section
/-! SUPPORT. The laws of caller memory: a write is read back, leaves every other address alone, and keeps
the canonical form; and the same for a run of bytes. -/

namespace Sys2Proof.Machine

theorem Memory.wfFrom_cons {lo k : Nat} {v : Byte} {m : Memory} :
    Memory.wfFrom lo ((k, v) :: m) = true ↔
      lo ≤ k ∧ k < 2 ^ 32 ∧ v ≠ Memory.unlisted ∧ Memory.wfFrom (k + 1) m = true := by
  simp [Memory.wfFrom, and_assoc]

theorem Memory.wfFrom_mono {lo hi : Nat} {m : Memory} (h : lo ≤ hi) (w : Memory.wfFrom hi m = true) :
    Memory.wfFrom lo m = true := by
  cases m with
  | nil => rfl
  | cons c m =>
    obtain ⟨k, v⟩ := c
    rw [Memory.wfFrom_cons] at *
    exact ⟨by omega, w.2⟩

/-- Below the first listed address nothing is listed. -/
theorem Memory.read_below {lo a : Nat} {m : Memory} (w : Memory.wfFrom lo m = true) (h : a < lo) :
    m.read a = Memory.unlisted := by
  induction m generalizing lo with
  | nil => rfl
  | cons c m ih =>
    obtain ⟨k, v⟩ := c
    rw [Memory.wfFrom_cons] at w
    have : k ≠ a := by omega
    simp only [Memory.read, if_neg this]
    exact ih w.2.2.2 (by omega)

theorem Memory.read_write_from {lo : Nat} {m : Memory} (w : Memory.wfFrom lo m = true) (a : Nat) (b : Byte) :
    (Memory.write m a b).read a = b := by
  induction m generalizing lo with
  | nil =>
    simp only [Memory.write]
    split <;> simp_all [Memory.read]
  | cons c m ih =>
    obtain ⟨k, v⟩ := c
    rw [Memory.wfFrom_cons] at w
    simp only [Memory.write]
    split
    · split
      · rename_i h e
        have : k ≠ a := by omega
        simp only [Memory.read, if_neg this, e]
        exact Memory.read_below w.2.2.2 (by omega)
      · simp [Memory.read]
    · split
      · split
        · rename_i _ h e
          rw [e]
          exact Memory.read_below w.2.2.2 (by omega)
        · simp [Memory.read]
      · have : k ≠ a := by omega
        simp only [Memory.read, if_neg this]
        exact ih w.2.2.2

/-- A write is read back. -/
theorem Memory.read_write_same {m : Memory} (w : m.wf = true) (a : Nat) (b : Byte) :
    (Memory.write m a b).read a = b :=
  Memory.read_write_from w a b

/-- A write leaves every other address alone. -/
theorem Memory.read_write_ne (m : Memory) {a x : Nat} (b : Byte) (h : x ≠ a) :
    (Memory.write m a b).read x = m.read x := by
  induction m with
  | nil =>
    simp only [Memory.write]
    split <;> simp [Memory.read, Ne.symm h]
  | cons c m ih =>
    obtain ⟨k, v⟩ := c
    simp only [Memory.write]
    split
    · split
      · rfl
      · simp [Memory.read, Ne.symm h]
    · split
      · rename_i _ e
        subst e
        split <;> simp [Memory.read, Ne.symm h]
      · simp only [Memory.read, ih]

theorem Memory.wfFrom_write {lo : Nat} {m : Memory} (w : Memory.wfFrom lo m = true) {a : Nat} (b : Byte)
    (h : a < 2 ^ 32) : Memory.wfFrom (min lo a) (Memory.write m a b) = true := by
  induction m generalizing lo with
  | nil =>
    simp only [Memory.write]
    split
    · rfl
    · rw [Memory.wfFrom_cons]
      exact ⟨by omega, h, ‹_›, rfl⟩
  | cons c m ih =>
    obtain ⟨k, v⟩ := c
    rw [Memory.wfFrom_cons] at w
    simp only [Memory.write]
    split
    · split
      · rw [Memory.wfFrom_cons]
        exact ⟨by omega, w.2⟩
      · rw [Memory.wfFrom_cons, Memory.wfFrom_cons]
        exact ⟨by omega, h, ‹_›, by omega, w.2⟩
    · split
      · split
        · exact Memory.wfFrom_mono (by omega) w.2.2.2
        · rw [Memory.wfFrom_cons]
          exact ⟨by omega, h, ‹_›, by rename_i e _; subst e; exact w.2.2.2⟩
      · rw [Memory.wfFrom_cons]
        refine ⟨by omega, w.2.1, w.2.2.1, ?_⟩
        have := ih w.2.2.2
        exact Memory.wfFrom_mono (by omega) this

/-- A write keeps the canonical form. -/
theorem Memory.wf_write {m : Memory} (w : m.wf = true) {a : Nat} (b : Byte) (h : a < 2 ^ 32) :
    (Memory.write m a b).wf = true :=
  Memory.wfFrom_mono (Nat.zero_le _) (Memory.wfFrom_write w b h)

/-- Reset memory has the canonical form. -/
theorem Memory.wf_reset : State.reset.mem.wf = true := rfl

/-- A byte of the address space stored, or none. -/
theorem Memory.wf_store {m : Memory} (w : m.wf = true) (a : Nat) (b : Byte) : (m.store a b).wf = true := by
  unfold Memory.store
  split
  · exact Memory.wf_write w b ‹_›
  · exact w

theorem Memory.store_of_lt (m : Memory) {a : Nat} (b : Byte) (h : a < 2 ^ 32) : m.store a b = m.write a b := if_pos h

theorem Memory.read_store_ne (m : Memory) {a x : Nat} (b : Byte) (h : x ≠ a) : (m.store a b).read x = m.read x := by
  unfold Memory.store
  split
  · exact Memory.read_write_ne _ _ h
  · rfl

/-- A run of writes keeps the canonical form, wherever it lies. -/
theorem Memory.wf_writeBytes {m : Memory} (w : m.wf = true) (a : Nat) (bs : List Byte) :
    (Memory.writeBytes m a bs).wf = true := by
  induction bs generalizing m a with
  | nil => exact w
  | cons b bs ih => exact ih (Memory.wf_store w a b) (a + 1)

/-- A run of writes leaves every address outside it alone. -/
theorem Memory.read_writeBytes_outside (m : Memory) {a x : Nat} {bs : List Byte} (h : x < a ∨ a + bs.length ≤ x) :
    (Memory.writeBytes m a bs).read x = m.read x := by
  induction bs generalizing m a with
  | nil => rfl
  | cons b bs ih =>
    simp only [List.length_cons] at h
    simp only [Memory.writeBytes]
    rw [ih _ (by omega), Memory.read_store_ne _ _ (by omega)]

/-- A run of writes is read back. -/
theorem Memory.readBytes_writeBytes {m : Memory} (w : m.wf = true) {a : Nat} {bs : List Byte}
    (h : a + bs.length ≤ 2 ^ 32) : (Memory.writeBytes m a bs).readBytes a bs.length = bs := by
  induction bs generalizing m a with
  | nil => rfl
  | cons b bs ih =>
    simp only [List.length_cons] at *
    simp only [Memory.writeBytes, Memory.readBytes]
    rw [ih (Memory.wf_store w a b) (by omega), Memory.read_writeBytes_outside _ (by omega),
      Memory.store_of_lt _ _ (by omega), Memory.read_write_same w]

@[simp] theorem Memory.readBytes_length (m : Memory) (a n : Nat) : (m.readBytes a n).length = n := by
  induction n generalizing a with
  | zero => rfl
  | succ n ih => simp [Memory.readBytes, ih]

/-- A run of bytes read in two parts. -/
theorem Memory.readBytes_add (m : Memory) (a i j : Nat) :
    m.readBytes a (i + j) = m.readBytes a i ++ m.readBytes (a + i) j := by
  induction i generalizing a with
  | zero => simp [Memory.readBytes]
  | succ i ih =>
    rw [show i + 1 + j = (i + j) + 1 by omega]
    simp only [Memory.readBytes, List.cons_append, ih]
    rw [show a + 1 + i = a + (i + 1) by omega]

/-- A run of bytes written in two parts. -/
theorem Memory.writeBytes_append (m : Memory) (a : Nat) (bs cs : List Byte) :
    m.writeBytes a (bs ++ cs) = (m.writeBytes a bs).writeBytes (a + bs.length) cs := by
  induction bs generalizing m a with
  | nil => rfl
  | cons b bs ih =>
    simp only [List.cons_append, Memory.writeBytes, ih, List.length_cons]
    rw [show a + 1 + bs.length = a + (bs.length + 1) by omega]

end Sys2Proof.Machine
end

