-- ==== Sys2Proof/Laws/Fifo.lean ====
section
/-! SUPPORT. The draws change the environment and nothing else; and one law of the fallible bind, the
unconditional bind and the administrative binds. -/

namespace Sys2Proof.Machine

/-- The state with another environment. -/
def State.withEnv (s : State) (e : Env) : State := { s with env := e }

@[simp] theorem State.withEnv_env (s : State) (e : Env) : (s.withEnv e).env = e := rfl
@[simp] theorem State.withEnv_withEnv (s : State) (e e' : Env) : (s.withEnv e).withEnv e' = s.withEnv e' := rfl
@[simp] theorem State.withEnv_pipe (s : State) (e : Env) (p : Pipe) : (s.withEnv e).pipe p = s.pipe p := rfl
@[simp] theorem State.withEnv_fifo (s : State) (e : Env) (f : FifoId) : (s.withEnv e).fifo f = s.fifo f := by
  cases f <;> rfl
@[simp] theorem State.withEnv_params (s : State) (e : Env) : (s.withEnv e).params = s.params := rfl
@[simp] theorem State.withEnv_mem (s : State) (e : Env) : (s.withEnv e).mem = s.mem := rfl
@[simp] theorem State.withEnv_trace (s : State) (e : Env) : (s.withEnv e).trace = s.trace := rfl
theorem State.withEnv_self (s : State) : s.withEnv s.env = s := rfl

theorem drawFifoCur_spec (s : State) : ∃ e, (drawFifoCur s).2 = s.withEnv e := by
  unfold drawFifoCur
  split <;> exact ⟨_, rfl⟩

theorem drawFifoReady_spec (s : State) : ∃ e, (drawFifoReady s).2 = s.withEnv e := by
  unfold drawFifoReady
  split <;> exact ⟨_, rfl⟩

/-- The received count is at most the buffer size. -/
theorem drawRcvLen_spec (bs : Nat) (s : State) : (drawRcvLen bs s).1 ≤ bs ∧ ∃ e, (drawRcvLen bs s).2 = s.withEnv e := by
  unfold drawRcvLen
  split <;> exact ⟨Nat.min_le_right _ _, _, rfl⟩

theorem drawByte_spec (s : State) : ∃ e, (drawByte s).2 = s.withEnv e := by
  unfold drawByte
  split <;> exact ⟨_, rfl⟩

theorem drawVbus_spec (s : State) : ∃ e, (drawVbus s).2 = s.withEnv e := by
  unfold drawVbus
  split
  · exact ⟨s.env, rfl⟩
  · split <;> exact ⟨_, rfl⟩

theorem drawInbufm_spec (s : State) : ∃ e, (drawInbufm s).2 = s.withEnv e := by
  unfold drawInbufm
  split <;> exact ⟨_, rfl⟩

theorem drawClassStep_spec (s : State) : ∃ e, (drawClassStep s).2 = s.withEnv e := by
  unfold drawClassStep
  split <;> exact ⟨_, rfl⟩

theorem debounce_spec (s : State) : ∃ e, (debounce s).2 = s.withEnv e := by
  obtain ⟨e1, h1⟩ := drawVbus_spec s
  obtain ⟨e2, h2⟩ := drawVbus_spec (drawVbus s).2
  obtain ⟨e3, h3⟩ := drawVbus_spec (drawVbus (drawVbus s).2).2
  exact ⟨e3, by simp only [debounce]; rw [h3, h2, h1]; rfl⟩

@[simp] theorem drawBytes_length (n : Nat) (s : State) : (drawBytes n s).1.length = n := by
  induction n generalizing s with
  | zero => rfl
  | succ n ih => simp [drawBytes, ih]

theorem drawBytes_spec (n : Nat) (s : State) : ∃ e, (drawBytes n s).2 = s.withEnv e := by
  induction n generalizing s with
  | zero => exact ⟨s.env, rfl⟩
  | succ n ih =>
    obtain ⟨e, h⟩ := drawByte_spec s
    obtain ⟨e', h'⟩ := ih (drawByte s).2
    exact ⟨e', by simp only [drawBytes]; rw [h', h]; rfl⟩

theorem pollFifoCur_spec (p : Option Pipe) (n : Nat) (s : State) : ∃ e, (pollFifoCur p n s).2 = s.withEnv e := by
  induction n generalizing s with
  | zero => exact ⟨s.env, rfl⟩
  | succ n ih =>
    obtain ⟨e, h⟩ := drawFifoCur_spec s
    simp only [pollFifoCur]
    split
    · exact ⟨e, h⟩
    · obtain ⟨e', h'⟩ := ih (drawFifoCur s).2
      exact ⟨e', by rw [h', h, State.withEnv_withEnv]⟩

theorem pollFifoReady_spec (n : Nat) (s : State) : ∃ e, (pollFifoReady n s).2 = s.withEnv e := by
  induction n generalizing s with
  | zero => exact ⟨s.env, rfl⟩
  | succ n ih =>
    obtain ⟨e, h⟩ := drawFifoReady_spec s
    simp only [pollFifoReady]
    split
    · exact ⟨e, h⟩
    · obtain ⟨e', h'⟩ := ih (drawFifoReady s).2
      exact ⟨e', by rw [h', h, State.withEnv_withEnv]⟩

/-- A poll loop whose next answer is the pipe wanted succeeds at once. -/
theorem pollFifoCur_first {p : Option Pipe} {n : Nat} {s : State} {xs : List (Option Pipe)} (hn : 0 < n)
    (h : s.env.fifoCur = p :: xs) : pollFifoCur p n s = (true, s.withEnv { s.env with fifoCur := xs }) := by
  obtain ⟨n, rfl⟩ : ∃ m, n = m + 1 := ⟨n - 1, by omega⟩
  simp [pollFifoCur, drawFifoCur, h, State.withEnv]

theorem writeFifoSel_afterBind (p : Option Pipe) (f : FifoId) (d : Dir) (s : State) :
    writeFifoSel f p d (s.modFifo f fun x => { x with owner := none }) = afterBind p f d false s := by
  cases f <;> simp [writeFifoSel, afterBind, State.modFifo, State.logs]

theorem afterBind_owner (p : Option Pipe) (f : FifoId) (d : Dir) (s : State) (e : Env) :
    ((afterBind p f d false s).withEnv e).modFifo f (fun x => { x with owner := p }) =
      (afterBind p f d true s).withEnv e := by
  cases f <;> rfl

/-- Everything a fallible bind does: the select field, the owner and the trace, beside the answers it used. -/
theorem bindFifo_spec (p : Option Pipe) (f : FifoId) (d : Dir) (s : State) :
    ∃ e, (bindFifo p f d s).2 = (afterBind p f d (bindFifo p f d s).1 s).withEnv e := by
  obtain ⟨e, h⟩ := pollFifoCur_spec p s.params.bindPollBudget (afterBind p f d false s)
  refine ⟨e, ?_⟩
  have hp : (s.modFifo f fun x => { x with owner := none }).params = s.params := by simp
  simp only [bindFifo, writeFifoSel_afterBind, hp, h]
  split
  · exact afterBind_owner p f d s e
  · rfl

/-- The state after a bind, whatever it answered. -/
theorem bindFifo_state {p : Option Pipe} {f : FifoId} {d : Dir} {s u : State} {b : Bool} (h : bindFifo p f d s = (b, u)) :
    u = (afterBind p f d b s).withEnv u.env := by
  obtain ⟨e, he⟩ := bindFifo_spec p f d s
  rw [h] at he
  have : u = (afterBind p f d b s).withEnv e := he
  subst this
  rfl

/-- A bind whose first poll confirms. -/
theorem bindFifo_first {p : Option Pipe} (f : FifoId) (d : Dir) {s : State} {xs : List (Option Pipe)}
    (hn : 0 < s.params.bindPollBudget) (h : s.env.fifoCur = p :: xs) :
    bindFifo p f d s = (true, (afterBind p f d true s).withEnv { s.env with fifoCur := xs }) := by
  have hp : (s.modFifo f fun x => { x with owner := none }).params = s.params := by simp
  have he : (afterBind p f d false s).env.fifoCur = p :: xs := by cases f <;> exact h
  simp only [bindFifo, writeFifoSel_afterBind, hp]
  rw [pollFifoCur_first hn he]
  simp only [if_true, afterBind_owner]
  cases f <;> rfl

/-- The pipes, the memory and the channel's own fields across a bind. -/
@[simp] theorem afterBind_pipe (p : Option Pipe) (f : FifoId) (d : Dir) (b : Bool) (s : State) (q : Pipe) :
    (afterBind p f d b s).pipe q = s.pipe q := by cases f <;> rfl
@[simp] theorem afterBind_params (p : Option Pipe) (f : FifoId) (d : Dir) (b : Bool) (s : State) :
    (afterBind p f d b s).params = s.params := by cases f <;> rfl
@[simp] theorem afterBind_mem (p : Option Pipe) (f : FifoId) (d : Dir) (b : Bool) (s : State) :
    (afterBind p f d b s).mem = s.mem := by cases f <;> rfl

/-- An unconditional bind whose first poll confirms. -/
theorem bindUnconditional_first {p : Option Pipe} (f : FifoId) (d : Dir) {s : State} {xs : List (Option Pipe)}
    (hn : 0 < s.params.bindPollBudget) (ha : 0 < s.params.uncondAttempts) (h : s.env.fifoCur = p :: xs) :
    bindUnconditional p f d s = .done () ((afterBind p f d true s).withEnv { s.env with fifoCur := xs }) := by
  obtain ⟨k, hk⟩ : ∃ k, s.params.uncondAttempts = k + 1 := ⟨s.params.uncondAttempts - 1, by omega⟩
  simp only [bindUnconditional, hk, bindAttempts, bindFifo_first f d hn h]

/-- The administrative binds, each confirmed by its first poll. -/
theorem bindAdmin_first {s : State} {xs : List (Option Pipe)} (hn : 0 < s.params.bindPollBudget)
    (ha : 0 < s.params.uncondAttempts) (h : s.env.fifoCur = some 0 :: none :: none :: xs) :
    bindAdmin s = .done () (((adminBound s).logs adminTrace).withEnv { s.env with fifoCur := xs }) := by
  have h1 := bindUnconditional_first .C .OUT hn ha h
  generalize e1 : ((afterBind (some 0) FifoId.C Dir.OUT true s).withEnv
    { s.env with fifoCur := none :: none :: xs }) = s1 at h1
  have h2 := bindUnconditional_first (p := none) (xs := none :: xs) (s := s1) .D0 .OUT
    (by subst e1; simpa using hn) (by subst e1; simpa using ha) (by subst e1; rfl)
  generalize e2 : ((afterBind none FifoId.D0 Dir.OUT true s1).withEnv
    { s1.env with fifoCur := none :: xs }) = s2 at h2
  have h3 := bindUnconditional_first (p := none) (xs := xs) (s := s2) .D1 .OUT
    (by subst e2 e1; simpa using hn) (by subst e2 e1; simpa using ha) (by subst e2; rfl)
  simp only [bindAdmin, release, h1, h2, h3, Res.bind]
  subst e2 e1
  simp [afterBind, State.withEnv, adminBound, adminTrace, State.modFifo, State.logs]

/-- A poll loop whose answers are all other pipes times out. -/
theorem pollFifoCur_timeout {p : Option Pipe} {n : Nat} {ws xs : List (Option Pipe)} {s : State} (hw : ∀ w ∈ ws, w ≠ p) (hn : ws.length = n) (h : s.env.fifoCur = ws ++ xs) :
   pollFifoCur p n s = (false, s.withEnv { s.env with fifoCur := xs }) := by
  induction ws generalizing n s with
  | nil => subst hn; simp only [List.nil_append] at h; subst h; rfl
  | cons w ws ih =>
    subst hn
    have hb : drawFifoCur s = (w, s.withEnv { s.env with fifoCur := ws ++ xs }) := by simp [drawFifoCur, h, State.withEnv]
    simp only [List.length_cons, pollFifoCur, hb, if_neg (hw w (by simp))]
    rw [ih (fun x hx => hw x (by simp [hx])) rfl rfl]; rfl

/-- A poll loop confirms at the first answer that is the pipe wanted. -/
theorem pollFifoCur_confirms {p : Option Pipe} {n : Nat} {ws xs : List (Option Pipe)} {s : State} (hw : ∀ w ∈ ws, w ≠ p) (hn : ws.length < n) (h : s.env.fifoCur = ws ++ p :: xs) :
   pollFifoCur p n s = (true, s.withEnv { s.env with fifoCur := xs }) := by
  induction ws generalizing n s with
  | nil => exact pollFifoCur_first (by simpa using hn) h
  | cons w ws ih =>
    obtain ⟨n, rfl⟩ : ∃ m, n = m + 1 := ⟨n - 1, by simp at hn; omega⟩
    have hb : drawFifoCur s = (w, s.withEnv { s.env with fifoCur := ws ++ p :: xs }) := by simp [drawFifoCur, h, State.withEnv]
    simp only [pollFifoCur, hb, if_neg (hw w (by simp))]
    rw [ih (fun x hx => hw x (by simp [hx])) (by simp at hn; omega) rfl]; rfl

/-- A bind that confirms within its budget. -/
theorem bindFifo_confirms {p : Option Pipe} {f d} {ws xs : List (Option Pipe)} {s : State} (hw : ∀ w ∈ ws, w ≠ p) (hn : ws.length < s.params.bindPollBudget) (h : s.env.fifoCur = ws ++ p :: xs) :
   bindFifo p f d s = (true, (afterBind p f d true s).withEnv { s.env with fifoCur := xs }) := by
  have hp : (s.modFifo f fun x => { x with owner := none }).params = s.params := by simp
  have he : (afterBind p f d false s).env = s.env := by cases f <;> rfl
  simp only [bindFifo, writeFifoSel_afterBind, hp]
  rw [pollFifoCur_confirms hw hn (by rw [he]; exact h), he]
  simp only [if_true, afterBind_owner]
/-- A bind that does not. -/
theorem bindFifo_timeout {p : Option Pipe} {f d} {ws xs : List (Option Pipe)} {s : State} (hw : ∀ w ∈ ws, w ≠ p) (hn : ws.length = s.params.bindPollBudget) (h : s.env.fifoCur = ws ++ xs) :
   bindFifo p f d s = (false, (afterBind p f d false s).withEnv { s.env with fifoCur := xs }) := by
  have hp : (s.modFifo f fun x => { x with owner := none }).params = s.params := by simp
  have he : (afterBind p f d false s).env = s.env := by cases f <;> rfl
  simp only [bindFifo, writeFifoSel_afterBind, hp]
  rw [pollFifoCur_timeout hw hn (by rw [he]; exact h), he]
  rfl

/-! ### The pipe bound to a FIFO, and the packets of its buffer -/

/-- A change of the bound pipe is a change of that pipe. -/
theorem State.modOwner_of {s : State} {f : FifoId} {p : Pipe} (h : (s.fifo f).owner = some p) (g : PipeState → PipeState) :
    s.modOwner f g = s.modPipe p g := by
  simp only [State.modOwner, h]

theorem State.modOwner_none {s : State} {f : FifoId} (h : (s.fifo f).owner = none) (g : PipeState → PipeState) :
    s.modOwner f g = s := by
  simp only [State.modOwner, h]

/-- A confirmed bind owns its FIFO. -/
@[simp] theorem afterBind_fifo_owner (p : Option Pipe) (f : FifoId) (d : Dir) (b : Bool) (s : State) :
    ((afterBind p f d b s).fifo f).owner = if b then p else none := by
  cases f <;> rfl

theorem fifoWrite_nil (f : FifoId) (s : State) : fifoWrite f [] s = s := by
  unfold fifoWrite State.modOwner
  split
  · exact State.modPipe_id s _ (by simp)
  · rfl

/-- Two pushes are one. -/
theorem fifoWrite_fifoWrite (f : FifoId) (bs cs : List Byte) (s : State) :
    fifoWrite f cs (fifoWrite f bs s) = fifoWrite f (bs ++ cs) s := by
  cases h : (s.fifo f).owner with
  | none =>
    have e : ∀ ds, fifoWrite f ds s = s := fun ds => State.modOwner_none h _
    rw [e, e, e]
  | some p =>
    have e : ∀ ds, fifoWrite f ds s = s.modPipe p fun x => { x with building := x.building ++ ds } := fun ds => State.modOwner_of h _
    rw [e, e, fifoWrite, State.modOwner_of (p := p) (by simpa using h)]
    simp

@[simp] theorem fifoWrite_mem (f : FifoId) (bs : List Byte) (s : State) : (fifoWrite f bs s).mem = s.mem := by
  unfold fifoWrite State.modOwner
  split <;> rfl

/-- Bytes that fit one packet are one packet. -/
theorem packetsOf_short {m : Nat} {bs : List Byte} (h : bs.length ≤ m) : packetsOf m bs = [bs] := by
  unfold packetsOf
  cases bs with
  | nil => rfl
  | cons b bs => simp only [List.length_cons] at h; simp [packetsFuel, h]

theorem packetsFuel_enough {m : Nat} (hm : 0 < m) {i j : Nat} {bs : List Byte} (hi : bs.length ≤ i) (hj : bs.length ≤ j) :
    packetsFuel m i bs = packetsFuel m j bs := by
  induction i generalizing j bs with
  | zero =>
    obtain rfl : bs = [] := List.length_eq_zero_iff.mp (by omega)
    cases j <;> simp [packetsFuel]
  | succ i ih =>
    cases j with
    | zero =>
      obtain rfl : bs = [] := List.length_eq_zero_iff.mp (by omega)
      simp [packetsFuel]
    | succ j =>
      simp only [packetsFuel]
      split
      · rfl
      · rw [ih (j := j) (by simp; omega) (by simp; omega)]

/-- More bytes than fit one packet are a full packet and the packets of the rest. -/
theorem packetsOf_long {m : Nat} {bs : List Byte} (hm : 0 < m) (h : m < bs.length) :
    packetsOf m bs = bs.take m :: packetsOf m (bs.drop m) := by
  obtain ⟨k, hk⟩ : ∃ k, bs.length = k + 1 := ⟨bs.length - 1, by omega⟩
  unfold packetsOf
  rw [hk, packetsFuel, if_neg (by omega), packetsFuel_enough hm (j := (bs.drop m).length) (by simp; omega) (Nat.le_refl _)]

/-- What the packets of a buffer are: its bytes in order, none above the max packet size, all but the last full. -/
theorem packetsOf_spec {m : Nat} (hm : 0 < m) (bs : List Byte) : (packetsOf m bs).flatten = bs ∧ packetsOf m bs ≠ []
    ∧ (∀ q ∈ packetsOf m bs, q.length ≤ m) ∧ ∀ q ∈ (packetsOf m bs).dropLast, q.length = m := by
  generalize hn : bs.length = n
  induction n using Nat.strongRecOn generalizing bs with
  | _ n ih =>
    by_cases h : bs.length ≤ m
    · rw [packetsOf_short h]
      simpa using h
    · rw [packetsOf_long hm (by omega)]
      obtain ⟨a, b, c, d⟩ := ih (bs.drop m).length (by simp; omega) (bs.drop m) rfl
      have ht : (bs.take m).length = m := by simp; omega
      refine ⟨by simp [a], by simp, fun q hq => ?_, fun q hq => ?_⟩
      · rcases List.mem_cons.mp hq with rfl | hq
        · omega
        · exact c q hq
      · rw [List.dropLast_cons_of_ne_nil b] at hq
        rcases List.mem_cons.mp hq with rfl | hq
        · exact ht
        · exact d q hq

end Sys2Proof.Machine
end

