-- ==== Sys2Proof/Laws/Transfer.lean ====
section
/-! SUPPORT. The byte moves and the two accesses: what the greedy chunks move, and everything a write or a
read access can do. -/

namespace Sys2Proof.Machine

theorem accessWidth_pos (a n : Nat) : 0 < accessWidth a n := by
  unfold accessWidth
  split
  · omega
  · split <;> omega

theorem accessWidth_le {a n : Nat} (h : 0 < n) : accessWidth a n ≤ n := by
  unfold accessWidth
  split
  · omega
  · split <;> omega

/-- No access is misaligned: its address is a multiple of its width (20_memory.md R110). -/
theorem accessWidth_aligned (a n : Nat) : a % accessWidth a n = 0 := by
  unfold accessWidth
  split
  · omega
  · split <;> omega

theorem chunksFuel_aligned {fuel a n x w : Nat} (h : (x, w) ∈ chunksFuel fuel a n) :
    x % w = 0 ∧ (w = 1 ∨ w = 2 ∨ w = 4) := by
  induction fuel generalizing a n with
  | zero => simp [chunksFuel] at h
  | succ fuel ih =>
    simp only [chunksFuel] at h
    split at h
    · simp at h
    · rcases List.mem_cons.mp h with h | h
      · obtain ⟨rfl, rfl⟩ := Prod.mk.inj h
        refine ⟨accessWidth_aligned _ _, ?_⟩
        unfold accessWidth
        split
        · simp
        · split <;> simp
      · exact ih h

/-- The bytes pushed, whatever widths are chosen (42_transfer_engine.md R241). -/
theorem moveOut_fuel (f : FifoId) {fuel a n : Nat} (hf : n ≤ fuel) (s : State) :
    moveOutChunks f (chunksFuel fuel a n) s = fifoWrite f (s.mem.readBytes a n) s := by
  induction fuel generalizing a n s with
  | zero =>
    obtain rfl : n = 0 := by omega
    exact (fifoWrite_nil f s).symm
  | succ fuel ih =>
    simp only [chunksFuel]
    split
    · rename_i h
      subst h
      exact (fifoWrite_nil f s).symm
    · rename_i h
      have hw := accessWidth_pos a n
      have hl : accessWidth a n ≤ n := accessWidth_le (by omega)
      simp only [moveOutChunks, memRead]
      rw [ih (by omega), fifoWrite_mem, fifoWrite_fifoWrite, ← Memory.readBytes_add,
        show accessWidth a n + (n - accessWidth a n) = n by omega]

/-- `moveOut` pushes exactly the bytes of the range, in address order. -/
theorem moveOut_eq (f : FifoId) (a n : Nat) (s : State) : moveOut f a n s = fifoWrite f (s.mem.readBytes a n) s :=
  moveOut_fuel f (Nat.le_refl n) s

/-- The state with another memory. -/
def State.withMem (s : State) (m : Memory) : State := { s with mem := m }

@[simp] theorem State.withMem_mem (s : State) (m : Memory) : (s.withMem m).mem = m := rfl
@[simp] theorem State.withMem_withMem (s : State) (m m' : Memory) : (s.withMem m).withMem m' = s.withMem m' := rfl
@[simp] theorem State.withMem_pipe (s : State) (m : Memory) (p : Pipe) : (s.withMem m).pipe p = s.pipe p := rfl
@[simp] theorem State.withMem_params (s : State) (m : Memory) : (s.withMem m).params = s.params := rfl
@[simp] theorem State.withMem_trace (s : State) (m : Memory) : (s.withMem m).trace = s.trace := rfl
theorem State.withMem_self (s : State) : s.withMem s.mem = s := rfl

/-- A draw does not look at memory. -/
theorem drawByte_withMem (s : State) (m : Memory) :
    drawByte (s.withMem m) = ((drawByte s).1, (drawByte s).2.withMem m) := by
  have h : (s.withMem m).env = s.env := rfl
  unfold drawByte
  rw [h]
  split <;> rfl

theorem drawBytes_withMem (n : Nat) (s : State) (m : Memory) :
    drawBytes n (s.withMem m) = ((drawBytes n s).1, (drawBytes n s).2.withMem m) := by
  induction n generalizing s with
  | zero => rfl
  | succ n ih => simp only [drawBytes, drawByte_withMem, ih]

/-- Bytes drawn in two parts. -/
theorem drawBytes_add (i j : Nat) (s : State) :
    drawBytes (i + j) s =
      ((drawBytes i s).1 ++ (drawBytes j (drawBytes i s).2).1, (drawBytes j (drawBytes i s).2).2) := by
  induction i generalizing s with
  | zero => simp [drawBytes]
  | succ i ih =>
    rw [show i + 1 + j = (i + j) + 1 by omega]
    simp only [drawBytes, ih, List.cons_append]

theorem drawBytes_mem (n : Nat) (s : State) : (drawBytes n s).2.mem = s.mem := by
  obtain ⟨e, h⟩ := drawBytes_spec n s
  rw [h]; rfl

theorem memWrite_eq (a : Nat) (bs : List Byte) (s : State) : memWrite a bs s = s.withMem (s.mem.writeBytes a bs) := rfl

theorem moveIn_fuel {fuel a n : Nat} (hf : n ≤ fuel) (s : State) :
    moveInChunks (chunksFuel fuel a n) s = (drawBytes n s).2.withMem (s.mem.writeBytes a (drawBytes n s).1) := by
  induction fuel generalizing a n s with
  | zero =>
    obtain rfl : n = 0 := by omega
    rfl
  | succ fuel ih =>
    simp only [chunksFuel]
    split
    · rename_i h
      subst h
      rfl
    · rename_i h
      have hw := accessWidth_pos a n
      have hl : accessWidth a n ≤ n := accessWidth_le (by omega)
      have hd := drawBytes_add (accessWidth a n) (n - accessWidth a n) s
      rw [show accessWidth a n + (n - accessWidth a n) = n by omega] at hd
      simp only [moveInChunks, fifoRead, memWrite_eq]
      rw [ih (by omega), drawBytes_withMem, hd, drawBytes_mem]
      simp [Memory.writeBytes_append]

/-- `moveIn` leaves in memory exactly the next bytes of the stream, in order. -/
theorem moveIn_eq (a n : Nat) (s : State) :
    moveIn a n s = (drawBytes n s).2.withMem (s.mem.writeBytes a (drawBytes n s).1) :=
  moveIn_fuel (Nat.le_refl n) s

/-- An overrun's bytes: those drawn, in the range that was left. -/
theorem smear_eq (a n : Nat) (s : State) :
    smear a n s = (drawBytes n s).2.withMem (s.mem.writeBytes a (drawBytes n s).1) := by
  simp only [smear, memWrite_eq, drawBytes_mem]

end Sys2Proof.Machine
end

