-- ==== Sys2Proof/Laws/Exec.lean ====
section
/-! SUPPORT. Every instruction is one operation behind the test for the fatal state; and the interrupt with
one source pending. -/

namespace Sys2Proof.Machine

/-- The operation of an instruction, less the test for the fatal state. -/
def bodyOf (i : Instr) : State → Res Unit :=
  match i with
  | .srGetStatusDevice v i l => (hostSetup (setupWord 0x80 0x00 v i l))
  | .srGetStatusInterface v i l => (hostSetup (setupWord 0x81 0x00 v i l))
  | .srGetStatusEndpoint v i l => (hostSetup (setupWord 0x82 0x00 v i l))
  | .srClearFeatureEpHalt i l => (hostSetup (setupWord 0x02 0x01 0 i l))
  | .srSetFeatureEpHalt i l => (hostSetup (setupWord 0x02 0x03 0 i l))
  | .srSetAddress v i l => (hostSetup (setupWord 0x00 0x05 v i l))
  | .srGetDescriptorDevice x i l => (hostSetup (setupWord 0x80 0x06 (descValue 0x01 x) i l))
  | .srGetDescriptorConfiguration x i l => (hostSetup (setupWord 0x80 0x06 (descValue 0x02 x) i l))
  | .srGetDescriptorString x i l => (hostSetup (setupWord 0x80 0x06 (descValue 0x03 x) i l))
  | .srGetDescriptorDeviceQualifier x i l => (hostSetup (setupWord 0x80 0x06 (descValue 0x06 x) i l))
  | .srGetDescriptorOtherSpeed x i l => (hostSetup (setupWord 0x80 0x06 (descValue 0x07 x) i l))
  | .srGetConfiguration v i l => (hostSetup (setupWord 0x80 0x08 v i l))
  | .srSetConfiguration v i l => (hostSetup (setupWord 0x00 0x09 v i l))
  | .srGetInterface v i l => (hostSetup (setupWord 0x81 0x0A v i l))
  | .srSetInterface v i l => (hostSetup (setupWord 0x01 0x0B v i l))
  | .srStandardOther d c r v i l => (hostSetup (setupWord (requestType d 0 c) r v i l))
  | .srClass d c r v i l => (hostSetup (setupWord (requestType d 1 c) r v i l))
  | .srVendor d c r v i l => (hostSetup (setupWord (requestType d 2 c) r v i l))
  | .srReservedType d c r v i l => (hostSetup (setupWord (requestType d 3 c) r v i l))
  | .init d c => (cmdInit d c)
  | .controlAck => cmdControlAck
  | .controlIn len buf => (cmdControlIn len buf)
  | .controlOut len buf k => (cmdControlOut len buf k)
  | .bulkIn len buf k => (cmdBulkIn len buf k)
  | .bulkOut len buf k => (cmdBulkOut len buf k)
  | .interruptIn len buf k => (cmdInterruptIn len buf k)
  | .stallControl => cmdStallControl
  | .stallBulkIn => cmdStallBulkIn
  | .stallBulkOut => cmdStallBulkOut
  | .stallIntIn => cmdStallIntIn
  | .getDeviceState => cmdGetDeviceState
  | .isEndpointStalled a => (cmdIsEndpointStalled a)
  | .cancel => cmdCancel
  | .reset => cmdReset
  | .resetEndpoints t => (cmdResetEndpoints t)
  | .evtIsr => isrTurn
  | .evtBemp0 => (serveOne (.bemp 0))
  | .evtNrdy0 => (serveOne (.nrdy 0))
  | .evtBrdy0 => (serveOne (.brdy 0))
  | .evtBemp a => (serveField .bemp a)
  | .evtNrdy a => (serveField .nrdy a)
  | .evtBrdy a => (serveField .brdy a)
  | .evtDvst => (serveOne .dvst)
  | .evtCtrt => (serveOne .ctrt)
  | .evtResm => (serveOne .resm)
  | .evtVbint => (serveOne .vbint)

/-- Every instruction is its operation behind the one test. -/
theorem exec_eq (i : Instr) (s : State) : exec i s = runStep (bodyOf i) s := by
  cases i <;> rfl

theorem exec_fatal {s : State} (h : s.fatal = true) (i : Instr) : exec i s = .fault .stuckFatal := by
  simp [exec_eq, runStep, h]

theorem exec_running {s : State} (h : s.fatal = false) (i : Instr) : exec i s = (bodyOf i s).toOutcome := by
  simp [exec_eq, runStep, h]

/-- The setup rows are the arrival of their packet. -/
theorem bodyOf_setup {i : Instr} {S : BitVec 64} (h : packetOf i = some S) : bodyOf i = hostSetup S := by
  cases i <;> simp_all [packetOf, encode, bodyOf]

@[simp] theorem Res.bind_done {α β : Type} (a : α) (s : State) (f : α → State → Res β) :
    (Res.done a s).bind f = f a s := rfl
@[simp] theorem Res.bind_halt {α β : Type} (s : State) (f : α → State → Res β) : (Res.halt s).bind f = .halt s := rfl
@[simp] theorem Res.bind_refused {α β : Type} (e : Refusal) (f : α → State → Res β) :
    (Res.refused e).bind f = .refused e := rfl
@[simp] theorem Res.toOutcome_done (a : Unit) (s : State) : (Res.done a s).toOutcome = .next s := rfl
@[simp] theorem Res.toOutcome_halt (s : State) : (Res.halt s).toOutcome = .next s := rfl

theorem Res.bind_assoc {α β γ : Type} (r : Res α) (f : α → State → Res β) (g : β → State → Res γ) :
    (r.bind f).bind g = r.bind fun a s => (f a s).bind g := by
  cases r <;> rfl

/-- Every source is in the order of a pass. -/
theorem mem_passOrder (x : Source) : x ∈ passOrder := by
  cases x with
  | bemp p => revert p; decide
  | nrdy p => revert p; decide
  | brdy p => revert p; decide
  | dvst => decide
  | ctrt => decide
  | resm => decide
  | vbint => decide

theorem passOrder_nodup : passOrder.Nodup := by decide

/-- Sources that the snapshot does not hold are passed over. -/
theorem serveAll_none {snap : Source → Bool} {h : Source → State → Res Unit} {xs : List Source}
    (n : ∀ x ∈ xs, snap x = false) (s : State) : serveAll snap h xs s = .done () s := by
  induction xs generalizing s with
  | nil => rfl
  | cons x xs ih =>
    have hx := n x (List.mem_cons_self ..)
    simp only [serveAll, hx, Bool.false_eq_true, if_false]
    exact ih (fun y hy => n y (List.mem_cons_of_mem _ hy)) s

/-- One source held: its bit is cleared and its handler runs. -/
theorem serveAll_one {snap : Source → Bool} {h : Source → State → Res Unit} {xs : List Source} {x : Source}
    (nd : xs.Nodup) (m : x ∈ xs) (hx : snap x = true) (n : ∀ y, y ≠ x → snap y = false) (s : State) :
    serveAll snap h xs s = (h x (clearSts x s)).bind fun _ t => .done () t := by
  induction xs generalizing s with
  | nil => simp at m
  | cons z zs ih =>
    rw [List.nodup_cons] at nd
    by_cases e : z = x
    · subst e
      simp only [serveAll, hx, if_true]
      congr 1
      funext _ t
      exact serveAll_none (fun y hy => n y (fun e => nd.1 (e ▸ hy))) t
    · simp only [serveAll, n z e, Bool.false_eq_true, if_false]
      rcases List.mem_cons.mp m with rfl | m
      · exact absurd rfl e
      · exact ih nd.2 m s

/-- The line is asserted exactly when a running block has a source pending. -/
theorem lineAsserted_iff (s : State) : lineAsserted s = true ↔ live s ∧ ∃ x, pending s x = true := by
  simp only [lineAsserted, Bool.and_eq_true, Bool.not_eq_true', List.any_eq_true, live]
  constructor
  · rintro ⟨h, x, _, hx⟩
    exact ⟨h, x, hx⟩
  · rintro ⟨h, x, hx⟩
    exact ⟨h, x, mem_passOrder x, hx⟩

/-- Serving one source: entry, clear, handler, return. -/
def served (x : Source) (s : State) : Res Unit :=
  (handler x (clearSts x (isrEnter s))).bind fun _ t => .done () (isrLeave s.ctx t)

theorem isrTurn_only {x : Source} {s : State} (l : live s) (h : onlyPending x s) : isrTurn s = served x s := by
  have hl : lineAsserted s = true := (lineAsserted_iff s).mpr ⟨l, x, h.1⟩
  simp only [isrTurn, hl, if_true, isrPass, takeInterrupt, served]
  rw [serveAll_one passOrder_nodup (mem_passOrder x) h.1 h.2, Res.bind_assoc]
  rfl

theorem isrTurn_none {s : State} (h : ∀ x, pending s x = false) : isrTurn s = .done () s := by
  have hl : lineAsserted s = false := by
    rw [Bool.eq_false_iff, Ne, lineAsserted_iff]
    rintro ⟨_, x, hx⟩
    rw [h x] at hx
    cases hx
  simp [isrTurn, hl]

theorem serveOne_pending {x : Source} {s : State} (l : live s) (h : pending s x = true) : serveOne x s = served x s := by
  simp only [serveOne, l.1, h, Bool.and_self, if_true, takeInterrupt, serveAll, served, Res.bind_assoc, Res.bind_done]

theorem serveField_eq {f : Pipe → Source} {a : BitVec 4} {p : Pipe} (h : a.toNat = p.val) (s : State) :
    serveField f a s = serveOne (f p) s := by
  have : a.toNat < 10 := by omega
  have e : (⟨a.toNat, this⟩ : Pipe) = p := Fin.ext h
  simp [serveField, pipeOfArg, this, e]

/-! ### Where a control command is issued (70_reset_and_hazards.md R473, 60_exceptions.md R441) -/

theorem insideOnSetup_onSetup {f : State → Res Unit} {s : State} (i : s.initialized = true) (c : s.ctx = .onSetup) :
    insideOnSetup f s = f s := by
  simp [insideOnSetup, i, c]
theorem insideOnSetup_isr {f : State → Res Unit} {s : State} (i : s.initialized = true) (c : s.ctx = .isr) :
    insideOnSetup f s = returnCode (.state, s) := by
  simp [insideOnSetup, i, c]
theorem insideOnSetup_task {f : State → Res Unit} {s : State} (i : s.initialized = true) (c : s.ctx = .task) :
    insideOnSetup f s = .refused .taskControlCommand := by
  simp [insideOnSetup, i, c]

end Sys2Proof.Machine
end

