-- ==== Sys2Proof/Laws/Access.lean ====
section
/-! SUPPORT. Everything a write access and a read access can do, in every state and for every answer of
the environment. -/

namespace Sys2Proof.Machine

theorem State.withMem_same (s : State) {m : Memory} (h : s.mem = m) : s.withMem m = s := by subst h; rfl

/-! ### Writing -/

/-- The bytes a write access moves. -/
def writeCount (p : Pipe) (s : State) : Nat := min (s.pipe p).xfer.remaining (bufferSize p s)

/-- The state in which a write access has moved its bytes: bound, the bytes in the pipe's buffer, the record
advanced. -/
def wrote (p : Pipe) (n : Nat) (e : Env) (s : State) : State :=
  ((afterBind (some p) (fifoOf p s) .IN true s).withEnv e).modPipe p fun x =>
    { x with
      xfer := { x.xfer with pos := x.xfer.pos + n, remaining := x.xfer.remaining - n }
      building := x.building ++ s.mem.readBytes x.xfer.pos n }

@[simp] theorem fifoOf_afterBind (q : Pipe) (o : Option Pipe) (f : FifoId) (d : Dir) (b : Bool) (s : State) (e : Env) :
    fifoOf q ((afterBind o f d b s).withEnv e) = fifoOf q s := by
  simp [fifoOf]

@[simp] theorem bufferSize_afterBind (q : Pipe) (o : Option Pipe) (f : FifoId) (d : Dir) (b : Bool) (s : State) (e : Env) :
    bufferSize q ((afterBind o f d b s).withEnv e) = bufferSize q s := by
  simp [bufferSize]

@[simp] theorem fifoOf_withMem (q : Pipe) (s : State) (m : Memory) : fifoOf q (s.withMem m) = fifoOf q s := rfl

/-- A projection of the pipes that a change of the bound pipe leaves alone. -/
theorem State.modOwner_proj {α : Type} (φ : PipeState → α) (s : State) (f : FifoId) {g : PipeState → PipeState}
    (h : ∀ x, φ (g x) = φ x) (q : Pipe) : φ ((s.modOwner f g).pipe q) = φ (s.pipe q) := by
  unfold State.modOwner
  split
  · rw [State.pipe_modPipe]
    split
    · rename_i e; rw [h, e]
    · rfl
  · rfl

/-- A write access whose bind confirms moves its bytes. -/
theorem writeAccess_confirmed {p : Pipe} {s u : State} (h : bindFifo (some p) (fifoOf p s) .IN s = (true, u)) :
    writeAccess p s = endWrite p (writeCount p s) (decide ((s.pipe p).xfer.remaining ≤ bufferSize p s))
      (wrote p (writeCount p s) u.env s) := by
  rw [bindFifo_state h] at h
  have ho : (((afterBind (some p) (fifoOf p s) .IN true s).withEnv u.env).fifo (fifoOf p s)).owner = some p := by simp
  simp only [writeAccess, h, State.withEnv_pipe, afterBind_pipe, fifoOf_afterBind p, bufferSize_afterBind, moveOut_eq,
    State.withEnv_mem, afterBind_mem]
  congr 1
  simp only [fifoWrite, State.modOwner_of ho, advance, State.modPipe_modPipe, wrote]
  exact State.modPipe_congr _ _ (by simp [writeCount])

/-- A write access whose bind does not. -/
theorem writeAccess_unbound {p : Pipe} {s u : State} (h : bindFifo (some p) (fifoOf p s) .IN s = (false, u)) :
    writeAccess p s = (.ERROR, u) := by
  simp only [writeAccess, h]

/-- Everything a write access can do. -/
theorem writeAccess_cases (p : Pipe) (s : State) :
    (∃ e, writeAccess p s = (.ERROR, (afterBind (some p) (fifoOf p s) .IN false s).withEnv e))
    ∨ ∃ e, writeAccess p s = endWrite p (writeCount p s) (decide ((s.pipe p).xfer.remaining ≤ bufferSize p s))
        (wrote p (writeCount p s) e s) := by
  rcases hb : bindFifo (some p) (fifoOf p s) .IN s with ⟨_ | _, u⟩
  · exact .inl ⟨u.env, by rw [writeAccess_unbound hb]; exact congrArg _ (bindFifo_state hb)⟩
  · exact .inr ⟨u.env, writeAccess_confirmed hb⟩

/-- A write access whose bind confirms at the first poll. -/
theorem writeAccess_first {p : Pipe} {s : State} {xs : List (Option Pipe)} (hb : 0 < s.params.bindPollBudget)
    (h : s.env.fifoCur = some p :: xs) :
    writeAccess p s = endWrite p (writeCount p s) (decide ((s.pipe p).xfer.remaining ≤ bufferSize p s))
      (wrote p (writeCount p s) { s.env with fifoCur := xs } s) := by
  rw [writeAccess_confirmed (bindFifo_first _ _ hb h), State.withEnv_env]

/-! ### Reading -/

/-- The state in which a read access has taken its bytes. -/
def took (p : Pipe) (n a : Nat) (bs : List Byte) (e : Env) (s : State) : State :=
  advance p n ((s.pipe p).xfer.buf != 0)
    (((afterBind (some p) (fifoOf p s) .OUT true s).withEnv e).withMem
      (if (s.pipe p).xfer.buf = 0 then s.mem else s.mem.writeBytes a bs))

/-- The state after an overrun: the bytes awaited hold those given, and the pipe's buffer is cleared. -/
def overran (p : Pipe) (bs : List Byte) (e : Env) (s : State) : State :=
  ((((afterBind (some p) (fifoOf p s) .OUT true s).withEnv e).withMem
    (if (s.pipe p).xfer.buf = 0 then s.mem else s.mem.writeBytes (s.pipe p).xfer.pos bs)).modPipe p
      fun x => { x with building := [] }).logs [.bufferClear (fifoOf p s)]

@[simp] theorem State.withMem_fifo (s : State) (m : Memory) (f : FifoId) : (s.withMem m).fifo f = s.fifo f := by
  cases f <;> rfl

theorem bufferClear_of {s : State} {f : FifoId} {p : Pipe} (h : (s.fifo f).owner = some p) :
    bufferClear f s = (s.modPipe p fun x => { x with building := [] }).logs [.bufferClear f] := by
  rw [bufferClear, State.modOwner_of h]

/-- Everything a read access can do. -/
theorem readAccess_cases (p : Pipe) (s : State) :
    (∃ e, readAccess p s = (.ERROR, (afterBind (some p) (fifoOf p s) .OUT false s).withEnv e))
    ∨ (∃ rcv e bs, rcv ≤ bufferSize p s ∧ rcv ≤ (s.pipe p).xfer.remaining ∧ bs.length = rcv
        ∧ readAccess p s = endRead p rcv (took p rcv (s.pipe p).xfer.pos bs e s))
    ∨ (∃ rcv e bs, (s.pipe p).xfer.remaining < rcv ∧ bs.length = (s.pipe p).xfer.remaining
        ∧ readAccess p s = (.OVERRUN, overran p bs e s)) := by
  rcases hb : bindFifo (some p) (fifoOf p s) .OUT s with ⟨_ | _, u⟩
  · exact .inl ⟨u.env, by simp only [readAccess, hb]; exact congrArg _ (bindFifo_state hb)⟩
  · right
    rw [bindFifo_state hb] at hb
    generalize u.env = e at hb
    simp only [readAccess, hb, bufferSize_afterBind]
    obtain ⟨hle, e1, h1⟩ := drawRcvLen_spec (bufferSize p s) ((afterBind (some p) (fifoOf p s) .OUT true s).withEnv e)
    generalize hd : drawRcvLen (bufferSize p s) ((afterBind (some p) (fifoOf p s) .OUT true s).withEnv e) = d at hle h1
    obtain ⟨rcv, s1⟩ := d
    simp only at hle h1
    simp only [h1, State.withEnv_withEnv, State.withEnv_pipe, afterBind_pipe]
    have owned : ∀ e m, ((((afterBind (some p) (fifoOf p s) .OUT true s).withEnv e).withMem m).fifo (fifoOf p s)).owner = some p := by
      intro e m; simp
    by_cases hx : (s.pipe p).xfer.remaining < rcv
    · right
      rw [if_pos hx]
      by_cases h0 : (s.pipe p).xfer.buf = 0
      · refine ⟨rcv, e1, List.replicate (s.pipe p).xfer.remaining 0, hx, by simp, ?_⟩
        rw [overran, if_pos h0, if_pos h0, fifoOf_afterBind, ← bufferClear_of (owned e1 _), State.withMem_same _ (by simp)]
      · obtain ⟨e2, h2⟩ := drawBytes_spec (s.pipe p).xfer.remaining ((afterBind (some p) (fifoOf p s) .OUT true s).withEnv e1)
        refine ⟨rcv, e2, (drawBytes (s.pipe p).xfer.remaining ((afterBind (some p) (fifoOf p s) .OUT true s).withEnv e1)).1, hx,
          drawBytes_length _ _, ?_⟩
        rw [if_neg h0, smear_eq, h2, State.withEnv_withEnv, fifoOf_withMem, fifoOf_afterBind, State.withEnv_mem, afterBind_mem,
          overran, if_neg h0, bufferClear_of (owned e2 _)]
    · left
      rw [if_neg hx]
      by_cases h0 : (s.pipe p).xfer.buf = 0
      · obtain ⟨e2, h2⟩ := drawBytes_spec rcv ((afterBind (some p) (fifoOf p s) .OUT true s).withEnv e1)
        refine ⟨rcv, e2, List.replicate rcv 0, hle, by omega, by simp, ?_⟩
        simp only [takeBytes, if_pos h0, fifoRead]
        rw [h2, State.withEnv_withEnv, took, if_pos h0, State.withMem_same _ (by simp)]
      · obtain ⟨e2, h2⟩ := drawBytes_spec rcv ((afterBind (some p) (fifoOf p s) .OUT true s).withEnv e1)
        refine ⟨rcv, e2, (drawBytes rcv ((afterBind (some p) (fifoOf p s) .OUT true s).withEnv e1)).1, hle, by omega,
          drawBytes_length _ _, ?_⟩
        simp only [takeBytes, if_neg h0]
        rw [moveIn_eq, h2, State.withEnv_withEnv, took, if_neg h0, State.withEnv_mem, afterBind_mem]

/-- The bytes lined up are the bytes drawn. -/
theorem drawBytes_lined {bs ys : List Byte} {s : State} (h : s.env.data = bs ++ ys) :
    drawBytes bs.length s = (bs, s.withEnv { s.env with data := ys }) := by
  induction bs generalizing s with
  | nil => simp only [List.nil_append] at h; subst h; rfl
  | cons b bs ih =>
    have hb : drawByte s = (b, s.withEnv { s.env with data := bs ++ ys }) := by
      simp [drawByte, h, State.withEnv]
    have hi := ih (s := s.withEnv { s.env with data := bs ++ ys }) rfl
    simp only [List.length_cons, drawBytes, hb, hi, State.withEnv_withEnv, State.withEnv_env]

/-- A read access whose bind confirms at the first poll, with its count and bytes lined up. -/
theorem readAccess_first {p : Pipe} {s : State} {xs : List (Option Pipe)} {rs : List Nat} {bytes ys : List Byte}
    (hb : 0 < s.params.bindPollBudget) (h : s.env.fifoCur = some p :: xs) (hr : s.env.rcvLen = bytes.length :: rs)
    (hle : bytes.length ≤ bufferSize p s) (hd : s.env.data = bytes ++ ys) (hrem : bytes.length ≤ (s.pipe p).xfer.remaining) :
    readAccess p s = endRead p bytes.length
      (took p bytes.length (s.pipe p).xfer.pos bytes { s.env with fifoCur := xs, rcvLen := rs, data := ys } s) := by
  have hdr : ∀ e : Env, e.rcvLen = bytes.length :: rs →
      drawRcvLen (bufferSize p s) ((afterBind (some p) (fifoOf p s) .OUT true s).withEnv e) =
        (bytes.length, (afterBind (some p) (fifoOf p s) .OUT true s).withEnv { e with rcvLen := rs }) := by
    intro e he
    simp [drawRcvLen, he, State.withEnv, Nat.min_eq_left hle]
  simp only [readAccess, bindFifo_first _ _ hb h, bufferSize_afterBind]
  rw [hdr { s.env with fifoCur := xs } hr]
  have hn : ¬ (s.pipe p).xfer.remaining < bytes.length := by omega
  simp only [State.withEnv_pipe, afterBind_pipe, if_neg hn]
  have hl := drawBytes_lined (s := (afterBind (some p) (fifoOf p s) .OUT true s).withEnv
    { s.env with fifoCur := xs, rcvLen := rs }) (bs := bytes) (ys := ys) hd
  by_cases h0 : (s.pipe p).xfer.buf = 0
  · simp only [takeBytes, if_pos h0, fifoRead, hl, State.withEnv_withEnv, State.withEnv_env, took]
    rw [State.withMem_same _ (by simp)]
  · simp only [takeBytes, if_neg h0, moveIn_eq, hl, took, State.withEnv_withEnv, State.withEnv_env,
      State.withEnv_mem, afterBind_mem]

/-- A read access whose bind confirms at the first poll, with a count above what its transfer still awaits. -/
theorem readAccess_overrun {p : Pipe} {s : State} {xs : List (Option Pipe)} {rcv : Nat} {rs : List Nat}
    (hb : 0 < s.params.bindPollBudget) (h : s.env.fifoCur = some p :: xs) (hr : s.env.rcvLen = rcv :: rs)
    (hle : rcv ≤ bufferSize p s) (hx : (s.pipe p).xfer.remaining < rcv) :
    ∃ e bs, bs.length = (s.pipe p).xfer.remaining ∧ readAccess p s = (.OVERRUN, overran p bs e s) := by
  rcases readAccess_cases p s with ⟨e, hc⟩ | ⟨r, e, bs, _, _, _, hc⟩ | ⟨_, e, bs, _, hl, hc⟩
  · simp only [readAccess, bindFifo_first _ _ hb h] at hc
    split at hc
    · cases congrArg Prod.fst hc
    · exact absurd (congrArg Prod.fst hc) (by simp only [endRead]; unfold classifyRead; split <;> (try split) <;> decide)
  · simp only [readAccess, bindFifo_first _ _ hb h, bufferSize_afterBind] at hc
    rw [show drawRcvLen (bufferSize p s) ((afterBind (some p) (fifoOf p s) .OUT true s).withEnv { s.env with fifoCur := xs })
      = (rcv, (afterBind (some p) (fifoOf p s) .OUT true s).withEnv { s.env with fifoCur := xs, rcvLen := rs }) by
        simp [drawRcvLen, hr, State.withEnv, Nat.min_eq_left hle]] at hc
    simp only [State.withEnv_pipe, afterBind_pipe, if_pos hx] at hc
    exact absurd (congrArg Prod.fst hc) (by simp only [endRead]; unfold classifyRead; split <;> (try split) <;> decide)
  · exact ⟨e, bs, hl, hc⟩

/-! ### What the states after an access hold -/

@[simp] theorem wrote_pipe_self (p : Pipe) (n : Nat) (e : Env) (s : State) : (wrote p n e s).pipe p =
    { s.pipe p with
      xfer := { (s.pipe p).xfer with pos := (s.pipe p).xfer.pos + n, remaining := (s.pipe p).xfer.remaining - n }
      building := (s.pipe p).building ++ s.mem.readBytes (s.pipe p).xfer.pos n } := by
  simp [wrote]
theorem wrote_pipe_ne {p q : Pipe} (n : Nat) (e : Env) (s : State) (h : p ≠ q) : (wrote p n e s).pipe q = s.pipe q := by
  simp [wrote, State.pipe_modPipe_ne _ _ h]
@[simp] theorem wrote_params (p : Pipe) (n : Nat) (e : Env) (s : State) : (wrote p n e s).params = s.params := by
  simp [wrote]
@[simp] theorem wrote_mem (p : Pipe) (n : Nat) (e : Env) (s : State) : (wrote p n e s).mem = s.mem := by
  simp [wrote]
@[simp] theorem wrote_env (p : Pipe) (n : Nat) (e : Env) (s : State) : (wrote p n e s).env = e := by
  simp [wrote]
theorem afterBind_trace (o : Option Pipe) (f : FifoId) (d : Dir) (b : Bool) (s : State) :
    (afterBind o f d b s).trace = s.trace ++ .fifoSel f o :: (if f = .C then [.fifoIsel d] else []) := by
  cases f <;> rfl
theorem afterBind_fifo_self (o : Option Pipe) (f : FifoId) (d : Dir) (b : Bool) (s : State) :
    (afterBind o f d b s).fifo f = ⟨o, if b then o else none⟩ := by
  cases f <;> rfl
theorem wrote_trace (p : Pipe) (n : Nat) (e : Env) (s : State) : (wrote p n e s).trace =
    s.trace ++ .fifoSel (fifoOf p s) (some p) :: (if fifoOf p s = .C then [.fifoIsel .IN] else []) := by
  simp [wrote, afterBind_trace]
theorem wrote_fifo (p : Pipe) (n : Nat) (e : Env) (s : State) : (wrote p n e s).fifo (fifoOf p s) = ⟨some p, some p⟩ := by
  simp [wrote, afterBind_fifo_self]
@[simp] theorem fifoOf_wrote (p : Pipe) (n : Nat) (e : Env) (s : State) : fifoOf p (wrote p n e s) = fifoOf p s := by
  simp [fifoOf]
@[simp] theorem maxPacketSize_wrote (p : Pipe) (n : Nat) (e : Env) (s : State) :
    maxPacketSize p (wrote p n e s) = maxPacketSize p s := by
  simp [maxPacketSize]
@[simp] theorem bufferSize_wrote (p : Pipe) (n : Nat) (e : Env) (s : State) :
    bufferSize p (wrote p n e s) = bufferSize p s := by
  simp [bufferSize]

@[simp] theorem took_pipe_self (p : Pipe) (n a : Nat) (bs : List Byte) (e : Env) (s : State) : (took p n a bs e s).pipe p =
    { s.pipe p with xfer := { (s.pipe p).xfer with
        pos := if (s.pipe p).xfer.buf = 0 then (s.pipe p).xfer.pos else (s.pipe p).xfer.pos + n
        remaining := (s.pipe p).xfer.remaining - n } } := by
  by_cases h : (s.pipe p).xfer.buf = 0 <;> simp [took, advance, h]
theorem took_pipe_ne {p q : Pipe} (n a : Nat) (bs : List Byte) (e : Env) (s : State) (h : p ≠ q) :
    (took p n a bs e s).pipe q = s.pipe q := by
  simp [took, advance, State.pipe_modPipe_ne _ _ h]
@[simp] theorem took_params (p : Pipe) (n a : Nat) (bs : List Byte) (e : Env) (s : State) :
    (took p n a bs e s).params = s.params := by
  simp [took, advance]
@[simp] theorem took_mem (p : Pipe) (n a : Nat) (bs : List Byte) (e : Env) (s : State) : (took p n a bs e s).mem =
    if (s.pipe p).xfer.buf = 0 then s.mem else s.mem.writeBytes a bs := by
  simp [took, advance]
@[simp] theorem took_env (p : Pipe) (n a : Nat) (bs : List Byte) (e : Env) (s : State) : (took p n a bs e s).env = e := rfl
theorem took_trace (p : Pipe) (n a : Nat) (bs : List Byte) (e : Env) (s : State) : (took p n a bs e s).trace =
    s.trace ++ .fifoSel (fifoOf p s) (some p) :: (if fifoOf p s = .C then [.fifoIsel .OUT] else []) := by
  simp [took, advance, afterBind_trace]
theorem took_fifo (p : Pipe) (n a : Nat) (bs : List Byte) (e : Env) (s : State) : (took p n a bs e s).fifo (fifoOf p s) =
    ⟨some p, some p⟩ := by
  simp [took, advance, afterBind_fifo_self]
@[simp] theorem fifoOf_took (p : Pipe) (n a : Nat) (bs : List Byte) (e : Env) (s : State) :
    fifoOf p (took p n a bs e s) = fifoOf p s := by
  simp [fifoOf]
@[simp] theorem maxPacketSize_took (p : Pipe) (n a : Nat) (bs : List Byte) (e : Env) (s : State) :
    maxPacketSize p (took p n a bs e s) = maxPacketSize p s := by
  simp [maxPacketSize]

/-! ### The ends of the accesses -/

@[simp] theorem dataValid_pipe (f : FifoId) (s : State) (p : Pipe) : (dataValid f s).pipe p = s.pipe p := rfl
@[simp] theorem dataValid_mem (f : FifoId) (s : State) : (dataValid f s).mem = s.mem := rfl
@[simp] theorem dataValid_fifo (f g : FifoId) (s : State) : (dataValid f s).fifo g = s.fifo g := by cases g <;> rfl
@[simp] theorem dataValid_env (f : FifoId) (s : State) : (dataValid f s).env = s.env := rfl
@[simp] theorem dataValid_params (f : FifoId) (s : State) : (dataValid f s).params = s.params := rfl
@[simp] theorem dataValid_trace (f : FifoId) (s : State) : (dataValid f s).trace = s.trace ++ [.dataValid f] := rfl

/-- The buffer of pipe p handed to the controller. -/
def handed (p : Pipe) (s : State) : State :=
  s.modPipe p fun x => { x with sent := x.sent ++ packetsOf (maxPacketSize p s) x.building, building := [] }

theorem handOver_of {p : Pipe} {s : State} (h : (s.fifo (fifoOf p s)).owner = some p) :
    handOver (fifoOf p s) (maxPacketSize p s) s = handed p s := State.modOwner_of h _

theorem makeValid_of {p : Pipe} {s : State} (h : (s.fifo (fifoOf p s)).owner = some p) :
    makeValid p s = (handed p s).logs [.dataValid (fifoOf p s)] := by
  unfold makeValid handOver
  rw [State.modOwner_of (p := p) (by simpa using h)]
  rfl

theorem endRead_state (p : Pipe) (n : Nat) (s : State) :
    (endRead p n s).2 = s ∨ (endRead p n s).2 = dataValid (fifoOf p s) s := by
  unfold endRead
  dsimp only
  split
  · exact .inl rfl
  · exact .inr rfl

/-- The outcome of a write access that was bound. -/
theorem endWrite_fst (p : Pipe) (n : Nat) (final : Bool) (s : State) : (endWrite p n final s).1 =
    if final then (if p = 2 ∧ s.params.nsp2 = true then .END else classifyFinal n (maxPacketSize p s)) else .CONTINUE := by
  unfold endWrite
  cases final
  · rfl
  · simp only [if_true, Config.pipeBulkIn]
    by_cases h : p = 2 ∧ s.params.nsp2 = true
    · obtain ⟨rfl, h⟩ := h
      cases hs : isShort n (maxPacketSize 2 s) <;> simp [h, hs, classifyFinal]
    · by_cases h1 : p = 2
      · have : s.params.nsp2 = false := by simpa [h1] using h
        simp [this]
      · simp [h1]

/-- Whether an access that wrote its bytes hands the buffer over, and whether with the data-valid action. -/
theorem endWrite_snd {p : Pipe} {s : State} (n : Nat) (final : Bool) (ho : (s.fifo (fifoOf p s)).owner = some p) :
    (endWrite p n final s).2 = if final = false then handed p s
      else if p = 2 ∧ s.params.nsp2 = true ∧ n = 0 then s else (handed p s).logs [.dataValid (fifoOf p s)] := by
  unfold endWrite
  rw [handOver_of ho, makeValid_of ho]
  cases final
  · rfl
  · simp only [if_true, Config.pipeBulkIn]
    by_cases h : p = 2 ∧ s.params.nsp2 = true
    · by_cases h0 : n = 0
      · simp [h, h0, isShort]
      · obtain ⟨rfl, h⟩ := h
        cases hs : isShort n (maxPacketSize 2 s) <;> simp [h, h0]
    · by_cases h1 : p = 2
      · have : s.params.nsp2 = false := by simpa [h1] using h
        simp [this]
      · simp [h1]

/-- A projection of the pipes that does not look at a buffer. -/
theorem endWrite_proj {α : Type} (φ : PipeState → α) (h : ∀ x b t, φ { x with building := b, sent := t } = φ x)
    (p q : Pipe) (n : Nat) (final : Bool) (s : State) : φ ((endWrite p n final s).2.pipe q) = φ (s.pipe q) := by
  have key : ∀ f m (t : State), φ ((handOver f m t).pipe q) = φ (t.pipe q) := fun f m t =>
    State.modOwner_proj φ t f (fun x => h x _ _) q
  unfold endWrite
  split
  · split
    · dsimp only; split
      · rfl
      · exact key _ _ _
    · exact key _ _ _
  · exact key _ _ _

@[simp] theorem endWrite_xfer (p q : Pipe) (n : Nat) (final : Bool) (s : State) :
    ((endWrite p n final s).2.pipe q).xfer = (s.pipe q).xfer := endWrite_proj PipeState.xfer (fun _ _ _ => rfl) p q n final s
@[simp] theorem endRead_pipe (p q : Pipe) (n : Nat) (s : State) : (endRead p n s).2.pipe q = s.pipe q := by
  rcases endRead_state p n s with h | h <;> simp [h]
@[simp] theorem endRead_mem (p : Pipe) (n : Nat) (s : State) : (endRead p n s).2.mem = s.mem := by
  rcases endRead_state p n s with h | h <;> simp [h]
@[simp] theorem endRead_params (p : Pipe) (n : Nat) (s : State) : (endRead p n s).2.params = s.params := by
  rcases endRead_state p n s with h | h <;> simp [h]

end Sys2Proof.Machine
end

