-- ==== Sys2Proof/Laws/Callback.lean ====
section
/-! SUPPORT. A control-IN data stage whose binds and waits are answered at once, or that fails, a callback in which
the class layer does nothing, the end of a transfer, and the arrival of a setup packet. -/

namespace Sys2Proof.Machine

/-- The end of an answered control-IN data stage, from inside it: k accesses to go. -/
def sentRest (n k w : Nat) (s : State) : State :=
  { s.modPipe 0 fun x =>
      { x with
        xfer := { x.xfer with pos := x.xfer.pos + n, remaining := 0 }
        building := []
        sent := x.sent ++ packetsOf s.params.mps0.bytes (s.mem.readBytes x.xfer.pos n) } with
    fifoC := ⟨some 0, some 0⟩
    fifoIsel := .IN
    trace := s.trace ++ (List.replicate k [TraceEntry.fifoSel .C (some 0), .fifoIsel .IN]).flatten ++ [.dataValid .C]
    env := { s.env with fifoCur := s.env.fifoCur.drop k, fifoReady := s.env.fifoReady.drop w } }

/-- An access of pipe 0 that has handed its bytes over. -/
theorem handed_wrote_zero (n : Nat) (e : Env) (s : State) : handed 0 (wrote 0 n e s) =
    { s.modPipe 0 fun x =>
        { x with
          xfer := { x.xfer with pos := x.xfer.pos + n, remaining := x.xfer.remaining - n }
          building := []
          sent := x.sent ++ packetsOf s.params.mps0.bytes (x.building ++ s.mem.readBytes x.xfer.pos n) } with
      fifoC := ⟨some 0, some 0⟩
      fifoIsel := .IN
      trace := s.trace ++ [.fifoSel .C (some 0), .fifoIsel .IN]
      env := e } := by
  simp [handed, wrote, maxPacketSize, fifoOf, afterBind, State.modFifo, State.withEnv, State.modPipe, State.pipe]

theorem mps0_pos (c : Mps0) : 0 < c.bytes := by cases c <;> decide

/-- The number of accesses, one more after a full buffer. -/
theorem accessesFor_more {n bs : Nat} (hb : 0 < bs) (h : bs < n) : accessesFor n bs = accessesFor (n - bs) bs + 1 := by
  unfold accessesFor
  have e : (n + bs - 1) / bs = (n - bs + bs - 1) / bs + 1 := by
    rw [← Nat.add_div_right _ hb]; congr 1; omega
  have : 1 ≤ (n - bs + bs - 1) / bs := by
    rw [Nat.le_div_iff_mul_le hb]; omega
  omega

theorem accessesFor_one {n bs : Nat} (hb : 0 < bs) (h : n ≤ bs) : accessesFor n bs = 1 := by
  unfold accessesFor
  have : (n + bs - 1) / bs ≤ 1 := by
    rw [Nat.div_le_iff_le_mul_add_pred hb]; omega
  omega

/-- A write access of pipe 0 whose bind confirms at the first poll. -/
theorem writeAccess_zero {s : State} {xs : List (Option Pipe)} {n : Nat} (hb : 0 < s.params.bindPollBudget)
    (h : s.env.fifoCur = some 0 :: xs) (hn : (s.pipe 0).xfer.remaining = n) :
    writeAccess 0 s =
      if n ≤ s.params.mps0.bytes then
        (classifyFinal n s.params.mps0.bytes, (handed 0 (wrote 0 n { s.env with fifoCur := xs } s)).logs [.dataValid .C])
      else (.CONTINUE, handed 0 (wrote 0 s.params.mps0.bytes { s.env with fifoCur := xs } s)) := by
  have hbs : bufferSize 0 s = s.params.mps0.bytes := by simp [bufferSize]
  have hwc : writeCount 0 s = min n s.params.mps0.bytes := by simp [writeCount, hbs, hn]
  rw [writeAccess_first hb h, ← Prod.eta (endWrite _ _ _ _), endWrite_fst, endWrite_snd _ _ (by simp [wrote_fifo]), hwc, hbs, hn]
  have hq : ¬ ((0 : Pipe) = 2 ∧ (wrote 0 (min n s.params.mps0.bytes) { s.env with fifoCur := xs } s).params.nsp2 = true) := by
    rintro ⟨a, _⟩; exact absurd a (by decide)
  have hm : maxPacketSize 0 (wrote 0 (min n s.params.mps0.bytes) { s.env with fifoCur := xs } s) = s.params.mps0.bytes := by
    simp [maxPacketSize]
  have hf : fifoOf 0 (wrote 0 (min n s.params.mps0.bytes) { s.env with fifoCur := xs } s) = .C := by simp [fifoOf]
  rw [if_neg hq, hm, hf]
  by_cases hle : n ≤ s.params.mps0.bytes
  · have hmin : min n s.params.mps0.bytes = n := by omega
    have hq' : ¬ ((0 : Pipe) = 2 ∧ (wrote 0 n { s.env with fifoCur := xs } s).params.nsp2 = true ∧ n = 0) := by
      rintro ⟨a, _⟩; exact absurd a (by decide)
    rw [hmin, if_pos hle, decide_eq_true hle, if_pos rfl, if_neg (by decide), if_neg hq']
  · have hmin : min n s.params.mps0.bytes = s.params.mps0.bytes := by omega
    rw [hmin, if_neg hle, decide_eq_false hle]
    simp

/-- The last access of a data stage. -/
theorem sentRest_last {s : State} {n w : Nat} {xs : List (Option Pipe)} {rs : List Bool}
    (hn : (s.pipe 0).xfer.remaining = n) (h0 : (s.pipe 0).building = []) (hx : s.env.fifoCur = some 0 :: xs)
    (hr : rs = s.env.fifoReady.drop w) :
    (handed 0 (wrote 0 n { s.env with fifoReady := rs, fifoCur := xs } (s.withEnv { s.env with fifoReady := rs }))).logs
      [.dataValid .C] = sentRest n 1 w s := by
  subst hr
  have hz : s.pipes[0].xfer.remaining - n = 0 := by
    have : s.pipes[0].xfer.remaining = n := hn
    omega
  have h0 : s.pipes[0].building = [] := h0
  rw [handed_wrote_zero]
  simp only [sentRest, State.logs, hx, State.withEnv, State.modPipe, State.pipe]
  simp [hz, h0]

/-- An access before the last. -/
theorem sentRest_more {s : State} {n m k v w : Nat} {xs : List (Option Pipe)} {rs : List Bool}
    (hm : s.params.mps0.bytes = m) (hn : m < n) (h0 : (s.pipe 0).building = []) (hx : s.env.fifoCur = some 0 :: xs)
    (hr : rs.drop v = s.env.fifoReady.drop w) :
    sentRest (n - m) k v
      (handed 0 (wrote 0 m { s.env with fifoReady := rs, fifoCur := xs } (s.withEnv { s.env with fifoReady := rs }))) =
      sentRest n (k + 1) w s := by
  have hpos : 0 < m := hm ▸ mps0_pos _
  have h0 : s.pipes[0].building = [] := h0
  have hp : ∀ a, packetsOf m (s.mem.readBytes a n) = s.mem.readBytes a m :: packetsOf m (s.mem.readBytes (a + m) (n - m)) := by
    intro a
    have hb : s.mem.readBytes a n = s.mem.readBytes a m ++ s.mem.readBytes (a + m) (n - m) := by
      rw [← Memory.readBytes_add, show m + (n - m) = n by omega]
    rw [packetsOf_long hpos (by simpa using hn), hb]
    simp
  have h1 : ∀ a, packetsOf m (s.mem.readBytes a m) = [s.mem.readBytes a m] := fun a => packetsOf_short (by simp)
  rw [handed_wrote_zero]
  simp only [sentRest, hx, State.withEnv, State.modPipe, State.pipe, hm, hp]
  simp [hr, List.replicate_succ, h0, h1, Nat.add_assoc, show m + (n - m) = n by omega]

/-- The wait between two packets, at its first poll (44_device_hal.md R338). -/
theorem pollFifoReady_first {n : Nat} {s : State} {rs : List Bool} (hn : 0 < n) (h : s.env.fifoReady = true :: rs) :
    pollFifoReady n s = (true, s.withEnv { s.env with fifoReady := rs }) := by
  obtain ⟨n, rfl⟩ : ∃ m, n = m + 1 := ⟨n - 1, by omega⟩
  simp [pollFifoReady, drawFifoReady, h, State.withEnv]

/-- The loop of an answered data stage (44_device_hal.md R338). -/
theorem controlInLoop_answered {fuel n w k : Nat} {first : Bool} {s : State}
    (hn : (s.pipe 0).xfer.remaining = n) (hf : n < fuel) (h0 : (s.pipe 0).building = [])
    (hb : 0 < s.params.bindPollBudget) (hc : 0 < s.params.ctrlInPollBudget)
    (hk : accessesFor n s.params.mps0.bytes = k) (hw : w = if first then k - 1 else k)
    (h1 : s.env.fifoCur.take k = List.replicate k (some 0)) (h2 : s.env.fifoReady.take w = List.replicate w true) :
    controlInLoop fuel first s = (true, sentRest n k w s) := by
  induction fuel generalizing n w k first s with
  | zero => omega
  | succ fuel ih =>
    have hk1 : 1 ≤ k := by subst hk; unfold accessesFor; omega
    obtain ⟨k, rfl⟩ : ∃ j, k = j + 1 := ⟨k - 1, by omega⟩
    obtain ⟨xs, hx, hxs⟩ : ∃ xs, s.env.fifoCur = some 0 :: xs ∧ xs.take k = List.replicate k (some 0) := by
      cases hx : s.env.fifoCur with
      | nil => rw [hx] at h1; simp [List.replicate_succ] at h1
      | cons a xs => rw [hx] at h1; simp [List.replicate_succ] at h1; exact ⟨xs, by rw [h1.1], h1.2⟩
    obtain ⟨rs, hrs, hrt, hp⟩ : ∃ rs, rs.drop k = s.env.fifoReady.drop w ∧ rs.take k = List.replicate k true ∧
        (if first then (true, s) else pollFifoReady s.params.ctrlInPollBudget s) = (true, s.withEnv { s.env with fifoReady := rs }) := by
      cases first
      · simp only [Bool.false_eq_true, if_false] at hw ⊢
        subst hw
        cases hq : s.env.fifoReady with
        | nil => rw [hq] at h2; simp [List.replicate_succ] at h2
        | cons a rs =>
          rw [hq] at h2
          simp only [List.take_succ_cons, List.replicate_succ, List.cons.injEq] at h2
          exact ⟨rs, by simp, h2.2, pollFifoReady_first hc (by rw [hq, h2.1])⟩
      · simp only [if_true, Nat.add_sub_cancel] at hw ⊢
        subst hw
        exact ⟨s.env.fifoReady, rfl, h2, rfl⟩
    simp only [controlInLoop, hp, if_true]
    have hwr := writeAccess_zero (s := s.withEnv { s.env with fifoReady := rs }) (xs := xs) hb hx hn
    by_cases hle : n ≤ s.params.mps0.bytes
    · rw [if_pos (by exact hle)] at hwr
      simp only [State.withEnv_params, State.withEnv_env] at hwr
      have hone := accessesFor_one (mps0_pos _) hle
      obtain rfl : k = 0 := by omega
      rw [hwr, sentRest_last hn h0 hx (by simpa using hrs)]
      unfold classifyFinal
      cases isShort n s.params.mps0.bytes <;> rfl
    · rw [if_neg (by exact hle)] at hwr
      simp only [State.withEnv_params, State.withEnv_env] at hwr
      have hmore := accessesFor_more (mps0_pos _) (by omega : s.params.mps0.bytes < n)
      rw [hwr, ← sentRest_more (m := s.params.mps0.bytes) (n := n) (v := k) rfl (by omega) h0 hx hrs]
      have hpos := mps0_pos s.params.mps0
      apply ih
      · simp [handed, hn]
      · omega
      · simp [handed]
      · simpa [handed] using hb
      · simpa [handed] using hc
      · simp [handed]; omega
      · rfl
      · simpa [handed] using hxs
      · simpa [handed] using hrt

/-- A range that wraps (20_memory.md R102). -/
theorem bufferWraps_iff (buf : Addr) (len : Len) : bufferWraps buf len = true ↔ buf ≠ 0 ∧ 2 ^ 32 < buf.toNat + len.toNat := by
  simp [bufferWraps]

/-- A range that was not refused does not pass 2^32. -/
theorem bufferWraps_bound {buf : Addr} {len : Len} (h : ¬ bufferWraps buf len = true) (hb : buf ≠ 0) : buf.toNat + len.toNat ≤ 2 ^ 32 := by
  rw [bufferWraps_iff] at h
  by_contra hc
  exact h ⟨hb, by omega⟩

theorem bufferWraps_false {buf : Addr} {len : Len} (h : buf ≠ 0 → buf.toNat + len.toNat ≤ 2 ^ 32) : bufferWraps buf len = false := by
  rw [Bool.eq_false_iff, Ne, bufferWraps_iff]
  rintro ⟨a, b⟩
  exact absurd (h a) (by omega)

/-- A `controlIn` from the null buffer with bytes to send, or of a range that wraps, is STATE. -/
theorem controlIn_refused {len : Len} {buf : Addr} {s : State} (hz : s.setup.length ≠ 0)
    (h : (buf = 0 ∧ min len.toNat s.setup.length.toNat ≠ 0) ∨ bufferWraps buf len = true) : controlIn len buf s = .done .state s := by
  have e : ∀ r : Res ErrCode, (if buf = 0 ∧ min len.toNat s.setup.length.toNat ≠ 0 then Res.done ErrCode.state s
      else if bufferWraps buf len = true then .done .state s else r) = .done .state s := by
    intro r
    rcases h with h | h
    · rw [if_pos h]
    · rw [if_pos h, ite_self]
  simp only [controlIn, if_neg hz, e, ite_self]

/-- An answered control-IN data stage is the state `sentIn`. -/
theorem controlIn_sent {len : Len} {buf : Addr} {s : State} (hs : controlLegal s = true) (hz : s.setup.length ≠ 0)
    (h0 : buf = 0 → min len.toNat s.setup.length.toNat = 0) (hr : buf ≠ 0 → buf.toNat + len.toNat ≤ 2 ^ 32)
    (ha : answersIn (accessesFor (min len.toNat s.setup.length.toNat) s.params.mps0.bytes) s) :
    controlIn len buf s = .done .ok (sentIn buf (min len.toNat s.setup.length.toNat)
      (accessesFor (min len.toNat s.setup.length.toNat) s.params.mps0.bytes) s) := by
  generalize hn : min len.toNat s.setup.length.toNat = n at *
  generalize hk : accessesFor n s.params.mps0.bytes = k at *
  obtain ⟨hb, hc, h1, h2⟩ := ha
  have hk1 : 1 ≤ k := by subst hk; unfold accessesFor; omega
  obtain ⟨xs, hx, hxs⟩ : ∃ xs, s.env.fifoCur = some 0 :: xs ∧ xs.take k = List.replicate k (some 0) := by
    cases hx : s.env.fifoCur with
    | nil => rw [hx] at h1; simp [List.replicate_succ] at h1
    | cons a xs => rw [hx] at h1; simp [List.replicate_succ] at h1; exact ⟨xs, by rw [h1.1], h1.2⟩
  have hg : ¬ (buf = 0 ∧ n ≠ 0) := fun ⟨a, b⟩ => b (h0 a)
  simp only [controlIn, hs, hz, hn, Bool.not_true, Bool.false_eq_true, if_false, if_neg hg, bufferWraps_false hr]
  generalize hs0 : controlInBegin n buf s = s0
  have he0 : s0.env = s.env := by subst hs0; rfl
  have hp0 : s0.params = s.params := by subst hs0; rfl
  have hb0 := bindFifo_first (p := some 0) (s := s0) (xs := xs) .C .IN (by rw [hp0]; exact hb) (by rw [he0]; exact hx)
  generalize hs1 : (afterBind (some 0) FifoId.C Dir.IN true s0).withEnv { s0.env with fifoCur := xs } = s1 at hb0
  have hx1 : (s1.pipe 0).xfer = newXfer .IN buf n none := by
    subst hs1 hs0; simp [controlInBegin, setDevState]
  have hp1 : s1.params = s.params := by subst hs1; simp [hp0]
  have ho : (s1.fifo .C).owner = some 0 := by subst hs1; rfl
  have hl := controlInLoop_answered (fuel := n + 1) (n := n) (w := k - 1) (k := k) (first := true) (s := bufferClear .C s1)
    (by rw [bufferClear_of ho]; simp [hx1, newXfer]) (by omega) (by rw [bufferClear_of ho]; simp)
    (by rw [bufferClear_of ho]; show 0 < s1.params.bindPollBudget; rw [hp1]; exact hb)
    (by rw [bufferClear_of ho]; show 0 < s1.params.ctrlInPollBudget; rw [hp1]; exact hc)
    (by rw [bufferClear_of ho]; show accessesFor n s1.params.mps0.bytes = k; rw [hp1]; exact hk) rfl
    (by rw [bufferClear_of ho]; subst hs1; exact hxs)
    (by rw [bufferClear_of ho]; subst hs1; show List.take _ s0.env.fifoReady = _; rw [he0]; exact h2)
  simp only [controlInData, hb0, hl]
  rw [bufferClear_of ho]
  subst hs1 hs0
  have hd : s.env.fifoCur.drop (k + 1) = xs.drop k := by rw [hx]; rfl
  simp only [sentIn, sentRest, hd, ackStatus, setPidBuf_eq, ctrlComplete, setDevState, deactivate, State.logs,
    State.withEnv, afterBind, State.modFifo, controlInBegin, State.modPipe, State.pipe, newXfer, controlInTrace, stageTrace]
  simp

/-! ### A control-IN data stage that fails -/

/-- What the set-up of a data stage makes of pipe 0. -/
theorem controlInBegin_pipe_zero (n : Nat) (buf : Addr) (s : State) : (controlInBegin n buf s).pipe 0 =
    { s.pipe 0 with cfg := { (s.pipe 0).cfg with dir := .IN }, xfer := newXfer .IN buf n none } := by
  simp [controlInBegin, setDevState, State.modPipe, State.pipe]
/-- A data stage sets up pipe 0 only. -/
theorem controlInBegin_pipe_ne (n : Nat) (buf : Addr) (s : State) {p : Pipe} (h : p ≠ 0) : (controlInBegin n buf s).pipe p = s.pipe p := by
  have e : (0 : Nat) ≠ p.val := fun e => h (Fin.ext e.symm)
  simp [controlInBegin, setDevState, State.modPipe, State.pipe, e]

/-- The wait that finds the FIFO not ready at each of its polls (44_device_hal.md R338). -/
theorem pollFifoReady_exhausted {n : Nat} {s : State} {rs : List Bool} (h : s.env.fifoReady = List.replicate n false ++ rs) :
    pollFifoReady n s = (false, s.withEnv { s.env with fifoReady := rs }) := by
  induction n generalizing s with
  | zero => rw [← show s.env.fifoReady = rs from h]; rfl
  | succ n ih =>
    have h : s.env.fifoReady = false :: (List.replicate n false ++ rs) := h
    rw [pollFifoReady, drawFifoReady, h]
    exact ih rfl

/-- Inside a control-IN data stage: j full buffers sent, one wait before each but the first of the stage. -/
def sentPart (j w : Nat) (s : State) : State :=
  { s.modPipe 0 fun x =>
      { x with
        xfer := { x.xfer with
          pos := x.xfer.pos + j * s.params.mps0.bytes
          remaining := x.xfer.remaining - j * s.params.mps0.bytes }
        sent := x.sent
          ++ (List.range j).map fun i => s.mem.readBytes (x.xfer.pos + i * s.params.mps0.bytes) s.params.mps0.bytes } with
    trace := s.trace ++ (List.replicate j [TraceEntry.fifoSel .C (some 0), .fifoIsel .IN]).flatten
    env := { s.env with fifoCur := s.env.fifoCur.drop j, fifoReady := s.env.fifoReady.drop w } }

/-- What those buffers change of pipe 0. -/
theorem sentPart_pipe_zero (j w : Nat) (s : State) : (sentPart j w s).pipe 0 =
    { s.pipe 0 with
      xfer := { (s.pipe 0).xfer with
        pos := (s.pipe 0).xfer.pos + j * s.params.mps0.bytes
        remaining := (s.pipe 0).xfer.remaining - j * s.params.mps0.bytes }
      sent := (s.pipe 0).sent
        ++ (List.range j).map fun i => s.mem.readBytes ((s.pipe 0).xfer.pos + i * s.params.mps0.bytes) s.params.mps0.bytes } := by
  simp [sentPart, State.modPipe, State.pipe]
/-- The other pipes are left alone. -/
theorem sentPart_pipe_ne (j w : Nat) (s : State) {p : Pipe} (h : p ≠ 0) : (sentPart j w s).pipe p = s.pipe p := by
  have e : (0 : Nat) ≠ p.val := fun e => h (Fin.ext e.symm)
  simp [sentPart, State.modPipe, State.pipe, e]

theorem sentPart_zero (s : State) : sentPart 0 0 s = s := by
  simp only [sentPart, State.modPipe, State.pipe]
  simp
  show { s with pipes := s.pipes.set 0 s.pipes[0] } = s
  rw [Vector.set_getElem_self]

/-- One more full buffer. -/
theorem sentPart_more {s : State} {j v w m : Nat} {xs : List (Option Pipe)} {rs : List Bool} (hm : s.params.mps0.bytes = m)
    (hC : s.fifoC = ⟨some 0, some 0⟩) (hI : s.fifoIsel = .IN) (h0 : (s.pipe 0).building = [])
    (hx : s.env.fifoCur = some 0 :: xs) (hr : rs.drop v = s.env.fifoReady.drop w) :
    sentPart j v (handed 0 (wrote 0 m { s.env with fifoReady := rs, fifoCur := xs } (s.withEnv { s.env with fifoReady := rs }))) =
      sentPart (j + 1) w s := by
  have h0 : s.pipes[0].building = [] := h0
  have h1 : ∀ a, packetsOf m (s.mem.readBytes a m) = [s.mem.readBytes a m] := fun a => packetsOf_short (by simp)
  have e1 : ∀ i : Nat, m + i * m = (i + 1) * m := fun i => by rw [Nat.succ_mul, Nat.add_comm]
  rw [handed_wrote_zero]
  simp only [sentPart, hx, State.withEnv, State.modPipe, State.pipe, hm]
  simp [hr, hC, hI, List.replicate_succ, List.range_succ_eq_map, h0, h1, Nat.add_assoc, e1, Nat.sub_sub, Function.comp_def]

/-- The loop after j accesses that ended CONTINUE, each bind and each wait answered at once. -/
theorem controlInLoop_part {fuel j n w : Nat} {first : Bool} {s : State} (hn : (s.pipe 0).xfer.remaining = n)
    (hj : j * s.params.mps0.bytes < n ∨ j = 0) (h0 : (s.pipe 0).building = []) (hC : s.fifoC = ⟨some 0, some 0⟩) (hI : s.fifoIsel = .IN)
    (hb : 0 < s.params.bindPollBudget) (hc : 0 < s.params.ctrlInPollBudget) (hw : w = if first then j - 1 else j)
    (h1 : s.env.fifoCur.take j = List.replicate j (some 0)) (h2 : s.env.fifoReady.take w = List.replicate w true) :
    controlInLoop (j + fuel) first s = controlInLoop fuel (first && decide (j = 0)) (sentPart j w s) := by
  induction j generalizing n w first s with
  | zero =>
    have : w = 0 := by rw [hw]; cases first <;> rfl
    rw [this, sentPart_zero, Nat.zero_add]; simp
  | succ j ih =>
    have hmp := mps0_pos s.params.mps0
    have hj : (j + 1) * s.params.mps0.bytes < n := hj.resolve_right (by omega)
    rw [Nat.succ_mul] at hj
    have hlt : ¬ n ≤ s.params.mps0.bytes := by omega
    obtain ⟨xs, hx, hxs⟩ : ∃ xs, s.env.fifoCur = some 0 :: xs ∧ xs.take j = List.replicate j (some 0) := by
      cases hx : s.env.fifoCur with
      | nil => rw [hx] at h1; simp [List.replicate_succ] at h1
      | cons a xs => rw [hx] at h1; simp [List.replicate_succ] at h1; exact ⟨xs, by rw [h1.1], h1.2⟩
    obtain ⟨rs, hrs, hrt, hp⟩ : ∃ rs, rs.drop j = s.env.fifoReady.drop w ∧ rs.take j = List.replicate j true ∧
        (if first then (true, s) else pollFifoReady s.params.ctrlInPollBudget s) = (true, s.withEnv { s.env with fifoReady := rs }) := by
      cases first
      · simp only [Bool.false_eq_true, if_false] at hw ⊢
        subst hw
        cases hq : s.env.fifoReady with
        | nil => rw [hq] at h2; simp [List.replicate_succ] at h2
        | cons a rs =>
          rw [hq] at h2
          simp only [List.take_succ_cons, List.replicate_succ, List.cons.injEq] at h2
          exact ⟨rs, by simp, h2.2, pollFifoReady_first hc (by rw [hq, h2.1])⟩
      · simp only [if_true, Nat.add_sub_cancel] at hw ⊢
        subst hw
        exact ⟨s.env.fifoReady, rfl, h2, rfl⟩
    have hwr := writeAccess_zero (s := s.withEnv { s.env with fifoReady := rs }) (xs := xs) hb hx hn
    rw [if_neg (by exact hlt)] at hwr
    rw [show j + 1 + fuel = (j + fuel) + 1 by omega]
    simp only [controlInLoop, hp, if_true, hwr, State.withEnv_params, State.withEnv_env]
    rw [ih (n := n - s.params.mps0.bytes) (w := j) (first := false)]
    · rw [sentPart_more rfl hC hI h0 hx hrs]; simp
    · simp [handed, hn]
    · simp only [handed_wrote_zero]; left; show j * s.params.mps0.bytes < _; omega
    · simp [handed]
    · rw [handed_wrote_zero]
    · rw [handed_wrote_zero]
    · simpa [handed] using hb
    · simpa [handed] using hc
    · rfl
    · simpa [handed] using hxs
    · simpa [handed] using hrt

/-! ### Callbacks in which the class layer does nothing -/

/-- `call cb(args)` with a class layer that issues nothing and answers. -/
theorem invoke_idle {issue : Cmd → State → Res Unit} {c : Call} {a : SetupAnswer} {s : State} (h : classIdle a s) :
    invoke issue c s = .done a (called c s) := by
  obtain ⟨xs, hx⟩ : ∃ xs, s.env.classSteps = ⟨a, []⟩ :: xs := by
    unfold classIdle at h
    cases hc : s.env.classSteps with
    | nil => rw [hc] at h; simp at h
    | cons x xs => rw [hc] at h; simp at h; exact ⟨xs, by rw [h]⟩
  simp [invoke, drawClassStep, logCall, hx, runCmds, called]

theorem callback_idle {c : Call} {a : SetupAnswer} {s : State} (h : classIdle a s) :
    callback c s = .done () (called c s) := by
  simp [callback, invoke_idle h]

theorem callOnSetup_idle {S : BitVec 64} {a : SetupAnswer} {s : State} (h : classIdle a s) :
    callOnSetup S s = .done a (called (registeredCall .onSetup (.raw S) s) s) := by
  have h' : classIdle a { s with ctx := .onSetup } := h
  rw [callOnSetup, invoke_idle h']
  rfl

/-- The call that ends a transfer does not depend on whether the record is still active. -/
theorem completionCall_ended (p q : Pipe) (e e' : ErrCode) (n : Nat) (s : State) :
    completionCall p e n (s.modPipe q (ended e')) = completionCall p e n s := by
  have h : ((s.modPipe q (ended e')).pipe p).xfer.done = (s.pipe p).xfer.done := by
    rw [State.pipe_modPipe]
    split
    · rename_i h; subst h; rfl
    · rfl
  simp only [completionCall, h]
  rfl

/-- The end of a transfer (43_pipe_dispatcher.md R280). -/
theorem finish_idle {p : Pipe} {e : ErrCode} {a : SetupAnswer} {s : State} (h : classIdle a s) :
    finish p e s = .done () (notified p e (s.modPipe p (ended e))) := by
  have he : endTransfer p e s = s.modPipe p (ended e) := rfl
  have hx : ∀ f : Xfer → Nat, (∀ x, f { x with active := false } = f x) →
      f ((s.modPipe p (ended e)).pipe p).xfer = f (s.pipe p).xfer := by
    intro f hf; rw [State.pipe_modPipe_self]; exact hf _
  have h1 : ((s.modPipe p (ended e)).pipe p).xfer.total - ((s.modPipe p (ended e)).pipe p).xfer.remaining =
      (s.pipe p).xfer.total - (s.pipe p).xfer.remaining := hx (fun x => x.total - x.remaining) (fun _ => rfl)
  simp only [finish, he, notified, h1]
  cases hc : completionCall p e ((s.pipe p).xfer.total - (s.pipe p).xfer.remaining) (s.modPipe p (ended e)) with
  | none => rfl
  | some c => exact callback_idle (a := a) (c := c) h

/-! ### The arrival of a setup packet -/

/-- The state in another context. -/
def State.withCtx (s : State) (c : Context) : State := { s with ctx := c }

@[simp] theorem State.withCtx_pipe (s : State) (c : Context) (p : Pipe) : (s.withCtx c).pipe p = s.pipe p := rfl
@[simp] theorem State.withCtx_params (s : State) (c : Context) : (s.withCtx c).params = s.params := rfl
@[simp] theorem State.withCtx_mem (s : State) (c : Context) : (s.withCtx c).mem = s.mem := rfl
@[simp] theorem State.withCtx_env (s : State) (c : Context) : (s.withCtx c).env = s.env := rfl
@[simp] theorem State.withCtx_devState (s : State) (c : Context) : (s.withCtx c).devState = s.devState := rfl
@[simp] theorem State.withCtx_initialized (s : State) (c : Context) : (s.withCtx c).initialized = s.initialized := rfl
theorem State.withCtx_self (s : State) : s.withCtx s.ctx = s := rfl
theorem isrLeave_eq (c : Context) (s : State) : isrLeave c s = s.withCtx c := rfl
@[simp] theorem acked_withCtx (c : Context) (s : State) : acked (s.withCtx c) = (acked s).withCtx c := rfl

/-- A setup packet arrived changes pipe 0 only. -/
theorem arrived_pipe_ne (S : BitVec 64) (s : State) {p : Pipe} (h : p ≠ 0) : (arrived S s).pipe p = s.pipe p := by
  have e : (arrived S s).pipe p = (s.modPipe 0 fun x =>
      { x with
        pid := .nak
        xfer := { x.xfer with active := false }
        brdyEnb := if x.xfer.active then false else x.brdyEnb }).pipe p := rfl
  rw [e]
  exact State.pipe_modPipe_ne _ _ (Ne.symm h)

theorem arrived_pipe_zero (S : BitVec 64) (s : State) : (arrived S s).pipe 0 =
    { s.pipe 0 with
      pid := .nak
      xfer := { (s.pipe 0).xfer with active := false }
      brdyEnb := if (s.pipe 0).xfer.active then false else (s.pipe 0).brdyEnb } := by
  have e : (arrived S s).pipe 0 = (s.modPipe 0 fun x =>
      { x with
        pid := .nak
        xfer := { x.xfer with active := false }
        brdyEnb := if x.xfer.active then false else x.brdyEnb }).pipe 0 := rfl
  rw [e, State.pipe_modPipe_self]

/-- An acknowledgement in CONTROL_SETUP (44_device_hal.md R336). -/
theorem controlAck_acked {t : State} (h1 : t.initialized = true) (h2 : t.devState = .controlSetup) :
    controlAck t = (.ok, acked t) := by
  simp [controlAck, controlLegal, h1, h2, acked, ackStatus, setPidBuf_eq, ctrlComplete, setDevState, State.logs, State.modPipe]

/-- A packet that arrives alone is decoded and resolved in the state `arrived` (44_device_hal.md R300, R321). -/
theorem hostSetup_arrived {S : BitVec 64} {s : State} (h : takesSetup s) :
    hostSetup S s =
      (((resolve (decodePacket S) ((arrived S s).withCtx .isr)).bind fun r t =>
        if r then .done () t else delegate S t).bind fun _ t => .done () (isrLeave s.ctx t)) := by
  obtain ⟨l, hd, hc, hn⟩ := h
  have l' : live (ctlSetup S s) := l
  have h' : onlyPending .ctrt (ctlSetup S s) := by
    refine ⟨by simp [pending, ctlSetup, hc], ?_⟩
    intro y hy
    rw [← hn y hy]
    cases y <;> first | rfl | exact absurd rfl hy
  rw [hostSetup, isrTurn_only l' h', served]
  have key : setDevState .controlSetup { abortControl (setPidNak 0 (clearSetupValid (clearSts .ctrt (isrEnter (ctlSetup S s))))) with
      setup := decodePacket S } = (arrived S s).withCtx .isr := by
    have e0 : (s.pipe 0).xfer.active = s.pipes[0].xfer.active := rfl
    cases ha : (s.pipe 0).xfer.active
    · rw [e0] at ha
      simp [abortControl, setPidNak_eq, clearSetupValid, clearSts, isrEnter, ctlSetup, State.logs, State.modPipe, State.pipe,
        arrived, State.withCtx, setDevState, ha]
      generalize s.pipes[0].xfer = x at ha ⊢
      cases x
      simp_all
    · rw [e0] at ha
      simp [abortControl, setPidNak_eq, clearSetupValid, clearSts, isrEnter, ctlSetup, State.logs, State.modPipe, State.pipe,
        arrived, State.withCtx, setDevState, ha, deactivate, writeBrdyEnb]
  have hd' : (clearSetupValid (clearSts .ctrt (isrEnter (ctlSetup S s)))).devState ≠ .disconnected := hd
  have e1 : handler .ctrt (clearSts .ctrt (isrEnter (ctlSetup S s))) =
      setupArrival S (clearSetupValid (clearSts .ctrt (isrEnter (ctlSetup S s)))) := by
    simp [handler, onCtrt, clearSts, isrEnter, ctlSetup, State.logs]
  rw [e1]
  simp only [setupArrival, if_neg hd', key]
  rfl

/-- A setup row, its packet arriving alone. -/
theorem exec_setup {i : Instr} {S : BitVec 64} {s : State} (h : takesSetup s) (hp : packetOf i = some S) :
   exec i s = ((((resolve (decodePacket S) ((arrived S s).withCtx .isr)).bind fun r t =>
        if r then .done () t else delegate S t).bind fun _ t => .done () (isrLeave s.ctx t))).toOutcome := by
  rw [exec_running h.1.2, bodyOf_setup hp, hostSetup_arrived h]

/-- Endpoints are looked up among the data pipes, which an arrival leaves alone. -/
theorem pipeOfEp_arrived (S idx c) (s : State) : pipeOfEp idx ((arrived S s).withCtx c) = pipeOfEp idx s := by
  unfold pipeOfEp
  split
  · rfl
  · apply List.find?_congr
    intro x hx
    have : x ≠ 0 := by rintro rfl; revert hx; decide
    have e : ((arrived S s).withCtx c).pipe x = s.pipe x := arrived_pipe_ne S s this
    rw [e]

/-- An answer of the setup core, the acknowledgement or the data stage. -/
theorem respond_arrived {len : Len} {buf : Addr} {s : State} {c : Context} {S : BitVec 64} (h : takesSetup s) (t : State) (m : Memory)
   (ht : t = ((arrived S s).withMem m).withCtx c)  :
   (wLength S = 0 → respond len buf t = .done true (acked t)) ∧
   (wLength S ≠ 0 → (buf = 0 → min len.toNat (wLength S).toNat = 0) → (buf ≠ 0 → buf.toNat + len.toNat ≤ 2 ^ 32) →
     answersIn (accessesFor (min len.toNat (wLength S).toNat) s.params.mps0.bytes) s →
     respond len buf t = .done true (sentIn buf (min len.toNat (wLength S).toNat) (accessesFor (min len.toNat (wLength S).toNat) s.params.mps0.bytes) t)) := by
  have hi : t.initialized = true := by subst ht; exact h.1.1
  have hd : t.devState = .controlSetup := by subst ht; rfl
  have hl : controlLegal t = true := by simp [controlLegal, hi, hd]
  have hlen : t.setup.length = wLength S := by subst ht; rfl
  constructor
  · intro hz
    simp only [respond, controlIn, hl, hlen, hz, controlAck_acked hi hd, Bool.not_true, Bool.false_eq_true, if_false, if_true, Res.bind_done]
  · intro hz h0 hr ha
    have := controlIn_sent (len := len) (buf := buf) (s := t) hl (by rw [hlen]; exact hz) (by rw [hlen]; exact h0) hr (by rw [hlen]; subst ht; exact ha)
    rw [hlen] at this
    simp only [respond, this, Res.bind_done]
    subst ht; rfl

/-! ### What a notification leaves alone -/

theorem notified_cases (p : Pipe) (e : ErrCode) (s : State) :
    notified p e s = s ∨ ∃ c, notified p e s = called c s := by
  unfold notified
  split
  · exact .inr ⟨_, rfl⟩
  · exact .inl rfl

theorem notified_logs (p : Pipe) (e : ErrCode) (s : State) (es : List TraceEntry) :
    notified p e (s.logs es) = (notified p e s).logs es := by
  have h : ∀ n, completionCall p e n (s.logs es) = completionCall p e n s := fun _ => rfl
  simp only [notified, h, State.pipe_logs]
  cases completionCall p e ((s.pipe p).xfer.total - (s.pipe p).xfer.remaining) s <;> rfl

@[simp] theorem notified_trace (p : Pipe) (e : ErrCode) (s : State) : (notified p e s).trace = s.trace := by
  rcases notified_cases p e s with h | ⟨c, h⟩ <;> rw [h]; rfl
@[simp] theorem notified_pipe (p q : Pipe) (e : ErrCode) (s : State) : (notified p e s).pipe q = s.pipe q := by
  rcases notified_cases p e s with h | ⟨c, h⟩ <;> rw [h]; rfl
@[simp] theorem notified_mem (p : Pipe) (e : ErrCode) (s : State) : (notified p e s).mem = s.mem := by
  rcases notified_cases p e s with h | ⟨c, h⟩ <;> rw [h]; rfl

/-- The calls after a notification. -/
theorem notified_calls (p : Pipe) (e : ErrCode) (s : State) : (notified p e s).calls =
    s.calls ++ (completionCall p e ((s.pipe p).xfer.total - (s.pipe p).xfer.remaining) s).toList := by
  unfold notified
  split
  · rename_i c h; rw [h]; rfl
  · rename_i h; rw [h]; simp

theorem notified_withCtx (p : Pipe) (e : ErrCode) (s : State) (c : Context) :
    notified p e (s.withCtx c) = (notified p e s).withCtx c := by
  have h : ∀ n, completionCall p e n (s.withCtx c) = completionCall p e n s := fun _ => rfl
  simp only [notified, h, State.withCtx_pipe]
  cases completionCall p e ((s.pipe p).xfer.total - (s.pipe p).xfer.remaining) s <;> rfl

@[simp] theorem notified_ctx (p : Pipe) (e : ErrCode) (s : State) : (notified p e s).ctx = s.ctx := by
  rcases notified_cases p e s with h | ⟨c, h⟩ <;> rw [h]; rfl

/-- The end of a transfer, after changes to its pipe (43_pipe_dispatcher.md R280). -/
theorem finish_modPipe {p : Pipe} {e : ErrCode} {ans : SetupAnswer} {s : State} {g : PipeState → PipeState}
    {es : List TraceEntry} {c : Context} (h : classIdle ans s) :
    finish p e (((s.modPipe p g).logs es).withCtx c) =
      .done () (((notified p e (s.modPipe p fun x => ended e (g x))).logs es).withCtx c) := by
  rw [finish_idle (a := ans) (by exact h)]
  have : (((s.modPipe p g).logs es).withCtx c).modPipe p (ended e) =
      ((s.modPipe p fun x => ended e (g x)).logs es).withCtx c := by
    simp [State.withCtx, State.logs, State.modPipe, State.pipe]
  rw [this, notified_withCtx, notified_logs]

theorem disableAll_eq (p : Pipe) (s : State) : disableAll p s =
    (s.modPipe p fun x => { x with brdyEnb := false, nrdyEnb := false, bempEnb := false }).logs
      [.brdyEnb p false, .nrdyEnb p false, .bempEnb p false] := by
  simp [disableAll, disableReady, writeBempEnb, writeNrdyEnb, writeBrdyEnb, State.logs_logs]

theorem disableReady_eq (p : Pipe) (s : State) : disableReady p s =
    (s.modPipe p fun x => { x with brdyEnb := false, nrdyEnb := false }).logs [.brdyEnb p false, .nrdyEnb p false] := by
  simp [disableReady, writeNrdyEnb, writeBrdyEnb, State.logs_logs]

end Sys2Proof.Machine
end

