-- ==== Sys2Proof/Laws/Frame.lean ====
section
/-! SUPPORT. What the operations of the block leave alone: the parameters, the controller's own fields, the
status bits; the discipline of what they add to the trace; and the updates that touch nothing the channel's
invariant speaks of. -/

namespace Sys2Proof.Machine

/-- A property of every state an operation can end in; one that halts has set `fatal`. -/
def Res.All {α : Type} (P : State → Prop) (r : Res α) : Prop :=
  match r with
  | .done _ s => P s
  | .halt s => P s ∧ s.fatal = true
  | .refused _ => True

theorem Res.All.mono {α : Type} {P Q : State → Prop} {r : Res α} (h : r.All P) (i : ∀ s, P s → Q s) : r.All Q := by
  cases r with
  | done a s => exact i s h
  | halt s => exact ⟨i s h.1, h.2⟩
  | refused e => trivial

/-- Sequencing: what holds where the first operation halts, and what the second establishes. -/
theorem Res.All.bind {α β : Type} {P Q : State → Prop} {r : Res α} {f : α → State → Res β} (h : r.All P)
    (i : ∀ s, P s → Q s) (hf : ∀ a t, P t → (f a t).All Q) : (r.bind f).All Q := by
  cases r with
  | done a t => exact hf a t h
  | halt t => exact ⟨i t h.1, h.2⟩
  | refused e => trivial

/-- The state an outcome ends in. -/
theorem Res.All.next {P : State → Prop} {r : Res Unit} (h : r.All P) {t : State} (e : r.toOutcome = .next t) : P t := by
  cases r with
  | done a s => cases e; exact h
  | halt s => cases e; exact h.1
  | refused e' => cases e

/-! ### The discipline of the trace -/

/-- A disciplined trace stays so after any entry. -/
theorem disciplinedFrom_none {es : List TraceEntry} (h : disciplined es = true) (b : Option TraceEntry) :
    disciplinedFrom b es = true := by
  cases es with
  | nil => rfl
  | cons e es =>
    simp only [disciplined, disciplinedFrom, Bool.and_eq_true] at h ⊢
    refine ⟨?_, h.2⟩
    have h1 := h.1
    cases e <;> simp_all [mayFollow]
    rename_i v
    cases v <;> simp_all

theorem disciplinedFrom_append {a b : List TraceEntry} {e : Option TraceEntry} (ha : disciplinedFrom e a = true)
    (hb : disciplined b = true) : disciplinedFrom e (a ++ b) = true := by
  induction a generalizing e with
  | nil => exact disciplinedFrom_none hb e
  | cons x xs ih =>
    simp only [List.cons_append, disciplinedFrom, Bool.and_eq_true] at ha ⊢
    exact ⟨ha.1, ih ha.2⟩

theorem disciplined_append {a b : List TraceEntry} (ha : disciplined a = true) (hb : disciplined b = true) :
    disciplined (a ++ b) = true := disciplinedFrom_append ha hb

/-! ### The frame of every operation -/

/-- What every operation of the block leaves alone, and how it extends the trace. -/
structure Frame (s t : State) : Prop where
  params : t.params = s.params
  usbState : t.usbState = s.usbState
  trace : ∃ es, t.trace = s.trace ++ es ∧ disciplined es = true
  sts : ∀ x, statusBit t x = statusBit s x
  ctx : t.ctx = s.ctx

theorem Frame.refl (s : State) : Frame s s := ⟨rfl, rfl, ⟨[], by simp, rfl⟩, fun _ => rfl, rfl⟩

theorem Frame.trans {s t u : State} (a : Frame s t) (b : Frame t u) : Frame s u := by
  obtain ⟨x, hx, dx⟩ := a.trace
  obtain ⟨y, hy, dy⟩ := b.trace
  exact ⟨b.params.trans a.params, b.usbState.trans a.usbState,
    ⟨x ++ y, by rw [hy, hx, List.append_assoc], disciplined_append dx dy⟩, fun z => (b.sts z).trans (a.sts z), b.ctx.trans a.ctx⟩

/-- A change of none of these fields. -/
theorem Frame.of_eq {s t : State} (hp : t.pipes = s.pipes) (hs : t.sts = s.sts) (hu : t.usbState = s.usbState)
    (hc : t.params = s.params) (ht : t.trace = s.trace) (hx : t.ctx = s.ctx) : Frame s t :=
  ⟨hc, hu, ⟨[], by simp [ht], rfl⟩, fun x => by cases x <;> simp [statusBit, State.pipe, hp, hs], hx⟩

theorem Frame.logs (s : State) (es : List TraceEntry) (h : disciplined es = true) : Frame s (s.logs es) :=
  ⟨rfl, rfl, ⟨es, rfl, h⟩, fun x => by cases x <;> rfl, rfl⟩

/-- The status bits of a pipe are kept. -/
def StsSame (x y : PipeState) : Prop := y.brdySts = x.brdySts ∧ y.nrdySts = x.nrdySts ∧ y.bempSts = x.bempSts

theorem Frame.of_pipes {s t : State} (h : ∀ p, StsSame (s.pipe p) (t.pipe p)) (hs : t.sts = s.sts)
    (hu : t.usbState = s.usbState) (hc : t.params = s.params) (ht : t.trace = s.trace) (hx : t.ctx = s.ctx) : Frame s t := by
  refine ⟨hc, hu, ⟨[], by simp [ht], rfl⟩, fun x => ?_, hx⟩
  cases x with
  | bemp q => exact (h q).2.2
  | nrdy q => exact (h q).2.1
  | brdy q => exact (h q).1
  | dvst => simp [statusBit, hs]
  | ctrt => simp [statusBit, hs]
  | resm => simp [statusBit, hs]
  | vbint => simp [statusBit, hs]

theorem Frame.modPipe (s : State) (p : Pipe) (g : PipeState → PipeState) (h : ∀ x, StsSame x (g x)) : Frame s (s.modPipe p g) := by
  refine Frame.of_pipes (fun q => ?_) rfl rfl rfl rfl rfl
  rw [State.pipe_modPipe]
  split
  · rename_i e; rw [← e]; exact h _
  · exact ⟨rfl, rfl, rfl⟩

theorem Frame.modAllPipes (s : State) (g : PipeState → PipeState) (h : ∀ x, StsSame x (g x)) : Frame s (s.modAllPipes g) := by
  refine Frame.of_pipes (fun q => ?_) rfl rfl rfl rfl rfl
  rw [State.pipe_modAllPipes]
  exact h _

theorem Frame.modFifo (s : State) (f : FifoId) (g : FifoPort → FifoPort) : Frame s (s.modFifo f g) := by
  cases f <;> exact .of_eq rfl rfl rfl rfl rfl rfl
theorem Frame.setDevState (d : DevState) (s : State) : Frame s (setDevState d s) := .of_eq rfl rfl rfl rfl rfl rfl

/-! ### Updates the invariant does not see -/

/-- Two pipes agree on what the invariant speaks of. -/
def PipeSame (x y : PipeState) : Prop :=
  y.xfer = x.xfer ∧ y.busy = x.busy ∧ y.nrdyCount = x.nrdyCount ∧ y.cfgValid = x.cfgValid ∧ y.cfg = x.cfg ∧ y.resLen = x.resLen

theorem PipeSame.refl (x : PipeState) : PipeSame x x := ⟨rfl, rfl, rfl, rfl, rfl, rfl⟩

/-- An operation that changes nothing the invariant speaks of. -/
structure Quiet (s t : State) : Prop where
  frame : Frame s t
  mem : t.mem = s.mem
  devState : t.devState = s.devState
  initialized : t.initialized = s.initialized
  first : t.firstConnectFired = s.firstConnectFired
  config : t.configValue = s.configValue
  vbus : t.vbusLevel = s.vbusLevel
  desc : t.desc = s.desc
  cb : t.cb = s.cb
  pipe : ∀ p, PipeSame (s.pipe p) (t.pipe p)
  fifo : ∀ f p, ((s.fifo f).owner = some p → (s.fifo f).sel = some p) → (t.fifo f).owner = some p → (t.fifo f).sel = some p

theorem Quiet.refl (s : State) : Quiet s s :=
  ⟨.refl s, rfl, rfl, rfl, rfl, rfl, rfl, rfl, rfl, fun _ => .refl _, fun _ _ h => h⟩

theorem Quiet.trans {s t u : State} (a : Quiet s t) (b : Quiet t u) : Quiet s u where
  frame := a.frame.trans b.frame
  mem := b.mem.trans a.mem
  devState := b.devState.trans a.devState
  initialized := b.initialized.trans a.initialized
  first := b.first.trans a.first
  config := b.config.trans a.config
  vbus := b.vbus.trans a.vbus
  desc := b.desc.trans a.desc
  cb := b.cb.trans a.cb
  pipe p := by
    obtain ⟨a1, a2, a3, a4, a5, a6⟩ := a.pipe p
    obtain ⟨b1, b2, b3, b4, b5, b6⟩ := b.pipe p
    exact ⟨b1.trans a1, b2.trans a2, b3.trans a3, b4.trans a4, b5.trans a5, b6.trans a6⟩
  fifo f p h := b.fifo f p (a.fifo f p h)

theorem Quiet.modPipe (s : State) (p : Pipe) (g : PipeState → PipeState) (h : ∀ x, StsSame x (g x) ∧ PipeSame x (g x)) :
    Quiet s (s.modPipe p g) := by
  refine ⟨.modPipe s p g fun x => (h x).1, rfl, rfl, rfl, rfl, rfl, rfl, rfl, rfl, fun q => ?_, fun f p h => by simpa using h⟩
  rw [State.pipe_modPipe]
  split
  · rename_i e; rw [← e]; exact (h _).2
  · exact .refl _

theorem Quiet.logs (s : State) (es : List TraceEntry) (h : disciplined es = true) : Quiet s (s.logs es) :=
  ⟨.logs s es h, rfl, rfl, rfl, rfl, rfl, rfl, rfl, rfl, fun _ => .refl _, fun f p h => by simpa using h⟩

theorem Quiet.withEnv (s : State) (e : Env) : Quiet s (s.withEnv e) :=
  ⟨.of_eq rfl rfl rfl rfl rfl rfl, rfl, rfl, rfl, rfl, rfl, rfl, rfl, rfl, fun _ => .refl _, fun f p h => by simpa using h⟩
theorem quiet_setResult (r : CmdResult) (s : State) : Quiet s (setResult r s) :=
  ⟨.of_eq rfl rfl rfl rfl rfl rfl, rfl, rfl, rfl, rfl, rfl, rfl, rfl, rfl, fun _ => .refl _, fun f _ h => by cases f <;> exact h⟩
theorem quiet_logCall (c : Call) (s : State) : Quiet s (logCall c s) :=
  ⟨.of_eq rfl rfl rfl rfl rfl rfl, rfl, rfl, rfl, rfl, rfl, rfl, rfl, rfl, fun _ => .refl _, fun f _ h => by cases f <;> exact h⟩
theorem quiet_setup (S : SetupPacket) (s : State) : Quiet s { s with setup := S } :=
  ⟨.of_eq rfl rfl rfl rfl rfl rfl, rfl, rfl, rfl, rfl, rfl, rfl, rfl, rfl, fun _ => .refl _, fun f _ h => by cases f <;> exact h⟩
theorem quiet_clearSetupValid (s : State) : Quiet s (clearSetupValid s) :=
  (⟨.of_eq rfl rfl rfl rfl rfl rfl, rfl, rfl, rfl, rfl, rfl, rfl, rfl, rfl, fun _ => .refl _,
    fun f _ h => by cases f <;> exact h⟩ : Quiet s { s with setupValid := false }).trans (Quiet.logs _ [.setupValid false] rfl)

theorem quiet_writePid {p : Pipe} {v : Pid} {s : State} (h : v ≠ .buf) : Quiet s (writePid p v s) :=
  (Quiet.modPipe s p (fun x => { x with pid := v }) fun _ => ⟨⟨rfl, rfl, rfl⟩, rfl, rfl, rfl, rfl, rfl, rfl⟩).trans
    (Quiet.logs _ [.pid p v] (by cases v <;> first | rfl | exact absurd rfl h))
theorem quiet_setPidStall (p : Pipe) (s : State) : Quiet s (setPidStall p s) := quiet_writePid (by decide)
theorem quiet_setPidNak (p : Pipe) (s : State) : Quiet s (setPidNak p s) := quiet_writePid (by decide)
theorem quiet_setPidBuf (p : Pipe) (s : State) : Quiet s (setPidBuf p s) := by
  rw [setPidBuf_eq]
  exact (Quiet.modPipe s p (fun x => { x with pid := .buf }) fun _ => ⟨⟨rfl, rfl, rfl⟩, rfl, rfl, rfl, rfl, rfl, rfl⟩).trans
    (Quiet.logs _ [.pid p .nak, .pid p .buf] (by simp [disciplined, disciplinedFrom, mayFollow]))
theorem quiet_writeBrdyEnb (p : Pipe) (b : Bool) (s : State) : Quiet s (writeBrdyEnb p b s) :=
  (Quiet.modPipe s p (fun x => { x with brdyEnb := b }) fun _ => ⟨⟨rfl, rfl, rfl⟩, rfl, rfl, rfl, rfl, rfl, rfl⟩).trans
    (Quiet.logs _ [.brdyEnb p b] rfl)
theorem quiet_writeNrdyEnb (p : Pipe) (b : Bool) (s : State) : Quiet s (writeNrdyEnb p b s) :=
  (Quiet.modPipe s p (fun x => { x with nrdyEnb := b }) fun _ => ⟨⟨rfl, rfl, rfl⟩, rfl, rfl, rfl, rfl, rfl, rfl⟩).trans
    (Quiet.logs _ [.nrdyEnb p b] rfl)
theorem quiet_writeBempEnb (p : Pipe) (b : Bool) (s : State) : Quiet s (writeBempEnb p b s) :=
  (Quiet.modPipe s p (fun x => { x with bempEnb := b }) fun _ => ⟨⟨rfl, rfl, rfl⟩, rfl, rfl, rfl, rfl, rfl, rfl⟩).trans
    (Quiet.logs _ [.bempEnb p b] rfl)
theorem quiet_clearToggle (p : Pipe) (s : State) : Quiet s (clearToggle p s) :=
  (Quiet.modPipe s p (fun x => { x with toggle := .data0 }) fun _ => ⟨⟨rfl, rfl, rfl⟩, rfl, rfl, rfl, rfl, rfl, rfl⟩).trans
    (Quiet.logs _ [.toggle p .data0] rfl)
theorem quiet_setPState (p : Pipe) (v : PState) (s : State) : Quiet s (setPState p v s) :=
  Quiet.modPipe s p (fun x => { x with pstate := v }) fun _ => ⟨⟨rfl, rfl, rfl⟩, rfl, rfl, rfl, rfl, rfl, rfl⟩
theorem quiet_disableReady (p : Pipe) (s : State) : Quiet s (disableReady p s) :=
  (quiet_writeBrdyEnb p false s).trans (quiet_writeNrdyEnb p false _)
theorem quiet_disableAll (p : Pipe) (s : State) : Quiet s (disableAll p s) :=
  (quiet_disableReady p s).trans (quiet_writeBempEnb p false _)
theorem quiet_dataValid (f : FifoId) (s : State) : Quiet s (dataValid f s) := Quiet.logs s [.dataValid f] rfl
theorem Quiet.modOwner (s : State) (f : FifoId) (g : PipeState → PipeState) (h : ∀ x, StsSame x (g x) ∧ PipeSame x (g x)) :
    Quiet s (s.modOwner f g) := by
  unfold State.modOwner
  split
  · exact .modPipe s _ g h
  · exact .refl s
theorem quiet_bufferClear (f : FifoId) (s : State) : Quiet s (bufferClear f s) :=
  (Quiet.modOwner s f (fun x => { x with building := [] }) fun _ => ⟨⟨rfl, rfl, rfl⟩, .refl _⟩).trans
    (Quiet.logs _ [.bufferClear f] rfl)
theorem quiet_handOver (f : FifoId) (m : Nat) (s : State) : Quiet s (handOver f m s) :=
  Quiet.modOwner s f _ fun _ => ⟨⟨rfl, rfl, rfl⟩, .refl _⟩
theorem quiet_makeValid (p : Pipe) (s : State) : Quiet s (makeValid p s) :=
  (quiet_dataValid _ s).trans (quiet_handOver _ _ _)
theorem quiet_endWrite (p : Pipe) (n : Nat) (final : Bool) (s : State) : Quiet s (endWrite p n final s).2 := by
  unfold endWrite
  split
  · split
    · dsimp only; split
      · exact .refl s
      · exact quiet_makeValid p s
    · exact quiet_makeValid p s
  · exact quiet_handOver _ _ s
theorem quiet_endRead (p : Pipe) (n : Nat) (s : State) : Quiet s (endRead p n s).2 := by
  rcases endRead_state p n s with h | h <;> rw [h]
  · exact .refl s
  · exact quiet_dataValid _ s
theorem quiet_ctrlComplete (s : State) : Quiet s (ctrlComplete s) := Quiet.logs s [.ctrlComplete] rfl
theorem quiet_debounce (s : State) : Quiet s (debounce s).2 := by
  obtain ⟨e, h⟩ := debounce_spec s
  rw [h]; exact .withEnv s e


/-! ### Binding -/

theorem quiet_afterBind (p : Option Pipe) (f : FifoId) (d : Dir) (b : Bool) (s : State) : Quiet s (afterBind p f d b s) := by
  suffices h : (∀ q, PipeSame (s.pipe q) ((afterBind p f d b s).pipe q)) ∧ ∀ g q, ((s.fifo g).owner = some q → (s.fifo g).sel = some q) →
      ((afterBind p f d b s).fifo g).owner = some q → ((afterBind p f d b s).fifo g).sel = some q by
    obtain ⟨h1, h2⟩ := h
    have fr : Frame s (afterBind p f d b s) := by cases f <;> exact ⟨rfl, rfl, ⟨_, rfl, rfl⟩, fun x => by cases x <;> rfl, rfl⟩
    constructor <;> first | assumption | (cases f <;> rfl)
  refine ⟨fun q => ?_, fun g q h => ?_⟩
  · rw [afterBind_pipe]; exact .refl _
  · have key : ∀ o : Option Pipe, (if b = true then o else none) = some q → o = some q := by
      intro o; cases b <;> simp
    cases f <;> cases g <;> first | exact h | exact key p
theorem quiet_bindFifo (p : Option Pipe) (f : FifoId) (d : Dir) (s : State) : Quiet s (bindFifo p f d s).2 := by
  obtain ⟨e, h⟩ := bindFifo_spec p f d s
  rw [h]
  exact (quiet_afterBind p f d _ s).trans (.withEnv _ e)
theorem quiet_fatal (s : State) : Quiet s { s with fatal := true } :=
  ⟨.of_eq rfl rfl rfl rfl rfl rfl, rfl, rfl, rfl, rfl, rfl, rfl, rfl, rfl, fun _ => .refl _, fun f _ h => by cases f <;> exact h⟩
theorem quiet_bindAttempts (p : Option Pipe) (f : FifoId) (d : Dir) (n : Nat) (s : State) :
    (bindAttempts p f d n s).All (Quiet s) := by
  induction n generalizing s with
  | zero => exact ⟨quiet_fatal s, rfl⟩
  | succ n ih =>
    have h := quiet_bindFifo p f d s
    simp only [bindAttempts]
    split <;> rename_i t e <;> rw [e] at h
    · exact h
    · exact (ih t).mono fun _ => h.trans
theorem quiet_bindUnconditional (p : Option Pipe) (f : FifoId) (d : Dir) (s : State) :
    (bindUnconditional p f d s).All (Quiet s) := quiet_bindAttempts p f d _ s
theorem quiet_bindAdmin (s : State) : (bindAdmin s).All (Quiet s) := by
  refine Res.All.bind (quiet_bindUnconditional _ _ _ s) (fun _ h => h) fun _ t ht => ?_
  refine Res.All.bind (quiet_bindUnconditional _ _ _ t) (fun _ => ht.trans) fun _ u hu => ?_
  exact (quiet_bindUnconditional _ _ _ u).mono fun _ => (ht.trans hu).trans

/-! ### The frames of the other updates -/

theorem frame_resetEffect (s : State) : Frame s (resetEffect s) := by
  have h1 : Frame s (s.modAllPipes resetPipe) := Frame.modAllPipes s resetPipe fun _ => ⟨rfl, rfl, rfl⟩
  have h2 : Frame (s.modAllPipes resetPipe)
      { s.modAllPipes resetPipe with enb := ⟨true, true, true, true, true, true, true⟩ } := .of_eq rfl rfl rfl rfl rfl rfl
  have h3 := Frame.logs { s.modAllPipes resetPipe with enb := ⟨true, true, true, true, true, true, true⟩ } resetTrace (by decide)
  have h := (h1.trans h2).trans h3
  unfold resetEffect
  dsimp only
  split
  · exact h.trans (Frame.setDevState _ _)
  · exact h
theorem frame_cancel (s : State) : Frame s (s.modAllPipes cancelPipe) :=
  Frame.modAllPipes s cancelPipe fun x => by unfold cancelPipe; split <;> exact ⟨rfl, rfl, rfl⟩
theorem programPipe_eq (p : Pipe) (r : EpCfg) (s : State) : programPipe p r s = (s.modPipe p (programmed r)).logs
    [.pid p .nak, .pipeReg p r, .toggle p .data0, .brdyEnb p false, .nrdyEnb p false, .bempEnb p false] := by
  simp [programPipe, setPidNak_eq, writePipeReg, clearToggle, writeBempEnb, writeNrdyEnb, writeBrdyEnb, setPState,
    setNrdyCount, programmed, State.logs, State.modPipe, State.pipe]
theorem frame_programPipe (p : Pipe) (r : EpCfg) (s : State) : Frame s (programPipe p r s) := by
  rw [programPipe_eq]
  exact (Frame.modPipe s p (programmed r) fun _ => ⟨rfl, rfl, rfl⟩).trans
    (Frame.logs _ [.pid p .nak, .pipeReg p r, .toggle p .data0, .brdyEnb p false, .nrdyEnb p false, .bempEnb p false]
      (by simp [disciplined, disciplinedFrom, mayFollow]))
theorem frame_programTable (t : List CfgRec) (s : State) : Frame s (programTable t s) := by
  induction t generalizing s with
  | nil => exact .refl s
  | cons r rs ih =>
    simp only [programTable]
    split
    · exact (frame_programPipe _ _ s).trans (ih _)
    · exact ih s

end Sys2Proof.Machine
end

