-- ==== Sys2Proof/Laws/Commands.lean ====
section
/-! SUPPORT. The commands that take checks, in the terms of the statements: the checks of a start, the legality
of a configuration table and what applying one writes; and two laws of the pass and of the VBUS debounce. -/

namespace Sys2Proof.Machine

/-- The checks of a start, one after the other or as a list. -/
theorem startBroken_eq (p d len buf) (s : State) : startBroken p d len buf s = startError p d len buf s := by
  have e1 : decide (d = .IN ∧ buf = 0 ∧ 0 < len.toNat) = decide (d = .IN ∧ buf = 0 ∧ len ≠ 0) := by
    congr 1
    simp only [eq_iff_iff]
    have : 0 < len.toNat ↔ len ≠ 0 := by
      rw [Nat.pos_iff_ne_zero, Ne, Ne, BitVec.toNat_eq]; rfl
    rw [this]
  have e2 : decide (buf ≠ 0 ∧ 2 ^ 32 < buf.toNat + len.toNat) = bufferWraps buf len := by
    rw [Bool.eq_iff_iff]; simp [bufferWraps]
  have e3 : decide ((s.pipe p).cfg.dir ≠ d) = ((s.pipe p).cfg.dir != d) := by
    rw [Bool.eq_iff_iff]; simp
  have key : ∀ b1 b2 b3 b4 b5 b6 b7 b8 : Bool,
      ((List.find? (·.1) [(b1, ErrCode.state), (b2, .notConnected), (b3, .state), (b4, .state), (b5, .state), (b6, .busy), (b7, .noResponse), (b8, .stall)]).map (·.2))
      = (if b1 then some .state else if b2 then some .notConnected else if b3 then some .state else if b4 then some .state else if b5 then some .state else if b6 then some .busy else if b7 then some .noResponse else if b8 then some .stall else none) := by
    decide
  simp only [startBroken, startChecks, e1, e2, e3, key]
  simp only [startError, decide_eq_true_eq]

theorem startEffect_eq (p d len buf k) (s : State) : setResult (.code .ok) (startEffect p d len buf k s) = started p d len buf k s := by
  simp [startEffect, started, setPidBuf_eq, writeNrdyEnb, writeBrdyEnb, writeBempEnb, setResult, newXfer, State.modPipe, State.logs, State.pipe]

/-- The legality test of a table says what the spec says of a legal table. -/
theorem legal_iff (t : List CfgRec) (s : State) : tableLegal t s = true ↔ LegalTable t s := by
  simp only [tableLegal, LegalTable, Bool.and_eq_true]
  have h1 : t.all recLegal = true ↔ ∀ r ∈ t, 1 ≤ r.pipe ∧ r.pipe ≤ 9 ∧ 1 ≤ r.ep.mps ∧ r.ep.mps ≤ r.ep.bufSize ∧ r.ep.bufSize % r.ep.mps = 0 ∧ 1 ≤ r.ep.epNum ∧ r.ep.epNum ≤ 15 ∧ r.ep.kind ≠ .control := by
    simp [List.all_eq_true, recLegal, and_assoc]
  have h2 : pipesDistinct t = true ↔ t.Pairwise (fun a b => a.pipe ≠ b.pipe) := by
    induction t with
    | nil => simp [pipesDistinct]
    | cons r rs ih =>
      have := ih (by simp [List.all_eq_true, recLegal, and_assoc])
      simp [pipesDistinct, this, List.pairwise_cons, List.all_eq_true]
      intro _; constructor
      · intro h a ha e; exact h a ha e.symm
      · intro h a ha e; exact h a ha e.symm
  have h3 : endpointsDistinct (cfgAfter t s) = true ↔ ∀ p q a b, p ≠ 0 → q ≠ 0 → p ≠ q → cfgAfter t s p = some a → cfgAfter t s q = some b → ¬ (a.epNum = b.epNum ∧ a.dir = b.dir) := by
    have hall : ∀ p : Pipe, p ≠ 0 ↔ p ∈ dataPipes := by decide
    simp only [endpointsDistinct, List.all_eq_true, Bool.or_eq_true, beq_iff_eq, Bool.not_eq_true']
    constructor
    · intro h p q a b hp hq hpq ha hb hc
      rcases h p ((hall p).mp hp) q ((hall q).mp hq) with h | h
      · exact hpq h
      · rw [ha, hb] at h; simp [sameEndpoint, hc] at h
    · intro h p hp q hq
      by_cases e : p = q
      · exact .inl e
      · right
        cases ha : cfgAfter t s p with
        | none => rfl
        | some a =>
          cases hb : cfgAfter t s q with
          | none => rfl
          | some b =>
            have := h p q a b ((hall p).mpr hp) ((hall q).mpr hq) e ha hb
            simp only [sameEndpoint, Bool.and_eq_false_iff, beq_eq_false_iff_ne]
            by_cases e1 : a.epNum = b.epNum
            · right; exact fun e2 => this ⟨e1, e2⟩
            · exact .inl e1
  rw [h1, h2, h3, and_assoc]

/-- Everything that applying a table of distinct pipes does. -/
theorem programTable_spec (t : List CfgRec) (s : State) (hl : ∀ r ∈ t, r.pipe ≤ 9) (hd : t.Pairwise (fun a b => a.pipe ≠ b.pipe)) :
   (∀ r ∈ t, ∀ p : Pipe, p.val = r.pipe → (programTable t s).pipe p = programmed r.ep (s.pipe p)) ∧
   (∀ p : Pipe, (∀ r ∈ t, p.val ≠ r.pipe) → (programTable t s).pipe p = s.pipe p) ∧
   programTable t s = { s with pipes := (programTable t s).pipes, trace := s.trace ++ t.flatMap programTrace } := by
  induction t generalizing s with
  | nil => simp [programTable]
  | cons r rs ih =>
    rw [List.pairwise_cons] at hd
    have hr : r.pipe < 10 := by have := hl r (by simp); omega
    have hrp : recPipe r = some ⟨r.pipe, hr⟩ := by simp [recPipe, hr]
    simp only [programTable, hrp, programPipe_eq]
    generalize hq : (⟨r.pipe, hr⟩ : Pipe) = q
    have hqv : q.val = r.pipe := by subst hq; rfl
    obtain ⟨i1, i2, i3⟩ := ih ((s.modPipe q (programmed r.ep)).logs [.pid q .nak, .pipeReg q r.ep, .toggle q .data0, .brdyEnb q false, .nrdyEnb q false, .bempEnb q false]) (fun x hx => hl x (by simp [hx])) hd.2
    refine ⟨?_, ?_, ?_⟩
    · intro r' hr' p hp
      rcases List.mem_cons.mp hr' with e | hm
      · subst e
        have hpq : p = q := Fin.ext (by omega)
        subst hpq
        rw [i2 p (fun x hx => by rw [hqv]; exact hd.1 x hx)]; simp
      · rw [i1 r' hm p hp]
        have : q ≠ p := by intro e; apply hd.1 r' hm; rw [← hqv, e, hp]
        simp [State.pipe_modPipe_ne _ _ this]
    · intro p hp
      rw [i2 p (fun x hx => hp x (by simp [hx]))]
      have : q ≠ p := by intro e; apply hp r (by simp); rw [← e, hqv]
      simp [State.pipe_modPipe_ne _ _ this]
    · rw [i3]
      simp only [List.flatMap_cons]
      have : programTrace r = [.pid q .nak, .pipeReg q r.ep, .toggle q .data0, .brdyEnb q false, .nrdyEnb q false, .bempEnb q false] := by
        simp [programTrace, hrp, hq]
      rw [this]
      simp [State.logs, State.modPipe]

/-- A listed pipe is busy. -/
theorem busy_iff (t : List CfgRec) (s : State) (hl : ∀ r ∈ t, r.pipe ≤ 9) : tableBusy t s = true ↔ ∃ r ∈ t, ∃ p : Pipe, p.val = r.pipe ∧ (s.pipe p).busy = true := by
  simp only [tableBusy, List.any_eq_true]
  constructor
  · rintro ⟨r, hr, h⟩
    have hlt : r.pipe < 10 := by have := hl r hr; omega
    simp only [recPipe, hlt, dif_pos] at h
    exact ⟨r, hr, ⟨r.pipe, hlt⟩, rfl, h⟩
  · rintro ⟨r, hr, p, hp, h⟩
    refine ⟨r, hr, ?_⟩
    have hlt : r.pipe < 10 := by have := hl r hr; omega
    simp only [recPipe, hlt, dif_pos]
    have : (⟨r.pipe, hlt⟩ : Pipe) = p := Fin.ext hp.symm
    rw [this]; exact h

/-- Three reads of VBUS whose answers are known. -/
theorem debounce_lined {s : State} {v1 v2 v3 : Bool} {vs} (h : vbusReads v1 v2 v3 vs s) :
    debounce s = (if v1 = v2 ∧ v2 = v3 then some v1 else none, s.withEnv { s.env with vbus := vs }) := by
  rcases h with ⟨h0, h⟩ | ⟨b, h0, rfl, rfl, rfl, rfl⟩
  · have d : ∀ (e : Env) (v : Bool) (ws : List Bool), e.vbus = v :: ws → drawVbus (s.withEnv e) = (v, s.withEnv { e with vbus := ws }) := by
      intro e v ws he
      unfold drawVbus
      split
      · next b hb => exact absurd (hb.symm.trans h0) nofun
      · simp only [State.withEnv_env, he]; rfl
    have h1 := d s.env v1 (v2 :: v3 :: vs) h
    rw [State.withEnv_self] at h1
    simp only [debounce, h1, d { s.env with vbus := v2 :: v3 :: vs } v2 (v3 :: vs) rfl, d { s.env with vbus := v3 :: vs } v3 vs rfl]
  · simp only [debounce, drawVbus, h0]; rfl

/-- The sources of a pass in two parts. -/
theorem serveAll_append (snap h) (xs ys : List Source) (s : State) : serveAll snap h (xs ++ ys) s = (serveAll snap h xs s).bind fun _ t => serveAll snap h ys t := by
  induction xs generalizing s with
  | nil => rfl
  | cons x xs ih =>
    simp only [List.cons_append, serveAll]
    split
    · rw [Res.bind_assoc]; congr 1; funext _ t; exact ih t
    · exact ih s

/-- Where the two events of a data pipe that a pass may serve together stand in its order. -/
theorem split_order : ∀ p : Pipe, p ≠ 0 → ∃ a b c, passOrder = a ++ (.nrdy p :: (b ++ .brdy p :: c)) ∧ (∀ x ∈ a, x ≠ .nrdy p ∧ x ≠ .brdy p) ∧ (∀ x ∈ b, x ≠ .nrdy p ∧ x ≠ .brdy p) ∧ (∀ x ∈ c, x ≠ .nrdy p ∧ x ≠ .brdy p) := by
  intro p hp
  refine ⟨passOrder.take (passOrder.idxOf (.nrdy p)), (passOrder.drop (passOrder.idxOf (.nrdy p) + 1)).take ((passOrder.drop (passOrder.idxOf (.nrdy p) + 1)).idxOf (.brdy p)), (passOrder.drop (passOrder.idxOf (.nrdy p) + 1)).drop ((passOrder.drop (passOrder.idxOf (.nrdy p) + 1)).idxOf (.brdy p) + 1), ?_⟩
  revert p; decide

end Sys2Proof.Machine
end

