-- ==== Sys2Proof/Laws/Decode.lean ====
section
/-! SUPPORT. The laws of the encoding: a setup packet and its fields, the masks of the decode table, the row a
packet selects. -/

namespace Sys2Proof

/-- A concatenation determines its parts. -/
theorem append_inj {n m : Nat} {a c : BitVec n} {b d : BitVec m} : a ++ b = c ++ d ↔ a = c ∧ b = d := by
  constructor
  · intro h
    refine ⟨?_, ?_⟩
    · have := congrArg (BitVec.extractLsb' m n) h
      simpa [BitVec.extractLsb'_append_eq_left] using this
    · have := congrArg (BitVec.setWidth m) h
      simpa [BitVec.setWidth_append] using this
  · rintro ⟨rfl, rfl⟩; rfl

theorem and5 (l i v : BitVec 16) (r t : BitVec 8) (l' i' v' : BitVec 16) (r' t' : BitVec 8) :
    (l ++ i ++ v ++ r ++ t) &&& (l' ++ i' ++ v' ++ r' ++ t') = (l &&& l') ++ (i &&& i') ++ (v &&& v') ++ (r &&& r') ++ (t &&& t') := by
  rw [BitVec.and_append, BitVec.and_append, BitVec.and_append, BitVec.and_append]

/-- A mask acts field by field. -/
theorem setupWord_and (t r mt mr : BitVec 8) (v i l mv mi ml : BitVec 16) :
    setupWord t r v i l &&& setupWord mt mr mv mi ml = setupWord (t &&& mt) (r &&& mr) (v &&& mv) (i &&& mi) (l &&& ml) :=
  and5 ..

/-- A packet determines its five fields. -/
theorem setupWord_inj {t r t' r' : BitVec 8} {v i l v' i' l' : BitVec 16} :
    setupWord t r v i l = setupWord t' r' v' i' l' ↔ t = t' ∧ r = r' ∧ v = v' ∧ i = i' ∧ l = l' := by
  constructor
  · intro h
    have h : l ++ i ++ v ++ r ++ t = l' ++ i' ++ v' ++ r' ++ t' := h
    rw [append_inj, append_inj, append_inj, append_inj] at h
    tauto
  · rintro ⟨rfl, rfl, rfl, rfl, rfl⟩; rfl

/-- A line that leaves the upper 32 bits open is matched on type, request and value. -/
theorem hits_setupWord (row : SrRow) (t r vt vr mt mr : BitVec 8) (v i l vv mv : BitVec 16) :
    SrLine.hits ⟨row, setupWord vt vr vv 0 0, setupWord mt mr mv 0 0⟩ (setupWord t r v i l) =
      ((t &&& mt == vt) && (r &&& mr == vr) && (v &&& mv == vv)) := by
  rw [Bool.eq_iff_iff]
  simp only [SrLine.hits, setupWord_and, beq_iff_eq, setupWord_inj, Bool.and_eq_true]
  simp [and_assoc]

/-- The table by fields. -/
def fieldLines : List SrLine :=
  [⟨.getStatusDevice, setupWord 0x80 0x00 0 0 0, setupWord 0xFF 0xFF 0 0 0⟩,
   ⟨.getStatusInterface, setupWord 0x81 0x00 0 0 0, setupWord 0xFF 0xFF 0 0 0⟩,
   ⟨.getStatusEndpoint, setupWord 0x82 0x00 0 0 0, setupWord 0xFF 0xFF 0 0 0⟩,
   ⟨.clearFeatureEpHalt, setupWord 0x02 0x01 0 0 0, setupWord 0xFF 0xFF 0xFFFF 0 0⟩,
   ⟨.setFeatureEpHalt, setupWord 0x02 0x03 0 0 0, setupWord 0xFF 0xFF 0xFFFF 0 0⟩,
   ⟨.setAddress, setupWord 0x00 0x05 0 0 0, setupWord 0xFF 0xFF 0 0 0⟩,
   ⟨.getDescriptorDevice, setupWord 0x80 0x06 0x0100 0 0, setupWord 0xFF 0xFF 0xFF00 0 0⟩,
   ⟨.getDescriptorConfiguration, setupWord 0x80 0x06 0x0200 0 0, setupWord 0xFF 0xFF 0xFF00 0 0⟩,
   ⟨.getDescriptorString, setupWord 0x80 0x06 0x0300 0 0, setupWord 0xFF 0xFF 0xFF00 0 0⟩,
   ⟨.getDescriptorDeviceQualifier, setupWord 0x80 0x06 0x0600 0 0, setupWord 0xFF 0xFF 0xFF00 0 0⟩,
   ⟨.getDescriptorOtherSpeed, setupWord 0x80 0x06 0x0700 0 0, setupWord 0xFF 0xFF 0xFF00 0 0⟩,
   ⟨.getConfiguration, setupWord 0x80 0x08 0 0 0, setupWord 0xFF 0xFF 0 0 0⟩,
   ⟨.setConfiguration, setupWord 0x00 0x09 0 0 0, setupWord 0xFF 0xFF 0 0 0⟩,
   ⟨.getInterface, setupWord 0x81 0x0A 0 0 0, setupWord 0xFF 0xFF 0 0 0⟩,
   ⟨.setInterface, setupWord 0x01 0x0B 0 0 0, setupWord 0xFF 0xFF 0 0 0⟩,
   ⟨.standardOther, setupWord 0x00 0 0 0 0, setupWord 0x60 0 0 0 0⟩,
   ⟨.classRequest, setupWord 0x20 0 0 0 0, setupWord 0x60 0 0 0 0⟩,
   ⟨.vendor, setupWord 0x40 0 0 0 0, setupWord 0x60 0 0 0 0⟩,
   ⟨.reservedType, setupWord 0x60 0 0 0 0, setupWord 0x60 0 0 0 0⟩]

/-- The decode table, its words written field by field. -/
theorem setupTable_eq : setupTable = fieldLines := by decide


/-- A packet is made of its five fields. -/
theorem setupWord_eta (S : BitVec 64) :
    setupWord (bmRequestType S) (bRequest S) (wValue S) (wIndex S) (wLength S) = S := by
  apply BitVec.eq_of_getLsbD_eq
  intro k hk
  have e : setupWord (bmRequestType S) (bRequest S) (wValue S) (wIndex S) (wLength S) =
    wLength S ++ wIndex S ++ wValue S ++ bRequest S ++ bmRequestType S := rfl
  rw [e]
  simp only [BitVec.getLsbD_append, wLength, wIndex, wValue, bRequest, bmRequestType, BitVec.getLsbD_extractLsb']
  split_ifs <;> (rw [decide_eq_true (by omega), Bool.true_and]; congr 1; omega)

theorem bmRequestType_setupWord (t r : BitVec 8) (v i l : BitVec 16) : bmRequestType (setupWord t r v i l) = t :=
  (setupWord_inj.mp (setupWord_eta (setupWord t r v i l))).1
theorem bRequest_setupWord (t r : BitVec 8) (v i l : BitVec 16) : bRequest (setupWord t r v i l) = r :=
  (setupWord_inj.mp (setupWord_eta (setupWord t r v i l))).2.1
theorem wValue_setupWord (t r : BitVec 8) (v i l : BitVec 16) : wValue (setupWord t r v i l) = v :=
  (setupWord_inj.mp (setupWord_eta (setupWord t r v i l))).2.2.1
theorem wIndex_setupWord (t r : BitVec 8) (v i l : BitVec 16) : wIndex (setupWord t r v i l) = i :=
  (setupWord_inj.mp (setupWord_eta (setupWord t r v i l))).2.2.2.1
theorem wLength_setupWord (t r : BitVec 8) (v i l : BitVec 16) : wLength (setupWord t r v i l) = l :=
  (setupWord_inj.mp (setupWord_eta (setupWord t r v i l))).2.2.2.2

/-- Part of a part. -/
theorem extract_extract {n : Nat} (S : BitVec n) (a b i k : Nat) (h : i + k ≤ b) :
    (S.extractLsb' a b).extractLsb' i k = S.extractLsb' (a + i) k := by
  apply BitVec.eq_of_getLsbD_eq
  intro j hj
  simp only [BitVec.getLsbD_extractLsb']
  rw [decide_eq_true hj, decide_eq_true (by omega : i + j < b)]
  simp [Nat.add_assoc]

theorem reqDir_eq (S : BitVec 64) : reqDir S = (bmRequestType S).extractLsb' 7 1 :=
  (extract_extract S 0 8 7 1 (by omega)).symm
theorem reqType_eq (S : BitVec 64) : reqType S = (bmRequestType S).extractLsb' 5 2 :=
  (extract_extract S 0 8 5 2 (by omega)).symm
theorem reqRecipient_eq (S : BitVec 64) : reqRecipient S = (bmRequestType S).extractLsb' 0 5 :=
  (extract_extract S 0 8 0 5 (by omega)).symm
theorem descIndex_eq (S : BitVec 64) : descIndex S = (wValue S).extractLsb' 0 8 :=
  (extract_extract S 16 16 0 8 (by omega)).symm
theorem descType_eq (S : BitVec 64) : descType S = (wValue S).extractLsb' 8 8 :=
  (extract_extract S 16 16 8 8 (by omega)).symm

theorem requestType_fields : ∀ (d : BitVec 1) (y : BitVec 2) (c : BitVec 5),
    (requestType d y c).extractLsb' 7 1 = d ∧ (requestType d y c).extractLsb' 5 2 = y
      ∧ (requestType d y c).extractLsb' 0 5 = c := by
  decide

theorem requestType_eta : ∀ t : BitVec 8,
    requestType (t.extractLsb' 7 1) (t.extractLsb' 5 2) (t.extractLsb' 0 5) = t := by
  decide

theorem descValue_fields (y x : BitVec 8) :
    (descValue y x).extractLsb' 0 8 = x ∧ (descValue y x).extractLsb' 8 8 = y := by
  have h : ∀ v : BitVec 16, v = descValue (v.extractLsb' 8 8) (v.extractLsb' 0 8) := by
    intro v
    apply BitVec.eq_of_getLsbD_eq
    intro k hk
    have e : descValue (v.extractLsb' 8 8) (v.extractLsb' 0 8) = v.extractLsb' 8 8 ++ v.extractLsb' 0 8 := rfl
    rw [e]
    simp only [BitVec.getLsbD_append, BitVec.getLsbD_extractLsb']
    split_ifs <;> (rw [decide_eq_true (by omega), Bool.true_and]; congr 1; omega)
  have := h (descValue y x)
  have := append_inj.mp this
  exact ⟨this.2.symm, this.1.symm⟩

theorem descValue_and (y x : BitVec 8) : descValue y x &&& 0xFF00 = descValue y 0 := by
  have : (y ++ x) &&& ((0xFF#8) ++ (0#8)) = (y &&& 0xFF) ++ (x &&& 0) := BitVec.and_append
  have e : (0xFF#8) ++ (0#8) = 0xFF00#16 := by decide
  rw [e] at this
  have y1 : y &&& 0xFF = y := BitVec.and_allOnes
  have x1 : x &&& 0 = 0 := BitVec.and_zero
  rw [y1, x1] at this
  exact this

/-- The row of a packet, from its three matched fields. -/
theorem rowOf_setupWord (t r : BitVec 8) (v i l : BitVec 16) :
    rowOf (setupWord t r v i l) = rowOf (setupWord t r v 0 0) := by
  have : ∀ x ∈ fieldLines, x.hits (setupWord t r v i l) = x.hits (setupWord t r v 0 0) := by
    simp only [fieldLines, List.forall_mem_cons, hits_setupWord, List.not_mem_nil, false_implies, implies_true, and_self]
  simp only [rowOf, setupTable_eq]
  rw [List.find?_congr this]

/-- The descriptor type a masked `wValue` is compared with. -/
theorem descValue_and_beq (y x : BitVec 8) (k : BitVec 8) : (descValue y x &&& 0xFF00 == descValue k 0) = (y == k) := by
  rw [descValue_and, Bool.eq_iff_iff, beq_iff_eq, beq_iff_eq]
  constructor
  · intro h
    exact (append_inj.mp h).1
  · rintro rfl; rfl

/-- The five descriptor rows. -/
theorem rowOf_desc (y x : BitVec 8) (i l : BitVec 16) (h : y ∈ [(0x01 : BitVec 8), 0x02, 0x03, 0x06, 0x07]) :
    rowOf (setupWord 0x80 0x06 (descValue y x) i l) = (if y = 1 then .getDescriptorDevice else if y = 2 then .getDescriptorConfiguration else if y = 3 then .getDescriptorString else if y = 6 then .getDescriptorDeviceQualifier else .getDescriptorOtherSpeed) := by
  have e1 := descValue_and_beq y x 1; have e2 := descValue_and_beq y x 2; have e3 := descValue_and_beq y x 3; have e6 := descValue_and_beq y x 6; have e7 := descValue_and_beq y x 7
  rw [show descValue 1 0 = 0x0100#16 by decide] at e1
  rw [show descValue 2 0 = 0x0200#16 by decide] at e2
  rw [show descValue 3 0 = 0x0300#16 by decide] at e3
  rw [show descValue 6 0 = 0x0600#16 by decide] at e6
  rw [show descValue 7 0 = 0x0700#16 by decide] at e7
  simp only [rowOf, setupTable_eq, fieldLines, List.find?, hits_setupWord]
  simp only [List.mem_cons, List.not_mem_nil, or_false] at h
  simp at e1 e2 e3 e6 e7
  rcases h with rfl | rfl | rfl | rfl | rfl <;> simp_all

/-- The rows that fix type and request. -/
theorem rowOf_fixed (t r : BitVec 8) (v i l : BitVec 16) (row : SrRow)
   (h : (t, r, row) ∈ [((0x80 : BitVec 8), (0 : BitVec 8), SrRow.getStatusDevice), (0x81, 0, .getStatusInterface), (0x82, 0, .getStatusEndpoint), (0, 5, .setAddress), (0x80, 8, .getConfiguration), (0, 9, .setConfiguration), (0x81, 0xA, .getInterface), (1, 0xB, .setInterface)]) :
   rowOf (setupWord t r v i l) = row := by
  simp only [rowOf, setupTable_eq, fieldLines, List.find?, hits_setupWord]
  simp only [List.mem_cons, List.not_mem_nil, or_false, Prod.mk.injEq] at h
  cases row <;> simp at h <;> (obtain ⟨rfl, rfl⟩ := h; simp)

/-- The two halt rows. -/
theorem rowOf_halt (r : BitVec 8) (i l : BitVec 16) (h : r = 1 ∨ r = 3) :
   rowOf (setupWord 2 r 0 i l) = if r = 1 then .clearFeatureEpHalt else .setFeatureEpHalt := by
  simp only [rowOf, setupTable_eq, fieldLines, List.find?, hits_setupWord]
  rcases h with rfl | rfl <;> simp

/-- The catch-all rows of the other types. -/
theorem rowOf_type (d : BitVec 1) (y : BitVec 2) (c : BitVec 5) (r : BitVec 8) (v i l : BitVec 16) (hy : y ≠ 0) :
   rowOf (setupWord (requestType d y c) r v i l) = if y = 1 then .classRequest else if y = 2 then .vendor else .reservedType := by
  simp only [rowOf, setupTable_eq, fieldLines, List.find?, hits_setupWord]
  have : ∀ (d : BitVec 1) (y : BitVec 2) (c : BitVec 5), y ≠ 0 →
     (∀ t ∈ [(0x80 : BitVec 8), 0x81, 0x82, 2, 0, 1], (requestType d y c &&& 0xFF == t) = false) ∧
     ((requestType d y c &&& 0x60 == 0x0) = false) ∧ ((requestType d y c &&& 0x60 == 0x20) = (y == 1)) ∧ ((requestType d y c &&& 0x60 == 0x40) = (y == 2)) ∧ ((requestType d y c &&& 0x60 == 0x60) = (y == 3)) := by decide
  obtain ⟨h1, h2, h3, h4, h5⟩ := this d y c hy
  have a1 := h1 0x80 (by simp); have a2 := h1 0x81 (by simp); have a3 := h1 0x82 (by simp); have a4 := h1 2 (by simp); have a5 := h1 0 (by simp); have a6 := h1 1 (by simp)
  have hy' : y = 1 ∨ y = 2 ∨ y = 3 := (by decide : ∀ y : BitVec 2, y ≠ 0 → y = 1 ∨ y = 2 ∨ y = 3) y hy
  simp only [a1, a2, a3, a4, a5, a6, h2, h3, h4, h5]
  rcases hy' with rfl | rfl | rfl <;> simp

/-- The catch-all row of type STANDARD. -/
theorem rowOf_other (d : BitVec 1) (c : BitVec 5) (r : BitVec 8) (v i l : BitVec 16) (h : servedStandard d c r v = false) :
   rowOf (setupWord (requestType d 0 c) r v i l) = .standardOther := by
  have e60 : ∀ (d : BitVec 1) (c : BitVec 5), (requestType d 0 c &&& 0x60 == 0) = true := by decide
  have ff : ∀ t : BitVec 8, t &&& 0xFF = t := fun t => BitVec.and_allOnes
  have vf : v &&& 0xFFFF = v := BitVec.and_allOnes
  have v0 : v &&& 0 = 0 := BitVec.and_zero
  simp only [rowOf, setupTable_eq, fieldLines, List.find?, hits_setupWord, e60 d c, ff, vf, v0]
  have ht : d ++ (0 : BitVec 2) ++ c = requestType d 0 c := rfl
  simp only [servedStandard, ht, Bool.or_eq_false_iff] at h
  obtain ⟨⟨h1, h2⟩, h3⟩ := h
  generalize requestType d 0 c = t at *
  have hv : ∀ k : BitVec 8, (v &&& 0xFF00 == descValue k 0) = (v.extractLsb' 8 8 == k) := by
    intro k
    have hd : v = descValue (v.extractLsb' 8 8) (v.extractLsb' 0 8) := by
      apply BitVec.eq_of_getLsbD_eq
      intro j hj
      have e : descValue (v.extractLsb' 8 8) (v.extractLsb' 0 8) = v.extractLsb' 8 8 ++ v.extractLsb' 0 8 := rfl
      rw [e]
      simp only [BitVec.getLsbD_append, BitVec.getLsbD_extractLsb']
      split_ifs <;> (rw [decide_eq_true (by omega), Bool.true_and]; congr 1; omega)
    conv_lhs => rw [hd]
    exact descValue_and_beq _ _ _
  have e1 := hv 1; have e2 := hv 2; have e3 := hv 3; have e6 := hv 6; have e7 := hv 7
  rw [show descValue 1 0 = 0x0100#16 by decide] at e1
  rw [show descValue 2 0 = 0x0200#16 by decide] at e2
  rw [show descValue 3 0 = 0x0300#16 by decide] at e3
  rw [show descValue 6 0 = 0x0600#16 by decide] at e6
  rw [show descValue 7 0 = 0x0700#16 by decide] at e7
  simp only [servedTypeRequest, List.contains_eq_mem, List.mem_cons, List.not_mem_nil, or_false, Prod.mk.injEq, decide_eq_false_iff_not, not_or] at h1
  have e1' : (v &&& 0xFF00 == 0x0100) = (v.extractLsb' 8 8 == 1) := e1
  have e2' : (v &&& 0xFF00 == 0x0200) = (v.extractLsb' 8 8 == 2) := e2
  have e3' : (v &&& 0xFF00 == 0x0300) = (v.extractLsb' 8 8 == 3) := e3
  have e6' : (v &&& 0xFF00 == 0x0600) = (v.extractLsb' 8 8 == 6) := e6
  have e7' : (v &&& 0xFF00 == 0x0700) = (v.extractLsb' 8 8 == 7) := e7
  simp only [e1', e2', e3', e6', e7']
  generalize v.extractLsb' 8 8 = z at *
  have k1 : ∀ a b : BitVec 8, ¬ (t = a ∧ r = b) → (t == a && r == b) = false := by
    intro a b hn; simpa using hn
  obtain ⟨q1, q2, q3, q4, q5, q6, q7, q8⟩ := h1
  simp only [k1 _ _ q1, k1 _ _ q2, k1 _ _ q3, k1 _ _ q4, k1 _ _ q5, k1 _ _ q6, k1 _ _ q7, k1 _ _ q8, Bool.false_and]
  have w1 : (t == 2 && r == 1 && v == 0) = false := by
    revert h2; cases t == 2 <;> cases r == 1 <;> cases v == 0 <;> simp
  have w2 : (t == 2 && r == 3 && v == 0) = false := by
    revert h2; cases t == 2 <;> cases r == 3 <;> cases v == 0 <;> simp
  have w3 : ∀ k ∈ [(1 : BitVec 8), 2, 3, 6, 7], (t == 128 && r == 6 && z == k) = false := by
    intro k hk
    by_cases hz : z = k
    · subst hz
      have : ([1, 2, 3, 6, 7] : List (BitVec 8)).contains z = true := by simpa using hk
      rw [this] at h3
      simpa using h3
    · have : (z == k) = false := by simpa using hz
      simp [this]
  simp only [w1, w2, w3 1 (by simp), w3 2 (by simp), w3 3 (by simp), w3 6 (by simp), w3 7 (by simp)]
  simp


end Sys2Proof
end

