-- ==== Sys2Proof/Laws/Invariant.lean ====
section
/-! SUPPORT. The invariant of the channel as it stands between any two operations of the block, and what
every operation keeps of it. -/

namespace Sys2Proof.Machine

/-- What the invariant says of one pipe. -/
structure PipeOk (p : Pipe) (x : PipeState) : Prop where
  retries : x.nrdyCount ≤ 3 ∧ (x.xfer.active = true → x.nrdyCount < 3)
  counts : x.xfer.remaining ≤ x.xfer.total ∧ x.xfer.total < 2 ^ 32 ∧ x.resLen < 2 ^ 32
  position : x.xfer.active = true → x.xfer.pos = x.xfer.buf.toNat
    + (if x.xfer.buf = 0 then 0 else x.xfer.total - x.xfer.remaining)
  range : x.xfer.active = true → (x.xfer.buf ≠ 0 → x.xfer.buf.toNat + x.xfer.total ≤ 2 ^ 32)
    ∧ (x.xfer.dir = .IN → x.xfer.buf = 0 → x.xfer.total = 0)
  direction : x.xfer.active = true → x.cfgValid = true ∧ x.xfer.dir = x.cfg.dir
  lease : x.busy = (if p = 0 then false else x.xfer.active)
  config : p ≠ 0 → x.cfgValid = true → recLegal ⟨p.val, x.cfg⟩ = true

/-- What the invariant says of pipe 0 once `init` has run. -/
def Pipe0Ok (s : State) : Prop := (s.pipe 0).cfgValid = true ∧ (s.pipe 0).cfg.kind = .control ∧ (s.pipe 0).cfg.fifo = .C
    ∧ (s.pipe 0).cfg.bufSize = s.params.mps0.bytes ∧ (s.pipe 0).cfg.mps = s.params.mps0.bytes

/-- What holds between any two operations: the invariant, but for the context, and with the data stage of a
`controlIn` in progress. -/
structure Core (s : State) : Prop where
  params : s.params.Legal
  memory : s.mem.wf = true
  pipes : ∀ p, PipeOk p (s.pipe p)
  control : ((s.pipe 0).xfer.active = true ↔ (s.devState = .controlOut ∨ s.devState = .controlIn)) ∧ (s.pipe 0).nrdyCount = 0
  send : s.devState = .controlIn → (s.pipe 0).xfer.buf = 0 → (s.pipe 0).xfer.total = 0
  connected : s.devState ≠ .disconnected → s.vbusLevel = true
  distinct : endpointsDistinct (cfgInForce s) = true
  owner : ∀ f p, (s.fifo f).owner = some p → (s.fifo f).sel = some p
  boot : s.initialized = false → s.devState = .disconnected ∧ s.firstConnectFired = false ∧ s.configValue = 0
    ∧ s.vbusLevel = false ∧ ∀ p, (s.pipe p).xfer.active = false ∧ (p ≠ 0 → (s.pipe p).cfgValid = false)
  served : s.initialized = true → (∃ d, s.desc = some d ∧ d.device.isSome = true ∧ d.config.isSome = true)
    ∧ s.cb.isSome = true ∧ Pipe0Ok s

theorem inv_iff (s : State) : s.Inv ↔ Core s ∧ s.devState ≠ .controlIn ∧ (s.fatal = false → s.ctx = .task) := by
  constructor
  · intro h
    refine ⟨⟨h.params, h.memory, fun p => ⟨h.retries p, h.counts p, h.position p, h.range p, h.direction p, h.lease p, h.config.1 p⟩,
      ⟨?_, h.control.2⟩, fun e => absurd e h.notControlIn, h.connected, h.config.2, h.owner, h.boot, h.served⟩, h.notControlIn, h.context⟩
    rw [h.control.1]
    simp [h.notControlIn]
  · rintro ⟨h, n, c⟩
    exact ⟨h.params, h.memory, fun p => (h.pipes p).retries, fun p => (h.pipes p).counts, fun p => (h.pipes p).position,
      fun p => (h.pipes p).range, fun p => (h.pipes p).direction, fun p => (h.pipes p).lease,
      ⟨by rw [h.control.1]; simp [n], h.control.2⟩, n, h.connected, ⟨fun p => (h.pipes p).config, h.distinct⟩, h.owner, h.boot, h.served, c⟩

/-- The endpoints in force on the data pipes decide whether they are distinct. -/
theorem endpointsDistinct_congr {a b : Pipe → Option EpCfg} (h : ∀ p, p ≠ 0 → a p = b p) :
    endpointsDistinct a = endpointsDistinct b := by
  have hd : ∀ p ∈ dataPipes, p ≠ 0 := by decide
  have e : ∀ p ∈ dataPipes, ∀ q ∈ dataPipes, sameEndpoint (a p) (a q) = sameEndpoint (b p) (b q) := by
    intro p hp q hq; rw [h p (hd p hp), h q (hd q hq)]
  unfold endpointsDistinct
  rw [Bool.eq_iff_iff]
  simp only [List.all_eq_true]
  constructor
  · intro g p hp q hq; rw [← e p hp q hq]; exact g p hp q hq
  · intro g p hp q hq; rw [e p hp q hq]; exact g p hp q hq

theorem PipeOk.of_same {p : Pipe} {x y : PipeState} (h : PipeOk p x) (e : PipeSame x y) : PipeOk p y := by
  obtain ⟨e1, e2, e3, e4, e5, e6⟩ := e
  refine ⟨?_, ?_, ?_, ?_, ?_, ?_, ?_⟩
  · rw [e1, e3]; exact h.retries
  · rw [e1, e6]; exact h.counts
  · rw [e1]; exact h.position
  · rw [e1]; exact h.range
  · rw [e1, e4, e5]; exact h.direction
  · rw [e1, e2]; exact h.lease
  · rw [e4, e5]; exact h.config

/-- A change of nothing the invariant speaks of. -/
theorem Core.of_calm {s t : State} (h : Core s) (hpar : t.params = s.params) (hmem : t.mem = s.mem) (hdev : t.devState = s.devState)
    (hini : t.initialized = s.initialized) (hfst : t.firstConnectFired = s.firstConnectFired) (hcfg : t.configValue = s.configValue)
    (hvb : t.vbusLevel = s.vbusLevel) (hdesc : t.desc = s.desc) (hcb : t.cb = s.cb) (hpipe : ∀ p, PipeSame (s.pipe p) (t.pipe p))
    (hfifo : ∀ f p, ((s.fifo f).owner = some p → (s.fifo f).sel = some p) → (t.fifo f).owner = some p → (t.fifo f).sel = some p) : Core t := by
  have ex : ∀ p, (t.pipe p).xfer = (s.pipe p).xfer := fun p => (hpipe p).1
  have en : ∀ p, (t.pipe p).nrdyCount = (s.pipe p).nrdyCount := fun p => (hpipe p).2.2.1
  have ev : ∀ p, (t.pipe p).cfgValid = (s.pipe p).cfgValid := fun p => (hpipe p).2.2.2.1
  have ec : ∀ p, (t.pipe p).cfg = (s.pipe p).cfg := fun p => (hpipe p).2.2.2.2.1
  refine ⟨?_, ?_, fun p => (h.pipes p).of_same (hpipe p), ?_, ?_, ?_, ?_, fun f p => hfifo f p (h.owner f p), ?_, ?_⟩
  · rw [hpar]; exact h.params
  · rw [hmem]; exact h.memory
  · rw [ex, en, hdev]; exact h.control
  · rw [ex, hdev]; exact h.send
  · rw [hdev, hvb]; exact h.connected
  · rw [← h.distinct]
    exact endpointsDistinct_congr fun p _ => by simp only [cfgInForce, ev, ec]
  · rw [hini, hdev, hfst, hcfg, hvb]
    intro i
    obtain ⟨a, b, c, d, e⟩ := h.boot i
    exact ⟨a, b, c, d, fun p => by rw [ex, ev]; exact e p⟩
  · rw [hini, hdesc, hcb]
    intro i
    obtain ⟨a, b, c⟩ := h.served i
    refine ⟨a, b, ?_⟩
    unfold Pipe0Ok at *
    rw [ev, ec, hpar]
    exact c

theorem Core.of_quiet {s t : State} (h : Core s) (q : Quiet s t) : Core t :=
  h.of_calm q.frame.params q.mem q.devState q.initialized q.first q.config q.vbus q.desc q.cb q.pipe q.fifo

/-! ### What every operation keeps -/

/-- What an operation keeps; `c` is what it takes to leave DISCONNECTED. -/
structure Keeps (c : Prop) (s t : State) : Prop where
  frame : Frame s t
  init : s.initialized = true → t.initialized = true
  notIn : s.devState ≠ .controlIn → t.devState ≠ .controlIn
  disc : c ∨ (s.devState = .disconnected → t.devState = .disconnected)
  core : Core s → Core t

variable {c : Prop}

theorem Keeps.refl (s : State) : Keeps c s s := ⟨.refl s, id, id, .inr id, id⟩

theorem Keeps.trans {s t u : State} (a : Keeps c s t) (b : Keeps c t u) : Keeps c s u where
  frame := a.frame.trans b.frame
  init := b.init ∘ a.init
  notIn := b.notIn ∘ a.notIn
  disc := by
    rcases a.disc with h | h
    · exact .inl h
    · rcases b.disc with h' | h'
      · exact .inl h'
      · exact .inr (h' ∘ h)
  core := b.core ∘ a.core

theorem Quiet.keeps {s t : State} (q : Quiet s t) : Keeps c s t :=
  ⟨q.frame, fun h => by rw [q.initialized]; exact h, fun h => by rw [q.devState]; exact h,
    .inr fun h => by rw [q.devState]; exact h, fun h => h.of_quiet q⟩

/-- Sequencing. -/
theorem Res.All.then {α β : Type} {r : Res α} {f : α → State → Res β} {s : State} (h : r.All (Keeps c s))
    (hf : ∀ a t, (f a t).All (Keeps c t)) : (r.bind f).All (Keeps c s) :=
  h.bind (fun _ => id) fun a t ht => (hf a t).mono fun _ => ht.trans

/-- A change before an operation. -/
theorem Keeps.then {α : Type} {s t : State} {r : Res α} (h : Keeps c s t) (hr : r.All (Keeps c t)) : r.All (Keeps c s) :=
  hr.mono fun _ => h.trans

/-- An update of everything but the channel's identity: what it must establish. -/
theorem Core.update {s t : State} (h : Core s) (hpar : t.params = s.params) (hmem : t.mem.wf = true)
    (hp : ∀ p, PipeOk p (t.pipe p)) (hcfg : ∀ p, p ≠ 0 → (t.pipe p).cfgValid = (s.pipe p).cfgValid ∧ (t.pipe p).cfg = (s.pipe p).cfg)
    (h0 : (t.pipe 0).cfgValid = (s.pipe 0).cfgValid ∧ ∃ d, (t.pipe 0).cfg = { (s.pipe 0).cfg with dir := d })
    (hctl : ((t.pipe 0).xfer.active = true ↔ (t.devState = .controlOut ∨ t.devState = .controlIn)) ∧ (t.pipe 0).nrdyCount = 0)
    (hsend : t.devState = .controlIn → (t.pipe 0).xfer.buf = 0 → (t.pipe 0).xfer.total = 0)
    (hconn : t.devState ≠ .disconnected → t.vbusLevel = true)
    (hfifo : ∀ f, (t.fifo f).owner = (s.fifo f).owner ∧ (t.fifo f).sel = (s.fifo f).sel)
    (hinit : t.initialized = s.initialized) (hdesc : t.desc = s.desc) (hcb : t.cb = s.cb)
    (hboot : s.initialized = false → t.devState = .disconnected ∧ t.firstConnectFired = false ∧ t.configValue = 0
      ∧ t.vbusLevel = false ∧ ∀ p, (t.pipe p).xfer.active = false) : Core t := by
  refine ⟨by rw [hpar]; exact h.params, hmem, hp, hctl, hsend, hconn, ?_, ?_, ?_, ?_⟩
  · rw [← h.distinct]
    exact endpointsDistinct_congr fun p n => by simp only [cfgInForce, (hcfg p n).1, (hcfg p n).2]
  · intro f p
    rw [(hfifo f).1, (hfifo f).2]
    exact h.owner f p
  · intro i
    obtain ⟨a, b, c', d, e⟩ := hboot (by rw [← hinit]; exact i)
    obtain ⟨_, _, _, _, e'⟩ := h.boot (by rw [← hinit]; exact i)
    refine ⟨a, b, c', d, fun p => ⟨e p, fun n => ?_⟩⟩
    rw [(hcfg p n).1]
    exact (e' p).2 n
  · rw [hinit, hdesc, hcb]
    intro i
    obtain ⟨a, b, c'⟩ := h.served i
    refine ⟨a, b, ?_⟩
    obtain ⟨e, d, e'⟩ := h0
    unfold Pipe0Ok at *
    rw [e, e', hpar]
    exact c'

/-- An update of one data pipe. -/
theorem Core.modData {s : State} (h : Core s) {p : Pipe} (n : p ≠ 0) (g : PipeState → PipeState)
    (hp : PipeOk p (g (s.pipe p))) (hcfg : (g (s.pipe p)).cfgValid = (s.pipe p).cfgValid ∧ (g (s.pipe p)).cfg = (s.pipe p).cfg)
    (ha : (g (s.pipe p)).xfer.active = true → (s.pipe p).xfer.active = true ∨ s.initialized = true) : Core (s.modPipe p g) := by
  have e0 : (s.modPipe p g).pipe 0 = s.pipe 0 := State.pipe_modPipe_ne s g n
  refine h.update rfl h.memory (fun q => ?_) (fun q hq => ?_) ⟨by rw [e0], (s.pipe 0).cfg.dir, by rw [e0]⟩ (by rw [e0]; exact h.control)
    (by rw [e0]; exact h.send) h.connected (fun f => by simp) rfl rfl rfl (fun i => ?_)
  · rw [State.pipe_modPipe]
    split
    · rename_i e; subst e; exact hp
    · exact h.pipes q
  · rw [State.pipe_modPipe]
    split
    · rename_i e; subst e; exact hcfg
    · exact ⟨rfl, rfl⟩
  · obtain ⟨a, b, c', d, e⟩ := h.boot i
    refine ⟨a, b, c', d, fun q => ?_⟩
    rw [State.pipe_modPipe]
    split
    · rename_i e''
      subst e''
      by_contra hc
      rcases ha (by simpa using hc) with h' | h'
      · rw [(e p).1] at h'; cases h'
      · rw [i] at h'; cases h'
    · exact (e q).1

/-- An update of pipe 0 with a change of sub-state. -/
theorem Core.modZero {s : State} (h : Core s) (i : s.initialized = true) (v : s.vbusLevel = true) (d : DevState) (g : PipeState → PipeState)
    (hp : PipeOk 0 (g (s.pipe 0)))
    (hcfg : (g (s.pipe 0)).cfgValid = (s.pipe 0).cfgValid ∧ ∃ d', (g (s.pipe 0)).cfg = { (s.pipe 0).cfg with dir := d' })
    (hctl : ((g (s.pipe 0)).xfer.active = true ↔ (d = .controlOut ∨ d = .controlIn)) ∧ (g (s.pipe 0)).nrdyCount = 0)
    (hsend : d = .controlIn → (g (s.pipe 0)).xfer.buf = 0 → (g (s.pipe 0)).xfer.total = 0) :
    Core (setDevState d (s.modPipe 0 g)) := by
  have e0 : (setDevState d (s.modPipe 0 g)).pipe 0 = g (s.pipe 0) := State.pipe_modPipe_self s 0 g
  have en : ∀ q, q ≠ 0 → (setDevState d (s.modPipe 0 g)).pipe q = s.pipe q := fun q hq => State.pipe_modPipe_ne s g (Ne.symm hq)
  refine h.update rfl h.memory (fun q => ?_) (fun q hq => ?_) (by rw [e0]; exact hcfg) (by rw [e0]; exact hctl)
    (by rw [e0]; exact hsend) (fun _ => v) (fun f => by cases f <;> exact ⟨rfl, rfl⟩) rfl rfl rfl (fun i' => by rw [i] at i'; cases i')
  · by_cases e : q = 0
    · subst e; rw [e0]; exact hp
    · rw [en q e]; exact h.pipes q
  · rw [en q hq]; exact ⟨rfl, rfl⟩

/-! ### The commands -/

theorem pipeOf_ne {s : State} (h : s.params.Legal) {cls : PipeClass} (n : cls ≠ .control) : pipeOf cls s ≠ 0 := by
  obtain ⟨a, _, b, _⟩ := h
  cases cls with
  | control => exact absurd rfl n
  | bulkIn => exact (by decide : Config.pipeBulkIn ≠ 0)
  | bulkOut => exact a
  | intIn => exact b

theorem keeps_start (cls : PipeClass) (n : cls ≠ .control) (d : Dir) (len : Len) (buf : Addr) (k : Option CbId) (s : State) :
    Keeps c s (start (pipeOf cls s) d len buf k s).2 := by
  unfold start
  cases he : startError (pipeOf cls s) d len buf s with
  | some e => exact .refl s
  | none =>
    generalize hp : pipeOf cls s = p at he
    have q : ∀ t, Quiet t (setPidBuf p (writeNrdyEnb p true (writeBrdyEnb p true (writeBempEnb p false t)))) := fun t =>
      (quiet_writeBempEnb p false t).trans <| (quiet_writeBrdyEnb p true _).trans <| (quiet_writeNrdyEnb p true _).trans (quiet_setPidBuf p _)
    refine Keeps.trans (t := s.modPipe p fun x =>
      { x with xfer := newXfer d buf len.toNat k, nrdyCount := 0, busy := true, pstate := .waiting }) ?_ (q _).keeps
    refine ⟨Frame.modPipe s p _ fun _ => ⟨rfl, rfl, rfl⟩, id, id, .inr id, fun h => ?_⟩
    have hn : p ≠ 0 := hp ▸ pipeOf_ne h.params n
    simp only [startError] at he
    split at he
    · cases he
    split at he
    · cases he
    split at he
    · cases he
    split at he
    · cases he
    split at he
    · cases he
    rename_i h1 h2 h3 h4 h5
    have hi : s.initialized = true := by simpa using h1
    obtain ⟨hv, hdir⟩ : (s.pipe p).cfgValid = true ∧ (s.pipe p).cfg.dir = d := by simpa using h3
    refine h.modData hn _ ?_ ⟨rfl, rfl⟩ fun _ => .inr hi
    have hx := h.pipes p
    refine ⟨⟨by simp, by simp⟩, ⟨Nat.le_refl _, len.isLt, hx.counts.2.2⟩, fun _ => ?_, fun _ => ⟨fun hb => ?_, fun hd hb => ?_⟩,
      fun _ => ⟨hv, hdir.symm⟩, by simp [hn, newXfer], hx.config⟩
    · simp [newXfer]
    · exact bufferWraps_bound h5 hb
    · show len.toNat = 0
      by_contra hc
      refine h4 ⟨hd, hb, fun e => hc ?_⟩
      rw [e]; rfl

theorem quiet_ackStatus_pre (s : State) : Quiet s (ctrlComplete (setPidBuf 0 s)) :=
  (quiet_setPidBuf 0 s).trans (quiet_ctrlComplete _)

/-- Entering READY, with no control transfer. -/
theorem keeps_ready {s : State} (a : (s.pipe 0).xfer.active = false) (d : c ∨ s.devState ≠ .disconnected) (v : Core s → s.vbusLevel = true) :
    Keeps c s (setDevState .ready s) := by
  refine ⟨Frame.setDevState _ s, id, fun _ => by simp [setDevState], d.imp id fun n e => absurd e n, fun h => ?_⟩
  refine h.update rfl h.memory h.pipes (fun _ _ => ⟨rfl, rfl⟩) ⟨rfl, (s.pipe 0).cfg.dir, rfl⟩ ⟨?_, h.control.2⟩ (fun e => by cases e)
    (fun _ => v h) (fun f => by cases f <;> exact ⟨rfl, rfl⟩) rfl rfl rfl (fun i => ?_)
  · have a' : ((setDevState .ready s).pipe 0).xfer.active = false := a
    rw [a']; simp [setDevState]
  · have := (h.boot i).2.2.2.1
    rw [v h] at this; cases this

/-- Entering READY from CONTROL_SETUP. -/
theorem keeps_ready' {s : State} (n : s.devState ≠ .disconnected) (k : ¬ (s.devState = .controlOut ∨ s.devState = .controlIn)) :
    Keeps c s (setDevState .ready s) :=
  ⟨Frame.setDevState _ s, id, fun _ => by simp [setDevState], .inr fun e => absurd e n, fun h =>
    (keeps_ready (c := True) (by rw [Bool.eq_false_iff, Ne, h.control.1]; exact k) (.inl trivial) fun h => h.connected n).core h⟩

theorem keeps_controlAck (s : State) : Keeps c s (controlAck s).2 := by
  unfold controlAck
  split
  · rename_i hl
    simp only [controlLegal, Bool.and_eq_true, beq_iff_eq] at hl
    have q := quiet_ackStatus_pre s
    have hd := q.devState.trans hl.2
    refine q.keeps.trans (keeps_ready' (by rw [hd]; decide) (by rw [hd]; simp))
  · exact .refl s

theorem keeps_controlOut (len : Len) (buf : Addr) (k : Option CbId) (s : State) : Keeps c s (controlOut len buf k s).2 := by
  unfold controlOut
  split
  · exact .refl s
  split
  · exact .refl s
  split
  · exact .refl s
  rename_i hl _ hw
  have hl : s.initialized = true ∧ s.devState = .controlSetup := by simpa [controlLegal] using hl
  refine Keeps.trans (t := setDevState .controlOut (s.modPipe 0 fun x =>
    { x with cfg := { x.cfg with dir := .OUT }, xfer := newXfer .OUT buf len.toNat k })) ?_
    ((quiet_writeBrdyEnb 0 true _).trans (quiet_setPidBuf 0 _)).keeps
  refine ⟨(Frame.modPipe s 0 (fun x => { x with cfg := { x.cfg with dir := .OUT }, xfer := newXfer .OUT buf len.toNat k })
    fun _ => ⟨rfl, rfl, rfl⟩).trans (Frame.setDevState _ _), id, fun _ => by simp [setDevState], .inr fun e => ?_, fun h => ?_⟩
  · rw [hl.2] at e; cases e
  have hx := h.pipes 0
  refine h.modZero hl.1 (h.connected (by rw [hl.2]; decide)) _ _ ⟨?_, ⟨Nat.le_refl _, len.isLt, hx.counts.2.2⟩, fun _ => by simp [newXfer],
    fun _ => ⟨fun hb => bufferWraps_bound hw hb, nofun⟩, fun _ => ⟨(h.served hl.1).2.2.1, rfl⟩, ?_, fun n => absurd rfl n⟩ ⟨rfl, _, rfl⟩
    ⟨?_, h.control.2⟩ nofun
  · exact ⟨hx.retries.1, fun _ => by show (s.pipe 0).nrdyCount < 3; rw [h.control.2]; decide⟩
  · have := hx.lease; simpa using this
  · simp [newXfer]

/-- A control transfer dropped: pipe 0 idle, READY. -/
theorem keeps_drop {s : State} (i : s.initialized = true) (n : s.devState ≠ .disconnected) (g : PipeState → PipeState)
    (hs : ∀ x, StsSame x (g x)) (hx : ∀ x, (g x).xfer.active = false ∧ (g x).xfer.remaining = x.xfer.remaining ∧ (g x).xfer.total = x.xfer.total
      ∧ (g x).nrdyCount = x.nrdyCount ∧ ((g x).resLen = x.resLen ∨ (g x).resLen = x.xfer.total - x.xfer.remaining)
      ∧ ((g x).busy = x.busy ∨ (g x).busy = false) ∧ (g x).cfgValid = x.cfgValid ∧ (g x).cfg = x.cfg) (d : DevState)
      (hd : d = .ready ∨ d = .controlSetup) :
    Keeps c s (setDevState d (s.modPipe 0 g)) := by
  refine ⟨(Frame.modPipe s 0 g hs).trans (Frame.setDevState _ _), id, fun _ => by rcases hd with e | e <;> simp [setDevState, e],
    .inr fun e => absurd e n, fun h => ?_⟩
  obtain ⟨a, r, t, m, l, b, v, cf⟩ := hx (s.pipe 0)
  have ho := h.pipes 0
  refine h.modZero i (h.connected n) d g ⟨by rw [m, a]; exact ⟨ho.retries.1, nofun⟩, ?_, by rw [a]; exact nofun, by rw [a]; exact nofun,
    by rw [a]; exact nofun, ?_, fun n => absurd rfl n⟩ ⟨v, (s.pipe 0).cfg.dir, cf⟩ ⟨?_, by rw [m]; exact h.control.2⟩ (fun e => by rcases hd with e' | e' <;> rw [e'] at e <;> cases e)
  · rw [r, t]
    refine ⟨ho.counts.1, ho.counts.2.1, ?_⟩
    rcases l with l | l <;> rw [l]
    · exact ho.counts.2.2
    · have := ho.counts.2.1; omega
  · have hb := ho.lease
    rcases b with b | b <;> rw [b]
    · simpa using hb
    · rfl
  · rw [a]
    rcases hd with e | e <;> simp [e]

theorem keeps_stallClass (cls : PipeClass) (s : State) : Keeps c s (stallClass cls s).2 := by
  unfold stallClass
  split
  · exact .refl s
  · rename_i hi
    have hi : s.initialized = true := by simpa using hi
    dsimp only
    have q := quiet_setPidStall (pipeOf cls s) s
    split
    · rename_i hc
      refine q.keeps.trans ?_
      have e : setDevState .ready (writeBrdyEnb 0 false (deactivate 0 (setPidStall (pipeOf cls s) s))) =
        writeBrdyEnb 0 false (setDevState .ready (deactivate 0 (setPidStall (pipeOf cls s) s))) := rfl
      rw [e]
      refine Keeps.trans ?_ (quiet_writeBrdyEnb 0 false _).keeps
      refine keeps_drop (s := setPidStall (pipeOf cls s) s) hi (fun e => ?_) (fun x => { x with xfer := { x.xfer with active := false } }) (fun _ => ⟨rfl, rfl, rfl⟩) (fun _ => ⟨rfl, rfl, rfl, rfl, .inl rfl, .inl rfl, rfl, rfl⟩) _ (.inl rfl)
      have := hc.2
      rw [e] at this; cases this
    · exact q.keeps

/-! ### Reset, cancel -/

/-- What a reset starts from. -/
structure Base (s : State) : Prop where
  params : s.params.Legal
  memory : s.mem.wf = true
  counts : ∀ p, (s.pipe p).xfer.remaining ≤ (s.pipe p).xfer.total ∧ (s.pipe p).xfer.total < 2 ^ 32 ∧ (s.pipe p).resLen < 2 ^ 32
  config : ∀ p, p ≠ 0 → (s.pipe p).cfgValid = true → recLegal ⟨p.val, (s.pipe p).cfg⟩ = true
  distinct : endpointsDistinct (cfgInForce s) = true
  owner : ∀ f p, (s.fifo f).owner = some p → (s.fifo f).sel = some p
  initialized : s.initialized = true
  served : (∃ d, s.desc = some d ∧ d.device.isSome = true ∧ d.config.isSome = true) ∧ s.cb.isSome = true ∧ Pipe0Ok s

theorem Core.base {s : State} (h : Core s) (i : s.initialized = true) : Base s :=
  ⟨h.params, h.memory, fun p => (h.pipes p).counts, fun p => (h.pipes p).config, h.distinct, h.owner, i, h.served i⟩

theorem resetEffect_eq (s : State) : resetEffect s = setDevState (if s.devState.isControl then .ready else s.devState)
    (({ s.modAllPipes resetPipe with enb := ⟨true, true, true, true, true, true, true⟩ } : State).logs resetTrace) := by
  unfold resetEffect
  dsimp only
  split <;> rename_i h
  · have h : s.devState.isControl = true := h
    rw [h]; rfl
  · have h : ¬ s.devState.isControl = true := h
    rw [if_neg h]; rfl

@[simp] theorem resetEffect_pipe (s : State) (p : Pipe) : (resetEffect s).pipe p = resetPipe (s.pipe p) := by
  rw [resetEffect_eq]
  exact State.pipe_modAllPipes s p resetPipe
theorem resetEffect_devState (s : State) : (resetEffect s).devState = if s.devState.isControl then .ready else s.devState := by
  rw [resetEffect_eq]; rfl
theorem resetEffect_notControl (s : State) : (resetEffect s).devState.isControl = false := by
  rw [resetEffect_devState]
  split
  · rfl
  · rename_i h; exact Bool.eq_false_iff.mpr h

theorem resetEffect_initialized (s : State) : (resetEffect s).initialized = s.initialized := by rw [resetEffect_eq]; rfl

theorem Base.resetTo {s : State} (b : Base s) (d : DevState) (hd : d.isControl = false) (v : d ≠ .disconnected → s.vbusLevel = true) :
    Core (setDevState d (resetEffect s)) := by
  have e := resetEffect_eq s
  have hf : ∀ f, (setDevState d (resetEffect s)).fifo f = s.fifo f := fun f => by rw [e]; cases f <;> rfl
  have hi : (setDevState d (resetEffect s)).initialized = true := (resetEffect_initialized s).trans b.initialized
  have hx : ∀ p, (setDevState d (resetEffect s)).pipe p = resetPipe (s.pipe p) := resetEffect_pipe s
  have hm : (setDevState d (resetEffect s)).mem = s.mem := by rw [e]; rfl
  have hp : (setDevState d (resetEffect s)).params = s.params := by rw [e]; rfl
  refine ⟨hp ▸ b.params, hm ▸ b.memory, fun p => ?_, ?_, fun h => ?_, fun n => ?_, ?_, fun f p => ?_,
    fun i => ?_, fun _ => ?_⟩
  · rw [hx]
    refine ⟨⟨Nat.zero_le _, nofun⟩, b.counts p, nofun, nofun, nofun, ?_, b.config p⟩
    show false = _
    split <;> rfl
  · rw [hx]
    refine ⟨⟨nofun, fun h => ?_⟩, rfl⟩
    rcases h with h | h <;> rw [show d = _ from h] at hd <;> cases hd
  · rw [show d = _ from h] at hd; cases hd
  · rw [show (setDevState d (resetEffect s)).vbusLevel = s.vbusLevel by rw [e]; rfl]
    exact v n
  · rw [← b.distinct]
    exact endpointsDistinct_congr fun p _ => by simp [cfgInForce, hx, resetPipe]
  · rw [hf]; exact b.owner f p
  · rw [hi] at i; cases i
  · have hk : (setDevState d (resetEffect s)).desc = s.desc ∧ (setDevState d (resetEffect s)).cb = s.cb := by rw [e]; exact ⟨rfl, rfl⟩
    rw [hk.1, hk.2]
    refine ⟨b.served.1, b.served.2.1, ?_⟩
    unfold Pipe0Ok
    rw [hx, hp]
    exact b.served.2.2

theorem Base.reset {s : State} (b : Base s) (v : s.devState ≠ .disconnected → s.vbusLevel = true) : Core (resetEffect s) := by
  refine b.resetTo (resetEffect s).devState (resetEffect_notControl s) fun n => v fun hd => ?_
  rw [resetEffect_devState, hd] at n
  exact n rfl

theorem keeps_resetEffect {s : State} (i : s.initialized = true) : Keeps c s (resetEffect s) := by
  refine ⟨frame_resetEffect s, fun _ => (resetEffect_initialized _).trans i, fun n e => ?_, .inr fun e => ?_, fun h => (h.base i).reset h.connected⟩
  · have := resetEffect_notControl s
    rw [e] at this; cases this
  · rw [resetEffect_devState, e]; rfl

theorem keeps_blockReset (s : State) : Keeps c s (blockReset s).2 := by
  unfold blockReset
  split
  · rename_i i; exact keeps_resetEffect i
  · exact .refl s

theorem cancel_core (s : State) (p : Pipe) : ((s.modAllPipes cancelPipe).pipe p).xfer = (s.pipe p).xfer
    ∧ ((s.modAllPipes cancelPipe).pipe p).cfg = (s.pipe p).cfg ∧ ((s.modAllPipes cancelPipe).pipe p).cfgValid = (s.pipe p).cfgValid
    ∧ (((s.modAllPipes cancelPipe).pipe p).resLen = (s.pipe p).resLen ∨ ((s.modAllPipes cancelPipe).pipe p).resLen = 0) := by
  rw [State.pipe_modAllPipes]
  unfold cancelPipe
  split
  · exact ⟨rfl, rfl, rfl, .inr rfl⟩
  · exact ⟨rfl, rfl, rfl, .inl rfl⟩

theorem Base.cancel {s : State} (b : Base s) : Base (s.modAllPipes cancelPipe) := by
  refine ⟨b.params, b.memory, fun p => ?_, fun p n => ?_, ?_, fun f p => by simpa using b.owner f p, b.initialized,
    ⟨b.served.1, b.served.2.1, ?_⟩⟩
  · obtain ⟨e, _, _, l⟩ := cancel_core s p
    rw [e]
    refine ⟨(b.counts p).1, (b.counts p).2.1, ?_⟩
    rcases l with l | l <;> rw [l]
    · exact (b.counts p).2.2
    · decide
  · obtain ⟨_, e, v, _⟩ := cancel_core s p
    rw [e, v]; exact b.config p n
  · rw [← b.distinct]
    exact endpointsDistinct_congr fun p _ => by simp only [cfgInForce, (cancel_core s p).2.1, (cancel_core s p).2.2.1]
  · obtain ⟨_, e, v, _⟩ := cancel_core s 0
    unfold Pipe0Ok
    rw [e, v]; exact b.served.2.2

theorem keeps_blockCancel (s : State) : Keeps c s (blockCancel s).2 := by
  unfold blockCancel
  split
  · rename_i i
    have e : (blockReset (s.modAllPipes cancelPipe)).2 = resetEffect (s.modAllPipes cancelPipe) := by
      unfold blockReset; rw [if_pos (show (s.modAllPipes cancelPipe).initialized = true from i)]
    rw [e]
    refine ⟨(frame_cancel s).trans (frame_resetEffect _), fun _ => (resetEffect_initialized _).trans i, fun n e => ?_, .inr fun e => ?_,
      fun h => (h.base i).cancel.reset h.connected⟩
    · have := resetEffect_notControl (s.modAllPipes cancelPipe)
      rw [e] at this; cases this
    · rw [resetEffect_devState, show (s.modAllPipes cancelPipe).devState = s.devState from rfl, e]; rfl
  · exact .refl s

/-! ### Configuration tables -/

theorem keeps_resetEndpoints (t : List CfgRec) (s : State) : Keeps c s (resetEndpoints t s).2 := by
  unfold resetEndpoints
  split
  · exact .refl s
  split
  · exact .refl s
  split
  · exact .refl s
  rename_i hi hl hb
  have hi : s.initialized = true := by simpa using hi
  have hl : tableLegal t s = true := by simpa using hl
  have hlt := (legal_iff t s).mp hl
  have h9 : ∀ r ∈ t, r.pipe ≤ 9 := fun r hr => (hlt.1 r hr).2.1
  obtain ⟨e1, e2, e3⟩ := programTable_spec t s h9 hlt.2.1
  have hdev : (programTable t s).devState = s.devState := by rw [e3]
  have hin : (programTable t s).initialized = s.initialized := by rw [e3]
  refine ⟨frame_programTable t s, fun i => by rw [hin]; exact i, fun n => by rw [hdev]; exact n, .inr fun d => by rw [hdev]; exact d, fun h => ?_⟩
  have h0 : (programTable t s).pipe 0 = s.pipe 0 := e2 0 fun r hr e => by
    have := (hlt.1 r hr).1
    have : (0 : Pipe).val = 0 := rfl
    omega
  have hfind : ∀ p : Pipe, p ≠ 0 → cfgInForce (programTable t s) p = cfgAfter t s p := by
    intro p _
    unfold cfgAfter
    cases hf : t.find? (fun r => r.pipe == p.val) with
    | none =>
      have := e2 p fun r hr e => by
        have := List.find?_eq_none.mp hf r hr
        simp [e] at this
      simp only [cfgInForce, this]
    | some r =>
      have hr := List.mem_of_find?_eq_some hf
      have hp := List.find?_some hf
      have := e1 r hr p (by simpa using (beq_iff_eq.mp hp).symm)
      simp [cfgInForce, this, programmed]
  refine ⟨by rw [e3]; exact h.params, by rw [e3]; exact h.memory, fun p => ?_, ?_, ?_, ?_, ?_, fun f p => ?_, ?_, ?_⟩
  · by_cases hm : ∃ r ∈ t, p.val = r.pipe
    · obtain ⟨r, hr, hp⟩ := hm
      rw [e1 r hr p hp]
      have hx := h.pipes p
      have hp0 : p ≠ 0 := by
        rintro rfl
        have := (hlt.1 r hr).1
        have : (0 : Pipe).val = 0 := rfl
        omega
      have ha : (s.pipe p).xfer.active = false := by
        have hl := hx.lease
        rw [if_neg hp0] at hl
        rw [← hl, Bool.eq_false_iff]
        intro hbp
        exact hb ((busy_iff t s h9).mpr ⟨r, hr, p, hp, hbp⟩)
      refine ⟨⟨Nat.zero_le _, fun a => ?_⟩, hx.counts, hx.position, hx.range, fun a => ?_, hx.lease, fun _ _ => ?_⟩
      · show 0 < 3; decide
      · rw [show (programmed r.ep (s.pipe p)).xfer = (s.pipe p).xfer from rfl, ha] at a; cases a
      · have : t.all recLegal = true := by
          simp only [tableLegal, Bool.and_eq_true] at hl
          exact hl.1.1
        have := List.all_eq_true.mp this r hr
        rw [hp]; exact this
    · rw [e2 p fun r hr e => hm ⟨r, hr, e⟩]; exact h.pipes p
  · rw [h0, hdev]; exact h.control
  · rw [h0, hdev]; exact h.send
  · rw [hdev, show (programTable t s).vbusLevel = s.vbusLevel by rw [e3]]; exact h.connected
  · rw [endpointsDistinct_congr hfind]
    simp only [tableLegal, Bool.and_eq_true] at hl
    exact hl.2
  · have : (programTable t s).fifo f = s.fifo f := by rw [e3]; cases f <;> rfl
    rw [this]; exact h.owner f p
  · intro i; rw [hin, hi] at i; cases i
  · rw [hin]
    intro i
    obtain ⟨a, b, d⟩ := h.served i
    refine ⟨by rw [e3]; exact a, by rw [e3]; exact b, ?_⟩
    unfold Pipe0Ok
    rw [h0, show (programTable t s).params = s.params by rw [e3]]
    exact d

/-! ### VBUS and `init` -/

theorem keeps_bindAdmin (s : State) : (bindAdmin s).All (Keeps c s) := (quiet_bindAdmin s).mono fun _ q => q.keeps
theorem keeps_attach (s : State) : (attach s).All (Keeps c s) := (keeps_blockReset s).then (keeps_bindAdmin _)
theorem keeps_vbusHigh {s : State} (i : s.initialized = true) : Keeps c s { s with vbusLevel := true } := by
  refine ⟨.of_eq rfl rfl rfl rfl rfl rfl, id, id, .inr id, fun h => ?_⟩
  exact h.update rfl h.memory h.pipes (fun _ _ => ⟨rfl, rfl⟩) ⟨rfl, (s.pipe 0).cfg.dir, rfl⟩ h.control h.send (fun _ => rfl)
    (fun f => by cases f <;> exact ⟨rfl, rfl⟩) rfl rfl rfl (fun i' => by rw [i] at i'; cases i')

theorem keeps_initVbus {s : State} (i : s.initialized = true) : (initVbus s).All (Keeps c s) := by
  have h := quiet_debounce s
  unfold initVbus
  split <;> rename_i t e <;> rw [e] at h
  · have h' : t.initialized = true := by rw [h.initialized]; exact i
    exact (h.keeps.trans (keeps_vbusHigh h')).then ((keeps_attach _).then fun _ u => Keeps.refl u)
  · exact h.keeps

theorem frame_initChannel (d : DescSet) (k : Callbacks) (s : State) : Frame s (initChannel d k s) := by
  have h : Frame (s.modPipe 0 fun x => { x with cfgValid := true, cfg := cfg0Of s.params x.cfg }) (initChannel d k s) := .of_eq rfl rfl rfl rfl rfl rfl
  exact (Frame.modPipe s 0 (fun x => { x with cfgValid := true, cfg := cfg0Of s.params x.cfg }) fun _ => ⟨rfl, rfl, rfl⟩).trans h

theorem base_initChannel {s : State} (h : Core s) {d : DescSet} {k : Callbacks} (hd : d.device.isSome = true ∧ d.config.isSome = true) :
    Base (initChannel d k s) := by
  have e0 : (initChannel d k s).pipe 0 = { s.pipe 0 with cfgValid := true, cfg := cfg0Of s.params (s.pipe 0).cfg } :=
    State.pipe_modPipe_self s 0 fun x => { x with cfgValid := true, cfg := cfg0Of s.params x.cfg }
  have en : ∀ p, p ≠ 0 → (initChannel d k s).pipe p = s.pipe p := fun p n =>
    State.pipe_modPipe_ne s (fun x => { x with cfgValid := true, cfg := cfg0Of s.params x.cfg }) (Ne.symm n)
  refine ⟨h.params, h.memory, fun p => ?_, fun p n => ?_, ?_, fun f p => ?_, rfl, ⟨⟨d, rfl, hd⟩, rfl, ?_⟩⟩
  · by_cases n : p = 0
    · subst n; rw [e0]; exact (h.pipes 0).counts
    · rw [en p n]; exact (h.pipes p).counts
  · rw [en p n]; exact (h.pipes p).config n
  · rw [← h.distinct]
    exact endpointsDistinct_congr fun p n => by simp only [cfgInForce, en p n]
  · have : (initChannel d k s).fifo f = s.fifo f := by cases f <;> rfl
    rw [this]; exact h.owner f p
  · unfold Pipe0Ok
    rw [e0]
    exact ⟨rfl, rfl, rfl, rfl, rfl⟩

theorem keeps_blockInit (d : DescSet) (k : Callbacks) (s : State) : (blockInit d k s).All (Keeps c s) := by
  unfold blockInit
  split
  · exact Keeps.refl s
  · rename_i hd
    have hd : d.device.isSome = true ∧ d.config.isSome = true := by
      simpa [Option.isSome_iff_ne_none] using hd
    have e : (blockReset (initChannel d k s)).2 = resetEffect (initChannel d k s) := rfl
    rw [e]
    have hr : Keeps c s (resetEffect (initChannel d k s)) := by
      refine ⟨(frame_initChannel d k s).trans (frame_resetEffect _), fun _ => by rw [resetEffect_eq]; rfl, fun _ e => ?_, .inr fun _ => ?_,
        fun h => (base_initChannel h hd).reset fun n => absurd rfl n⟩
      · have := resetEffect_notControl (initChannel d k s)
        rw [e] at this; cases this
      · rw [resetEffect_devState]; rfl
    have hi : (resetEffect (initChannel d k s)).initialized = true := by rw [resetEffect_eq]; rfl
    refine hr.then ((keeps_bindAdmin (c := c) _).bind (fun _ => id) fun _ t ht => ?_)
    exact (keeps_initVbus (ht.init hi)).mono fun _ => ht.trans

end Sys2Proof.Machine
end

