-- ==== Sys2Proof/Laws/Operations.lean ====
section
/-! SUPPORT. What the accesses, `controlIn`, the callbacks, the dispatcher, the setup core and the handlers of a
pass keep of the invariant. -/

namespace Sys2Proof.Machine
variable {c : Prop}

/-! ### Operations that stay in the sub-state -/

/-- An operation that keeps what holds and stays in the sub-state. -/
structure Stays (s t : State) : Prop where
  frame : Frame s t
  initialized : t.initialized = s.initialized
  devState : t.devState = s.devState
  core : Core s → Core t

theorem Stays.trans {s t u : State} (a : Stays s t) (b : Stays t u) : Stays s u :=
  ⟨a.frame.trans b.frame, b.initialized.trans a.initialized, b.devState.trans a.devState, b.core ∘ a.core⟩
theorem Quiet.stays {s t : State} (q : Quiet s t) : Stays s t := ⟨q.frame, q.initialized, q.devState, fun h => h.of_quiet q⟩
theorem Stays.keeps {s t : State} (a : Stays s t) : Keeps c s t :=
  ⟨a.frame, fun i => a.initialized.trans i, fun n => by rw [a.devState]; exact n, .inr fun d => a.devState.trans d, a.core⟩

theorem stays_withMem {s : State} {m : Memory} (w : Core s → m.wf = true) : Stays s (s.withMem m) := by
  refine ⟨.of_eq rfl rfl rfl rfl rfl rfl, rfl, rfl, fun h => ?_⟩
  exact h.update rfl (w h) h.pipes (fun _ _ => ⟨rfl, rfl⟩) ⟨rfl, (s.pipe 0).cfg.dir, rfl⟩ h.control h.send h.connected
    (fun f => by cases f <;> exact ⟨rfl, rfl⟩) rfl rfl rfl fun i => by
      obtain ⟨d, f, v, l, off⟩ := h.boot i
      exact ⟨d, f, v, l, fun p => (off p).1⟩

/-- The bookkeeping of an access. -/
theorem Core.moved {p : Pipe} {n : Nat} {b : Bool} {s : State} (h : Core s) (hn : n ≤ (s.pipe p).xfer.remaining)
    (hb : (s.pipe p).xfer.buf ≠ 0 → b = true)
    (hz : (s.pipe p).xfer.active = true → (s.pipe p).xfer.buf = 0 → b = false ∨ n = 0) : Core (advance p n b s) := by
  have hp : ∀ q, (advance p n b s).pipe q = if p = q then
      { s.pipe p with xfer := { (s.pipe p).xfer with
        pos := if b then (s.pipe p).xfer.pos + n else (s.pipe p).xfer.pos
        remaining := (s.pipe p).xfer.remaining - n } } else s.pipe q := fun q => State.pipe_modPipe s p q _
  have same : ∀ q, ((advance p n b s).pipe q).xfer.active = (s.pipe q).xfer.active ∧ ((advance p n b s).pipe q).cfg = (s.pipe q).cfg
      ∧ ((advance p n b s).pipe q).cfgValid = (s.pipe q).cfgValid ∧ ((advance p n b s).pipe q).nrdyCount = (s.pipe q).nrdyCount
      ∧ ((advance p n b s).pipe q).xfer.buf = (s.pipe q).xfer.buf ∧ ((advance p n b s).pipe q).xfer.total = (s.pipe q).xfer.total := by
    intro q
    rw [hp]
    split
    · rename_i e; subst e; exact ⟨rfl, rfl, rfl, rfl, rfl, rfl⟩
    · exact ⟨rfl, rfl, rfl, rfl, rfl, rfl⟩
  refine h.update rfl h.memory (fun q => ?_) (fun q _ => ⟨(same q).2.2.1, (same q).2.1⟩) ⟨(same 0).2.2.1, (s.pipe 0).cfg.dir, (same 0).2.1⟩
    ⟨by rw [(same 0).1]; exact h.control.1, by rw [(same 0).2.2.2.1]; exact h.control.2⟩
    (by rw [(same 0).2.2.2.2.1, (same 0).2.2.2.2.2]; exact h.send) h.connected (fun f => by cases f <;> exact ⟨rfl, rfl⟩) rfl rfl rfl (fun i => ?_)
  · rw [hp]
    split
    · rename_i e
      subst e
      have hx := h.pipes p
      refine ⟨hx.retries, ⟨?_, hx.counts.2⟩, fun a => ?_, hx.range, hx.direction, hx.lease, hx.config⟩
      · have := hx.counts.1
        show (s.pipe p).xfer.remaining - n ≤ (s.pipe p).xfer.total
        omega
      · have hpos := hx.position a
        have hc := hx.counts.1
        show (if b = true then (s.pipe p).xfer.pos + n else (s.pipe p).xfer.pos) = (s.pipe p).xfer.buf.toNat
          + (if (s.pipe p).xfer.buf = 0 then 0 else (s.pipe p).xfer.total - ((s.pipe p).xfer.remaining - n))
        by_cases h0 : (s.pipe p).xfer.buf = 0
        · rw [if_pos h0] at hpos ⊢
          rcases hz a h0 with e | e
          · rw [e]; exact hpos
          · rw [e]; split <;> exact hpos
        · rw [if_neg h0] at hpos ⊢
          rw [if_pos (hb h0), hpos]
          omega
    · exact h.pipes q
  · obtain ⟨x1, x2, x3, x4, x5⟩ := h.boot i
    exact ⟨x1, x2, x3, x4, fun q => (same q).1.trans (x5 q).1⟩

theorem frame_advance (p : Pipe) (n : Nat) (b : Bool) (s : State) : Frame s (advance p n b s) :=
  Frame.modPipe s p (fun x => { x with xfer := { x.xfer with
    pos := if b then x.xfer.pos + n else x.xfer.pos, remaining := x.xfer.remaining - n } }) fun _ => ⟨rfl, rfl, rfl⟩
theorem stays_afterBind (p : Option Pipe) (f : FifoId) (d : Dir) (b : Bool) (s : State) (e : Env) :
    Stays s ((afterBind p f d b s).withEnv e) := ((quiet_afterBind p f d b s).trans (.withEnv _ e)).stays

/-- The bytes pushed, then the bookkeeping. -/
theorem wrote_advance (p : Pipe) (n : Nat) (e : Env) (s : State) : wrote p n e s = advance p n true
    (((afterBind (some p) (fifoOf p s) .IN true s).withEnv e).modPipe p
      fun x => { x with building := x.building ++ s.mem.readBytes x.xfer.pos n }) :=
  (State.modPipe_modPipe _ p (fun x => { x with building := x.building ++ s.mem.readBytes x.xfer.pos n })
    fun x => { x with xfer := { x.xfer with pos := x.xfer.pos + n, remaining := x.xfer.remaining - n } }).symm

theorem stays_writeAccess {p : Pipe} {s : State}
    (hz : Core s → (s.pipe p).xfer.active = true → (s.pipe p).xfer.buf = 0 → (s.pipe p).xfer.total = 0) :
    Stays s (writeAccess p s).2 := by
  rcases writeAccess_cases p s with ⟨e, h⟩ | ⟨e, h⟩ <;> rw [h]
  · exact stays_afterBind _ _ _ _ _ _
  · have q := ((quiet_afterBind (some p) (fifoOf p s) .IN true s).trans (.withEnv _ e)).trans
      (.modPipe _ p (fun x => { x with building := x.building ++ s.mem.readBytes x.xfer.pos (writeCount p s) })
        fun _ => ⟨⟨rfl, rfl, rfl⟩, .refl _⟩)
    have hw : Stays s (wrote p (writeCount p s) e s) := by
      rw [wrote_advance]
      refine ⟨q.frame.trans (frame_advance _ _ _ _), q.initialized, q.devState, fun h => (h.of_quiet q).moved ?_ (fun _ => rfl) fun a b => .inr ?_⟩
      · rw [(q.pipe p).1]; exact Nat.min_le_left _ _
      · rw [(q.pipe p).1] at a b
        have := hz h a b
        have := (h.pipes p).counts.1
        show min _ _ = 0
        omega
    exact hw.trans (quiet_endWrite _ _ _ _).stays

/-- The bytes of a read access, where they go to memory. -/
theorem stays_received {s u : State} (q : Quiet s u) (a : Nat) (bs : List Byte) (b : Prop) [Decidable b] :
    Stays s (u.withMem (if b then s.mem else s.mem.writeBytes a bs)) := by
  refine q.stays.trans (stays_withMem fun h => ?_)
  rw [← q.mem]
  split
  · exact h.memory
  · exact Memory.wf_writeBytes h.memory a bs

theorem stays_readAccess (p : Pipe) (s : State) : Stays s (readAccess p s).2 := by
  have q : ∀ e, Quiet s ((afterBind (some p) (fifoOf p s) .OUT true s).withEnv e) := fun e =>
    (quiet_afterBind (some p) (fifoOf p s) .OUT true s).trans (.withEnv _ e)
  rcases readAccess_cases p s with ⟨e, h⟩ | ⟨n, e, bs, _, hn, hl, h⟩ | ⟨n, e, bs, hn, hl, h⟩ <;> rw [h]
  · exact stays_afterBind _ _ _ _ _ _
  · have hm := stays_received (q e) (s.pipe p).xfer.pos bs ((s.pipe p).xfer.buf = 0)
    have hx : ((((afterBind (some p) (fifoOf p s) .OUT true s).withEnv e).withMem
      (if (s.pipe p).xfer.buf = 0 then s.mem else s.mem.writeBytes (s.pipe p).xfer.pos bs)).pipe p).xfer = (s.pipe p).xfer := ((q e).pipe p).1
    have hw : Stays s (took p n (s.pipe p).xfer.pos bs e s) := by
      refine ⟨hm.frame.trans (frame_advance _ _ _ _), hm.initialized, hm.devState,
        fun h => (hm.core h).moved ?_ (fun b => ?_) fun a b => .inl ?_⟩
      · rw [hx]; exact hn
      · rw [hx] at b; simpa using b
      · rw [hx] at b; simpa using b
    exact hw.trans (quiet_endRead _ _ _).stays
  · have hm := stays_received (q e) (s.pipe p).xfer.pos bs ((s.pipe p).xfer.buf = 0)
    exact hm.trans ((Quiet.modPipe _ p (fun x => { x with building := [] }) fun _ => ⟨⟨rfl, rfl, rfl⟩, .refl _⟩).trans
      (.logs _ [.bufferClear (fifoOf p s)] rfl)).stays

/-! ### The context -/

/-- A change of fields that the invariant does not speak of. -/
theorem core_same {s t : State} (h : Core s) (p : ∀ q, PipeSame (s.pipe q) (t.pipe q)) (hpar : t.params = s.params) (hmem : t.mem = s.mem)
    (hdev : t.devState = s.devState) (hini : t.initialized = s.initialized) (hfst : t.firstConnectFired = s.firstConnectFired)
    (hcfg : t.configValue = s.configValue) (hvb : t.vbusLevel = s.vbusLevel) (hdesc : t.desc = s.desc) (hcb : t.cb = s.cb)
    (hC : t.fifoC = s.fifoC) (h0 : t.fifoD0 = s.fifoD0) (h1 : t.fifoD1 = s.fifoD1) : Core t := by
  refine h.of_calm hpar hmem hdev hini hfst hcfg hvb hdesc hcb p fun f q g => ?_
  have : t.fifo f = s.fifo f := by cases f <;> assumption
  rw [this]; exact g

/-- The context is no part of what holds. -/
theorem core_withCtx (k : Context) {s : State} (h : Core s) : Core (s.withCtx k) :=
  core_same h (fun _ => .refl _) rfl rfl rfl rfl rfl rfl rfl rfl rfl rfl rfl rfl

/-- An operation run in a context of its own keeps what it keeps there. -/
theorem Keeps.inCtx {k : Context} {s t : State} (h : Keeps c (s.withCtx k) t) : Keeps c s (t.withCtx s.ctx) := by
  refine ⟨⟨h.frame.params, h.frame.usbState, h.frame.trace, fun x => ?_, rfl⟩, h.init, h.notIn, h.disc,
    fun hs => core_withCtx _ (h.core (core_withCtx k hs))⟩
  have := h.frame.sts x
  cases x <;> exact this
theorem keeps_inCtx {α : Type} {k : Context} {s : State} {r : Res α} (h : r.All (Keeps c (s.withCtx k))) :
    (r.inCtx s.ctx).All (Keeps c s) := by
  cases r with
  | done a t => exact h.inCtx
  | halt t => exact ⟨h.1.inCtx, h.2⟩
  | refused e => trivial

/-! ### Commands issued inside a callback -/

theorem keeps_returnCode {r : ErrCode × State} {s : State} (h : Keeps c s r.2) : (returnCode r).All (Keeps c s) :=
  h.trans (quiet_setResult _ _).keeps
theorem keeps_returnRes {r : Res ErrCode} {s : State} (h : r.All (Keeps c s)) : (returnRes r).All (Keeps c s) :=
  h.then fun _ t => (quiet_setResult _ t).keeps
theorem keeps_insideOnSetup {f : State → Res Unit} {s : State} (h : (f s).All (Keeps c s)) : (insideOnSetup f s).All (Keeps c s) := by
  unfold insideOnSetup
  split
  · exact (quiet_setResult _ s).keeps
  · split
    · exact h
    · exact (quiet_setResult _ s).keeps
    · trivial

theorem keeps_issueWith {ctl : Len → Addr → State → Res Unit} (h : ∀ l b s, (ctl l b s).All (Keeps c s)) (k : Cmd) (s : State) :
    (issueWith ctl k s).All (Keeps c s) := by
  cases k with
  | init d cb => exact keeps_returnRes (keeps_blockInit d cb s)
  | controlAck => exact keeps_insideOnSetup (s := s) (f := fun s => returnCode (controlAck s)) (keeps_returnCode (s := s) (r := controlAck s) (keeps_controlAck s))
  | controlIn len buf => exact keeps_insideOnSetup (h len buf s)
  | controlOut len buf k => exact keeps_insideOnSetup (s := s) (f := fun s => returnCode (controlOut len buf k s)) (keeps_returnCode (s := s) (r := controlOut len buf k s) (keeps_controlOut len buf k s))
  | bulkIn len buf k => exact keeps_returnCode (keeps_start .bulkIn (by decide) _ len buf k s)
  | bulkOut len buf k => exact keeps_returnCode (keeps_start .bulkOut (by decide) _ len buf k s)
  | interruptIn len buf k => exact keeps_returnCode (keeps_start .intIn (by decide) _ len buf k s)
  | stall cls =>
    cases cls with
    | control => exact keeps_insideOnSetup (s := s) (f := fun s => returnCode (stallClass .control s)) (keeps_returnCode (s := s) (r := stallClass .control s) (keeps_stallClass .control s))
    | bulkIn => exact keeps_returnCode (keeps_stallClass .bulkIn s)
    | bulkOut => exact keeps_returnCode (keeps_stallClass .bulkOut s)
    | intIn => exact keeps_returnCode (keeps_stallClass .intIn s)
  | getDeviceState => exact (quiet_setResult _ s).keeps
  | isEndpointStalled p => exact (quiet_setResult _ s).keeps
  | cancel => exact keeps_returnCode (keeps_blockCancel s)
  | reset => exact keeps_returnCode (keeps_blockReset s)
  | resetEndpoints t => exact keeps_returnCode (keeps_resetEndpoints t s)

theorem keeps_runCmds {issue : Cmd → State → Res Unit} (h : ∀ k s, (issue k s).All (Keeps c s)) (ks : List Cmd) (s : State) :
    (runCmds issue ks s).All (Keeps c s) := by
  induction ks generalizing s with
  | nil => exact Keeps.refl s
  | cons k ks ih => exact (h k s).then fun _ t => ih t
theorem keeps_invoke {issue : Cmd → State → Res Unit} (h : ∀ k s, (issue k s).All (Keeps c s)) (k : Call) (s : State) :
    (invoke issue k s).All (Keeps c s) := by
  obtain ⟨e, he⟩ := drawClassStep_spec (logCall k s)
  have hf : Quiet s (drawClassStep (logCall k s)).2 := by rw [he]; exact (quiet_logCall k s).trans (.withEnv _ e)
  exact (hf.keeps (c := c)).then ((keeps_runCmds h _ _).then fun _ t => Keeps.refl t)

/-! ### `controlIn` -/

theorem keeps_controlInNested (len : Len) (buf : Addr) (s : State) : (controlInNested len buf s).All (Keeps c s) :=
  keeps_returnCode (r := (.state, s)) (.refl s)

/-- The data stage keeps what holds and stays in CONTROL_IN. -/
theorem stays_controlInLoop (k : Nat) (first : Bool) {s : State} (d : s.devState = .controlIn) : Stays s (controlInLoop k first s).2 := by
  induction k generalizing first s with
  | zero => exact (Quiet.refl s).stays
  | succ k ih =>
    have hp : Quiet s (if first = true then (true, s) else pollFifoReady s.params.ctrlInPollBudget s).2 := by
      split
      · exact .refl s
      · obtain ⟨e, h⟩ := pollFifoReady_spec s.params.ctrlInPollBudget s
        rw [h]; exact .withEnv s e
    generalize hq : (if first = true then (true, s) else pollFifoReady s.params.ctrlInPollBudget s) = r at hp
    simp only [controlInLoop, hq]
    split
    · have d' := hp.devState.trans d
      have ht := stays_writeAccess (p := 0) (s := r.2) fun h _ => h.send d'
      have hs := hp.stays.trans ht
      generalize writeAccess 0 r.2 = w at ht hs ⊢
      obtain ⟨a, t⟩ := w
      cases a
      · exact hs.trans (ih false (ht.devState.trans d'))
      · exact hs
      · exact hs
      · exact hs
      · exact hs
    · exact hp.stays
theorem stays_controlInData (n : Nat) {s : State} (d : s.devState = .controlIn) : Stays s (controlInData n s).2 := by
  have h := quiet_bindFifo (some 0) .C .IN s
  unfold controlInData
  split <;> rename_i t e <;> rw [e] at h
  · exact h.stays
  · have q := h.trans (quiet_bufferClear .C t)
    exact q.stays.trans (stays_controlInLoop _ _ (q.devState.trans d))

/-- The end of the data stage: pipe 0 idle, READY. -/
theorem keeps_endStage {s : State} (i : s.initialized = true) (d : s.devState ≠ .disconnected) :
    Keeps c s (setDevState .ready (deactivate 0 s)) :=
  keeps_drop i d (fun x => { x with xfer := { x.xfer with active := false } }) (fun _ => ⟨rfl, rfl, rfl⟩)
    (fun _ => ⟨rfl, rfl, rfl, rfl, .inl rfl, .inl rfl, rfl, rfl⟩) .ready (.inl rfl)

/-- From CONTROL_SETUP, through the data stage, to an end in another sub-state. -/
theorem keeps_stage {s t u : State} (hd : s.devState = .controlSetup)
    (b : Frame s t) (bi : t.initialized = true) (bc : Core s → Core t) (h : Keeps c t u) (n : u.devState ≠ .controlIn) : Keeps c s u :=
  ⟨b.trans h.frame, fun _ => h.init bi, fun _ => n, .inr fun e => (by rw [hd] at e; cases e), fun k => h.core (bc k)⟩

theorem keeps_onErrorInControlIn (e : ErrCode) (s : State) : (onErrorInControlIn e s).All (Keeps c s) :=
  (keeps_invoke (keeps_issueWith keeps_controlInNested) _ _).then fun _ v => Keeps.refl v

theorem keeps_controlIn (len : Len) (buf : Addr) (s : State) : (controlIn len buf s).All (Keeps c s) := by
  unfold controlIn
  split
  · exact Keeps.refl s
  split
  · exact keeps_controlAck s
  dsimp only
  split
  · exact Keeps.refl s
  split
  · exact Keeps.refl s
  rename_i hl _ hz hw
  have hl : s.initialized = true ∧ s.devState = .controlSetup := by simpa [controlLegal] using hl
  generalize hn : min len.toNat s.setup.length.toNat = n at hz ⊢
  have hn' : n < 2 ^ 32 := by have := len.isLt; omega
  have hr : buf ≠ 0 → buf.toNat + n ≤ 2 ^ 32 := fun hb => by have := bufferWraps_bound hw hb; omega
  have hz' : buf = 0 → n = 0 := fun e => by by_contra hc; exact hz ⟨e, hc⟩
  have eb : controlInBegin n buf s = setDevState .controlIn (s.modPipe 0 fun x =>
    { x with cfg := { x.cfg with dir := .IN }, xfer := newXfer .IN buf n none }) := rfl
  have bf : Frame s (controlInBegin n buf s) := by
    rw [eb]
    exact (Frame.modPipe s 0 (fun x => { x with cfg := { x.cfg with dir := .IN }, xfer := newXfer .IN buf n none }) fun _ => ⟨rfl, rfl, rfl⟩).trans
      (Frame.setDevState _ _)
  have bc : Core s → Core (controlInBegin n buf s) := by
    intro h
    rw [eb]
    have hx := h.pipes 0
    refine h.modZero hl.1 (h.connected (by rw [hl.2]; decide)) _ _ ⟨⟨hx.retries.1, fun _ => ?_⟩, ⟨Nat.le_refl _, hn', hx.counts.2.2⟩,
      fun _ => by simp [newXfer], fun _ => ⟨hr, fun _ => hz'⟩, fun _ => ⟨(h.served hl.1).2.2.1, rfl⟩, ?_, fun n => absurd rfl n⟩
      ⟨rfl, _, rfl⟩ ⟨?_, h.control.2⟩ (fun _ (e : buf = 0) => ?_)
    · show (s.pipe 0).nrdyCount < 3; rw [h.control.2]; decide
    · have := hx.lease; simpa using this
    · simp [newXfer]
    · exact hz' e
  have bi : (controlInBegin n buf s).initialized = true := hl.1
  have bd : (controlInBegin n buf s).devState = .controlIn := rfl
  generalize controlInBegin n buf s = t at bf bc bi bd ⊢
  have hu := stays_controlInData n bd
  generalize controlInData n t = w at hu ⊢
  obtain ⟨ok, u⟩ := w
  have ui := hu.initialized.trans bi
  have ud : u.devState ≠ .disconnected := by rw [hu.devState, bd]; decide
  have hend := keeps_endStage (c := c) ui ud
  cases ok
  rotate_left
  · have e : ackStatus (deactivate 0 u) = ctrlComplete (setPidBuf 0 (setDevState .ready (deactivate 0 u))) := rfl
    show Keeps c s (ackStatus (deactivate 0 u))
    rw [e]
    have k := hend.trans (quiet_ackStatus_pre (setDevState .ready (deactivate 0 u))).keeps
    exact keeps_stage hl.2 bf bi bc (hu.keeps.trans k) (by rw [(quiet_ackStatus_pre _).devState]; exact DevState.noConfusion)
  · have e : setDevState .ready (setPidStall 0 (deactivate 0 u)) = setPidStall 0 (setDevState .ready (deactivate 0 u)) := rfl
    unfold controlInFail
    dsimp only
    rw [e]
    have k := hend.trans (quiet_setPidStall 0 (setDevState .ready (deactivate 0 u))).keeps
    have k' := keeps_stage hl.2 bf bi bc (hu.keeps.trans k) (by rw [(quiet_setPidStall 0 _).devState]; exact DevState.noConfusion)
    exact k'.then ((keeps_onErrorInControlIn _ _).then fun _ v => Keeps.refl v)

theorem keeps_issue (k : Cmd) (s : State) : (issue k s).All (Keeps c s) :=
  keeps_issueWith (fun l b s => keeps_returnRes (keeps_controlIn l b s)) k s
theorem keeps_callback (k : Call) (s : State) : (callback k s).All (Keeps c s) :=
  (keeps_invoke keeps_issue k s).then fun _ t => Keeps.refl t
theorem keeps_callOnSetup (S : BitVec 64) (s : State) : (callOnSetup S s).All (Keeps c s) :=
  keeps_inCtx (keeps_invoke keeps_issue _ (s.withCtx .onSetup))

end Sys2Proof.Machine
end

