-- ==== Sys2Proof/Laws/Handlers.lean ====
section
/-! SUPPORT. What the dispatcher, the setup core, the handlers of a pass and every instruction keep of the
invariant. -/

namespace Sys2Proof.Machine
variable {c : Prop}

/-! ### The end of a transfer -/

/-- The bookkeeping at the end, on pipes that agree on what the invariant speaks of. -/
theorem Quiet.endTransfer {s t : State} (q : Quiet s t) (p : Pipe) (e : ErrCode) : Quiet (endTransfer p e s) (endTransfer p e t) := by
  have fs : Frame s (Machine.endTransfer p e s) := Frame.modPipe s p (Sys2Proof.Machine.ended e) fun _ => ⟨rfl, rfl, rfl⟩
  have ft : Frame t (Machine.endTransfer p e t) := Frame.modPipe t p (Sys2Proof.Machine.ended e) fun _ => ⟨rfl, rfl, rfl⟩
  refine ⟨⟨q.frame.params, q.frame.usbState, q.frame.trace, fun x => ?_, q.frame.ctx⟩, q.mem, q.devState, q.initialized, q.first, q.config, q.vbus, q.desc, q.cb,
    fun r => ?_, fun f r h => ?_⟩
  · rw [ft.sts, fs.sts, q.frame.sts]
  · have hs : (Machine.endTransfer p e s).pipe r = if p = r then ended e (s.pipe p) else s.pipe r := State.pipe_modPipe s p r _
    have ht : (Machine.endTransfer p e t).pipe r = if p = r then ended e (t.pipe p) else t.pipe r := State.pipe_modPipe t p r _
    rw [hs, ht]
    split
    · obtain ⟨a1, a2, a3, a4, a5, a6⟩ := q.pipe p
      refine ⟨?_, rfl, a3, a4, a5, ?_⟩
      · simp only [ended, a1]
      · simp only [ended, a1]
    · exact q.pipe r
  · have hs : (Machine.endTransfer p e s).fifo f = s.fifo f := State.fifo_modPipe s p f _
    have ht : (Machine.endTransfer p e t).fifo f = t.fifo f := State.fifo_modPipe t p f _
    rw [hs] at h
    rw [ht]
    exact q.fifo f r h

theorem frame_endTransfer (p : Pipe) (e : ErrCode) (s : State) : Frame s (endTransfer p e s) :=
  Frame.modPipe s p (ended e) fun _ => ⟨rfl, rfl, rfl⟩
theorem frame_setNrdyCount (p : Pipe) (n : Nat) (s : State) : Frame s (setNrdyCount p n s) :=
  Frame.modPipe s p (fun x => { x with nrdyCount := n }) fun _ => ⟨rfl, rfl, rfl⟩

/-- A data pipe's transfer ended, its retry count set to at most 3. -/
theorem keeps_endCount {p : Pipe} (hp : p ≠ 0) (e : ErrCode) {n : Nat} (hn : n ≤ 3) (s : State) :
    Keeps c s (endTransfer p e (setNrdyCount p n s)) := by
  refine ⟨(frame_setNrdyCount p n s).trans (frame_endTransfer p e _), id, id, .inr id, fun h => ?_⟩
  have e' : endTransfer p e (setNrdyCount p n s) = s.modPipe p fun x => ended e { x with nrdyCount := n } :=
    State.modPipe_modPipe s p (fun x => { x with nrdyCount := n }) (ended e)
  rw [e']
  have hx := h.pipes p
  have hc := hx.counts
  refine h.modData hp _ ⟨⟨hn, nofun⟩, ⟨hc.1, hc.2.1, ?_⟩, nofun, nofun, nofun, ?_, hx.config⟩ ⟨rfl, rfl⟩ nofun
  · show (s.pipe p).xfer.total - (s.pipe p).xfer.remaining < 2 ^ 32
    have := hc.2.1
    omega
  · rw [if_neg hp]; rfl

theorem setNrdyCount_self (p : Pipe) (s : State) : setNrdyCount p (s.pipe p).nrdyCount s = s := State.modPipe_id s p rfl

theorem keeps_endTransfer {p : Pipe} (hp : p ≠ 0) (e : ErrCode) (s : State) : Keeps c s (endTransfer p e s) := by
  refine ⟨frame_endTransfer p e s, id, id, .inr id, fun h => ?_⟩
  have k := (keeps_endCount (c := True) hp e (h.pipes p).retries.1 s).core h
  rwa [setNrdyCount_self] at k

theorem keeps_finish {p : Pipe} {e : ErrCode} {s u : State} (h : Keeps c s (endTransfer p e u)) : (finish p e u).All (Keeps c s) := by
  unfold finish
  dsimp only
  split
  · exact h.then (keeps_callback _ _)
  · exact h

theorem keeps_setNrdyCount {p : Pipe} (hp : p ≠ 0) (s : State) : Keeps c s (setNrdyCount p 0 s) := by
  refine ⟨frame_setNrdyCount p 0 s, id, id, .inr id, fun h => ?_⟩
  have hx := h.pipes p
  exact h.modData hp (fun x => { x with nrdyCount := 0 }) ⟨⟨Nat.zero_le _, fun _ => by show 0 < 3; decide⟩, hx.counts, hx.position, hx.range, hx.direction,
    hx.lease, hx.config⟩ ⟨rfl, rfl⟩ .inl

/-! ### The dispatcher -/

theorem keeps_bindFailure {p : Pipe} (hp : p ≠ 0) (s : State) : (bindFailure p s).All (Keeps c s) :=
  ((quiet_disableReady p s).keeps.trans <| (keeps_endTransfer hp _ _).trans <| (quiet_setPState p _ _).keeps.trans
    (keeps_setNrdyCount hp _)).then (keeps_callback _ _)
theorem keeps_latchStall {p : Pipe} (hp : p ≠ 0) (s : State) : (latchStall p s).All (Keeps c s) := by
  have h : Quiet s (disableAll p (setPState p .stall s)) := (quiet_setPState p _ s).trans (quiet_disableAll p _)
  unfold latchStall
  dsimp only
  split
  · exact keeps_finish (h.keeps.trans (keeps_endTransfer hp _ _))
  · exact h.keeps
theorem keeps_latchNoResponse {p : Pipe} (hp : p ≠ 0) {n : Nat} {s : State} (a : (s.pipe p).xfer.active = true) (hn : Core s → n ≤ 3) :
    (latchNoResponse p (setNrdyCount p n s)).All (Keeps c s) := by
  generalize hu : setNrdyCount p n s = u
  have h : Quiet u (setPidNak p (disableAll p (setPState p .noResponse u))) :=
    (quiet_setPState p _ u).trans <| (quiet_disableAll p _).trans (quiet_setPidNak p _)
  have ha : ((setPidNak p (disableAll p (setPState p .noResponse u))).pipe p).xfer.active = true := by
    rw [(h.pipe p).1, ← hu, setNrdyCount, State.pipe_modPipe_self]; exact a
  unfold latchNoResponse
  dsimp only
  rw [if_pos ha]
  refine keeps_finish ?_
  have q := h.endTransfer p .noResponse
  have f : Frame s (endTransfer p .noResponse u) := by
    rw [← hu]; exact (frame_setNrdyCount p n s).trans (frame_endTransfer p _ _)
  have i : (endTransfer p .noResponse u).initialized = s.initialized := by rw [← hu]; rfl
  have d : (endTransfer p .noResponse u).devState = s.devState := by rw [← hu]; rfl
  refine ⟨f.trans q.frame, fun x => ?_, fun x => ?_, .inr fun x => ?_, fun x => ?_⟩
  · rw [q.initialized, i]; exact x
  · rw [q.devState, d]; exact x
  · rw [q.devState, d]; exact x
  · refine Core.of_quiet ?_ q
    rw [← hu]
    exact (keeps_endCount (c := True) hp .noResponse (hn x) s).core x
theorem keeps_onFinalAccess {p : Pipe} (hp : p ≠ 0) (s : State) : (onFinalAccess p s).All (Keeps c s) := by
  have h := quiet_disableReady p s
  unfold onFinalAccess
  dsimp only
  split
  · exact keeps_finish ((h.trans <| (quiet_setPidNak p _).trans (quiet_setPState p _ _)).keeps.trans (keeps_endTransfer hp _ _))
  · exact keeps_finish ((h.trans (quiet_writeBempEnb p _ _)).keeps.trans (keeps_endTransfer hp _ _))
theorem keeps_onOverrun {p : Pipe} (hp : p ≠ 0) (s : State) : (onOverrun p s).All (Keeps c s) :=
  keeps_finish (((quiet_disableReady p s).trans <| (quiet_setPidNak p _).trans (quiet_setPState p _ _)).keeps.trans (keeps_endTransfer hp _ _))
theorem keeps_onBrdy {p : Pipe} (hp : p ≠ 0) (s : State) : (onBrdy p s).All (Keeps c s) := by
  unfold onBrdy
  split
  · exact (quiet_writeBrdyEnb p _ s).keeps
  · have ht : Stays s (if (s.pipe p).cfg.dir = .OUT then readAccess p s else writeAccess p s).2 := by
      split
      · exact stays_readAccess p s
      · rename_i n
        refine stays_writeAccess fun h a b => ((h.pipes p).range a).2 ?_ b
        have := ((h.pipes p).direction a).2
        rw [this]
        cases hd : (s.pipe p).cfg.dir
        · rfl
        · exact absurd hd n
    generalize (if (s.pipe p).cfg.dir = .OUT then readAccess p s else writeAccess p s) = w at ht ⊢
    obtain ⟨r, t⟩ := w
    have hk := (ht.keeps (c := c)).trans (keeps_setNrdyCount hp t)
    cases r with
    | CONTINUE => exact hk
    | END => exact hk.then (keeps_onFinalAccess hp _)
    | SHORT => exact hk.then (keeps_onFinalAccess hp _)
    | OVERRUN => exact hk.then (keeps_onOverrun hp _)
    | ERROR => exact (ht.keeps (c := c)).then (keeps_bindFailure hp t)
theorem keeps_onNrdy {p : Pipe} (hp : p ≠ 0) (s : State) : (onNrdy p s).All (Keeps c s) := by
  unfold onNrdy
  split
  · exact keeps_latchStall hp s
  · split
    · exact (quiet_writeNrdyEnb p _ s).keeps
    · rename_i _ ha
      have ha : (s.pipe p).xfer.active = true := by simpa using ha
      dsimp only
      split
      · exact keeps_latchNoResponse hp ha fun h => (h.pipes p).retries.2 ha
      · rename_i hl
        refine Keeps.trans ⟨frame_setNrdyCount p _ s, id, id, .inr id, fun h => ?_⟩ (quiet_setPidBuf p _).keeps
        have hx := h.pipes p
        have hl : (s.pipe p).nrdyCount + 1 < 3 := Nat.lt_of_not_le hl
        exact h.modData hp (fun x => { x with nrdyCount := (s.pipe p).nrdyCount + 1 })
          ⟨⟨Nat.le_of_lt hl, fun _ => hl⟩, hx.counts, hx.position, hx.range, hx.direction, hx.lease, hx.config⟩ ⟨rfl, rfl⟩ .inl
theorem keeps_onBemp {p : Pipe} (hp : p ≠ 0) (s : State) : (onBemp p s).All (Keeps c s) := by
  unfold onBemp
  split
  · exact keeps_latchStall hp s
  · split
    · exact (quiet_writeBempEnb p _ s).keeps
    · have h : Quiet s (drawInbufm s).2 := by
        obtain ⟨e, h⟩ := drawInbufm_spec s
        rw [h]; exact .withEnv s e
      dsimp only
      split
      · exact h.keeps
      · exact (h.trans <| (quiet_writeBempEnb p _ _).trans (quiet_setPState p _ _)).keeps

/-! ### Pipe 0 -/

/-- The end of a control-OUT data stage. -/
theorem keeps_end0 (e : ErrCode) {s : State} (i : s.initialized = true) (d : s.devState ≠ .disconnected) :
    Keeps c s (setDevState .ready (endTransfer 0 e s)) :=
  keeps_drop i d (ended e) (fun _ => ⟨rfl, rfl, rfl⟩) (fun _ => ⟨rfl, rfl, rfl, rfl, .inr rfl, .inr rfl, rfl, rfl⟩) .ready (.inl rfl)

theorem keeps_onBrdy0 {s : State} (i : s.initialized = true) : (onBrdy0 s).All (Keeps c s) := by
  unfold onBrdy0
  split
  · rename_i h0
    have ht := stays_readAccess 0 s
    generalize readAccess 0 s = w at ht ⊢
    obtain ⟨r, t⟩ := w
    have hk := ht.keeps (c := c)
    have ti : t.initialized = true := ht.initialized.trans i
    have td : t.devState ≠ .disconnected := by rw [ht.devState, h0.1]; decide
    have q1 := quiet_writeBrdyEnb 0 false t
    have ack : ∀ e, Keeps c s (endTransfer 0 e (ackStatus (writeBrdyEnb 0 false t))) := by
      intro e
      have q2 := q1.trans (quiet_ackStatus_pre _)
      have e' : endTransfer 0 e (ackStatus (writeBrdyEnb 0 false t)) =
        setDevState .ready (endTransfer 0 e (ctrlComplete (setPidBuf 0 (writeBrdyEnb 0 false t)))) := rfl
      rw [e']
      exact (hk.trans q2.keeps).trans (keeps_end0 e (q2.initialized.trans ti) (by rw [q2.devState]; exact td))
    have q3 := q1.trans (quiet_setPidStall 0 _)
    cases r with
    | CONTINUE => exact hk
    | END => exact keeps_finish (ack _)
    | SHORT => exact keeps_finish (ack _)
    | OVERRUN =>
      refine keeps_finish ?_
      have e' : endTransfer 0 .overrun (setDevState .ready (setPidStall 0 (writeBrdyEnb 0 false t))) =
        setDevState .ready (endTransfer 0 .overrun (setPidStall 0 (writeBrdyEnb 0 false t))) := rfl
      rw [e']
      exact (hk.trans q3.keeps).trans (keeps_end0 _ (q3.initialized.trans ti) (by rw [q3.devState]; exact td))
    | ERROR =>
      have e' : deactivate 0 (setDevState .ready (setPidStall 0 (writeBrdyEnb 0 false t))) =
        setDevState .ready (deactivate 0 (setPidStall 0 (writeBrdyEnb 0 false t))) := rfl
      show (callback _ (deactivate 0 (setDevState .ready (setPidStall 0 (writeBrdyEnb 0 false t))))).All _
      rw [e']
      exact ((hk.trans q3.keeps).trans (keeps_endStage (q3.initialized.trans ti) (by rw [q3.devState]; exact td))).then (keeps_callback _ _)
  · exact (quiet_writeBrdyEnb 0 _ s).keeps

/-! ### The setup core -/

theorem keeps_respond (len : Len) (buf : Addr) (s : State) : (respond len buf s).All (Keeps c s) :=
  (keeps_controlIn len buf s).then fun _ t => Keeps.refl t
theorem keeps_respondBytes (bs : List Byte) (s : State) : (respondBytes bs s).All (Keeps c s) :=
  ((stays_withMem (m := s.mem.writeBytes s.params.respBase.toNat bs) fun h => Memory.wf_writeBytes h.memory _ bs).keeps (c := c)).then
    (keeps_respond _ _ _)
theorem keeps_sendBlob (b : Option Blob) (s : State) : (sendBlob b s).All (Keeps c s) := by
  cases b with
  | some b => exact keeps_respond _ _ s
  | none => exact Keeps.refl s
/-- The two fields of the channel that `init` gives a meaning. -/
theorem keeps_fields {s : State} (i : s.initialized = true) (f : Bool) (v : Byte) :
    Keeps c s { s with firstConnectFired := f, configValue := v } := by
  refine ⟨.of_eq rfl rfl rfl rfl rfl rfl, id, id, .inr id, fun h => ?_⟩
  exact h.update rfl h.memory h.pipes (fun _ _ => ⟨rfl, rfl⟩) ⟨rfl, (s.pipe 0).cfg.dir, rfl⟩ h.control h.send h.connected
    (fun f => by cases f <;> exact ⟨rfl, rfl⟩) rfl rfl rfl (fun i' => by rw [i] at i'; cases i')
theorem keeps_firstConnect {s : State} (i : s.initialized = true) : (firstConnect s).All (Keeps c s) := by
  unfold firstConnect
  split
  · exact Keeps.refl s
  · exact (keeps_fields i true s.configValue).then (keeps_callback _ _)
theorem quiet_autoClear (p : Pipe) (s : State) : Quiet s (autoClear p s) := by
  have h1 : Quiet s (if (s.pipe p).pid = .stall then setPidBuf p s else s) := by
    split
    · exact quiet_setPidBuf p s
    · exact .refl s
  unfold autoClear
  dsimp only
  generalize (if (s.pipe p).pid = .stall then setPidBuf p s else s) = u at h1 ⊢
  have h2 := h1.trans (quiet_clearToggle p u)
  split
  · exact h2.trans (quiet_setPState p _ _)
  · exact h2
theorem keeps_resolve (q : SetupPacket) {s : State} (i : s.initialized = true) : (resolve q s).All (Keeps c s) := by
  unfold resolve
  split
  · exact keeps_respondBytes _ s
  · exact keeps_respondBytes _ s
  · unfold ruleGetStatusEndpoint
    split
    · exact Keeps.refl s
    · exact keeps_respondBytes _ s
  · unfold ruleClearFeatureEpHalt
    split
    · exact Keeps.refl s
    · show Keeps c s (controlAck _).2
      split
      · exact (quiet_autoClear _ s).keeps.trans (keeps_controlAck _)
      · exact keeps_controlAck s
  · unfold ruleSetFeatureEpHalt
    split
    · exact Keeps.refl s
    · show Keeps c s (controlAck _).2
      split
      · exact (quiet_setPidStall _ s).keeps.trans (keeps_controlAck _)
      · exact keeps_controlAck s
  · exact keeps_controlAck s
  · exact keeps_sendBlob _ s
  · unfold ruleGetDescriptorConfiguration
    split
    · exact keeps_sendBlob _ s
    · exact Keeps.refl s
  · unfold ruleGetDescriptorString
    dsimp only
    split
    · exact keeps_sendBlob _ s
    · split
      · exact Keeps.refl s
      · exact keeps_sendBlob _ s
  · exact keeps_sendBlob _ s
  · unfold ruleGetDescriptorOtherSpeed
    split
    · exact keeps_sendBlob _ s
    · exact Keeps.refl s
  · exact keeps_respondBytes _ s
  · have h : Keeps c s (controlAck { s with configValue := q.value.extractLsb' 0 8 }).2 :=
      (keeps_fields i s.firstConnectFired _).trans (keeps_controlAck _)
    exact h.then ((keeps_firstConnect (h.init i)).then fun _ t => Keeps.refl t)
  · exact keeps_respondBytes _ s
  · exact keeps_controlAck s
  · exact Keeps.refl s
  · exact Keeps.refl s
  · exact Keeps.refl s
  · exact Keeps.refl s
theorem keeps_delegate (S : BitVec 64) (s : State) : (delegate S s).All (Keeps c s) := by
  refine (keeps_callOnSetup S s).then fun a t => ?_
  split
  · exact keeps_stallClass .control t
  · exact Keeps.refl t

/-- A packet has arrived: any control-OUT data stage dropped, CONTROL_SETUP. -/
theorem keeps_arrival (S : SetupPacket) {s : State} (i : s.initialized = true) (d : s.devState ≠ .disconnected) :
    Keeps c s (setDevState .controlSetup { abortControl (setPidNak 0 s) with setup := S }) := by
  have q := quiet_setPidNak 0 s
  refine q.keeps.trans ?_
  have d' : (setPidNak 0 s).devState ≠ .disconnected := by rw [q.devState]; exact d
  have k : Keeps c (setPidNak 0 s) (setDevState .controlSetup (deactivate 0 (setPidNak 0 s))) :=
    keeps_drop (q.initialized.trans i) d' (fun x => { x with xfer := { x.xfer with active := false } }) (fun _ => ⟨rfl, rfl, rfl⟩)
      (fun _ => ⟨rfl, rfl, rfl, rfl, .inl rfl, .inl rfl, rfl, rfl⟩) .controlSetup (.inr rfl)
  generalize setPidNak 0 s = u at k ⊢
  unfold abortControl
  split
  · have e : setDevState .controlSetup { writeBrdyEnb 0 false (deactivate 0 u) with setup := S } =
      { writeBrdyEnb 0 false (setDevState .controlSetup (deactivate 0 u)) with setup := S } := rfl
    rw [e]
    exact k.trans ((quiet_writeBrdyEnb 0 false _).trans (quiet_setup S _)).keeps
  · rename_i ha
    have ha : (u.pipe 0).xfer.active = false := by simpa using ha
    have : deactivate 0 u = u := by
      refine State.modPipe_id u 0 ?_
      rw [← ha]
    rw [this] at k
    exact k.trans (quiet_setup S _).keeps

theorem keeps_setupArrival (S : BitVec 64) {s : State} (i : s.initialized = true) : (setupArrival S s).All (Keeps c s) := by
  unfold setupArrival
  split
  · exact (quiet_setPidStall 0 s).keeps
  · rename_i d
    have k := keeps_arrival (c := c) (decodePacket S) i d
    refine k.then ((keeps_resolve _ (k.init i)).then fun r t => ?_)
    split
    · exact Keeps.refl t
    · exact keeps_delegate S t

/-! ### The device-level handlers -/

theorem keeps_busReset (hc : c) {s : State} (i : s.initialized = true) : (busReset s).All (Keeps c s) := by
  have e : (blockReset s).2 = resetEffect s := by unfold blockReset; rw [if_pos i]
  have hr := keeps_resetEffect (c := c) i
  unfold busReset
  rw [e]
  refine (quiet_bindAdmin (resetEffect s)).bind (fun _ q => hr.trans q.keeps) fun _ t q => ?_
  dsimp only
  have ti : t.initialized = true := q.initialized.trans ((resetEffect_initialized s).trans i)
  have k : Keeps c s { t with configValue := 0 } := (hr.trans q.keeps).trans (keeps_fields ti t.firstConnectFired 0)
  have hn := resetEffect_notControl s
  have ha : (t.pipe 0).xfer.active = false := by rw [(q.pipe 0).1, resetEffect_pipe]; rfl
  show Keeps c s (if t.vbusLevel then _ else _)
  split
  · rename_i v
    exact k.trans (keeps_ready (s := { t with configValue := 0 }) ha (.inl hc) fun _ => v)
  · exact k
theorem keeps_onDvst {s : State} (hc : s.usbState = .defaultState → c) (i : s.initialized = true) : (onDvst s).All (Keeps c s) := by
  have hq : ∀ ps (t : State), Quiet t (clearBulkToggles ps t) := by
    intro ps
    induction ps with
    | nil => exact fun t => .refl t
    | cons p ps ih =>
      intro t
      simp only [clearBulkToggles]
      split
      · exact (quiet_clearToggle p t).trans (ih _)
      · exact ih t
  unfold onDvst
  split
  · rename_i e; exact keeps_busReset (hc e) i
  · have q := hq dataPipes s
    unfold enterConfigured
    generalize clearBulkToggles dataPipes s = u at q ⊢
    exact (q.keeps (c := c)).then (keeps_firstConnect (q.initialized.trans i))
  · exact Keeps.refl s
  · exact Keeps.refl s
  · exact Keeps.refl s
theorem keeps_onCtrt {s : State} (i : s.initialized = true) : (onCtrt s).All (Keeps c s) := by
  unfold onCtrt
  split
  · exact ((quiet_clearSetupValid s).keeps (c := c)).then (keeps_setupArrival _ ((quiet_clearSetupValid s).initialized.trans i))
  · exact Keeps.refl s

/-- VBUS lost: everything cancelled, DISCONNECTED. -/
theorem keeps_detached {s : State} (i : s.initialized = true) :
    Keeps c s (setDevState .disconnected (blockCancel { s with vbusLevel := false }).2) := by
  have e : (blockCancel { s with vbusLevel := false }).2 = resetEffect (State.modAllPipes { s with vbusLevel := false } cancelPipe) := by
    unfold blockCancel blockReset
    rw [if_pos i, if_pos (show (State.modAllPipes { s with vbusLevel := false } cancelPipe).initialized = true from i)]
  rw [e]
  have f0 : Frame s { s with vbusLevel := false } := .of_eq rfl rfl rfl rfl rfl rfl
  have f : Frame s (resetEffect (State.modAllPipes { s with vbusLevel := false } cancelPipe)) :=
    f0.trans ((frame_cancel { s with vbusLevel := false }).trans (frame_resetEffect _))
  refine ⟨f.trans (Frame.setDevState _ _), fun _ => (resetEffect_initialized _).trans i, fun _ => DevState.noConfusion, .inr fun _ => rfl, fun h => ?_⟩
  have b := h.base i
  have b' : Base { s with vbusLevel := false } := ⟨b.params, b.memory, b.counts, b.config, b.distinct,
    fun f p => by have := b.owner f p; cases f <;> exact this, b.initialized, b.served⟩
  exact b'.cancel.resetTo .disconnected rfl fun n => absurd rfl n
theorem keeps_onVbint {s : State} (i : s.initialized = true) : (onVbint s).All (Keeps c s) := by
  have h := quiet_debounce s
  unfold onVbint
  split <;> rename_i t e <;> rw [e] at h
  · exact h.keeps
  · rename_i lvl
    have ti : t.initialized = true := h.initialized.trans i
    split
    · exact h.keeps
    · cases lvl with
      | true => exact (h.keeps.trans (keeps_vbusHigh ti)).then (keeps_attach _)
      | false =>
        have k : Keeps c s _ := h.keeps.trans (keeps_detached ti)
        show (detach _).All _
        unfold detach
        dsimp only
        generalize setDevState .disconnected (blockCancel { t with vbusLevel := false }).2 = u at k ⊢
        split
        · exact (k.trans (keeps_fields (k.init i) false u.configValue)).then (keeps_callback _ _)
        · exact k

/-- Every handler of an initialised block keeps what holds; only a bus reset leaves DISCONNECTED. -/
theorem keeps_handler (x : Source) {s : State} (i : s.initialized = true) (hc : x = .dvst → s.usbState = .defaultState → c) :
    (handler x s).All (Keeps c s) := by
  cases x with
  | bemp p =>
    simp only [handler]
    split
    · exact Keeps.refl s
    · rename_i h; exact keeps_onBemp h s
  | nrdy p =>
    simp only [handler]
    split
    · exact Keeps.refl s
    · rename_i h; exact keeps_onNrdy h s
  | brdy p =>
    simp only [handler]
    split
    · exact keeps_onBrdy0 i
    · rename_i h; exact keeps_onBrdy h s
  | dvst => exact keeps_onDvst (hc rfl) i
  | ctrt => exact keeps_onCtrt i
  | resm => exact Keeps.refl s
  | vbint => exact keeps_onVbint i

end Sys2Proof.Machine
end

