-- ==== Sys2Proof/Laws/Pass.lean ====
section
/-! SUPPORT. What a pass and every instruction keep of the invariant, the status bits and the discipline of the
trace; and everything that a step can do. -/

namespace Sys2Proof.Machine

/-! ### A pass -/

/-- What a pass over a snapshot keeps. -/
structure Passes (snap : Source → Bool) (s t : State) : Prop where
  params : t.params = s.params
  usbState : t.usbState = s.usbState
  trace : ∃ es, t.trace = s.trace ++ es ∧ disciplined es = true
  sts : ∀ x, snap x = false → statusBit t x = statusBit s x
  init : s.initialized = true → t.initialized = true
  notIn : s.devState ≠ .controlIn → t.devState ≠ .controlIn
  disc : (snap .dvst = true ∧ s.usbState = .defaultState) ∨ (s.devState = .disconnected → t.devState = .disconnected)
  core : Core s → Core t

variable {snap : Source → Bool}

theorem Passes.refl (s : State) : Passes snap s s := ⟨rfl, rfl, ⟨[], by simp, rfl⟩, fun _ _ => rfl, id, id, .inr id, id⟩

theorem Passes.trans {s t u : State} (a : Passes snap s t) (b : Passes snap t u) : Passes snap s u := by
  obtain ⟨x, hx, dx⟩ := a.trace
  obtain ⟨y, hy, dy⟩ := b.trace
  refine ⟨b.params.trans a.params, b.usbState.trans a.usbState,
    ⟨x ++ y, by rw [hy, hx, List.append_assoc], disciplined_append dx dy⟩, fun z n => (b.sts z n).trans (a.sts z n), b.init ∘ a.init,
    b.notIn ∘ a.notIn, ?_, b.core ∘ a.core⟩
  rcases a.disc with h | h
  · exact .inl h
  · rcases b.disc with h' | h'
    · exact .inl ⟨h'.1, by rw [← a.usbState]; exact h'.2⟩
    · exact .inr (h' ∘ h)

theorem Keeps.passes {s t : State} (k : Keeps (snap .dvst = true ∧ s.usbState = .defaultState) s t) : Passes snap s t :=
  ⟨k.frame.params, k.frame.usbState, k.frame.trace, fun x _ => k.frame.sts x, k.init, k.notIn, k.disc, k.core⟩

/-- The write that clears a status bit. -/
theorem passes_clearSts {x : Source} (h : snap x = true) (s : State) : Passes snap s (clearSts x s) := by
  have key : ∀ z, snap z = false → z ≠ x := fun z n e => by rw [e, h] at n; cases n
  have mk : ∀ {t : State}, t.params = s.params → t.usbState = s.usbState → (∃ e, t.trace = s.trace ++ [e] ∧ disciplined [e] = true) →
      (∀ z, z ≠ x → statusBit t z = statusBit s z) → t.initialized = s.initialized → t.devState = s.devState → (Core s → Core t) →
      Passes snap s t := fun a b ⟨e, c, c'⟩ d i v k => ⟨a, b, ⟨[e], c, c'⟩, fun z n => d z (key z n), fun h => i.trans h,
        fun h => by rw [v]; exact h, .inr fun h => v.trans h, k⟩
  have sts : ∀ (p : Pipe) (g : PipeState → PipeState) (e : TraceEntry), (∀ y, PipeSame y (g y)) →
      Core s → Core ((s.modPipe p g).logs [e]) := fun p g e hg h =>
    h.of_calm rfl rfl rfl rfl rfl rfl rfl rfl rfl (fun q => by
      rw [State.pipe_logs, State.pipe_modPipe]
      split
      · rename_i e; rw [← e]; exact hg _
      · exact .refl _) fun f _ h => by simpa using h
  cases x with
  | bemp p =>
    refine mk rfl rfl ⟨_, rfl, rfl⟩ (fun z n => ?_) rfl rfl (sts p _ _ fun _ => ⟨rfl, rfl, rfl, rfl, rfl, rfl⟩)
    cases z <;> simp only [statusBit, clearSts, State.pipe_logs, State.pipe_modPipe] <;> first | rfl | (split <;> simp_all)
  | nrdy p =>
    refine mk rfl rfl ⟨_, rfl, rfl⟩ (fun z n => ?_) rfl rfl (sts p _ _ fun _ => ⟨rfl, rfl, rfl, rfl, rfl, rfl⟩)
    cases z <;> simp only [statusBit, clearSts, State.pipe_logs, State.pipe_modPipe] <;> first | rfl | (split <;> simp_all)
  | brdy p =>
    refine mk rfl rfl ⟨_, rfl, rfl⟩ (fun z n => ?_) rfl rfl (sts p _ _ fun _ => ⟨rfl, rfl, rfl, rfl, rfl, rfl⟩)
    cases z <;> simp only [statusBit, clearSts, State.pipe_logs, State.pipe_modPipe] <;> first | rfl | (split <;> simp_all)
  | dvst =>
    refine mk rfl rfl ⟨_, rfl, rfl⟩ (fun z n => ?_) rfl rfl fun h => h.of_calm rfl rfl rfl rfl rfl rfl rfl rfl rfl (fun _ => .refl _)
      fun f _ h => by cases f <;> exact h
    cases z <;> first | rfl | exact absurd rfl n
  | ctrt =>
    refine mk rfl rfl ⟨_, rfl, rfl⟩ (fun z n => ?_) rfl rfl fun h => h.of_calm rfl rfl rfl rfl rfl rfl rfl rfl rfl (fun _ => .refl _)
      fun f _ h => by cases f <;> exact h
    cases z <;> first | rfl | exact absurd rfl n
  | resm =>
    refine mk rfl rfl ⟨_, rfl, rfl⟩ (fun z n => ?_) rfl rfl fun h => h.of_calm rfl rfl rfl rfl rfl rfl rfl rfl rfl (fun _ => .refl _)
      fun f _ h => by cases f <;> exact h
    cases z <;> first | rfl | exact absurd rfl n
  | vbint =>
    refine mk rfl rfl ⟨_, rfl, rfl⟩ (fun z n => ?_) rfl rfl fun h => h.of_calm rfl rfl rfl rfl rfl rfl rfl rfl rfl (fun _ => .refl _)
      fun f _ h => by cases f <;> exact h
    cases z <;> first | rfl | exact absurd rfl n

/-- The context is no part of what a pass keeps. -/
theorem passes_withCtx (s : State) (k : Context) : Passes snap s (s.withCtx k) :=
  ⟨rfl, rfl, ⟨[], (List.append_nil _).symm, rfl⟩, fun x _ => by cases x <;> rfl, id, id, .inr id, core_withCtx k⟩

/-- Serving any sources that the snapshot holds. -/
theorem passes_serveAll (xs : List Source) {s : State} (i : s.initialized = true) : (serveAll snap handler xs s).All (Passes snap s) := by
  induction xs generalizing s with
  | nil => exact Passes.refl s
  | cons x xs ih =>
    simp only [serveAll]
    split
    · rename_i hx
      have h1 := passes_clearSts hx s
      have h2 := keeps_handler (c := snap .dvst = true ∧ (clearSts x s).usbState = .defaultState) x (h1.init i) fun e u => ⟨e ▸ hx, u⟩
      refine h2.bind (fun _ k => h1.trans k.passes) fun _ t k => ?_
      have h3 := h1.trans k.passes
      exact (ih (h3.init i)).mono fun _ => h3.trans
    · exact ih i

/-- What a turn of the ISR does: nothing, or a pass over what is pending. -/
def Turn (s t : State) : Prop :=
  t = s ∨ (s.initialized = true ∧ Passes (pending s) s t ∧ (t.fatal = true ∨ t.ctx = s.ctx))

theorem turn_takeInterrupt (xs : List Source) {s : State} (i : s.initialized = true) :
    (takeInterrupt (pending s) handler xs s).All (Turn s) := by
  unfold takeInterrupt
  have h0 : Passes (pending s) s (isrEnter s) := passes_withCtx s .isr
  have h := passes_serveAll (snap := pending s) xs (s := isrEnter s) i
  generalize serveAll (pending s) handler xs (isrEnter s) = r at h
  cases r with
  | done a t => exact .inr ⟨i, (h0.trans h).trans (passes_withCtx t s.ctx), .inr rfl⟩
  | halt t => exact ⟨.inr ⟨i, h0.trans h.1, .inl h.2⟩, h.2⟩
  | refused e => trivial

theorem turn_isrTurn (s : State) : (isrTurn s).All (Turn s) := by
  unfold isrTurn
  split
  · rename_i h
    exact turn_takeInterrupt passOrder ((lineAsserted_iff s).mp h).1.1
  · exact .inl rfl
theorem turn_serveOne (x : Source) (s : State) : (serveOne x s).All (Turn s) := by
  unfold serveOne
  split
  · rename_i h
    simp only [Bool.and_eq_true] at h
    exact turn_takeInterrupt [x] h.1
  · exact .inl rfl
theorem turn_serveField (f : Pipe → Source) (a : BitVec 4) (s : State) : (serveField f a s).All (Turn s) := by
  unfold serveField
  split
  · exact turn_serveOne _ s
  · trivial

/-! ### The instructions -/

/-- Every command keeps what holds, and no status bit changes. -/
theorem keeps_command {c : Prop} {i : Instr} (h : ∃ w o, encode i = .cmd w o) (s : State) : (bodyOf i s).All (Keeps c s) := by
  obtain ⟨w, o, h⟩ := h
  cases i <;> first | (cases h; done) | skip
  case init d k => exact keeps_returnRes (keeps_blockInit d k s)
  case controlAck => exact keeps_insideOnSetup (s := s) (f := fun s => returnCode (controlAck s)) (keeps_returnCode (s := s) (r := controlAck s) (keeps_controlAck s))
  case controlIn len buf => exact keeps_insideOnSetup (f := controlInCmd len buf) (keeps_returnRes (keeps_controlIn len buf s))
  case controlOut len buf k =>
    exact keeps_insideOnSetup (s := s) (f := fun s => returnCode (controlOut len buf k s)) (keeps_returnCode (s := s) (r := controlOut len buf k s) (keeps_controlOut len buf k s))
  case bulkIn len buf k => exact keeps_returnCode (keeps_start .bulkIn (by decide) _ len buf k s)
  case bulkOut len buf k => exact keeps_returnCode (keeps_start .bulkOut (by decide) _ len buf k s)
  case interruptIn len buf k => exact keeps_returnCode (keeps_start .intIn (by decide) _ len buf k s)
  case stallControl =>
    exact keeps_insideOnSetup (s := s) (f := fun s => returnCode (stallClass .control s)) (keeps_returnCode (s := s) (r := stallClass .control s) (keeps_stallClass .control s))
  case stallBulkIn => exact keeps_returnCode (keeps_stallClass .bulkIn s)
  case stallBulkOut => exact keeps_returnCode (keeps_stallClass .bulkOut s)
  case stallIntIn => exact keeps_returnCode (keeps_stallClass .intIn s)
  case getDeviceState => exact (quiet_setResult _ s).keeps
  case isEndpointStalled a => exact (quiet_setResult _ s).keeps
  case cancel => exact keeps_returnCode (keeps_blockCancel s)
  case reset => exact keeps_returnCode (keeps_blockReset s)
  case resetEndpoints t => exact keeps_returnCode (keeps_resetEndpoints t s)

/-- Every event is a turn of the ISR. -/
theorem turn_event {i : Instr} (h : ∃ e, encode i = .evt e) (s : State) : (bodyOf i s).All (Turn s) := by
  obtain ⟨e, h⟩ := h
  cases i <;> first | (cases h; done) | skip
  case evtIsr => exact turn_isrTurn s
  case evtBemp0 => exact turn_serveOne _ s
  case evtNrdy0 => exact turn_serveOne _ s
  case evtBrdy0 => exact turn_serveOne _ s
  case evtBemp a => exact turn_serveField _ a s
  case evtNrdy a => exact turn_serveField _ a s
  case evtBrdy a => exact turn_serveField _ a s
  case evtDvst => exact turn_serveOne _ s
  case evtCtrt => exact turn_serveOne _ s
  case evtResm => exact turn_serveOne _ s
  case evtVbint => exact turn_serveOne _ s

theorem noArg_ok {a : BitVec 4} {i j : Instr} (h : noArg a i = .ok j) : j = i := by
  unfold noArg at h
  split at h
  · exact (Except.ok.inj h).symm
  · cases h

/-- A command word decodes to a command. -/
theorem decodeCmd_command {w : BitVec 32} {o : Operands} {i : Instr} (h : decodeCmd w o = .ok i) : ∃ w' o', encode i = .cmd w' o' := by
  unfold decodeCmd at h
  split at h
  · cases h
  · split at h
    all_goals first
      | (obtain rfl := noArg_ok h; exact ⟨_, _, rfl⟩)
      | (split at h <;> cases h <;> exact ⟨_, _, rfl⟩)
      | (cases h; exact ⟨_, _, rfl⟩)
      | cases h

theorem pipeEvent_ok {p : BitVec 4} {z : Instr} {d : BitVec 4 → Instr} {j : Instr} (h : pipeEvent p z d = .ok j) : j = z ∨ j = d p := by
  unfold pipeEvent at h
  split at h
  · exact .inl (Except.ok.inj h).symm
  · split at h
    · exact .inr (Except.ok.inj h).symm
    · cases h

/-- An event word decodes to an event. -/
theorem decodeEvt_event {e : BitVec 16} {i : Instr} (h : decodeEvt e = .ok i) : ∃ e', encode i = .evt e' := by
  unfold decodeEvt at h
  split at h
  · cases h
  · split at h
    all_goals first
      | (obtain rfl := noArg_ok h; exact ⟨_, rfl⟩)
      | (rcases pipeEvent_ok h with rfl | rfl <;> exact ⟨_, rfl⟩)
      | cases h

/-- A setup packet decodes to a setup row. -/
theorem decodeSetup_setup (S : BitVec 64) : ∃ S', packetOf (decodeSetup S) = some S' := by
  unfold decodeSetup
  split <;> exact ⟨_, rfl⟩

/-! ### A step -/

/-- What an agent's step does to the state it starts from. -/
inductive Moves (s t : State) : Prop where
  | command (h : Keeps False (s.withCtx .task) t)
  | event (u : State) (f : u = s ∨ ∃ S, u = ctlSetup S s) (h : Turn u t)
  | calm (e : t.trace = s.trace) (c : Core s → Core t) (d : t.devState = s.devState) (x : t.ctx = s.ctx)

theorem core_ctlStep (k : CtlStep) {s : State} (h : Core s) : Core (ctlStep k s) := by
  have hp : ∀ (p : Pipe) (g : PipeState → PipeState), (∀ x, PipeSame x (g x)) → Core (s.modPipe p g) := fun p g hg =>
    core_same h (fun q => by
      rw [State.pipe_modPipe]
      split
      · rename_i e; rw [← e]; exact hg _
      · exact .refl _) rfl rfl rfl rfl rfl rfl rfl rfl rfl rfl rfl rfl
  cases k
  case setBrdy p => exact hp p (fun x => { x with brdySts := true }) fun _ => ⟨rfl, rfl, rfl, rfl, rfl, rfl⟩
  case setNrdy p => exact hp p (fun x => { x with nrdySts := true }) fun _ => ⟨rfl, rfl, rfl, rfl, rfl, rfl⟩
  case setBemp p => exact hp p (fun x => { x with bempSts := true }) fun _ => ⟨rfl, rfl, rfl, rfl, rfl, rfl⟩
  all_goals exact core_same h (fun _ => .refl _) rfl rfl rfl rfl rfl rfl rfl rfl rfl rfl rfl rfl

/-- All that a caller's write changes: the byte it names, and the draws. -/
theorem callerWrite_spec (a : Addr) (b : Byte) (s : State) : ∃ v e, callerWrite a b s = (s.withEnv e).withMem (s.mem.write a.toNat v) := by
  unfold callerWrite
  cases inUse s a.toNat
  · exact ⟨b, s.env, rfl⟩
  · exact ⟨_, s.tick.env, rfl⟩

/-- All that a caller's read changes: what it has observed, and the draws. -/
theorem callerRead_spec (a : Addr) (s : State) : ∃ v e, callerRead a s = { s.withEnv e with reads := s.reads ++ [⟨a, v⟩] } := by
  unfold callerRead
  cases inArrival s a.toNat
  · exact ⟨s.mem.read a.toNat, s.env, rfl⟩
  · exact ⟨_, s.tick.env, rfl⟩

/-- Everything that one agent's turn can do. -/
theorem perform_moves {a : Action} {s t : State} (f : s.fatal = false) (h : perform a s = .next t) : Moves s t := by
  cases a with
  | cmd w o =>
    simp only [perform, runCommand, runInput, decode] at h
    cases hd : decodeCmd w o with
    | error e => rw [hd] at h; cases h
    | ok i =>
      rw [hd] at h
      have l : (s.withCtx .task).fatal = false := f
      change exec i (s.withCtx .task) = _ at h
      rw [exec_running l] at h
      exact .command ((keeps_command (decodeCmd_command hd) (s.withCtx .task)).next h)
  | evt e =>
    simp only [perform, runInput, decode] at h
    cases hd : decodeEvt e with
    | error e => rw [hd] at h; cases h
    | ok i =>
      rw [hd] at h
      change exec i s = _ at h
      rw [exec_running f] at h
      exact .event s (.inl rfl) ((turn_event (decodeEvt_event hd) s).next h)
  | setup S =>
    obtain ⟨S', hS⟩ := decodeSetup_setup S
    change exec (decodeSetup S) s = _ at h
    rw [exec_running f, bodyOf_setup hS] at h
    exact .event (ctlSetup S' s) (.inr ⟨S', rfl⟩) ((turn_isrTurn _).next h)
  | ctl k =>
    cases h
    refine .calm ?_ (core_ctlStep k) ?_ ?_ <;> cases k <;> rfl
  | wait p =>
    cases h
    exact .calm rfl (fun k => core_same k (fun _ => .refl _) rfl rfl rfl rfl rfl rfl rfl rfl rfl rfl rfl rfl) rfl rfl
  | callerWrite x b =>
    cases h
    obtain ⟨v, e, h⟩ := callerWrite_spec x b s
    rw [h]
    exact .calm rfl (fun k => ((Quiet.withEnv s e).stays.trans
      (stays_withMem (m := s.mem.write x.toNat v) fun k => Memory.wf_write k.memory v x.isLt)).core k) rfl rfl
  | callerRead x =>
    cases h
    obtain ⟨v, e, h⟩ := callerRead_spec x s
    rw [h]
    exact .calm rfl (fun k => core_same k (fun _ => .refl _) rfl rfl rfl rfl rfl rfl rfl rfl rfl rfl rfl rfl) rfl rfl

/-- Every step is the move of one agent. -/
theorem step_moves {s t : State} (h : step s = .next t) : s.fatal = false ∧ ∃ rest, Moves { s with inputs := rest } t := by
  unfold step at h
  split at h
  · cases h
  · rename_i f
    have f : s.fatal = false := by simpa using f
    refine ⟨f, ?_⟩
    split at h
    · rename_i e
      rw [exec_running f] at h
      exact ⟨s.inputs, .event s (.inl rfl) ((turn_isrTurn s).next h)⟩
    · rename_i a rest e
      exact ⟨rest, perform_moves (s := { s with inputs := rest }) f h⟩

end Sys2Proof.Machine
end

