-- ==== Sys2Proof/Laws/PerInstr.lean ====
section
/-! SUPPORT. One family of statements made instruction by instruction: the encoding of an instruction lies in its row
of spec/opcode_table.json. -/

namespace Sys2Proof.Laws.EncodesRow

/-- The word of an input, in 64 bits. -/
def wordOf : Input → BitVec 64
  | .setup S => S
  | .cmd w _ => w.setWidth 64
  | .evt e => e.setWidth 64

/-- The mask and the match of an instruction's row. -/
def rowBits : Instr → Nat × Nat
  | .srGetStatusDevice _ _ _ => (0xFFFF, 0x80)
  | .srGetStatusInterface _ _ _ => (0xFFFF, 0x81)
  | .srGetStatusEndpoint _ _ _ => (0xFFFF, 0x82)
  | .srClearFeatureEpHalt _ _ => (0xFFFFFFFF, 0x102)
  | .srSetFeatureEpHalt _ _ => (0xFFFFFFFF, 0x302)
  | .srSetAddress _ _ _ => (0xFFFF, 0x500)
  | .srGetDescriptorDevice _ _ _ => (0xFF00FFFF, 0x1000680)
  | .srGetDescriptorConfiguration _ _ _ => (0xFF00FFFF, 0x2000680)
  | .srGetDescriptorString _ _ _ => (0xFF00FFFF, 0x3000680)
  | .srGetDescriptorDeviceQualifier _ _ _ => (0xFF00FFFF, 0x6000680)
  | .srGetDescriptorOtherSpeed _ _ _ => (0xFF00FFFF, 0x7000680)
  | .srGetConfiguration _ _ _ => (0xFFFF, 0x880)
  | .srSetConfiguration _ _ _ => (0xFFFF, 0x900)
  | .srGetInterface _ _ _ => (0xFFFF, 0xA81)
  | .srSetInterface _ _ _ => (0xFFFF, 0xB01)
  | .srStandardOther _ _ _ _ _ _ => (0x60, 0x0)
  | .srClass _ _ _ _ _ _ => (0x60, 0x20)
  | .srVendor _ _ _ _ _ _ => (0x60, 0x40)
  | .srReservedType _ _ _ _ _ _ => (0x60, 0x60)
  | .init _ _ => (0xFFFFFFFF, 0x1)
  | .controlAck => (0xFFFFFFFF, 0x2)
  | .controlIn _ _ => (0xFFFFFFFF, 0x3)
  | .controlOut _ _ _ => (0xFFFFFFFF, 0x4)
  | .bulkIn _ _ _ => (0xFFFFFFFF, 0x5)
  | .bulkOut _ _ _ => (0xFFFFFFFF, 0x6)
  | .interruptIn _ _ _ => (0xFFFFFFFF, 0x7)
  | .stallControl => (0xFFFFFFFF, 0x8)
  | .stallBulkIn => (0xFFFFFFFF, 0x108)
  | .stallBulkOut => (0xFFFFFFFF, 0x208)
  | .stallIntIn => (0xFFFFFFFF, 0x308)
  | .getDeviceState => (0xFFFFFFFF, 0x9)
  | .isEndpointStalled _ => (0xFFFFF0FF, 0xA)
  | .cancel => (0xFFFFFFFF, 0xB)
  | .reset => (0xFFFFFFFF, 0xC)
  | .resetEndpoints _ => (0xFFFFFFFF, 0xD)
  | .evtIsr => (0xFFFF, 0x0)
  | .evtBemp0 => (0xFFFF, 0x1)
  | .evtNrdy0 => (0xFFFF, 0x2)
  | .evtBrdy0 => (0xFFFF, 0x3)
  | .evtBemp _ => (0xF0FF, 0x1)
  | .evtNrdy _ => (0xF0FF, 0x2)
  | .evtBrdy _ => (0xF0FF, 0x3)
  | .evtDvst => (0xFFFF, 0x10)
  | .evtCtrt => (0xFFFF, 0x11)
  | .evtResm => (0xFFFF, 0x12)
  | .evtVbint => (0xFFFF, 0x13)

/-- The encoding of an instruction has the fixed bits of its row. -/
def Statement (i : Instr) : Prop :=
  wordOf (encode i) &&& BitVec.ofNat 64 (rowBits i).1 = BitVec.ofNat 64 (rowBits i).2

/-- A setup word under a mask given field by field. -/
theorem masked {t r mt mr : BitVec 8} {v i l mv : BitVec 16} {m w : BitVec 64} (hm : m = setupWord mt mr mv 0 0)
    (hw : w = setupWord (t &&& mt) (r &&& mr) (v &&& mv) 0 0) : setupWord t r v i l &&& m = w := by
  rw [hm, setupWord_and, hw]
  simp

theorem srGetStatusDevice (value index length : BitVec 16) : Statement (.srGetStatusDevice value index length) :=
  masked (mt := 0xFF) (mr := 0xFF) (mv := 0) (m := 0xFFFF#64) (w := 0x80#64) (by decide) (by
  rw [show value &&& (0 : BitVec 16) = 0 from BitVec.and_zero]; decide)
theorem srGetStatusInterface (value index length : BitVec 16) : Statement (.srGetStatusInterface value index length) :=
  masked (mt := 0xFF) (mr := 0xFF) (mv := 0) (m := 0xFFFF#64) (w := 0x81#64) (by decide) (by
  rw [show value &&& (0 : BitVec 16) = 0 from BitVec.and_zero]; decide)
theorem srGetStatusEndpoint (value index length : BitVec 16) : Statement (.srGetStatusEndpoint value index length) :=
  masked (mt := 0xFF) (mr := 0xFF) (mv := 0) (m := 0xFFFF#64) (w := 0x82#64) (by decide) (by
  rw [show value &&& (0 : BitVec 16) = 0 from BitVec.and_zero]; decide)
theorem srClearFeatureEpHalt (index length : BitVec 16) : Statement (.srClearFeatureEpHalt index length) :=
  masked (mt := 0xFF) (mr := 0xFF) (mv := 0xFFFF) (m := 0xFFFFFFFF#64) (w := 0x102#64) (by decide) (by decide)
theorem srSetFeatureEpHalt (index length : BitVec 16) : Statement (.srSetFeatureEpHalt index length) :=
  masked (mt := 0xFF) (mr := 0xFF) (mv := 0xFFFF) (m := 0xFFFFFFFF#64) (w := 0x302#64) (by decide) (by decide)
theorem srSetAddress (value index length : BitVec 16) : Statement (.srSetAddress value index length) :=
  masked (mt := 0xFF) (mr := 0xFF) (mv := 0) (m := 0xFFFF#64) (w := 0x500#64) (by decide) (by
  rw [show value &&& (0 : BitVec 16) = 0 from BitVec.and_zero]; decide)
theorem srGetDescriptorDevice (descIndex : BitVec 8) (index length : BitVec 16) : Statement (.srGetDescriptorDevice descIndex index length) :=
  masked (mt := 0xFF) (mr := 0xFF) (mv := 0xFF00) (m := 0xFF00FFFF#64) (w := 0x1000680#64) (by decide) (by
  rw [descValue_and]; decide)
theorem srGetDescriptorConfiguration (descIndex : BitVec 8) (index length : BitVec 16) : Statement (.srGetDescriptorConfiguration descIndex index length) :=
  masked (mt := 0xFF) (mr := 0xFF) (mv := 0xFF00) (m := 0xFF00FFFF#64) (w := 0x2000680#64) (by decide) (by
  rw [descValue_and]; decide)
theorem srGetDescriptorString (descIndex : BitVec 8) (index length : BitVec 16) : Statement (.srGetDescriptorString descIndex index length) :=
  masked (mt := 0xFF) (mr := 0xFF) (mv := 0xFF00) (m := 0xFF00FFFF#64) (w := 0x3000680#64) (by decide) (by
  rw [descValue_and]; decide)
theorem srGetDescriptorDeviceQualifier (descIndex : BitVec 8) (index length : BitVec 16) : Statement (.srGetDescriptorDeviceQualifier descIndex index length) :=
  masked (mt := 0xFF) (mr := 0xFF) (mv := 0xFF00) (m := 0xFF00FFFF#64) (w := 0x6000680#64) (by decide) (by
  rw [descValue_and]; decide)
theorem srGetDescriptorOtherSpeed (descIndex : BitVec 8) (index length : BitVec 16) : Statement (.srGetDescriptorOtherSpeed descIndex index length) :=
  masked (mt := 0xFF) (mr := 0xFF) (mv := 0xFF00) (m := 0xFF00FFFF#64) (w := 0x7000680#64) (by decide) (by
  rw [descValue_and]; decide)
theorem srGetConfiguration (value index length : BitVec 16) : Statement (.srGetConfiguration value index length) :=
  masked (mt := 0xFF) (mr := 0xFF) (mv := 0) (m := 0xFFFF#64) (w := 0x880#64) (by decide) (by
  rw [show value &&& (0 : BitVec 16) = 0 from BitVec.and_zero]; decide)
theorem srSetConfiguration (value index length : BitVec 16) : Statement (.srSetConfiguration value index length) :=
  masked (mt := 0xFF) (mr := 0xFF) (mv := 0) (m := 0xFFFF#64) (w := 0x900#64) (by decide) (by
  rw [show value &&& (0 : BitVec 16) = 0 from BitVec.and_zero]; decide)
theorem srGetInterface (value index length : BitVec 16) : Statement (.srGetInterface value index length) :=
  masked (mt := 0xFF) (mr := 0xFF) (mv := 0) (m := 0xFFFF#64) (w := 0xA81#64) (by decide) (by
  rw [show value &&& (0 : BitVec 16) = 0 from BitVec.and_zero]; decide)
theorem srSetInterface (value index length : BitVec 16) : Statement (.srSetInterface value index length) :=
  masked (mt := 0xFF) (mr := 0xFF) (mv := 0) (m := 0xFFFF#64) (w := 0xB01#64) (by decide) (by
  rw [show value &&& (0 : BitVec 16) = 0 from BitVec.and_zero]; decide)
theorem srStandardOther (dir : BitVec 1) (recipient : BitVec 5) (request : BitVec 8) (value index length : BitVec 16) : Statement (.srStandardOther dir recipient request value index length) :=
  masked (mt := 0x60) (mr := 0) (mv := 0) (m := 0x60#64) (w := 0x0#64) (by decide) (by
  rw [show value &&& (0 : BitVec 16) = 0 from BitVec.and_zero, show request &&& (0 : BitVec 8) = 0 from BitVec.and_zero]
  revert dir recipient; decide)
theorem srClass (dir : BitVec 1) (recipient : BitVec 5) (request : BitVec 8) (value index length : BitVec 16) : Statement (.srClass dir recipient request value index length) :=
  masked (mt := 0x60) (mr := 0) (mv := 0) (m := 0x60#64) (w := 0x20#64) (by decide) (by
  rw [show value &&& (0 : BitVec 16) = 0 from BitVec.and_zero, show request &&& (0 : BitVec 8) = 0 from BitVec.and_zero]
  revert dir recipient; decide)
theorem srVendor (dir : BitVec 1) (recipient : BitVec 5) (request : BitVec 8) (value index length : BitVec 16) : Statement (.srVendor dir recipient request value index length) :=
  masked (mt := 0x60) (mr := 0) (mv := 0) (m := 0x60#64) (w := 0x40#64) (by decide) (by
  rw [show value &&& (0 : BitVec 16) = 0 from BitVec.and_zero, show request &&& (0 : BitVec 8) = 0 from BitVec.and_zero]
  revert dir recipient; decide)
theorem srReservedType (dir : BitVec 1) (recipient : BitVec 5) (request : BitVec 8) (value index length : BitVec 16) : Statement (.srReservedType dir recipient request value index length) :=
  masked (mt := 0x60) (mr := 0) (mv := 0) (m := 0x60#64) (w := 0x60#64) (by decide) (by
  rw [show value &&& (0 : BitVec 16) = 0 from BitVec.and_zero, show request &&& (0 : BitVec 8) = 0 from BitVec.and_zero]
  revert dir recipient; decide)
theorem init (d : DescSet) (c : Callbacks) : Statement (.init d c) :=
  (by decide : (cmdWord 0x01 0).setWidth 64 &&& 0xFFFFFFFF#64 = 0x1#64)
theorem controlAck : Statement .controlAck :=
  (by decide : (cmdWord 0x02 0).setWidth 64 &&& 0xFFFFFFFF#64 = 0x2#64)
theorem controlIn (len : Len) (buf : Addr) : Statement (.controlIn len buf) :=
  (by decide : (cmdWord 0x03 0).setWidth 64 &&& 0xFFFFFFFF#64 = 0x3#64)
theorem controlOut (len : Len) (buf : Addr) (k : Option CbId) : Statement (.controlOut len buf k) :=
  (by decide : (cmdWord 0x04 0).setWidth 64 &&& 0xFFFFFFFF#64 = 0x4#64)
theorem bulkIn (len : Len) (buf : Addr) (k : Option CbId) : Statement (.bulkIn len buf k) :=
  (by decide : (cmdWord 0x05 0).setWidth 64 &&& 0xFFFFFFFF#64 = 0x5#64)
theorem bulkOut (len : Len) (buf : Addr) (k : Option CbId) : Statement (.bulkOut len buf k) :=
  (by decide : (cmdWord 0x06 0).setWidth 64 &&& 0xFFFFFFFF#64 = 0x6#64)
theorem interruptIn (len : Len) (buf : Addr) (k : Option CbId) : Statement (.interruptIn len buf k) :=
  (by decide : (cmdWord 0x07 0).setWidth 64 &&& 0xFFFFFFFF#64 = 0x7#64)
theorem stallControl : Statement .stallControl :=
  (by decide : (cmdWord 0x08 0).setWidth 64 &&& 0xFFFFFFFF#64 = 0x8#64)
theorem stallBulkIn : Statement .stallBulkIn :=
  (by decide : (cmdWord 0x08 1).setWidth 64 &&& 0xFFFFFFFF#64 = 0x108#64)
theorem stallBulkOut : Statement .stallBulkOut :=
  (by decide : (cmdWord 0x08 2).setWidth 64 &&& 0xFFFFFFFF#64 = 0x208#64)
theorem stallIntIn : Statement .stallIntIn :=
  (by decide : (cmdWord 0x08 3).setWidth 64 &&& 0xFFFFFFFF#64 = 0x308#64)
theorem getDeviceState : Statement .getDeviceState :=
  (by decide : (cmdWord 0x09 0).setWidth 64 &&& 0xFFFFFFFF#64 = 0x9#64)
theorem isEndpointStalled (pipe : BitVec 4) : Statement (.isEndpointStalled pipe) := by
  revert pipe
  unfold Statement
  decide
theorem cancel : Statement .cancel :=
  (by decide : (cmdWord 0x0B 0).setWidth 64 &&& 0xFFFFFFFF#64 = 0xB#64)
theorem reset : Statement .reset :=
  (by decide : (cmdWord 0x0C 0).setWidth 64 &&& 0xFFFFFFFF#64 = 0xC#64)
theorem resetEndpoints (t : List CfgRec) : Statement (.resetEndpoints t) :=
  (by decide : (cmdWord 0x0D 0).setWidth 64 &&& 0xFFFFFFFF#64 = 0xD#64)
theorem evtIsr : Statement .evtIsr :=
  (by decide : (evtWord 0x00 0).setWidth 64 &&& 0xFFFF#64 = 0x0#64)
theorem evtBemp0 : Statement .evtBemp0 :=
  (by decide : (evtWord 0x01 0).setWidth 64 &&& 0xFFFF#64 = 0x1#64)
theorem evtNrdy0 : Statement .evtNrdy0 :=
  (by decide : (evtWord 0x02 0).setWidth 64 &&& 0xFFFF#64 = 0x2#64)
theorem evtBrdy0 : Statement .evtBrdy0 :=
  (by decide : (evtWord 0x03 0).setWidth 64 &&& 0xFFFF#64 = 0x3#64)
theorem evtBemp (pipe : BitVec 4) : Statement (.evtBemp pipe) := by
  revert pipe
  unfold Statement
  decide
theorem evtNrdy (pipe : BitVec 4) : Statement (.evtNrdy pipe) := by
  revert pipe
  unfold Statement
  decide
theorem evtBrdy (pipe : BitVec 4) : Statement (.evtBrdy pipe) := by
  revert pipe
  unfold Statement
  decide
theorem evtDvst : Statement .evtDvst :=
  (by decide : (evtWord 0x10 0).setWidth 64 &&& 0xFFFF#64 = 0x10#64)
theorem evtCtrt : Statement .evtCtrt :=
  (by decide : (evtWord 0x11 0).setWidth 64 &&& 0xFFFF#64 = 0x11#64)
theorem evtResm : Statement .evtResm :=
  (by decide : (evtWord 0x12 0).setWidth 64 &&& 0xFFFF#64 = 0x12#64)
theorem evtVbint : Statement .evtVbint :=
  (by decide : (evtWord 0x13 0).setWidth 64 &&& 0xFFFF#64 = 0x13#64)

end Sys2Proof.Laws.EncodesRow
end

