-- ==== Sys2Proof/Tests/Slice0.lean ====
section
/-! SUPPORT. Tests. Expected values are those of 95_test_vectors.md, part 2 and 3, or worked by hand from the rule named;
then one witness for the hypotheses of each statement. -/

namespace Sys2Proof.Tests

open Sys2Proof.Machine

/-! ### Ill-formed terms, refused -/

theorem test_wf_bemp_pipe0 : ¬ WellFormed (.evtBemp 0) := by decide
theorem test_wf_bemp_pipe10 : ¬ WellFormed (.evtBemp 10) := by decide
theorem test_wf_nrdy_pipe0 : ¬ WellFormed (.evtNrdy 0) := by decide
theorem test_wf_nrdy_pipe10 : ¬ WellFormed (.evtNrdy 10) := by decide
theorem test_wf_brdy_pipe0 : ¬ WellFormed (.evtBrdy 0) := by decide
theorem test_wf_brdy_pipe10 : ¬ WellFormed (.evtBrdy 10) := by decide
/-- GET_STATUS of the device is a row of its own, so it is not SR_STANDARD_OTHER. -/
theorem test_wf_other_get_status : ¬ WellFormed (.srStandardOther 1 0 0 0 0 2) := by decide
/-- CLEAR_FEATURE of an endpoint halt is a row of its own. -/
theorem test_wf_other_clear_halt : ¬ WellFormed (.srStandardOther 0 2 1 0 0x81 0) := by decide
/-- GET_DESCRIPTOR of type 7 is a row of its own. -/
theorem test_wf_other_descriptor : ¬ WellFormed (.srStandardOther 1 0 6 0x0700 0 9) := by decide

/-! ### Words written out from 30_encoding.md: one for each constructor -/

/-- Byte by byte: `80 00 00 00 00 00 02 00`. -/
theorem test_decode_bytes : decode (.setup (setupOfBytes 0x80 0x00 0x00 0x00 0x00 0x00 0x02 0x00))
    = .ok (.srGetStatusDevice 0 0 2) := by decide
theorem test_decode_get_status_interface : decode (.setup 0x0002000300000081) = .ok (.srGetStatusInterface 0 3 2) := by decide
theorem test_decode_get_status_endpoint : decode (.setup 0x0002008100000082) = .ok (.srGetStatusEndpoint 0 0x81 2) := by decide
theorem test_decode_clear_halt : decode (.setup 0x0000008100000102) = .ok (.srClearFeatureEpHalt 0x81 0) := by decide
theorem test_decode_set_halt : decode (.setup 0x0000008100000302) = .ok (.srSetFeatureEpHalt 0x81 0) := by decide
theorem test_decode_set_address : decode (.setup 0x0000000000050500) = .ok (.srSetAddress 5 0 0) := by decide
theorem test_decode_device : decode (.setup 0x0040000001000680) = .ok (.srGetDescriptorDevice 0 0 64) := by decide
theorem test_decode_configuration : decode (.setup 0x0009000002000680) = .ok (.srGetDescriptorConfiguration 0 0 9) := by decide
theorem test_decode_string : decode (.setup 0x00FF040903020680) = .ok (.srGetDescriptorString 2 0x0409 255) := by decide
theorem test_decode_qualifier : decode (.setup 0x000A000006000680) = .ok (.srGetDescriptorDeviceQualifier 0 0 10) := by decide
theorem test_decode_other_speed : decode (.setup 0x0009000007000680) = .ok (.srGetDescriptorOtherSpeed 0 0 9) := by decide
theorem test_decode_get_configuration : decode (.setup 0x0001000000000880) = .ok (.srGetConfiguration 0 0 1) := by decide
theorem test_decode_set_configuration : decode (.setup 0x0000000000010900) = .ok (.srSetConfiguration 1 0 0) := by decide
theorem test_decode_get_interface : decode (.setup 0x0001000000000A81) = .ok (.srGetInterface 0 0 1) := by decide
theorem test_decode_set_interface : decode (.setup 0x0000000000010B01) = .ok (.srSetInterface 1 0 0) := by decide
/-- CLEAR_FEATURE with selector 1, CLEAR_FEATURE of the device, a descriptor of type 4, GET_STATUS of recipient OTHER. -/
theorem test_decode_standard_other :
    decode (.setup 0x0000008100010102) = .ok (.srStandardOther 0 2 1 1 0x81 0)
    ∧ decode (.setup 0x0000000000010100) = .ok (.srStandardOther 0 0 1 1 0 0)
    ∧ decode (.setup 0x0000000004000680) = .ok (.srStandardOther 1 0 6 0x0400 0 0)
    ∧ decode (.setup 0x0000000000000083) = .ok (.srStandardOther 1 3 0 0 0 0) := by decide
theorem test_decode_class : decode (.setup 0x0008000002000921) = .ok (.srClass 0 1 9 0x0200 0 8) := by decide
theorem test_decode_vendor : decode (.setup 0x00000000000001C0) = .ok (.srVendor 1 0 1 0 0 0) := by decide
theorem test_decode_reserved_type : decode (.setup 0x00000000000000E0) = .ok (.srReservedType 1 0 0 0 0 0) := by decide

/-- An operand record with every field set. -/
def operands : Operands where
  desc := ⟨some ⟨0x20000100, 18⟩, some ⟨0x20000200, 32⟩, none, none, [⟨0x20000300, 4⟩], 0x0409⟩
  cb := ⟨1, 2, 3, 4, 5, 6, 7⟩
  len := 10
  buf := 0x20001000
  k := some 9
  table := [⟨2, ⟨.bulk, .IN, 1, .D0, false, 512, 0, 512, 0⟩⟩]

theorem test_decode_init : decode (.cmd 0x00000001 operands) = .ok (.init operands.desc operands.cb) := by decide
theorem test_decode_control_ack : decode (.cmd 0x00000002 operands) = .ok .controlAck := by decide
theorem test_decode_control_in : decode (.cmd 0x00000003 operands) = .ok (.controlIn 10 0x20001000) := by decide
theorem test_decode_control_out : decode (.cmd 0x00000004 operands) = .ok (.controlOut 10 0x20001000 (some 9)) := by decide
theorem test_decode_bulk_in : decode (.cmd 0x00000005 operands) = .ok (.bulkIn 10 0x20001000 (some 9)) := by decide
theorem test_decode_bulk_out : decode (.cmd 0x00000006 operands) = .ok (.bulkOut 10 0x20001000 (some 9)) := by decide
theorem test_decode_interrupt_in : decode (.cmd 0x00000007 operands) = .ok (.interruptIn 10 0x20001000 (some 9)) := by decide
/-- The four classes of STALL, in the order of 30_encoding.md R141. -/
theorem test_decode_stall : decode (.cmd 0x00000008 operands) = .ok .stallControl
    ∧ decode (.cmd 0x00000108 operands) = .ok .stallBulkIn ∧ decode (.cmd 0x00000208 operands) = .ok .stallBulkOut
    ∧ decode (.cmd 0x00000308 operands) = .ok .stallIntIn := by decide
theorem test_decode_get_device_state : decode (.cmd 0x00000009 operands) = .ok .getDeviceState := by decide
theorem test_decode_is_endpoint_stalled : decode (.cmd 0x00000C0A operands) = .ok (.isEndpointStalled 12) := by decide
theorem test_decode_cancel : decode (.cmd 0x0000000B operands) = .ok .cancel := by decide
theorem test_decode_reset : decode (.cmd 0x0000000C operands) = .ok .reset := by decide
theorem test_decode_reset_endpoints : decode (.cmd 0x0000000D operands) = .ok (.resetEndpoints operands.table) := by decide
/-- The event words of the pass, of pipe 0 and of the device. -/
theorem test_decode_events : decode (.evt 0x0000) = .ok .evtIsr ∧ decode (.evt 0x0001) = .ok .evtBemp0
    ∧ decode (.evt 0x0002) = .ok .evtNrdy0 ∧ decode (.evt 0x0003) = .ok .evtBrdy0 ∧ decode (.evt 0x0010) = .ok .evtDvst
    ∧ decode (.evt 0x0011) = .ok .evtCtrt ∧ decode (.evt 0x0012) = .ok .evtResm ∧ decode (.evt 0x0013) = .ok .evtVbint := by decide
/-- The event words of a data pipe. -/
theorem test_decode_pipe_events : decode (.evt 0x0201) = .ok (.evtBemp 2) ∧ decode (.evt 0x0102) = .ok (.evtNrdy 1)
    ∧ decode (.evt 0x0903) = .ok (.evtBrdy 9) := by decide
/-- The reserved words of 30_encoding.md R150, each by its name. -/
theorem test_decode_reserved : decode (.cmd 0x00000000 {}) = .error .reservedOpcode
    ∧ decode (.cmd 0x0000000E {}) = .error .reservedOpcode ∧ decode (.cmd 0x00000105 {}) = .error .argNotZero
    ∧ decode (.cmd 0x00000408 {}) = .error .reservedStallClass ∧ decode (.cmd 0x00001005 {}) = .error .reservedBits
    ∧ decode (.evt 0x0A03) = .error .eventPipeOutOfRange ∧ decode (.evt 0x0004) = .error .reservedEventCode := by decide
/-- A table word of a setup row of 16 and of 32 bits, of a command and of an event. -/
theorem test_decode_table_words : decodeTableWord 16 0x0080 = some (.srGetStatusDevice 0 0 0)
    ∧ decodeTableWord 32 0x01000680 = some (.srGetDescriptorDevice 0 0 0) ∧ decodeTableWord 32 0x0000000C = some .reset
    ∧ decodeTableWord 16 0x0203 = some (.evtBrdy 2) ∧ decodeTableWord 8 0x60 = some (.srReservedType 0 0 0 0 0 0) := by decide

/-! ### A small state: S0 of 95_test_vectors.md, program P1 -/

def configured (kind : PipeKind) (dir : Dir) (ep : Nat) (f : FifoId) (bs m : Nat) : PipeState where
  pstate := .idle
  xfer := Xfer.none
  busy := false
  resLen := 0
  resErr := .ok
  nrdyCount := 0
  cfgValid := true
  cfg := ⟨kind, dir, ep, f, false, bs, 0, m, 0⟩
  pid := .nak
  toggle := .data0
  pipeReg := ⟨kind, dir, ep, f, false, bs, 0, m, 0⟩
  brdySts := false
  nrdySts := false
  bempSts := false
  brdyEnb := false
  nrdyEnb := false
  bempEnb := false
  building := []
  sent := []

def pipeAt (p : Pipe) : PipeState :=
  if p = 0 then configured .control .IN 0 .C 64 64
  else if p = 1 then configured .bulk .OUT 2 .D1 512 512
  else if p = 2 then configured .bulk .IN 1 .D0 512 512
  else if p = 6 then configured .interrupt .IN 3 .D1 64 64
  else { configured .bulk .IN 0 .D0 0 0 with cfgValid := false }

def bench : State where
  params := { Config.defaultParams with autoClearHalt := true }
  devState := .ready
  initialized := true
  fatal := false
  firstConnectFired := true
  configValue := 1
  vbusLevel := true
  setup := SetupPacket.zero
  desc := some operands.desc
  cb := some operands.cb
  pipes := Vector.ofFn pipeAt
  fifoC := ⟨some 0, some 0⟩
  fifoD0 := ⟨none, none⟩
  fifoD1 := ⟨none, none⟩
  fifoIsel := .OUT
  enb := ⟨true, true, true, true, true, true, true⟩
  sts := ⟨false, false, false, false⟩
  usbState := .configured
  ctrlStage := .other
  setupValid := false
  setupData := 0
  vbusHeld := none
  trace := []
  mem := [(0x20000100, 18), (0x20000101, 1), (0x20000111, 1), (0x20001000, 0xAA), (0x20001009, 0xBB)]
  env := Env.empty
  inputs := []
  ctx := .task
  result := none
  calls := []
  waits := []
  reads := []

/-- The answers of the environment for one step. -/
def answers (s : State) (cur : List (Option Pipe)) (rcv : List Nat := []) (data : List Byte := []) (vbus : List Bool := [])
    (inbufm : List Bool := []) (class_ : List ClassStep := []) : State :=
  { s with env := ⟨cur, [], rcv, data, vbus, inbufm, class_, 0⟩ }

/-- Pipe p with an active transfer of n bytes at address a, as a start leaves it. -/
def busyPipe (p : Pipe) (d : Dir) (a : Addr) (n : Nat) (s : State) : State :=
  s.modPipe p fun x => { x with
    xfer := ⟨true, d, a, a.toNat, n, n, none⟩, busy := true, pstate := .waiting, brdyEnb := true, nrdyEnb := true, pid := .buf }

def withBrdy (p : Pipe) (s : State) : State := s.modPipe p fun x => { x with brdySts := true, brdyEnb := true }
def withNrdy (p : Pipe) (s : State) : State := s.modPipe p fun x => { x with nrdySts := true, nrdyEnb := true }
def withBemp (p : Pipe) (s : State) : State := s.modPipe p fun x => { x with bempSts := true, bempEnb := true }
def withPid (p : Pipe) (v : Pid) (s : State) : State := s.modPipe p fun x => { x with pid := v }

/-- Inside `onSetup`, with a packet of the given length in CONTROL_SETUP. -/
def inOnSetup (n : BitVec 16) (s : State) : State :=
  { s with ctx := .onSetup, devState := .controlSetup, setup := { s.setup with length := n } }

/-- The step ends in a next state of which P holds. -/
def ends (r : Host.Outcome State Fault Refusal) (P : State → Bool) : Bool :=
  match r with
  | .next t => P t
  | .fault _ => false
  | .refused _ => false

/-- The class layer answers and issues nothing. -/
def idleStep (a : SetupAnswer) : ClassStep := ⟨a, []⟩

/-! ### Commands -/

/-- 44_device_hal.md R340: the trace of `init` with VBUS low is 37 enable writes and 4 FIFO writes. -/
theorem test_init : ends (exec (.init operands.desc operands.cb) (answers State.reset [some 0, none, none] [] [] [false, false, false]))
    (fun t => t.initialized && t.trace.length == 41 && t.fifoC.owner == some 0 && t.result == some (.code .ok)) = true := by decide
theorem test_init_no_configuration : ends (exec (.init { operands.desc with config := none } operands.cb) State.reset)
    (fun t => !t.initialized && t.result == some (.code .state)) = true := by decide
theorem test_control_ack : ends (exec .controlAck (inOnSetup 0 bench))
    (fun t => t.trace == [.pid 0 .nak, .pid 0 .buf, .ctrlComplete] && t.devState == .ready) = true := by decide
theorem test_control_ack_ready : ends (exec .controlAck { bench with ctx := .onSetup })
    (fun t => t.trace == [] && t.result == some (.code .state)) = true := by decide
/-- `controlIn(8, 0)`, wLength 8: STATE. -/
theorem test_control_in_null : ends (exec (.controlIn 8 0) (inOnSetup 8 bench))
    (fun t => t.trace == [] && t.result == some (.code .state)) = true := by decide
/-- `controlIn(0, 0)`, wLength 8: one SHORT zero-length access. -/
theorem test_control_in_empty : ends (exec (.controlIn 0 0) (answers (inOnSetup 8 bench) [some 0, some 0]))
    (fun t => (t.pipe 0).sent == [[]] && t.trace.contains (.dataValid .C) && t.result == some (.code .ok) && t.devState == .ready) = true := by
  decide
/-- `controlOut(7, B)`, wLength 8: STATE. -/
theorem test_control_out_length : ends (exec (.controlOut 7 0x20003000 none) (inOnSetup 8 bench))
    (fun t => t.trace == [] && t.result == some (.code .state)) = true := by decide
/-- A range past 2^32 is STATE too (20_memory.md R102, 93_implementation_defined.md U22). -/
theorem test_control_out_wraps : ends (exec (.controlOut 7 0xFFFFFFFA none) (inOnSetup 7 bench))
    (fun t => t.trace == [] && t.result == some (.code .state)) = true := by decide
theorem test_control_in_wraps : ends (exec (.controlIn 7 0xFFFFFFFA) (inOnSetup 7 bench))
    (fun t => t.trace == [] && t.result == some (.code .state)) = true := by decide
theorem test_control_out : ends (exec (.controlOut 7 0x20003000 none) (inOnSetup 7 bench))
    (fun t => t.devState == .controlOut && (t.pipe 0).xfer.remaining == 7 && t.result == some (.code .ok)) = true := by decide
/-- `bulkIn(0x10, 0xFFFFFFF0)` ends exactly at 2^32: OK. -/
theorem test_bulk_in_top : ends (exec (.bulkIn 0x10 0xFFFFFFF0 none) bench)
    (fun t => t.trace == [.bempEnb 2 false, .brdyEnb 2 true, .nrdyEnb 2 true, .pid 2 .nak, .pid 2 .buf]
      && t.result == some (.code .ok)) = true := by decide
/-- `bulkIn(0x20, 0xFFFFFFF0)` wraps: STATE. -/
theorem test_bulk_in_wraps : ends (exec (.bulkIn 0x20 0xFFFFFFF0 none) bench)
    (fun t => t.trace == [] && t.result == some (.code .state)) = true := by decide
/-- With pid STALL a start returns STALL; after NO_RESPONSE it returns NO_RESPONSE. -/
theorem test_bulk_out_stall : ends (exec (.bulkOut 64 0x20003000 none) (withPid 1 .stall bench))
    (fun t => t.trace == [] && t.result == some (.code .stall)) = true := by decide
theorem test_bulk_out_no_response : ends (exec (.bulkOut 64 0x20003100 none) (bench.modPipe 1 fun x => { x with pstate := .noResponse }))
    (fun t => t.trace == [] && t.result == some (.code .noResponse)) = true := by decide
theorem test_interrupt_in : ends (exec (.interruptIn 10 0x20001000 none) bench)
    (fun t => (t.pipe 6).busy && (t.pipe 6).pstate == .waiting && !(t.pipe 2).busy) = true := by decide
theorem test_interrupt_in_busy : ends (exec (.interruptIn 10 0x20001000 none) (busyPipe 6 .IN 0x20001000 10 bench))
    (fun t => t.trace == [] && t.result == some (.code .busy)) = true := by decide
theorem test_stall_control : ends (exec .stallControl (inOnSetup 0 bench))
    (fun t => (t.pipe 0).pid == .stall && t.devState == .ready) = true := by decide
/-- In a callback that is not `onSetup` a control command is not legal (60_exceptions.md R441), and writes nothing. -/
theorem test_stall_control_elsewhere : ends (exec .stallControl { inOnSetup 0 bench with ctx := .isr })
    (fun t => t.trace == [] && (t.pipe 0).pid == .nak && t.result == some (.code .state)) = true := by decide
theorem test_stall_bulk_in : ends (exec .stallBulkIn bench) (fun t => t.trace == [.pid 2 .stall]) = true := by decide
theorem test_stall_bulk_out : ends (exec .stallBulkOut bench) (fun t => t.trace == [.pid 1 .stall]) = true := by decide
theorem test_stall_int_in : ends (exec .stallIntIn bench) (fun t => t.trace == [.pid 6 .stall]) = true := by decide
theorem test_get_device_state : ends (exec .getDeviceState { bench with devState := .controlOut })
    (fun t => t.result == some (.byte 4)) = true := by decide
theorem test_is_endpoint_stalled : ends (exec (.isEndpointStalled 2) (withPid 2 .stall bench))
    (fun t => t.result == some (.flag true)) = true := by decide
theorem test_is_endpoint_stalled_12 : ends (exec (.isEndpointStalled 12) bench)
    (fun t => t.result == some (.flag false)) = true := by decide
/-- `cancel()` with pipe 1 WAITING: NOT_CONNECTED, 0 bytes, no callback. -/
theorem test_cancel : ends (exec .cancel (busyPipe 1 .OUT 0x20003000 64 bench))
    (fun t => (t.pipe 1).resErr == .notConnected && (t.pipe 1).resLen == 0 && !(t.pipe 1).busy && t.calls == []) = true := by decide
/-- `reset()` with pipe 2 WAITING keeps the error code and the PID. -/
theorem test_reset : ends (exec .reset (busyPipe 2 .IN 0x20001000 10 (bench.modPipe 2 fun x => { x with resErr := .stall })))
    (fun t => (t.pipe 2).resErr == .stall && (t.pipe 2).pid == .buf && !(t.pipe 2).busy && t.trace.length == 37) = true := by decide
/-- bufSize 500 is no multiple of mps 64: STATE. -/
theorem test_reset_endpoints_illegal :
    ends (exec (.resetEndpoints [⟨2, ⟨.bulk, .IN, 1, .D0, false, 500, 0, 64, 0⟩⟩]) bench)
      (fun t => t.trace == [] && t.result == some (.code .state)) = true := by decide
theorem test_reset_endpoints : ends (exec (.resetEndpoints operands.table) bench)
    (fun t => t.trace == [.pid 2 .nak, .pipeReg 2 ⟨.bulk, .IN, 1, .D0, false, 512, 0, 512, 0⟩, .toggle 2 .data0,
      .brdyEnb 2 false, .nrdyEnb 2 false, .bempEnb 2 false]) = true := by decide

/-! ### Events -/

theorem test_isr_line_low : ends (exec .evtIsr bench) (fun t => t == bench) = true := by decide
/-- One pass with the third Not-Ready and a Ready: the Ready only disables its interrupt. -/
theorem test_isr_order : ends (exec .evtIsr (answers (withBrdy 1 (withNrdy 1 ((busyPipe 1 .OUT 0x20003000 64 bench).modPipe 1
      fun x => { x with nrdyCount := 2 }))) [] [] [] [] [] [idleStep .handled]))
    (fun t => (t.pipe 1).pstate == .noResponse && t.trace == [.nrdyClr 1, .brdyEnb 1 false, .nrdyEnb 1 false, .bempEnb 1 false,
      .pid 1 .nak, .brdyClr 1, .brdyEnb 1 false]) = true := by decide
theorem test_bemp0 : ends (exec .evtBemp0 (withBemp 0 bench)) (fun t => t.trace == [.bempClr 0] && !(t.pipe 0).bempSts) = true := by decide
theorem test_nrdy0 : ends (exec .evtNrdy0 (withNrdy 0 bench)) (fun t => t.trace == [.nrdyClr 0] && !(t.pipe 0).nrdySts) = true := by decide
theorem test_brdy0_idle : ends (exec .evtBrdy0 (withBrdy 0 bench)) (fun t => t.trace == [.brdyClr 0, .brdyEnb 0 false]) = true := by decide
/-- `controlOut(7, B)` then 7 bytes: SHORT, `onControlOutDone(OK, 7)`. -/
theorem test_brdy0_out : ends (exec .evtBrdy0 (answers (withBrdy 0 (busyPipe 0 .OUT 0x20003000 7
      { bench.modPipe 0 (fun x => { x with cfg := { x.cfg with dir := .OUT } }) with devState := .controlOut }))
      [some 0] [7] [1, 2, 3, 4, 5, 6, 7] [] [] [idleStep .handled]))
    (fun t => t.mem.readBytes 0x20003000 8 == [1, 2, 3, 4, 5, 6, 7, 0] && t.devState == .ready
      && t.calls == [⟨.onControlOutDone, some 4, .doneCount .ok 7⟩]) = true := by decide
/-- Pipe 2 after its final Ready, inbufm 0: DONE. -/
theorem test_bemp : ends (exec (.evtBemp 2) (answers (withBemp 2 bench) [] [] [] [] [false]))
    (fun t => t.trace == [.bempClr 2, .bempEnb 2 false] && (t.pipe 2).pstate == .done) = true := by decide
theorem test_bemp_full : ends (exec (.evtBemp 2) (answers (withBemp 2 bench) [] [] [] [] [true]))
    (fun t => t.trace == [.bempClr 2] && (t.pipe 2).pstate == .idle) = true := by decide
/-- Pipe 1 WAITING, nrdyCount 0: count 1, BUF again. -/
theorem test_nrdy : ends (exec (.evtNrdy 1) (withNrdy 1 (busyPipe 1 .OUT 0x20003000 64 bench)))
    (fun t => t.trace == [.nrdyClr 1, .pid 1 .nak, .pid 1 .buf] && (t.pipe 1).nrdyCount == 1) = true := by decide
/-- Pipe 1 WAITING, pid STALL: LatchStall, `onBulkOutDone(STALL, 0)`. -/
theorem test_nrdy_stall : ends (exec (.evtNrdy 1) (answers (withPid 1 .stall (withNrdy 1 (busyPipe 1 .OUT 0x20003000 64 bench)))
      [] [] [] [] [] [idleStep .handled]))
    (fun t => (t.pipe 1).pstate == .stall && t.calls == [⟨.onBulkOutDone, some 5, .doneCount .stall 0⟩]) = true := by decide
/-- Pipe 6 WAITING, remaining 10: SHORT, `onInterruptInDone(OK)`. -/
theorem test_brdy_in : ends (exec (.evtBrdy 6) (answers (withBrdy 6 (busyPipe 6 .IN 0x20001000 10 bench)) [some 6] [] [] [] []
      [idleStep .handled]))
    (fun t => (t.pipe 6).sent == [[0xAA, 0, 0, 0, 0, 0, 0, 0, 0, 0xBB]] && (t.pipe 6).resLen == 10
      && t.calls == [⟨.onInterruptInDone, some 7, .doneOnly .ok⟩]) = true := by decide
/-- 65 bytes in buffers of 64: the first access is CONTINUE, and its buffer is one packet. -/
theorem test_brdy_in_continue : ends (exec (.evtBrdy 6) (answers (withBrdy 6 (busyPipe 6 .IN 0x20001000 65 bench)) [some 6]))
    (fun t => (t.pipe 6).sent.map (·.length) == [64] && (t.pipe 6).building == [] && t.trace == [.brdyClr 6, .fifoSel .D1 (some 6)]) = true := by
  decide
/-- Program P2: the packets of a buffer; a buffer of no bytes is one zero-length packet. -/
theorem test_packets : packetsOf 2 [1, 2, 3, 4, 5] = [[1, 2], [3, 4], [5]] ∧ packetsOf 2 [1, 2] = [[1, 2]] ∧ packetsOf 2 [] = [[]] := by decide
/-- BCLR drops the packet being built in the bound pipe's buffer, and no other. -/
theorem test_buffer_clear :
    let s := fifoWrite .C [7] ((bench.modPipe 2 fun x => { x with building := [9] }).modPipe 0 fun x => { x with building := [8] })
    (s.pipe 0).building = [8, 7] ∧ ((bufferClear .C s).pipe 0).building = [] ∧ ((bufferClear .C s).pipe 2).building = [9] := by decide
/-- Pipe 1 WAITING, 5 bytes into a transfer of 0: OVERRUN, `onBulkOutDone(OVERRUN, 0)`, the FIFO buffer cleared. -/
theorem test_brdy_overrun : ends (exec (.evtBrdy 1) (answers (withBrdy 1 (busyPipe 1 .OUT 0 0 bench)) [some 1] [5] [] [] []
      [idleStep .handled]))
    (fun t => t.trace == [.brdyClr 1, .fifoSel .D1 (some 1), .bufferClear .D1, .brdyEnb 1 false, .nrdyEnb 1 false, .pid 1 .nak]
      && t.calls == [⟨.onBulkOutDone, some 5, .doneCount .overrun 0⟩]) = true := by decide
/-- CONFIGURED, the second time: toggles of the BULK pipes, no callback. -/
theorem test_dvst_configured : ends (exec .evtDvst { bench with sts := ⟨false, false, true, false⟩ })
    (fun t => t.trace == [.dvstClr, .toggle 1 .data0, .toggle 2 .data0] && t.calls == []) = true := by decide
/-- DEFAULT with vbusLevel true: 41 writes, READY, configValue 0. -/
theorem test_dvst_default : ends (exec .evtDvst (answers { bench with
      sts := ⟨false, false, true, false⟩, usbState := .defaultState, devState := .disconnected } [some 0, none, none]))
    (fun t => t.trace.length == 42 && t.devState == .ready && t.configValue == 0) = true := by decide
theorem test_ctrt_other_stage : ends (exec .evtCtrt { bench with sts := ⟨false, false, false, true⟩ })
    (fun t => t.trace == [.ctrtClr]) = true := by decide
theorem test_ctrt_disconnected : ends (exec .evtCtrt { bench with
      sts := ⟨false, false, false, true⟩, ctrlStage := .setupReceived, setupValid := true, devState := .disconnected })
    (fun t => t.trace == [.ctrtClr, .setupValid false, .pid 0 .stall]) = true := by decide
theorem test_resm : ends (exec .evtResm { bench with sts := ⟨false, true, false, false⟩ })
    (fun t => t.trace == [.resmClr] && t.calls == []) = true := by decide
/-- vbusRaw 1, 1, 0: UNDECIDED. -/
theorem test_vbint_undecided : ends (exec .evtVbint (answers { bench with sts := ⟨true, false, false, false⟩, vbusLevel := false }
      [] [] [] [true, true, false]))
    (fun t => t.trace == [.vbintClr] && !t.vbusLevel) = true := by decide
/-- Program P4, line 3: the cable is lost with pipe 1 busy. -/
theorem test_vbint_fall : ends (exec .evtVbint (answers (busyPipe 1 .OUT 0x20003000 64 { bench with sts := ⟨true, false, false, false⟩ })
      [] [] [] [false, false, false] [] [idleStep .handled]))
    (fun t => t.devState == .disconnected && (t.pipe 1).resErr == .notConnected && t.trace.length == 38
      && t.calls == [⟨.onCableChange, some 2, .connected false⟩]) = true := by decide

/-! ### The environment and the caller -/

/-- 30_encoding.md R160, `ctl vbus 1`: every later read returns 1, whatever was lined up before. -/
theorem test_ctl_vbus : ends (step { answers bench [] [] [] [false] with inputs := [.ctl (.vbus true)] })
    (fun t => t.sts.vbint && (drawVbus t).1 && (drawVbus (drawVbus t).2).1) = true := by decide
theorem test_caller_read : ends (step { bench with inputs := [.callerRead 0x20001009] })
    (fun t => t.reads == [⟨0x20001009, 0xBB⟩] && t.env.draws == 0) = true := by decide
/-- 20_memory.md R122: a write of a buffer in use goes on, the byte drawn. -/
theorem test_caller_race : ends (step { busyPipe 2 .IN 0x20001000 10 bench with inputs := [.callerWrite 0x20001009 1] })
    (fun t => t.env.draws == 1 && t.inputs == []) = true := by decide

/-! ### Setup packets -/

theorem test_get_status_device : ends (exec (.srGetStatusDevice 0 0 1) (answers bench [some 0, some 0]))
    (fun t => (t.pipe 0).sent == [[0]]) = true := by decide
theorem test_get_status_interface : ends (exec (.srGetStatusInterface 0 0 2) (answers bench [some 0, some 0]))
    (fun t => (t.pipe 0).sent == [[0, 0]]) = true := by decide
/-- Program P5, line 3: the halted endpoint 0x81 answers `01 00`. -/
theorem test_get_status_endpoint : ends (exec (.srGetStatusEndpoint 0 0x81 2) (answers (withPid 2 .stall bench) [some 0, some 0]))
    (fun t => (t.pipe 0).sent == [[1, 0]] && t.mem.readBytes 0x20000000 2 == [1, 0]) = true := by decide
/-- No pipe binds 0x85: `onSetup`, UNKNOWN, pipe 0 stalled. -/
theorem test_get_status_endpoint_none : ends (exec (.srGetStatusEndpoint 0 0x85 2) (answers bench [] [] [] [] [] [idleStep .unknown]))
    (fun t => (t.pipe 0).pid == .stall && t.calls == [⟨.onSetup, some 1, .raw 0x0002008500000082⟩]) = true := by decide
/-- Program P5, line 5. -/
theorem test_clear_halt : ends (exec (.srClearFeatureEpHalt 0x81 0) (withPid 2 .stall bench))
    (fun t => t.trace == [.ctrtClr, .setupValid false, .pid 0 .nak, .pid 2 .nak, .pid 2 .buf, .toggle 2 .data0, .pid 0 .nak,
      .pid 0 .buf, .ctrlComplete]) = true := by decide
/-- Program P5, line 1. -/
theorem test_set_halt : ends (exec (.srSetFeatureEpHalt 0x81 0) bench)
    (fun t => t.trace == [.ctrtClr, .setupValid false, .pid 0 .nak, .pid 2 .stall, .pid 0 .nak, .pid 0 .buf, .ctrlComplete]) = true := by
  decide
theorem test_set_address : ends (exec (.srSetAddress 5 0 0) bench)
    (fun t => t.trace == [.ctrtClr, .setupValid false, .pid 0 .nak, .pid 0 .nak, .pid 0 .buf, .ctrlComplete]) = true := by decide
/-- Scenario A: the trace and the 18 bytes. -/
theorem test_device_descriptor : ends (exec (.srGetDescriptorDevice 0 0 64) (answers bench [some 0, some 0]))
    (fun t => (t.pipe 0).sent.map (·.take 3) == [[18, 1, 0]] && (t.pipe 0).sent.map (·.length) == [18]
      && t.trace == [.ctrtClr, .setupValid false, .pid 0 .nak, .fifoSel .C (some 0), .fifoIsel .IN, .bufferClear .C,
        .fifoSel .C (some 0), .fifoIsel .IN, .dataValid .C, .pid 0 .nak, .pid 0 .buf, .ctrlComplete]) = true := by decide
theorem test_configuration_descriptor : ends (exec (.srGetDescriptorConfiguration 0 0 9) (answers bench [some 0, some 0]))
    (fun t => (t.pipe 0).sent.map (·.length) == [9]) = true := by decide
theorem test_string_descriptor : ends (exec (.srGetDescriptorString 0 0 255) (answers bench [some 0, some 0]))
    (fun t => (t.pipe 0).sent.map (·.length) == [4]) = true := by decide
/-- The wrong language: UNKNOWN. -/
theorem test_string_language : ends (exec (.srGetDescriptorString 2 0x0407 255) (answers bench [] [] [] [] [] [idleStep .unknown]))
    (fun t => (t.pipe 0).pid == .stall && t.calls.length == 1) = true := by decide
theorem test_qualifier_absent : ends (exec (.srGetDescriptorDeviceQualifier 0 0 10) (answers bench [] [] [] [] [] [idleStep .unknown]))
    (fun t => (t.pipe 0).pid == .stall && t.calls.length == 1) = true := by decide
theorem test_other_speed : ends (exec (.srGetDescriptorOtherSpeed 0 0 9) (answers { bench with
      desc := some { operands.desc with otherSpeed := some ⟨0x20000100, 9⟩ } } [some 0, some 0]))
    (fun t => (t.pipe 0).sent.map (·.take 2) == [[18, 1]] && (t.pipe 0).sent.map (·.length) == [9]) = true := by decide
theorem test_get_configuration : ends (exec (.srGetConfiguration 0 0 1) (answers bench [some 0, some 0]))
    (fun t => (t.pipe 0).sent == [[1]]) = true := by decide
/-- Program P1, line 8. -/
theorem test_set_configuration : ends (exec (.srSetConfiguration 2 0 0) (answers { bench with firstConnectFired := false }
      [] [] [] [] [] [idleStep .handled]))
    (fun t => t.configValue == 2 && t.calls == [⟨.onCableChange, some 2, .connected true⟩] && t.devState == .ready) = true := by decide
theorem test_get_interface : ends (exec (.srGetInterface 0 0 1) (answers bench [some 0, some 0]))
    (fun t => (t.pipe 0).sent == [[0]]) = true := by decide
theorem test_set_interface : ends (exec (.srSetInterface 1 0 0) bench) (fun t => t.devState == .ready && t.calls == []) = true := by decide
theorem test_standard_other : ends (exec (.srStandardOther 0 2 1 1 0x81 0) (answers bench [] [] [] [] [] [idleStep .unknown]))
    (fun t => (t.pipe 0).pid == .stall && t.devState == .ready) = true := by decide
/-- Program P6, lines 1 and 2: SET_REPORT of 7 bytes, `controlOut` issued inside `onSetup`. -/
theorem test_class : ends (exec (.srClass 0 1 9 0x0200 0 7) (answers bench [] [] [] [] []
      [⟨.handled, [.controlOut 7 0x20003000 none]⟩]))
    (fun t => t.devState == .controlOut && (t.pipe 0).xfer.total == 7
      && t.calls == [⟨.onSetup, some 1, .raw 0x0007000002000921⟩]) = true := by decide
theorem test_vendor : ends (exec (.srVendor 1 0 1 0 0 4) (answers bench [] [] [] [] [] [idleStep .unknown]))
    (fun t => (t.pipe 0).pid == .stall) = true := by decide
theorem test_reserved_type : ends (exec (.srReservedType 1 0 0 0 0 0) (answers bench [] [] [] [] [] [idleStep .unknown]))
    (fun t => (t.pipe 0).pid == .stall) = true := by decide

/-! ### Witnesses: the hypotheses of each statement, met together by a concrete state and operands -/

/-- A source is seen by no pass if it is not in the order of one. -/
theorem quiet_of_check {x : Source} {s : State} (h : passOrder.all (fun y => decide (y = x) || !pending s y) = true) :
    ∀ y, y ≠ x → pending s y = false := by
  intro y hy
  have := List.all_eq_true.mp h y (mem_passOrder y)
  simpa [hy] using this

theorem live_bench : live bench := ⟨rfl, rfl⟩

/-- Not initialised, not fatal: the block at power-on. -/
theorem witness_CommandsBeforeInit : State.reset.fatal = false ∧ State.reset.initialized = false
    ∧ State.reset.devState = .disconnected := by decide

theorem witness_DecodeEncode : WellFormed (.srStandardOther 0 2 1 1 0x81 0) ∧ WellFormed (.evtBrdy 9) := by decide
theorem witness_DecodedInputIsEncoding : decode (.cmd 0x0000020A {}) = .ok (.isEndpointStalled 2)
    ∧ decode (.evt 0x0903) = .ok (.evtBrdy 9) := by decide
/-- The boundaries of R150: op 0x0D and 0x0E, class 3 and 4, event pipe 9 and 10, query pipe 9 and 10. -/
theorem witness_ReservedWordsRefused :
    decode (.cmd 0x0000000E {}) = .error .reservedOpcode ∧ decode (.cmd 0x0000000D {}) = .ok (.resetEndpoints [])
    ∧ decode (.cmd 0x00000308 {}) = .ok .stallIntIn ∧ decode (.cmd 0x00000408 {}) = .error .reservedStallClass
    ∧ (evtCode 0x0A03 ∈ ([0x01, 0x02, 0x03] : List (BitVec 8)) ∧ 9 < (evtPipe 0x0A03).toNat)
    ∧ evtCode 0x0014 ∉ ([0x00, 0x01, 0x02, 0x03, 0x10, 0x11, 0x12, 0x13] : List (BitVec 8))
    ∧ bench.fatal = false ∧ 10 ≤ (10 : BitVec 4).toNat := by decide

theorem witness_StepRunsDecoded_cmd : ({ bench with inputs := [.cmd 0x00000002 {}] } : State).fatal = false
    ∧ decode (.cmd 0x00000002 {}) = .ok .controlAck := by decide
theorem witness_StepRunsDecoded_evt : ({ bench with inputs := [.evt 0x0000] } : State).fatal = false
    ∧ decode (.evt 0x0000) = .ok .evtIsr := by decide
theorem witness_StepRunsDecoded_setup : ({ bench with inputs := [.setup 0x60] } : State).fatal = false
    ∧ decode (.setup 0x60) = .ok (.srReservedType 0 0 0 0 0 0) := by decide
theorem witness_StepRunsDecoded_isr : bench.fatal = false ∧ bench.inputs = [] := by decide

/-- With no polls allowed, `init` exhausts its attempts. -/
theorem witness_FatalIsStuck : ends (exec (.init operands.desc operands.cb)
    { bench with params := { bench.params with bindPollBudget := 0 } }) (fun t => t.fatal) = true := by decide

theorem witness_InitWithoutVbus :
    let s := answers State.reset [some 0, none, none] [] [] [true, false, true]
    s.fatal = false ∧ operands.desc.device.isSome = true ∧ operands.desc.config.isSome = true
    ∧ 0 < s.params.bindPollBudget ∧ 0 < s.params.uncondAttempts ∧ s.env.fifoCur = some 0 :: none :: none :: []
    ∧ vbusReads true false true [] s ∧ (true && false && true) = false :=
  ⟨rfl, by decide, by decide, by decide, by decide, rfl, .inl ⟨rfl, rfl⟩, rfl⟩
/-- VBUS held high by the controller: the three reads return it, whatever is lined up. -/
theorem witness_InitAttaches_held : vbusReads true true true [false] { answers bench [] [] [] [false] with vbusHeld := some true } :=
  .inr ⟨true, rfl, rfl, rfl, rfl, rfl⟩
theorem witness_InitAttaches :
    let s := answers State.reset [some 0, none, none, some 0, none, none] [] [] [true, true, true]
    s.fatal = false ∧ operands.desc.device.isSome = true ∧ operands.desc.config.isSome = true
    ∧ 0 < s.params.bindPollBudget ∧ 0 < s.params.uncondAttempts
    ∧ s.env.fifoCur = some 0 :: none :: none :: some 0 :: none :: none :: []
    ∧ vbusReads true true true [] s ∧ ({ operands.desc with config := none } : DescSet).config = none :=
  ⟨rfl, by decide, by decide, by decide, by decide, rfl, .inl ⟨rfl, rfl⟩, rfl⟩
theorem witness_ResetCommand : bench.fatal = false ∧ bench.initialized = true := by decide
theorem witness_ResetTwice : live bench ∧ ends (exec .reset bench) (fun _ => true) = true := ⟨live_bench, by decide⟩
theorem witness_CancelCommand : (busyPipe 1 .OUT 0x20003000 64 bench).fatal = false
    ∧ (busyPipe 1 .OUT 0x20003000 64 bench).initialized = true := by decide

/-- A start that breaks no check, at the top of memory; and the three classes. -/
theorem witness_StartsTransfer : bench.fatal = false ∧ startBroken 2 .IN 0x10 0xFFFFFFF0 bench = none
    ∧ startBroken bench.params.pipeBulkOut .OUT 0 0 bench = none
    ∧ startBroken bench.params.pipeIntIn .IN 10 0x20001000 bench = none := by decide
/-- One start for each error code, each breaking a later check than the one before. -/
theorem witness_StartReportsFirstError :
    startBroken 2 .IN 10 0 State.reset = some .state
    ∧ startBroken 2 .IN 10 0 { bench with devState := .disconnected } = some .notConnected
    ∧ startBroken 2 .OUT 10 0x20001000 bench = some .state
    ∧ startBroken 2 .IN 10 0 (busyPipe 2 .IN 0x20001000 10 bench) = some .state
    ∧ startBroken 2 .IN 0x11 0xFFFFFFF0 (busyPipe 2 .IN 0x20001000 10 bench) = some .state
    ∧ startBroken 2 .IN 10 0x20001000 (busyPipe 2 .IN 0x20001000 10 bench) = some .busy
    ∧ startBroken 2 .IN 10 0x20001000 (bench.modPipe 2 fun x => { x with pstate := .noResponse, pid := .stall }) = some .noResponse
    ∧ startBroken 2 .IN 10 0x20001000 (withPid 2 .stall bench) = some .stall := by decide

theorem live_inOnSetup (n : BitVec 16) : live (inOnSetup n bench) := ⟨rfl, rfl⟩
theorem witness_ControlAckCommand : live (inOnSetup 0 bench) ∧ (inOnSetup 0 bench).ctx = .onSetup
    ∧ (inOnSetup 0 bench).devState = .controlSetup := ⟨live_inOnSetup 0, by decide, by decide⟩
/-- A range that ends exactly at 2^32, and one that passes it. -/
theorem witness_ControlOutCommand : live (inOnSetup 7 bench) ∧ (inOnSetup 7 bench).ctx = .onSetup
    ∧ (inOnSetup 7 bench).devState = .controlSetup ∧ (7 : Len).toNat = (inOnSetup 7 bench).setup.length.toNat ∧ (7 : Len) ≠ 0
    ∧ (0xFFFFFFF9 : Addr).toNat + (7 : Len).toNat ≤ 2 ^ 32 ∧ 2 ^ 32 < (0xFFFFFFFA : Addr).toNat + (7 : Len).toNat :=
  ⟨live_inOnSetup 7, by decide⟩
/-- 100 bytes in two accesses; a data stage of one access from the null buffer; no data stage; a null buffer refused. -/
theorem witness_ControlInCommand :
    let s := { answers (inOnSetup 255 bench) [some 0, some 0, some 0] with
      env := { bench.env with fifoCur := [some 0, some 0, some 0], fifoReady := [true] } }
    live s ∧ s.ctx = .onSetup ∧ s.devState = .controlSetup ∧ s.setup.length ≠ 0 ∧ accessesFor 100 64 = 2
    ∧ (0x20000100 : Addr).toNat + (100 : Len).toNat ≤ 2 ^ 32 ∧ answersIn 2 s := by
  refine ⟨⟨rfl, rfl⟩, by decide, by decide, by decide, by decide, by decide, ?_⟩
  unfold answersIn; decide
theorem witness_ControlInCommand_refused : live (inOnSetup 8 bench) ∧ (inOnSetup 8 bench).ctx = .onSetup
    ∧ (inOnSetup 8 bench).setup.length ≠ 0 ∧ min (8 : Len).toNat (inOnSetup 8 bench).setup.length.toNat ≠ 0
    ∧ 2 ^ 32 < (0xFFFFFFF9 : Addr).toNat + (8 : Len).toNat :=
  ⟨live_inOnSetup 8, by decide⟩
/-- 100 bytes, in buffers of 64, with the answers given. -/
def sends100 (cur : List (Option Pipe)) (ready : List Bool) : State :=
  { inOnSetup 255 bench with env := { bench.env with fifoCur := cur, fifoReady := ready, classSteps := [idleStep .handled] } }
theorem witness_ControlInBindTimeout :
    let s := sends100 (List.replicate 20 none) []
    live s ∧ s.ctx = .onSetup ∧ s.devState = .controlSetup ∧ s.setup.length ≠ 0 ∧ (0x20000100 : Addr) ≠ 0
    ∧ (0x20000100 : Addr).toNat + (100 : Len).toNat ≤ 2 ^ 32 ∧ s.env.fifoCur = List.replicate 20 none ++ []
    ∧ (List.replicate 20 (none : Option Pipe)).length = s.params.bindPollBudget
    ∧ (∀ w ∈ List.replicate 20 (none : Option Pipe), w ≠ some 0) ∧ ∃ a, classIdle a s :=
  ⟨⟨rfl, rfl⟩, by decide, by decide, by decide, by decide, by decide, by decide, by decide, by decide, .handled, rfl⟩
/-- The bind of the second access fails; that of the first. -/
theorem witness_ControlInBindTimeout_later :
    let s := sends100 (List.replicate 2 (some 0) ++ List.replicate 20 none) [true]
    1 * s.params.mps0.bytes < min (100 : Len).toNat s.setup.length.toNat ∧ 0 < s.params.bindPollBudget ∧ 0 < s.params.ctrlInPollBudget
    ∧ s.env.fifoCur = List.replicate (1 + 1) (some 0) ++ List.replicate 20 none ++ [] ∧ s.env.fifoReady = List.replicate 1 true ++ []
    ∧ (sends100 (some 0 :: List.replicate 20 none) []).env.fifoCur = List.replicate (0 + 1) (some 0) ++ List.replicate 20 none ++ []
    ∧ ∃ a, classIdle a s := ⟨by decide, by decide, by decide, by decide, by decide, by decide, .handled, rfl⟩
/-- The vector of 95_test_vectors.md: `controlIn(100, D)`, wLength 255, FIFO C not ready 20 times. -/
theorem witness_ControlInBindTimeout_wait :
    let s := sends100 (List.replicate 2 (some 0)) (List.replicate 20 false)
    1 * s.params.mps0.bytes < min (100 : Len).toNat s.setup.length.toNat ∧ s.params.ctrlInPollBudget = 20
    ∧ s.env.fifoCur = List.replicate (1 + 1) (some 0) ++ []
    ∧ s.env.fifoReady = List.replicate (1 - 1) true ++ List.replicate s.params.ctrlInPollBudget false ++ []
    ∧ ∃ a, classIdle a s := ⟨by decide, by decide, by decide, by decide, .handled, rfl⟩
/-- A task; a callback that is not `onSetup`; and `onSetup` in READY. -/
theorem witness_ControlCommandContext : live bench ∧ bench.ctx = .task ∧ live { bench with ctx := .isr }
    ∧ live { bench with ctx := .onSetup } ∧ bench.devState ≠ .controlSetup :=
  ⟨live_bench, rfl, ⟨rfl, rfl⟩, ⟨rfl, rfl⟩, by decide⟩
theorem witness_StallCommand : live (inOnSetup 0 bench) ∧ (inOnSetup 0 bench).ctx = .onSetup := ⟨live_inOnSetup 0, by decide⟩
theorem witness_QueryCommands : bench.fatal = false := by decide

/-- A legal table, by the model's own test of it. -/
theorem legal_operands_table : LegalTable operands.table bench := by
  refine ⟨by decide, by decide, ?_⟩
  intro p q a b _ _ _ ha hb
  revert p q
  have h : ∀ p q : Pipe, p ≠ 0 → q ≠ 0 → p ≠ q → ∀ a ∈ cfgAfter operands.table bench p, ∀ b ∈ cfgAfter operands.table bench q,
      ¬ (a.epNum = b.epNum ∧ a.dir = b.dir) := by decide
  intro p q hp hq hpq ha hb
  exact h p q hp hq hpq a ha b hb
theorem witness_ResetEndpointsCommand : live bench ∧ LegalTable operands.table bench
    ∧ (∀ r ∈ operands.table, ∀ p : Pipe, p.val = r.pipe → (bench.pipe p).busy = false) := ⟨live_bench, legal_operands_table, by decide⟩
theorem witness_ResetEndpointsCommand_illegal : ¬ LegalTable [⟨10, ⟨.bulk, .IN, 1, .D0, false, 512, 0, 512, 0⟩⟩] bench := by
  rintro ⟨h, -⟩
  exact absurd (h _ (List.mem_cons_self ..)) (by decide)
theorem witness_ResetEndpointsCommand_busy :
    ∃ r ∈ operands.table, ∃ p : Pipe, p.val = r.pipe ∧ ((busyPipe 2 .IN 0x20001000 10 bench).pipe p).busy = true := by decide

/-- A confirmation at the last poll of the budget, and a timeout. -/
theorem witness_BindOutcome :
    (∀ w ∈ List.replicate 19 (none : Option Pipe), w ≠ some 2) ∧ (List.replicate 19 (none : Option Pipe)).length < bench.params.bindPollBudget
    ∧ (answers bench (List.replicate 19 none ++ [some 2])).env.fifoCur = List.replicate 19 none ++ some 2 :: []
    ∧ (List.replicate 20 (none : Option Pipe)).length = bench.params.bindPollBudget := by decide
theorem witness_UnconditionalBind :
    (∀ w ∈ List.replicate 59 (none : Option Pipe), w ≠ some 0)
    ∧ (List.replicate 59 (none : Option Pipe)).length < bench.params.uncondAttempts * bench.params.bindPollBudget
    ∧ (List.replicate 60 (none : Option Pipe)).length = bench.params.uncondAttempts * bench.params.bindPollBudget := by decide

/-- 1000 bytes on pipe 2, the first access; a bind that confirms and one that times out. -/
theorem witness_WriteAccessOutcome :
    let s := answers (busyPipe 2 .IN 0x20001000 1000 bench) [some 2]
    (bindFifo (some 2) (s.pipe 2).cfg.fifo .IN s).1 = true
    ∧ (bindFifo (some 2) (s.pipe 2).cfg.fifo .IN (answers s (List.replicate 20 none))).1 = false := by decide
/-- The zero-length packet that NSP2 keeps back. -/
theorem witness_WriteAccessOutcome_quiet :
    let s := answers { busyPipe 2 .IN 0x20001000 0 bench with params := { bench.params with nsp2 := true } } [some 2]
    (bindFifo (some 2) (s.pipe 2).cfg.fifo .IN s).1 = true ∧ s.params.nsp2 = true ∧ (s.pipe 2).xfer.remaining = 0 := by decide
theorem witness_ReadAccessOutcome_unbound :
    let s := answers (busyPipe 1 .OUT 0x20003000 100 bench) (List.replicate 20 none)
    (bindFifo (some 1) (s.pipe 1).cfg.fifo .OUT s).1 = false := by decide
theorem witness_ReadAccessOutcome :
    let s := answers (busyPipe 1 .OUT 0x20003000 100 bench) [some 1] [3] [7, 8, 9]
    0 < s.params.bindPollBudget ∧ s.env.fifoCur = some 1 :: [] ∧ s.env.rcvLen = [7, 8, 9].length :: [] ∧ 3 ≤ (s.pipe 1).cfg.bufSize
    ∧ s.env.data = [7, 8, 9] ++ [] ∧ 3 ≤ (s.pipe 1).xfer.remaining := by decide
theorem witness_ReadAccessOverrun :
    let s := answers (busyPipe 1 .OUT 0x20003000 100 bench) [some 1] [101]
    0 < s.params.bindPollBudget ∧ s.env.fifoCur = some 1 :: [] ∧ s.env.rcvLen = 101 :: [] ∧ 101 ≤ (s.pipe 1).cfg.bufSize
    ∧ (s.pipe 1).xfer.remaining < 101 := by decide

/-- A state of a transfer's middle has the invariant. -/
theorem inv_bench : bench.Inv where
  params := by decide
  memory := by decide
  retries := by decide
  counts := by decide
  position := by decide
  range := by decide
  direction := by decide
  lease := by decide
  control := by decide
  notControlIn := by decide
  connected := by decide
  config := by decide
  owner := by intro f; cases f <;> decide
  boot := by decide
  served := fun _ => ⟨⟨operands.desc, rfl, rfl, rfl⟩, by decide⟩
  context := by decide
theorem inv_reading : (answers (busyPipe 1 .OUT 0x20003000 100 bench) [some 1] [3] [7, 8, 9]).Inv where
  params := by decide
  memory := by decide
  retries := by decide
  counts := by decide
  position := by decide
  range := by decide
  direction := by decide
  lease := by decide
  control := by decide
  notControlIn := by decide
  connected := by decide
  config := by decide
  owner := by intro f; cases f <;> decide
  boot := by decide
  served := fun _ => ⟨⟨operands.desc, rfl, rfl, rfl⟩, by decide⟩
  context := by decide

theorem witness_ReadStaysInBounds :
    let s := answers (busyPipe 1 .OUT 0x20003000 100 bench) [some 1] [3] [7, 8, 9]
    s.Inv ∧ (s.pipe 1).xfer.active = true ∧ (readAccess 1 s).1 = .SHORT ∧ live bench ∧ bench.devState ≠ .disconnected
    ∧ 2 ^ 32 < (0xFFFFFFF0 : Addr).toNat + (0x11 : Len).toNat :=
  ⟨inv_reading, by decide, by decide, live_bench, by decide, by decide⟩
theorem witness_ReadStaysInBounds_control : live (inOnSetup 0x11 bench) ∧ (inOnSetup 0x11 bench).ctx = .onSetup
    ∧ (inOnSetup 0x11 bench).setup.length ≠ 0 ∧ 2 ^ 32 < (0xFFFFFFF0 : Addr).toNat + (0x11 : Len).toNat := ⟨live_inOnSetup 0x11, by decide⟩
/-- A read that overruns, a write that times out. -/
theorem witness_AccessIsMonotone :
    (readAccess 1 (answers (busyPipe 1 .OUT 0 0 bench) [some 1] [5])).1 = .OVERRUN
    ∧ (writeAccess 6 (answers (busyPipe 6 .IN 0x20001000 10 bench) (List.replicate 20 none))).1 = .ERROR := by decide
/-- 65 bytes in buffers of 64: two accesses. -/
theorem witness_WriteAccessCount :
    let s := answers (busyPipe 6 .IN 0x20001000 65 bench) [some 6, some 6]
    1 ≤ (s.pipe 6).cfg.mps ∧ (s.pipe 6).cfg.mps ≤ (s.pipe 6).cfg.bufSize ∧ (s.pipe 6).cfg.bufSize % (s.pipe 6).cfg.mps = 0
    ∧ s.params.nsp2 = false
    ∧ max 1 (((s.pipe 6).xfer.remaining + (s.pipe 6).cfg.bufSize - 1) / (s.pipe 6).cfg.bufSize) = 2
    ∧ .ERROR ∉ writeOutcomes 6 2 s := by decide
/-- The widths of 95_test_vectors.md: an odd address, a halfword address. -/
theorem witness_ByteMoves : 0x1003 + 3 ≤ 2 ^ 32 ∧ bench.mem.wf = true ∧ (answers bench [] [] [1, 2, 3]).env.data = [1, 2, 3] ++ []
    ∧ chunks 0x1003 8 = [(0x1003, 1), (0x1004, 4), (0x1008, 2), (0x100A, 1)] ∧ chunks 0x1002 7 = [(0x1002, 2), (0x1004, 4), (0x1008, 1)]
    ∧ chunks 0x1000 0 = [] ∧ (bench.fifo .C).owner = some 0 := by decide
/-- The byte after a buffer in use is free, its last byte is not; the response area may be read and not written. -/
theorem witness_CallerAccessesMemory :
    let s := busyPipe 1 .OUT 0x20003000 100 bench
    s.mem.wf = true ∧ inUse s (0x20003064 : Addr).toNat = false ∧ inUse s (0x20003063 : Addr).toNat = true
    ∧ inUse s (0x20000001 : Addr).toNat = true ∧ inUse s (0x20000002 : Addr).toNat = false
    ∧ inArrival s (0x20003063 : Addr).toNat = true ∧ inArrival s (0x20003064 : Addr).toNat = false
    ∧ inArrival s (0x20000001 : Addr).toNat = false := by decide
theorem witness_WaiterReads : ({ bench with inputs := [.wait 1] } : State).fatal = false
    ∧ ({ bench with inputs := [.wait 1] } : State).inputs = .wait 1 :: [] := by decide

theorem live_of {s : State} (h : (s.initialized && !s.fatal) = true) : live s := by simpa [live] using h

theorem witness_BrdyOutcome_idle :
    let s := withBrdy 1 bench
    (1 : BitVec 4).toNat = (1 : Pipe).val ∧ (1 : Pipe) ≠ 0 ∧ live s ∧ pending s (.brdy 1) = true ∧ (s.pipe 1).xfer.active = false :=
  ⟨by decide, by decide, live_of rfl, by decide, by decide⟩
/-- A read access that ends SHORT. -/
theorem witness_BrdyOutcome :
    let s := withBrdy 1 (answers (busyPipe 1 .OUT 0x20003000 100 bench) [some 1] [3] [7, 8, 9] [] [] [idleStep .handled])
    (9 : BitVec 4).toNat = (9 : Pipe).val ∧ live s ∧ pending s (.brdy 1) = true ∧ (s.pipe 1).xfer.active = true
    ∧ (s.pipe 1).cfg.dir = .OUT ∧ ∃ u, readAccess 1 (brdyEntered 1 s) = (.SHORT, u) ∧ classIdle .handled u := by
  refine ⟨by decide, live_of rfl, by decide, by decide, by decide, ?_⟩
  refine ⟨_, rfl, ?_⟩
  rfl
theorem witness_BrdyCompletesIn :
    let s := withBrdy 6 (answers (busyPipe 6 .IN 0x20001000 64 bench) [some 6] [] [] [] [] [idleStep .handled])
    live s ∧ pending s (.brdy 6) = true ∧ (s.pipe 6).xfer.active = true ∧ (s.pipe 6).cfg.dir = .IN
    ∧ (s.pipe 6).xfer.remaining ≤ (s.pipe 6).cfg.bufSize ∧ 0 < s.params.bindPollBudget ∧ s.env.fifoCur = some 6 :: [] ∧ classIdle .handled s :=
  ⟨live_of rfl, by decide, by decide, by decide, by decide, by decide, by decide, rfl⟩
/-- The third Not-Ready of a transfer: the boundary of the counter. -/
theorem witness_NrdyEvent :
    let s := withNrdy 1 (answers ((busyPipe 1 .OUT 0x20003000 64 bench).modPipe 1 fun x => { x with nrdyCount := 2 })
      [] [] [] [] [] [idleStep .handled])
    live s ∧ pending s (.nrdy 1) = true ∧ (s.pipe 1).xfer.active = true ∧ classIdle .handled s ∧ ¬ (s.pipe 1).nrdyCount < 2 :=
  ⟨live_of rfl, by decide, by decide, rfl, by decide⟩
theorem witness_BempEvent :
    let s := withBemp 2 (answers bench [] [] [] [] [true])
    live s ∧ pending s (.bemp 2) = true ∧ (s.pipe 2).xfer.active = false ∧ s.env.inbufm = true :: [] :=
  ⟨live_of rfl, by decide, by decide, by decide⟩
theorem witness_QuietEvents : live bench ∧ pending (withBemp 0 bench) (.bemp 0) = true ∧ pending (withNrdy 0 bench) (.nrdy 0) = true
    ∧ onlyPending .resm { bench with sts := ⟨false, true, false, false⟩ } :=
  ⟨live_bench, by decide, by decide, by decide, quiet_of_check (by decide)⟩
/-- Inside a control-OUT data stage, an access that ends END. -/
theorem witness_Brdy0Event :
    let s := answers (withBrdy 0 (busyPipe 0 .OUT 0x20003000 64 { bench with devState := .controlOut }))
      [some 0] [64] (List.replicate 64 1) [] [] [idleStep .handled]
    live s ∧ pending s (.brdy 0) = true ∧ s.devState = .controlOut ∧ (s.pipe 0).xfer.active = true
    ∧ ∃ u, readAccess 0 (brdyEntered 0 s) = (.END, u) ∧ classIdle .handled u := by
  refine ⟨live_of rfl, by decide, by decide, by decide, ?_⟩
  refine ⟨_, rfl, ?_⟩
  rfl

theorem witness_BusResetEvent :
    let s := answers { bench with sts := ⟨false, false, true, false⟩, usbState := .defaultState } [some 0, none, none]
    live s ∧ pending s .dvst = true ∧ s.usbState = .defaultState ∧ 0 < s.params.bindPollBudget ∧ 0 < s.params.uncondAttempts
    ∧ s.env.fifoCur = some 0 :: none :: none :: [] := ⟨live_of rfl, by decide⟩
theorem witness_DeviceStateEvent :
    let s := answers { bench with sts := ⟨false, false, true, false⟩, firstConnectFired := false } [] [] [] [] [] [idleStep .handled]
    live s ∧ pending s .dvst = true ∧ s.usbState = .configured ∧ s.firstConnectFired = false ∧ classIdle .handled s :=
  ⟨live_of rfl, by decide, by decide, by decide, rfl⟩
theorem witness_ControlStageEvent :
    let s := { bench with
      sts := ⟨false, false, false, true⟩, ctrlStage := .setupReceived, setupValid := true, devState := .disconnected }
    live s ∧ pending s .ctrt = true ∧ s.ctrlStage = .setupReceived ∧ s.setupValid = true ∧ s.devState = .disconnected :=
  ⟨live_of rfl, by decide⟩
/-- A latched packet outside DISCONNECTED: SET_ADDRESS. -/
theorem witness_ControlStageEvent_taken :
    let s := { bench with
      sts := ⟨false, false, false, true⟩, ctrlStage := .setupReceived, setupValid := true, setupData := setupWord 0x00 0x05 7 0 0 }
    live s ∧ onlyPending .ctrt s ∧ s.ctrlStage = .setupReceived ∧ s.setupValid = true ∧ s.devState ≠ .disconnected
    ∧ packetOf (.srSetAddress 7 0 0) = some s.setupData :=
  ⟨live_of rfl, ⟨by decide, quiet_of_check (by decide)⟩, by decide⟩
/-- A rise and a fall. -/
theorem witness_VbusEvent_rise :
    let s := answers { bench with sts := ⟨true, false, false, false⟩, vbusLevel := false, devState := .disconnected }
      [some 0, none, none] [] [] [true, true, true]
    live s ∧ pending s .vbint = true ∧ vbusReads true true true [] s ∧ s.vbusLevel = false
    ∧ 0 < s.params.bindPollBudget ∧ 0 < s.params.uncondAttempts ∧ s.env.fifoCur = some 0 :: none :: none :: [] :=
  ⟨live_of rfl, by decide, .inl ⟨rfl, rfl⟩, by decide⟩
theorem witness_VbusEvent_fall :
    let s := answers { bench with sts := ⟨true, false, false, false⟩ } [] [] [] [false, false, false] [] [idleStep .handled]
    live s ∧ pending s .vbint = true ∧ vbusReads false false false [] s ∧ s.vbusLevel = true ∧ classIdle .handled s :=
  ⟨live_of rfl, by decide, .inl ⟨rfl, rfl⟩, by decide, rfl⟩
/-- A level held that is the one debounced before, and reads that disagree. -/
theorem witness_VbusEvent_ignored :
    vbusReads true true true [] { bench with vbusHeld := some true } ∧ bench.vbusLevel = true
    ∧ vbusReads true true false [] (answers bench [] [] [] [true, true, false]) ∧ ¬ (true = true ∧ true = false) :=
  ⟨.inr ⟨true, rfl, rfl, rfl, rfl, rfl⟩, rfl, .inl ⟨rfl, rfl⟩, by decide⟩

theorem witness_IsrServesOne : live bench ∧ onlyPending (.brdy 9) (withBrdy 9 bench)
    ∧ onlyPending .dvst { bench with sts := ⟨false, false, true, false⟩ } :=
  ⟨live_bench, ⟨by decide, quiet_of_check (by decide)⟩, by decide, quiet_of_check (by decide)⟩
theorem witness_IsrServesOne_none : ∀ x, pending bench x = false := by
  intro x
  have h : passOrder.all (fun y => !pending bench y) = true := by decide
  simpa using List.all_eq_true.mp h x (mem_passOrder x)
theorem witness_NrdyBeforeBrdy :
    let s := withBrdy 1 (withNrdy 1 (answers ((busyPipe 1 .OUT 0x20003000 64 bench).modPipe 1 fun x => { x with nrdyCount := 2 })
      [] [] [] [] [] [idleStep .handled]))
    (1 : Pipe) ≠ 0 ∧ live s ∧ pending s (.nrdy 1) = true ∧ pending s (.brdy 1) = true
    ∧ (∀ y, y ≠ .nrdy 1 → y ≠ .brdy 1 → pending s y = false) ∧ (s.pipe 1).xfer.active = true ∧ (s.pipe 1).pid ≠ .stall
    ∧ (s.pipe 1).nrdyCount = 2 ∧ classIdle .handled s := by
  refine ⟨by decide, live_of rfl, by decide, by decide, ?_, by decide, by decide, by decide, rfl⟩
  intro y h1 h2
  have h : passOrder.all (fun y => decide (y = .nrdy 1) || decide (y = .brdy 1) || !pending (withBrdy 1 (withNrdy 1 (answers
    ((busyPipe 1 .OUT 0x20003000 64 bench).modPipe 1 fun x => { x with nrdyCount := 2 }) [] [] [] [] [] [idleStep .handled]))) y) = true := by
    decide
  simpa [h1, h2] using List.all_eq_true.mp h y (mem_passOrder y)

/-! The setup core: each packet arrives at S0. -/

theorem takes_bench (e : Env) : takesSetup { bench with env := e } :=
  ⟨live_of rfl, (by intro h; cases h), rfl, quiet_of_check rfl⟩
theorem witness_EndpointLookup : bench.Inv ∧ pipeOfEp 0x81 bench = some 2 ∧ pipeOfEp 0x02 bench = some 1 ∧ pipeOfEp 0x80 bench = some 0
    ∧ pipeOfEp 0x85 bench = none := ⟨inv_bench, by decide⟩
theorem witness_AcknowledgedRequests : takesSetup bench ∧ epNumber 0x80 = 0 := ⟨takes_bench _, by decide⟩
theorem witness_HaltRequests : takesSetup bench ∧ pipeOfEp 0x81 bench = some 2 ∧ (2 : Pipe) ≠ 0 ∧ bench.params.autoClearHalt = true :=
  ⟨takes_bench _, by decide⟩
theorem witness_HaltRequests_off : takesSetup { bench with params := { bench.params with autoClearHalt := false } } :=
  ⟨live_of rfl, (by intro h; cases h), rfl, quiet_of_check rfl⟩
theorem witness_AnsweredRequests :
    let s := answers bench [some 0, some 0]
    takesSetup s ∧ packetOf (.srGetStatusEndpoint 0 0x81 2) = some 0x0002008100000082
    ∧ responseOf (.srGetStatusEndpoint 0 0x81 2) s = some [0, 0] ∧ s.params.respBase ≠ 0 ∧ s.params.respBase.toNat + 2 ≤ 2 ^ 32
    ∧ s.mem.wf = true ∧ wLength 0x0002008100000082 ≠ 0 ∧ answersIn 1 s := by
  refine ⟨takes_bench _, by decide, by decide, by decide, by decide, by decide, by decide, ?_⟩
  unfold answersIn; decide
theorem witness_DescriptorRequests :
    let s := answers bench [some 0, some 0]
    takesSetup s ∧ packetOf (.srGetDescriptorDevice 0 0 64) = some 0x0040000001000680
    ∧ blobAsked (.srGetDescriptorDevice 0 0 64) s = some ⟨0x20000100, 18⟩ ∧ wLength 0x0040000001000680 ≠ 0
    ∧ (0x20000100 : Addr) ≠ 0 ∧ (0x20000100 : Addr).toNat + 18 ≤ 2 ^ 32 ∧ accessesFor 18 64 = 1 ∧ answersIn 1 s := by
  refine ⟨takes_bench _, by decide, by decide, by decide, by decide, by decide, by decide, ?_⟩
  unfold answersIn; decide
/-- A blob that passes 2^32, and a null one with bytes to send. -/
theorem witness_DescriptorRequests_refused :
    let s := { bench with desc := some { operands.desc with device := some ⟨0xFFFFFFFF, 2⟩, qualifier := some ⟨0, 10⟩ } }
    takesSetup s ∧ blobAsked (.srGetDescriptorDevice 0 0 64) s = some ⟨0xFFFFFFFF, 2⟩
    ∧ ((0xFFFFFFFF : Addr) ≠ 0 ∧ 2 ^ 32 < (0xFFFFFFFF : Addr).toNat + (2 : Len).toNat)
    ∧ blobAsked (.srGetDescriptorDeviceQualifier 0 0 10) s = some ⟨0, 10⟩ ∧ min (10 : Len).toNat (10 : BitVec 16).toNat ≠ 0 :=
  ⟨⟨live_of rfl, (by intro h; cases h), rfl, quiet_of_check rfl⟩, by decide⟩
theorem witness_SetConfigurationRequest :
    let s := answers { bench with firstConnectFired := false } [] [] [] [] [] [idleStep .handled]
    takesSetup s ∧ s.firstConnectFired = false ∧ classIdle .handled s :=
  ⟨⟨live_of rfl, by decide, rfl, quiet_of_check rfl⟩, rfl, rfl⟩
/-- A vendor request, and a descriptor that is not there. -/
theorem witness_DelegatedRequests :
    let s := answers bench [] [] [] [] [] [idleStep .unknown]
    takesSetup s ∧ WellFormed (.srVendor 1 0 1 0 0 4) ∧ packetOf (.srVendor 1 0 1 0 0 4) = some 0x00040000000001C0
    ∧ delegated (.srVendor 1 0 1 0 0 4) s = true ∧ delegated (.srGetDescriptorString 3 0x0409 255) s = true ∧ classIdle .unknown s :=
  ⟨takes_bench _, by decide, by decide, by decide, by decide, rfl⟩
theorem witness_ClassArmsDataStage :
    let s := answers bench [] [] [] [] [] [⟨.handled, [.controlOut 7 0x20003000 none]⟩]
    takesSetup s ∧ WellFormed (.srClass 0 1 9 0x0200 0 7) ∧ packetOf (.srClass 0 1 9 0x0200 0 7) = some 0x0007000002000921
    ∧ delegated (.srClass 0 1 9 0x0200 0 7) s = true ∧ wLength 0x0007000002000921 ≠ 0
    ∧ (0x20003000 : Addr).toNat + (wLength 0x0007000002000921).toNat ≤ 2 ^ 32
    ∧ s.env.classSteps.head? = some ⟨.handled, [.controlOut ((wLength 0x0007000002000921).setWidth 32) 0x20003000 none]⟩ :=
  ⟨takes_bench _, by decide⟩
theorem witness_SetupWhileDisconnected :
    let s := { bench with devState := .disconnected }
    packetOf (.srSetAddress 5 0 0) = some 0x0000000000050500 ∧ live s ∧ s.devState = .disconnected ∧ s.enb.ctre = true
    ∧ ∀ y, y ≠ .ctrt → pending s y = false := ⟨by decide, live_of rfl, rfl, rfl, quiet_of_check (by decide)⟩

theorem witness_StatusBitsKept : encode .reset = .cmd 0x0000000C {} ∧ ends (exec .reset (withBrdy 1 bench)) (fun _ => true) = true
    ∧ ends (exec .evtIsr (withBrdy 1 { bench with sts := ⟨false, true, false, false⟩, enb := { bench.enb with brdye := false } }))
      (fun t => (t.pipe 1).brdySts && !t.sts.resm) = true := by decide
/-- A step that serves an event, from a state with the invariant. -/
theorem witness_StepKeepsInv : (answers (busyPipe 1 .OUT 0x20003000 100 bench) [some 1] [3] [7, 8, 9]).Inv
    ∧ ends (step { bench with inputs := [.cmd 0x00000005 { len := 10, buf := 0x20001000 }] }) (fun t => (t.pipe 2).busy) = true :=
  ⟨inv_reading, by decide⟩
theorem witness_StepKeepsTrace :
    ends (step { bench with inputs := [.cmd 0x0000000D operands] }) (fun t => t.trace.length == 6) = true := by decide

/-- DISCONNECTED with VBUS high, and a bus reset reported. -/
def waitingForReset : State :=
  answers { bench with sts := ⟨false, false, true, false⟩, usbState := .defaultState, devState := .disconnected } [some 0, none, none]
theorem inv_waitingForReset : waitingForReset.Inv where
  params := by decide
  memory := by decide
  retries := by decide
  counts := by decide
  position := by decide
  range := by decide
  direction := by decide
  lease := by decide
  control := by decide
  notControlIn := by decide
  connected := by decide
  config := by decide
  owner := by intro f; cases f <;> decide
  boot := by decide
  served := fun _ => ⟨⟨operands.desc, rfl, rfl, rfl⟩, by decide⟩
  context := by decide
theorem witness_OnlyBusResetConnects : waitingForReset.Inv ∧ waitingForReset.devState = .disconnected
    ∧ ends (step waitingForReset) (fun t => t.devState == .ready) = true := ⟨inv_waitingForReset, by decide, by decide⟩

end Sys2Proof.Tests
end

section
/-! PROOFS. The channel at power-on, and its invariant: it holds at power-on and every step keeps it. -/

namespace Sys2Proof.Machine

/-! ### Power-on -/

/-- Every pipe of the reset state is a pipe at power-on. -/
@[simp] theorem State.pipe_reset (p : Pipe) : State.reset.pipe p = PipeState.powerOn p := by
  simp [State.pipe, State.reset]

/-- No FIFO has an owner at power-on. -/
@[simp] theorem State.owner_reset (f : FifoId) : (State.reset.fifo f).owner = none := by cases f <;> rfl

/-- No data pipe has a valid configuration at power-on; pipe 0's mark is free (10_state.md R86). -/
theorem PipeState.powerOn_cfgValid {p : Pipe} (h : p ≠ 0) : (PipeState.powerOn p).cfgValid = false := if_neg h

/-- A pipe at power-on has neither a transfer nor a lease, and no configuration to judge. -/
theorem pipeOk_powerOn (p : Pipe) : PipeOk p (PipeState.powerOn p) where
  retries := ⟨Nat.zero_le 3, nofun⟩
  counts := ⟨Nat.le_refl 0, Nat.two_pow_pos 32, Nat.two_pow_pos 32⟩
  position := nofun
  range := nofun
  direction := nofun
  lease := (ite_self false).symm
  config n v := by rw [PipeState.powerOn_cfgValid n] at v; cases v

/-- With no data pipe configured, no two share an endpoint. -/
theorem endpointsDistinct_reset : endpointsDistinct (cfgInForce State.reset) = true := by
  have none_inForce : ∀ p, p ≠ 0 → cfgInForce State.reset p = none := fun p n => by
    simp [cfgInForce, PipeState.powerOn_cfgValid n]
  rw [endpointsDistinct_congr none_inForce]
  decide

theorem core_reset : Core State.reset where
  params := by decide
  memory := Memory.wf_reset
  pipes p := by rw [State.pipe_reset]; exact pipeOk_powerOn p
  control := by rw [State.pipe_reset]; exact ⟨⟨nofun, nofun⟩, rfl⟩
  send := nofun
  connected n := absurd rfl n
  distinct := endpointsDistinct_reset
  owner f p o := by rw [State.owner_reset] at o; cases o
  boot _ := ⟨rfl, rfl, rfl, rfl, fun p => by rw [State.pipe_reset]; exact ⟨rfl, PipeState.powerOn_cfgValid⟩⟩
  served := nofun

/-- Settles O7: the fields of the channel are read off the reset state, those of a pipe off a pipe at power-on. -/
theorem powerOnChannel : Obligations.PowerOnChannel := by
  refine ⟨rfl, rfl, rfl, rfl, rfl, rfl, rfl, rfl, rfl, fun p => ?_, State.owner_reset⟩
  rw [State.pipe_reset]
  exact ⟨rfl, rfl, rfl, rfl, rfl, rfl, PipeState.powerOn_cfgValid⟩

/-- Settles O57: what holds between two operations holds at power-on, in task context. -/
theorem powerOnInv : Obligations.PowerOnInv :=
  (inv_iff State.reset).mpr ⟨core_reset, nofun, fun _ => rfl⟩

/-! ### The step -/

/-- What a change must keep, and the context it must end in, for the invariant to hold after it. -/
theorem State.Inv.keep {s t : State} (h : s.Inv) (core : Core s → Core t)
    (notIn : s.devState ≠ .controlIn → t.devState ≠ .controlIn) (context : t.fatal = false → t.ctx = .task) : t.Inv := by
  obtain ⟨hcore, hdev, -⟩ := (inv_iff s).mp h
  exact (inv_iff t).mpr ⟨core hcore, notIn hdev, context⟩

/-- The schedule is no part of the invariant. -/
theorem State.Inv.withInputs {s : State} (h : s.Inv) (xs : List Action) : ({ s with inputs := xs } : State).Inv :=
  h.keep (core_same · (fun _ => .refl _) rfl rfl rfl rfl rfl rfl rfl rfl rfl rfl rfl rfl) id h.context

/-- A setup packet that the controller latches changes nothing the invariant speaks of. -/
theorem State.Inv.ctlSetup {s : State} (h : s.Inv) (S : BitVec 64) : (ctlSetup S s).Inv :=
  h.keep (core_ctlStep (.setup S)) id h.context

/-- A turn of the ISR keeps the invariant: a pass ends fatal or in the context it began in. -/
theorem State.Inv.turn {s t : State} (h : s.Inv) (f : s.fatal = false) (m : Turn s t) : t.Inv := by
  obtain rfl | ⟨-, pass, ends⟩ := m
  · exact h
  · refine h.keep pass.core pass.notIn fun running => ?_
    rcases ends with halted | same
    · rw [running] at halted; cases halted
    · rw [same, h.context f]

/-- Every agent's move keeps the invariant. -/
theorem State.Inv.moves {s t : State} (h : s.Inv) (f : s.fatal = false) (m : Moves s t) : t.Inv := by
  cases m with
  | command k => exact h.keep (fun c => k.core (core_withCtx .task c)) k.notIn fun _ => k.frame.ctx
  | event u hu m =>
    obtain rfl | ⟨S, rfl⟩ := hu
    · exact h.turn f m
    · exact (h.ctlSetup S).turn f m
  | calm _ core dev ctx => exact h.keep core (dev ▸ ·) fun _ => ctx.trans (h.context f)

/-- Settles O58: a step is the move of one agent, and each kind of move keeps the invariant. -/
theorem stepKeepsInv : Obligations.StepKeepsInv := by
  intro s t h hstep
  obtain ⟨running, rest, m⟩ := step_moves hstep
  exact (h.withInputs rest).moves running m

end Sys2Proof.Machine
end

section
/-! PROOFS. Caller memory: what a read access and a refused range leave alone, the caller's own accesses, the
waiter; and the instruction that a step runs. -/

namespace Sys2Proof.Machine

/-! ### The step, agent by agent -/

/-- With no fatal state set, the agent at the head of the schedule moves. -/
theorem step_scheduled {s : State} {a : Action} {rest : List Action} (running : s.fatal = false) (h : s.inputs = a :: rest) :
    step s = perform a { s with inputs := rest } := by
  simp [step, running, h]

/-- With no fatal state set and nothing scheduled, the ISR has its turn. -/
theorem step_unscheduled {s : State} (running : s.fatal = false) (h : s.inputs = []) : step s = exec .evtIsr s := by
  simp [step, running, h]

/-- An input that decodes runs its instruction. -/
theorem runInput_decoded {x : Input} {i : Instr} (h : decode x = .ok i) (s : State) : runInput x s = exec i s := by
  simp only [runInput, h]

/-- Settles O5: the head of the schedule is performed, and a decoded input runs its instruction. -/
theorem stepRunsDecoded : Obligations.StepRunsDecoded := by
  intro s running
  refine ⟨fun w o rest i scheduled decoded => ?command, fun e rest i scheduled decoded => ?event,
    fun S rest i scheduled decoded => ?setup, step_unscheduled running⟩
  all_goals rw [step_scheduled running scheduled]
  case command => exact runInput_decoded decoded { s with inputs := rest, ctx := .task }
  case event => exact runInput_decoded decoded { s with inputs := rest }
  case setup => exact runInput_decoded decoded { s with inputs := rest }

/-- What a waiter's poll appends, as one record. -/
theorem waitPoll_eq (p : Pipe) (s : State) : waitPoll p s = { s with waits := s.waits ++
    [if (s.pipe p).busy then ⟨p, false, 0, .ok⟩ else ⟨p, true, (s.pipe p).resLen, (s.pipe p).resErr⟩] } := rfl

/-- Settles O34: the step is one poll of the pipe. -/
theorem waiterReads : Obligations.WaiterReads := by
  intro s p rest running scheduled
  rw [step_scheduled running scheduled, perform, waitPoll_eq]
  rfl

/-! ### The caller's accesses -/

/-- A caller's write stores its byte, or in a race a free one (20_memory.md R122). -/
theorem callerWrite_eq (a : Addr) (b : Byte) (s : State) : callerWrite a b s = { s with
    mem := s.mem.write a.toNat (if inUse s a.toNat then Config.freeRaceByte s.env.draws else b)
    env := if inUse s a.toNat then { s.env with draws := s.env.draws + 1 } else s.env } := by
  unfold callerWrite
  cases inUse s a.toNat
  case false => rfl
  case true => rfl

/-- A caller's read observes the byte memory holds, or in a race a free one (20_memory.md R122). -/
theorem callerRead_eq (a : Addr) (s : State) : callerRead a s = { s with
    env := if inArrival s a.toNat then { s.env with draws := s.env.draws + 1 } else s.env
    reads := s.reads ++ [⟨a, if inArrival s a.toNat then Config.freeRaceByte s.env.draws else s.mem.read a.toNat⟩] } := by
  unfold callerRead
  cases inArrival s a.toNat
  case false => rfl
  case true => rfl

/-- Settles O33: the memory after a write is one `Memory.write`, whose laws say what it holds. -/
theorem callerAccessesMemory : Obligations.CallerAccessesMemory := by
  intro s a b rest running
  refine ⟨fun scheduled canonical => ?write, fun scheduled => ?read⟩
  case write =>
    refine ⟨s.mem.write a.toNat (if inUse s a.toNat then Config.freeRaceByte s.env.draws else b),
      Memory.wf_write canonical _ a.isLt, ?_, Memory.read_write_same canonical _ _,
      fun _ other => Memory.read_write_ne _ _ other⟩
    rw [step_scheduled running scheduled, perform, callerWrite_eq]
    rfl
  case read =>
    rw [step_scheduled running scheduled, perform, callerRead_eq]
    rfl

/-! ### The bounds of a read access (20_memory.md R103) -/

/-- In every state, a read access writes at most the bytes its transfer still awaits, and none for a null destination. -/
theorem readAccess_mem_outside (p : Pipe) (s : State) {a : Nat}
    (outside : (s.pipe p).xfer.buf = 0 ∨ a < (s.pipe p).xfer.pos
      ∨ (s.pipe p).xfer.pos + (s.pipe p).xfer.remaining ≤ a) :
    (readAccess p s).2.mem.read a = s.mem.read a := by
  have kept : ∀ bs : List Byte, bs.length ≤ (s.pipe p).xfer.remaining →
      (if (s.pipe p).xfer.buf = 0 then s.mem else s.mem.writeBytes (s.pipe p).xfer.pos bs).read a = s.mem.read a := by
    intro bs fits
    split
    · rfl
    · next dest => exact Memory.read_writeBytes_outside _ (by have := outside.resolve_left dest; omega)
  rcases readAccess_cases p s with ⟨e, h⟩ | ⟨n, e, bs, -, fits, len, h⟩ | ⟨n, e, bs, -, len, h⟩ <;> rw [h]
  · simp
  · simpa using kept bs (by omega)
  · simpa [overran] using kept bs (by omega)

/-- The bytes that an active transfer still awaits lie at the end of its buffer. -/
theorem State.Inv.awaited_in_buffer {s : State} {p : Pipe} (h : s.Inv) (active : (s.pipe p).xfer.active = true)
    (dest : (s.pipe p).xfer.buf ≠ 0) : (s.pipe p).xfer.buf.toNat ≤ (s.pipe p).xfer.pos
      ∧ (s.pipe p).xfer.pos + (s.pipe p).xfer.remaining = (s.pipe p).xfer.buf.toNat + (s.pipe p).xfer.total := by
  have position := h.position p active
  rw [if_neg dest] at position
  obtain ⟨bounded, -, -⟩ := h.counts p
  omega

/-! ### A range past 2^32 (20_memory.md R102) -/

/-- A range that passes 2^32 does not begin at the null address. -/
theorem bufferWraps_of_lt {buf : Addr} {len : Len} (h : 2 ^ 32 < buf.toNat + len.toNat) : bufferWraps buf len = true := by
  refine (bufferWraps_iff buf len).mpr ⟨?_, h⟩
  rintro rfl
  have null : (0 : Addr).toNat = 0 := rfl
  have := len.isLt
  omega

/-- Once the device is connected, every check of a start up to the range's answers STATE. -/
theorem start_wraps {len : Len} {buf : Addr} {s : State} (connected : s.devState ≠ .disconnected)
    (wraps : bufferWraps buf len = true) (p : Pipe) (d : Dir) (k : Option CbId) : start p d len buf k s = (.state, s) := by
  have broken : startError p d len buf s = some .state := by
    simp only [startError, if_neg connected, if_pos wraps, ite_self]
  simp only [start, broken]

/-- Every check of `controlOut` answers STATE, so a range that wraps does whichever it breaks first. -/
theorem controlOut_wraps {len : Len} {buf : Addr} (wraps : bufferWraps buf len = true) (k : Option CbId) (s : State) :
    controlOut len buf k s = (.state, s) := by
  simp only [controlOut, if_pos wraps, ite_self]

/-- A command that returns a code and has changed nothing is turned away. -/
theorem returnCode_unchanged (e : ErrCode) (s : State) : (returnCode (e, s)).toOutcome = .next (turnedAway e s) := rfl

/-- Settles O29: a read access writes only bytes still awaited, which lie in the buffer; and of the checks of a
command none that comes before the range's has another answer than STATE. -/
theorem readStaysInBounds : Obligations.ReadStaysInBounds := by
  refine ⟨fun p s t r inv active access a outside => ?access, fun len buf k s running connected past => ?command⟩
  case access =>
    have reads := readAccess_mem_outside p s (a := a) <| or_iff_not_imp_left.mpr fun dest => by
      have := outside.resolve_left dest
      have := inv.awaited_in_buffer active dest
      omega
    rwa [access] at reads
  case command =>
    obtain ⟨initialized, notFatal⟩ := running
    have wraps := bufferWraps_of_lt past
    have data (p : Pipe) (d : Dir) : (returnCode (start p d len buf k s)).toOutcome = .next (turnedAway .state s) := by
      rw [start_wraps connected wraps, returnCode_unchanged]
    refine ⟨(exec_running notFatal _).trans (data _ .OUT), (exec_running notFatal _).trans (data _ .IN),
      (exec_running notFatal _).trans (data _ .IN), fun inside => ⟨?_, fun stage => ?_⟩⟩
    · rw [exec_running notFatal, bodyOf, cmdControlOut, insideOnSetup_onSetup initialized inside,
        controlOut_wraps wraps, returnCode_unchanged]
    · rw [exec_running notFatal, bodyOf, cmdControlIn, insideOnSetup_onSetup initialized inside, controlInCmd,
        controlIn_refused stage (.inr wraps)]
      rfl

end Sys2Proof.Machine
end

section
/-! PROOFS. The encoding (30_encoding.md): the instruction of a row of the decode table, the words of a command and of
an event and their fields; that decoder and encoder are inverse to each other, and which words are refused. -/

namespace Sys2Proof

/-! ### The setup packet (30_encoding.md R136, R137) -/

/-- The instruction of a row, from the five fields of its packet. -/
def SrRow.instr (row : SrRow) (t r : BitVec 8) (v i l : BitVec 16) : Instr :=
  let dir := t.extractLsb' 7 1
  let recipient := t.extractLsb' 0 5
  let index := v.extractLsb' 0 8
  match row with
  | .getStatusDevice => .srGetStatusDevice v i l
  | .getStatusInterface => .srGetStatusInterface v i l
  | .getStatusEndpoint => .srGetStatusEndpoint v i l
  | .clearFeatureEpHalt => .srClearFeatureEpHalt i l
  | .setFeatureEpHalt => .srSetFeatureEpHalt i l
  | .setAddress => .srSetAddress v i l
  | .getDescriptorDevice => .srGetDescriptorDevice index i l
  | .getDescriptorConfiguration => .srGetDescriptorConfiguration index i l
  | .getDescriptorString => .srGetDescriptorString index i l
  | .getDescriptorDeviceQualifier => .srGetDescriptorDeviceQualifier index i l
  | .getDescriptorOtherSpeed => .srGetDescriptorOtherSpeed index i l
  | .getConfiguration => .srGetConfiguration v i l
  | .setConfiguration => .srSetConfiguration v i l
  | .getInterface => .srGetInterface v i l
  | .setInterface => .srSetInterface v i l
  | .standardOther => .srStandardOther dir recipient r v i l
  | .classRequest => .srClass dir recipient r v i l
  | .vendor => .srVendor dir recipient r v i l
  | .reservedType => .srReservedType dir recipient r v i l

/-- A packet decodes to the instruction of the row it selects. -/
theorem decodeSetup_setupWord (t r : BitVec 8) (v i l : BitVec 16) :
    decodeSetup (setupWord t r v i l) = (rowOf (setupWord t r v i l)).instr t r v i l := by
  unfold decodeSetup
  simp only [reqDir_eq, reqRecipient_eq, descIndex_eq, bmRequestType_setupWord, bRequest_setupWord, wValue_setupWord,
    wIndex_setupWord, wLength_setupWord]
  cases rowOf (setupWord t r v i l) <;> rfl

/-- A packet whose row is known decodes to that row's instruction. -/
theorem decode_of_rowOf {t r : BitVec 8} {v i l : BitVec 16} {row : SrRow} (h : rowOf (setupWord t r v i l) = row) :
    decode (.setup (setupWord t r v i l)) = .ok (row.instr t r v i l) := by
  rw [decode, decodeSetup_setupWord, h]

/-- A row that fixes the descriptor type gives the descriptor index back. -/
theorem decode_descriptor (mk : BitVec 8 → Instr) (row : SrRow) {y x : BitVec 8} {i l : BitVec 16}
    (hrow : rowOf (setupWord 0x80 0x06 (descValue y x) i l) = row)
    (hmk : row.instr 0x80 0x06 (descValue y x) i l = mk ((descValue y x).extractLsb' 0 8)) :
    decode (.setup (setupWord 0x80 0x06 (descValue y x) i l)) = .ok (mk x) := by
  rw [decode_of_rowOf hrow, hmk, (descValue_fields y x).1]

/-- A row that fixes the request type only gives direction and recipient back. -/
theorem decode_catchAll (mk : BitVec 1 → BitVec 5 → Instr) (row : SrRow) {d : BitVec 1} {y : BitVec 2} {c : BitVec 5}
    {r : BitVec 8} {v i l : BitVec 16} (hrow : rowOf (setupWord (requestType d y c) r v i l) = row)
    (hmk : row.instr (requestType d y c) r v i l =
      mk ((requestType d y c).extractLsb' 7 1) ((requestType d y c).extractLsb' 0 5)) :
    decode (.setup (setupWord (requestType d y c) r v i l)) = .ok (mk d c) := by
  obtain ⟨dir, -, recipient⟩ := requestType_fields d y c
  rw [decode_of_rowOf hrow, hmk, dir, recipient]

/-! ### The lines of the decode table -/

theorem descValue_eta (v : BitVec 16) : descValue (v.extractLsb' 8 8) (v.extractLsb' 0 8) = v :=
  BitVec.extractLsb'_append_extractLsb' (w := 8) (len := 8)

/-- A masked `wValue` fixes the descriptor type. -/
theorem descValue_of_masked {k : BitVec 8} {v : BitVec 16} (h : v &&& 0xFF00 = descValue k 0) :
    descValue k (v.extractLsb' 0 8) = v := by
  rw [← descValue_eta v, descValue_and] at h
  rw [← (append_inj.mp h).1, descValue_eta]

/-- A masked `bmRequestType` fixes the request type. -/
theorem requestType_of_masked : ∀ (y : BitVec 2) (t : BitVec 8), t &&& 0x60 = requestType 0 y 0 →
    requestType (t.extractLsb' 7 1) y (t.extractLsb' 0 5) = t := by
  decide

/-- A row's instruction encodes the packet that has these fields. -/
def SrRow.Encodes (row : SrRow) (t r : BitVec 8) (v i l : BitVec 16) : Prop :=
  encode (row.instr t r v i l) = .setup (setupWord t r v i l)

section Lines

variable {row : SrRow} {t r : BitVec 8} {v i l : BitVec 16}

/-- A line that fixes type and request. -/
theorem encodes_of_fixed {a b : BitVec 8} (enc : encode (row.instr t r v i l) = .setup (setupWord a b v i l))
    (hit : (t &&& 0xFF == a && r &&& 0xFF == b && v &&& 0 == 0) = true) : row.Encodes t r v i l := by
  simp only [Bool.and_eq_true, beq_iff_eq] at hit
  obtain ⟨⟨type, request⟩, -⟩ := hit
  rw [SrRow.Encodes, enc, ← type, ← request]
  exact congrArg₂ (fun t r => Input.setup (setupWord t r v i l)) BitVec.and_allOnes BitVec.and_allOnes

/-- A line that fixes type, request and value. -/
theorem encodes_of_halt {a b : BitVec 8} (enc : encode (row.instr t r v i l) = .setup (setupWord a b 0 i l))
    (hit : (t &&& 0xFF == a && r &&& 0xFF == b && v &&& 0xFFFF == 0) = true) : row.Encodes t r v i l := by
  simp only [Bool.and_eq_true, beq_iff_eq] at hit
  obtain ⟨typeRequest, value⟩ := hit
  obtain rfl : v = 0 := BitVec.and_allOnes.symm.trans value
  exact encodes_of_fixed enc (by simpa using typeRequest)

/-- A line that fixes type, request and descriptor type. -/
theorem encodes_of_descriptor {a b k : BitVec 8} {w : BitVec 16} (hw : w = descValue k 0)
    (enc : encode (row.instr t r v i l) = .setup (setupWord a b (descValue k (v.extractLsb' 0 8)) i l))
    (hit : (t &&& 0xFF == a && r &&& 0xFF == b && v &&& 0xFF00 == w) = true) : row.Encodes t r v i l := by
  simp only [Bool.and_eq_true, beq_iff_eq] at hit
  obtain ⟨typeRequest, value⟩ := hit
  rw [descValue_of_masked (value.trans hw)] at enc
  exact encodes_of_fixed enc (by simpa using typeRequest)

/-- A line that fixes the request type only. -/
theorem encodes_of_catchAll {y : BitVec 2} {w : BitVec 8} (hw : w = requestType 0 y 0)
    (enc : encode (row.instr t r v i l) =
      .setup (setupWord (requestType (t.extractLsb' 7 1) y (t.extractLsb' 0 5)) r v i l))
    (hit : (t &&& 0x60 == w && r &&& 0 == 0 && v &&& 0 == 0) = true) : row.Encodes t r v i l := by
  simp only [Bool.and_eq_true, beq_iff_eq] at hit
  obtain ⟨⟨type, -⟩, -⟩ := hit
  rw [SrRow.Encodes, enc, requestType_of_masked y t (type.trans hw)]

/-- A line that matches a packet has the row whose instruction the packet encodes. -/
theorem encodes_of_hits {x : SrLine} (mem : x ∈ fieldLines) (hit : x.hits (setupWord t r v i l) = true) :
    x.row.Encodes t r v i l := by
  revert x
  simp only [fieldLines, List.forall_mem_cons, hits_setupWord, List.not_mem_nil, false_implies, implies_true, and_true]
  exact ⟨encodes_of_fixed rfl, encodes_of_fixed rfl, encodes_of_fixed rfl, encodes_of_halt rfl, encodes_of_halt rfl,
    encodes_of_fixed rfl, encodes_of_descriptor rfl rfl, encodes_of_descriptor rfl rfl, encodes_of_descriptor rfl rfl,
    encodes_of_descriptor rfl rfl, encodes_of_descriptor rfl rfl, encodes_of_fixed rfl, encodes_of_fixed rfl,
    encodes_of_fixed rfl, encodes_of_fixed rfl, encodes_of_catchAll rfl rfl, encodes_of_catchAll rfl rfl,
    encodes_of_catchAll rfl rfl, encodes_of_catchAll rfl rfl⟩

end Lines

/-- The four catch-all lines match every request type, so some line matches every packet (30_encoding.md R137). -/
theorem exists_hits (S : BitVec 64) : ∃ x ∈ fieldLines, x.hits S = true := by
  have types : ∀ t : BitVec 8, t &&& 0x60 = 0x00 ∨ t &&& 0x60 = 0x20 ∨ t &&& 0x60 = 0x40 ∨ t &&& 0x60 = 0x60 := by decide
  rw [← setupWord_eta S]
  have hits {row : SrRow} {y : BitVec 8} (h : bmRequestType S &&& 0x60 = y) :
      SrLine.hits ⟨row, setupWord y 0 0 0 0, setupWord 0x60 0 0 0 0⟩
        (setupWord (bmRequestType S) (bRequest S) (wValue S) (wIndex S) (wLength S)) = true := by
    rw [hits_setupWord, h]
    simp
  rcases types (bmRequestType S) with h | h | h | h
  · exact ⟨_, by simp [fieldLines], hits (row := .standardOther) h⟩
  · exact ⟨_, by simp [fieldLines], hits (row := .classRequest) h⟩
  · exact ⟨_, by simp [fieldLines], hits (row := .vendor) h⟩
  · exact ⟨_, by simp [fieldLines], hits (row := .reservedType) h⟩

/-- The row of a packet is that of a line that matches it. -/
theorem rowOf_hits (S : BitVec 64) : ∃ x ∈ fieldLines, x.hits S = true ∧ rowOf S = x.row := by
  obtain ⟨x, found⟩ := Option.isSome_iff_exists.mp (List.find?_isSome.mpr (exists_hits S))
  exact ⟨x, List.mem_of_find?_eq_some found, List.find?_some (p := fun x : SrLine => x.hits S) found,
    by rw [rowOf, setupTable_eq, found]⟩

/-- A setup packet is the encoding of the instruction it decodes to. -/
theorem encode_decodeSetup (S : BitVec 64) : encode (decodeSetup S) = .setup S := by
  rw [← setupWord_eta S, decodeSetup_setupWord]
  obtain ⟨x, mem, hit, row⟩ := rowOf_hits (setupWord (bmRequestType S) (bRequest S) (wValue S) (wIndex S) (wLength S))
  rw [row]
  exact encodes_of_hits mem hit

/-- Of the rows only the catch-all one of type STANDARD puts a bound on its instruction's fields. -/
theorem SrRow.wellFormed_instr {row : SrRow} (h : row ≠ .standardOther) (t r : BitVec 8) (v i l : BitVec 16) :
    WellFormed (row.instr t r v i l) := by
  cases row
  case standardOther => exact absurd rfl h
  all_goals rfl

/-- A packet that an earlier row serves does not select the catch-all row (30_encoding.md R137). -/
theorem rowOf_ne_standardOther {d : BitVec 1} {c : BitVec 5} {r : BitVec 8} {v : BitVec 16}
    (h : servedStandard d c r v = true) (i l : BitVec 16) :
    rowOf (setupWord (requestType d 0 c) r v i l) ≠ .standardOther := by
  simp only [servedStandard, show d ++ (0 : BitVec 2) ++ c = requestType d 0 c from rfl] at h
  generalize requestType d 0 c = t at *
  simp only [Bool.or_eq_true, Bool.and_eq_true, beq_iff_eq, List.contains_iff_mem] at h
  rcases h with (fixed | ⟨⟨rfl, request⟩, rfl⟩) | ⟨⟨rfl, rfl⟩, type⟩
  · simp only [servedTypeRequest, List.mem_cons, List.not_mem_nil, or_false, Prod.mk.injEq] at fixed
    simp only [rowOf, setupTable_eq, fieldLines, List.find?, hits_setupWord]
    rcases fixed with ⟨rfl, rfl⟩ | ⟨rfl, rfl⟩ | ⟨rfl, rfl⟩ | ⟨rfl, rfl⟩ | ⟨rfl, rfl⟩ |
      ⟨rfl, rfl⟩ | ⟨rfl, rfl⟩ | ⟨rfl, rfl⟩ <;> simp
  · rw [rowOf_halt r i l request]
    split <;> nofun
  · rw [← descValue_eta v, rowOf_desc _ _ i l type]
    split_ifs <;> nofun

/-- Every setup packet decodes to a well-formed instruction. -/
theorem wellFormed_decodeSetup (S : BitVec 64) : WellFormed (decodeSetup S) := by
  by_cases row : rowOf S = .standardOther
  · have other : decodeSetup S = .srStandardOther (reqDir S) (reqRecipient S) (bRequest S) (wValue S) (wIndex S)
        (wLength S) := by
      rw [decodeSetup, row]
    have packet := other ▸ encode_decodeSetup S
    rw [other, WellFormed, Instr.wellFormed, Bool.not_eq_true']
    refine Bool.eq_false_iff.mpr fun served => rowOf_ne_standardOther served (wIndex S) (wLength S) ?_
    rwa [Input.setup.inj packet]
  · rw [← setupWord_eta S] at row ⊢
    rw [decodeSetup_setupWord]
    exact SrRow.wellFormed_instr row ..

/-- The packet of a well-formed setup row decodes to that row. -/
theorem decode_encode_setup {i : Instr} {S : BitVec 64} (wf : WellFormed i) (packet : encode i = .setup S) :
    decode (encode i) = .ok i := by
  have fixed {t r : BitVec 8} (row : SrRow) {v i l : BitVec 16} (mem) :=
    decode_of_rowOf (rowOf_fixed t r v i l row mem)
  cases i
  case srGetStatusDevice => exact fixed .getStatusDevice (by decide)
  case srGetStatusInterface => exact fixed .getStatusInterface (by decide)
  case srGetStatusEndpoint => exact fixed .getStatusEndpoint (by decide)
  case srClearFeatureEpHalt i l => exact decode_of_rowOf (rowOf_halt 0x01 i l (.inl rfl))
  case srSetFeatureEpHalt i l => exact decode_of_rowOf (rowOf_halt 0x03 i l (.inr rfl))
  case srSetAddress => exact fixed .setAddress (by decide)
  case srGetDescriptorDevice x i l =>
    exact decode_descriptor (.srGetDescriptorDevice · i l) .getDescriptorDevice
      (rowOf_desc 0x01 x i l (by decide)) rfl
  case srGetDescriptorConfiguration x i l =>
    exact decode_descriptor (.srGetDescriptorConfiguration · i l) .getDescriptorConfiguration
      (rowOf_desc 0x02 x i l (by decide)) rfl
  case srGetDescriptorString x i l =>
    exact decode_descriptor (.srGetDescriptorString · i l) .getDescriptorString
      (rowOf_desc 0x03 x i l (by decide)) rfl
  case srGetDescriptorDeviceQualifier x i l =>
    exact decode_descriptor (.srGetDescriptorDeviceQualifier · i l) .getDescriptorDeviceQualifier
      (rowOf_desc 0x06 x i l (by decide)) rfl
  case srGetDescriptorOtherSpeed x i l =>
    exact decode_descriptor (.srGetDescriptorOtherSpeed · i l) .getDescriptorOtherSpeed
      (rowOf_desc 0x07 x i l (by decide)) rfl
  case srGetConfiguration => exact fixed .getConfiguration (by decide)
  case srSetConfiguration => exact fixed .setConfiguration (by decide)
  case srGetInterface => exact fixed .getInterface (by decide)
  case srSetInterface => exact fixed .setInterface (by decide)
  case srStandardOther d c r v i l =>
    exact decode_catchAll (.srStandardOther · · r v i l) .standardOther
      (rowOf_other d c r v i l ((Bool.not_eq_true' _).mp wf)) rfl
  case srClass d c r v i l =>
    exact decode_catchAll (.srClass · · r v i l) .classRequest
      (rowOf_type d 1 c r v i l (by decide)) rfl
  case srVendor d c r v i l =>
    exact decode_catchAll (.srVendor · · r v i l) .vendor
      (rowOf_type d 2 c r v i l (by decide)) rfl
  case srReservedType d c r v i l =>
    exact decode_catchAll (.srReservedType · · r v i l) .reservedType
      (rowOf_type d 3 c r v i l (by decide)) rfl
  all_goals cases packet

/-! ### Command words (30_encoding.md R140, R141) -/

/-- A command word whose upper bits are 0 is made of its op and its arg. -/
theorem cmdWord_eta {w : BitVec 32} (h : cmdRest w = 0) : cmdWord (cmdOp w) (cmdArg w) = w := by
  have parts : cmdRest w ++ cmdArg w ++ cmdOp w = w := by
    rw [cmdRest, cmdArg, cmdOp, BitVec.extractLsb'_append_extractLsb'_eq_extractLsb' (by rfl)]
    exact BitVec.extractLsb'_append_extractLsb' (w := 24) (len := 8)
  rw [cmdWord, ← h, parts]

/-- A command that takes no argument decodes exactly when its arg is 0. -/
theorem noArg_eq_ok {a : BitVec 4} {i j : Instr} : noArg a i = .ok j ↔ a = 0 ∧ i = j := by
  unfold noArg
  split <;> simp_all

/-- A command that takes no argument is refused exactly when its arg is not 0. -/
theorem noArg_eq_error {a : BitVec 4} {i : Instr} : (∃ e, noArg a i = .error e) ↔ a ≠ 0 := by
  unfold noArg
  split <;> simp_all

/-- A command word that decodes gives a well-formed command, which that word encodes. -/
theorem decodeCmd_ok {w : BitVec 32} {o : Operands} {i : Instr} (h : decodeCmd w o = .ok i) :
    WellFormed i ∧ ∃ o', encode i = .cmd w o' := by
  unfold decodeCmd at h
  split at h
  · cases h
  next rest =>
    rw [not_not] at rest
    rw [← cmdWord_eta rest]
    generalize cmdOp w = op, cmdArg w = arg at h ⊢
    have word {k a : Nat} {j : Instr} {o' : Operands} (hop : op.toNat = k) (harg : arg.toNat = a) (eq : j = i)
        (wf : WellFormed j) (enc : encode j = .cmd (cmdWord (BitVec.ofNat 8 k) (BitVec.ofNat 4 a)) o') :
        WellFormed i ∧ ∃ o', encode i = .cmd (cmdWord op arg) o' := by
      rw [(BitVec.toNat_eq_nat.mp hop).2, (BitVec.toNat_eq_nat.mp harg).2]
      exact eq ▸ ⟨wf, o', enc⟩
    split at h
    case h_1 hop | h_2 hop | h_3 hop | h_4 hop | h_5 hop | h_6 hop | h_7 hop | h_9 hop | h_11 hop | h_12 hop | h_13 hop =>
      obtain ⟨rfl, eq⟩ := noArg_eq_ok.mp h
      exact word hop rfl eq rfl rfl
    case h_8 hop =>
      split at h
      case h_5 => cases h
      all_goals exact word hop ‹_› (Except.ok.inj h) rfl rfl
    case h_10 hop =>
      cases h
      obtain rfl : op = 0x0A := BitVec.eq_of_toNat_eq hop
      exact ⟨rfl, {}, rfl⟩
    case h_14 => cases h

/-- The word of a command decodes to it. -/
theorem decode_encode_cmd {i : Instr} {w : BitVec 32} {o : Operands} (word : encode i = .cmd w o) :
    decode (encode i) = .ok i := by
  cases i
  case isEndpointStalled p => clear word; revert p; decide
  case init | controlAck | controlIn | controlOut | bulkIn | bulkOut | interruptIn | stallControl | stallBulkIn
      | stallBulkOut | stallIntIn | getDeviceState | cancel | reset | resetEndpoints => rfl
  all_goals cases word

/-- A command word is refused exactly when R150 names it (30_encoding.md R150). -/
theorem decodeCmd_error_iff (w : BitVec 32) (o : Operands) : (∃ e, decodeCmd w o = .error e) ↔
    (cmdOp w = 0 ∨ 0x0E ≤ (cmdOp w).toNat ∨ cmdRest w ≠ 0
      ∨ (cmdOp w ≠ 0x08 ∧ cmdOp w ≠ 0x0A ∧ cmdArg w ≠ 0) ∨ (cmdOp w = 0x08 ∧ 4 ≤ (cmdArg w).toNat)) := by
  unfold decodeCmd
  split
  next rest => exact iff_of_true ⟨_, rfl⟩ (.inr (.inr (.inl rest)))
  next rest =>
    rw [not_not] at rest
    split
    case h_1 hop | h_2 hop | h_3 hop | h_4 hop | h_5 hop | h_6 hop | h_7 hop | h_9 hop | h_11 hop | h_12 hop | h_13 hop =>
      simp [noArg_eq_error, (BitVec.toNat_eq_nat.mp hop).2, rest]
    case h_8 hop =>
      simp only [(BitVec.toNat_eq_nat.mp hop).2, rest]
      split
      case h_5 =>
        simp only [imp_false] at *
        exact iff_of_true ⟨_, rfl⟩ (.inr (.inr (.inr (.inr ⟨rfl, by omega⟩))))
      all_goals simp [*]
    case h_10 hop => simp [(BitVec.toNat_eq_nat.mp hop).2, rest]
    case h_14 =>
      simp only [imp_false] at *
      refine iff_of_true ⟨_, rfl⟩ ?_
      by_cases zero : (cmdOp w).toNat = 0
      · exact .inl (BitVec.eq_of_toNat_eq zero)
      · exact .inr (.inl (by omega))

/-! ### Event words (30_encoding.md R145) -/

/-- An event word whose upper bits are 0 is made of its code and its pipe. -/
theorem evtWord_eta {e : BitVec 16} (h : evtRest e = 0) : evtWord (evtCode e) (evtPipe e) = e := by
  have parts : evtRest e ++ evtPipe e ++ evtCode e = e := by
    rw [evtRest, evtPipe, evtCode, BitVec.extractLsb'_append_extractLsb'_eq_extractLsb' (by rfl)]
    exact BitVec.extractLsb'_append_extractLsb' (w := 8) (len := 8)
  rw [evtWord, ← h, parts]

/-- A per-pipe event that decodes is the control pipe's, or that of one of the pipes 1..9. -/
theorem pipeEvent_eq_ok {p : BitVec 4} {zero i : Instr} {data : BitVec 4 → Instr} (h : pipeEvent p zero data = .ok i) :
    p = 0 ∧ zero = i ∨ dataPipe p = true ∧ data p = i := by
  unfold pipeEvent at h
  split at h
  next control => exact .inl ⟨control, Except.ok.inj h⟩
  next =>
    split at h
    next data => exact .inr ⟨data, Except.ok.inj h⟩
    next => cases h

/-- An event word that decodes gives a well-formed event, which that word encodes. -/
theorem decodeEvt_ok {e : BitVec 16} {i : Instr} (h : decodeEvt e = .ok i) : WellFormed i ∧ encode i = .evt e := by
  unfold decodeEvt at h
  split at h
  · cases h
  next rest =>
    rw [not_not] at rest
    rw [← evtWord_eta rest]
    generalize evtCode e = code, evtPipe e = pipe at h ⊢
    have word {k : Nat} {j : Instr} (hcode : code.toNat = k) (eq : j = i) (wf : WellFormed j)
        (enc : encode j = .evt (evtWord (BitVec.ofNat 8 k) pipe)) :
        WellFormed i ∧ encode i = .evt (evtWord code pipe) := by
      rw [(BitVec.toNat_eq_nat.mp hcode).2]
      exact eq ▸ ⟨wf, enc⟩
    split at h
    case h_1 hcode | h_5 hcode | h_6 hcode | h_7 hcode | h_8 hcode =>
      obtain ⟨rfl, eq⟩ := noArg_eq_ok.mp h
      exact word hcode eq rfl rfl
    case h_2 hcode | h_3 hcode | h_4 hcode =>
      obtain ⟨rfl, eq⟩ | ⟨data, eq⟩ := pipeEvent_eq_ok h
      · exact word hcode eq rfl rfl
      · exact word hcode eq data rfl
    case h_9 => cases h

/-- The word of a well-formed event decodes to it. -/
theorem decode_encode_evt {i : Instr} {e : BitVec 16} (wf : WellFormed i) (word : encode i = .evt e) :
    decode (encode i) = .ok i := by
  cases i
  case evtBemp p | evtNrdy p | evtBrdy p => clear word; revert p; decide
  case evtIsr | evtBemp0 | evtNrdy0 | evtBrdy0 | evtDvst | evtCtrt | evtResm | evtVbint => rfl
  all_goals cases word

/-- The word of a well-formed event has a listed code, and a per-pipe code a pipe up to 9. -/
theorem code_pipe_of_encode {i : Instr} {e : BitVec 16} (wf : WellFormed i) (word : encode i = .evt e) :
    evtCode e ∈ [0x00, 0x01, 0x02, 0x03, 0x10, 0x11, 0x12, 0x13]
      ∧ (evtCode e ∈ [0x01, 0x02, 0x03] → (evtPipe e).toNat ≤ 9) := by
  cases i
  case evtBemp p | evtNrdy p | evtBrdy p => cases word; revert p; decide
  case evtIsr | evtBemp0 | evtNrdy0 | evtBrdy0 | evtDvst | evtCtrt | evtResm | evtVbint => cases word; decide
  all_goals cases word

end Sys2Proof

namespace Sys2Proof.Machine

/-! ### The statements -/

/-- Settles O1: format by format, by the row a packet selects and by the word of a command or an event. -/
theorem decodeEncode : Obligations.DecodeEncode := by
  intro i wf
  cases word : encode i with
  | setup S => exact word ▸ decode_encode_setup wf word
  | cmd w o => exact word ▸ decode_encode_cmd word
  | evt e => exact word ▸ decode_encode_evt wf word

/-- Settles O2: a packet by the line of the table that matches it, a word by its op or its code. -/
theorem decodedInputIsEncoding : Obligations.DecodedInputIsEncoding :=
  ⟨fun S => ⟨rfl, wellFormed_decodeSetup S, encode_decodeSetup S⟩, fun _ _ _ h => decodeCmd_ok h, fun _ _ h => decodeEvt_ok h⟩

/-- The query of a pipe above 9 answers false (44_device_hal.md R344). -/
theorem endpointStalled_of_le {a : BitVec 4} (h : 10 ≤ a.toNat) (s : State) : endpointStalled a s = false := by
  rw [endpointStalled, pipeOfArg, dif_neg (Nat.not_lt.mpr h)]

/-- Settles O3: an event word that decodes would be the word of a well-formed event, and R150 names none. -/
theorem reservedWordsRefused : Obligations.ReservedWordsRefused := by
  refine ⟨decodeCmd_error_iff, fun e reserved => ?event, fun x r s refused => ?noEffect, fun a s running above => ?query⟩
  case event =>
    cases decoded : decode (.evt e) with
    | error r => exact ⟨r, rfl⟩
    | ok i =>
      obtain ⟨wf, word⟩ := decodeEvt_ok decoded
      obtain ⟨listed, bounded⟩ := code_pipe_of_encode wf word
      rcases reserved with unlisted | ⟨perPipe, above⟩
      · exact absurd listed unlisted
      · exact absurd (bounded perPipe) (Nat.not_le.mpr above)
  case noEffect => rw [runInput, refused]
  case query =>
    rw [exec_running running, bodyOf, cmdIsEndpointStalled, endpointStalled_of_le above]
    rfl

/-- Settles O4: the decoder computes each of the eight instructions. -/
theorem decodedWords : Obligations.DecodedWords := by
  unfold Obligations.DecodedWords
  decide

end Sys2Proof.Machine
end

section
/-! PROOFS. FIFO binding (41_fifo_binding.md): the fallible bind, and the unconditional bind attempt by attempt. -/

namespace Sys2Proof.Machine

/-! ### The fallible bind -/

/-- Settles O24: the first poll that reports the pipe ends the polling, and a budget of other answers uses it up. -/
theorem bindOutcome : Obligations.BindOutcome :=
  fun _ _ _ _ _ _ others => ⟨bindFifo_confirms others, bindFifo_timeout others⟩

/-! ### The unconditional bind -/

/-- A bind changes no `fatal`. -/
@[simp] theorem afterBind_fatal (p : Option Pipe) (f : FifoId) (d : Dir) (b : Bool) (s : State) :
    (afterBind p f d b s).fatal = s.fatal := by cases f <;> rfl

@[simp] theorem State.withEnv_fatal (s : State) (e : Env) : (s.withEnv e).fatal = s.fatal := rfl

section
variable {p : Option Pipe} {f : FifoId} {d : Dir} {n : Nat} {s : State} {ws xs : List (Option Pipe)}

/-- An attempt that confirms is the last. -/
theorem bindAttempts_succ_confirms (others : ∀ w ∈ ws, w ≠ p) (within : ws.length < s.params.bindPollBudget)
    (answers : s.env.fifoCur = ws ++ p :: xs) :
    bindAttempts p f d (n + 1) s = .done () ((afterBind p f d true s).withEnv { s.env with fifoCur := xs }) := by
  rw [bindAttempts, bindFifo_confirms others within answers]

/-- After an attempt that times out the remaining ones follow, from the state of the timeout. -/
theorem bindAttempts_succ_timeout (others : ∀ w ∈ ws, w ≠ p) (spent : ws.length = s.params.bindPollBudget)
    (answers : s.env.fifoCur = ws ++ xs) :
    bindAttempts p f d (n + 1) s =
      bindAttempts p f d n ((afterBind p f d false s).withEnv { s.env with fifoCur := xs }) := by
  rw [bindAttempts, bindFifo_timeout others spent answers]

/-- The attempts confirm at the first poll that reports the pipe, whichever attempt it falls in. -/
theorem bindAttempts_confirms (others : ∀ w ∈ ws, w ≠ p) (within : ws.length < n * s.params.bindPollBudget)
    (answers : s.env.fifoCur = ws ++ p :: xs) :
    ∃ t, bindAttempts p f d n s = .done () t ∧ (t.fifo f).owner = p ∧ t.fatal = s.fatal ∧ t.env.fifoCur = xs := by
  induction n generalizing ws s with
  | zero => simp at within
  | succ n ih =>
    rcases Nat.lt_or_ge ws.length s.params.bindPollBudget with first | later
    · exact ⟨_, bindAttempts_succ_confirms others first answers, by simp, by simp, rfl⟩
    · obtain ⟨us, vs, rfl, spent⟩ : ∃ us vs, ws = us ++ vs ∧ us.length = s.params.bindPollBudget :=
        ⟨_, _, (List.take_append_drop _ ws).symm, List.length_take_of_le later⟩
      obtain ⟨othersHere, othersLater⟩ := List.forall_mem_append.mp others
      rw [bindAttempts_succ_timeout othersHere spent (answers.trans (List.append_assoc ..))]
      rw [List.length_append, spent, Nat.succ_mul, Nat.add_comm] at within
      simpa using ih (s := (afterBind p f d false s).withEnv _) othersLater
        (by simpa using Nat.lt_of_add_lt_add_right within) rfl

/-- When no poll of any attempt reports the pipe, the attempts end halted with `fatal` set; the FIFO has then no owner,
where an attempt was made or it had none before. -/
theorem bindAttempts_exhausted (others : ∀ w ∈ ws, w ≠ p) (spent : ws.length = n * s.params.bindPollBudget)
    (answers : s.env.fifoCur = ws ++ xs) :
    ∃ t, bindAttempts p f d n s = .halt t ∧ t.fatal = true ∧ t.env.fifoCur = xs
      ∧ (0 < n ∨ (s.fifo f).owner = none → (t.fifo f).owner = none) := by
  induction n generalizing ws s with
  | zero =>
    obtain rfl : ws = [] := List.eq_nil_of_length_eq_zero (by simpa using spent)
    exact ⟨_, rfl, rfl, answers, fun free => by cases f <;> simpa [State.fifo] using free⟩
  | succ n ih =>
    rw [Nat.succ_mul] at spent
    obtain ⟨us, vs, rfl, here⟩ : ∃ us vs, ws = us ++ vs ∧ us.length = s.params.bindPollBudget :=
      ⟨_, _, (List.take_append_drop _ ws).symm, List.length_take_of_le (by omega)⟩
    obtain ⟨othersHere, othersLater⟩ := List.forall_mem_append.mp others
    rw [bindAttempts_succ_timeout othersHere here (answers.trans (List.append_assoc ..))]
    obtain ⟨t, halted, fatal, unread, free⟩ :=
      ih (s := (afterBind p f d false s).withEnv { s.env with fifoCur := vs ++ xs }) othersLater
        (by simp at spent ⊢; omega) rfl
    exact ⟨t, halted, fatal, unread, fun _ => free (.inr (by simp))⟩

end

/-- Settles O25, by induction on the attempts: each uses up a budget of polls, or confirms within its own. -/
theorem unconditionalBind : Obligations.UnconditionalBind := by
  intro p f d s ws xs others
  refine ⟨bindAttempts_confirms others, fun spent answers => ?_⟩
  obtain ⟨t, halted, fatal, unread, free⟩ := bindAttempts_exhausted others spent answers
  exact ⟨t, halted, fatal, unread, fun tried => free (.inl tried)⟩

end Sys2Proof.Machine
end

section
/-! PROOFS. The transfer engine (42_transfer_engine.md): how a write access and a read access end and what they leave,
the transfer record across accesses, the accesses of a whole write, and the byte moves. -/

namespace Sys2Proof.Machine

/-! ### The outcome of an access -/

/-- The packet test, in the terms of the statements. -/
theorem isShort_iff (n m : Nat) : isShort n m = true ↔ n = 0 ∨ n % m ≠ 0 := by simp [isShort]

theorem classifyFinal_eq (n m : Nat) : classifyFinal n m = if n = 0 ∨ n % m ≠ 0 then .SHORT else .END := by
  simp only [classifyFinal, isShort_iff]

/-- A read of no more than the transfer awaits ends it when it is all of that. -/
theorem classifyRead_eq {rcv awaited : Nat} (m : Nat) (fits : rcv ≤ awaited) : classifyRead rcv m (awaited - rcv) =
    if rcv = 0 ∨ rcv % m ≠ 0 then .SHORT else if awaited = rcv then .END else .CONTINUE := by
  have spent : awaited - rcv = 0 ↔ awaited = rcv := by omega
  simp only [classifyRead, isShort_iff, spent]

/-- The outcomes of the accesses that move their bytes; the two others keep the transfer record (42_transfer_engine.md
R237). -/
def Access.moved : Access → Bool
  | .CONTINUE | .END | .SHORT => true
  | .OVERRUN | .ERROR => false

theorem endWrite_moved (p : Pipe) (n : Nat) (final : Bool) (s : State) : (endWrite p n final s).1.moved = true := by
  rw [endWrite_fst, classifyFinal_eq]
  split
  · split
    · rfl
    · split
      · rfl
      · rfl
  · rfl

theorem endRead_fst (p : Pipe) (rcv : Nat) (s : State) :
    (endRead p rcv s).1 = classifyRead rcv (maxPacketSize p s) (s.pipe p).xfer.remaining := rfl

theorem endRead_moved (p : Pipe) (rcv : Nat) (s : State) : (endRead p rcv s).1.moved = true := by
  rw [endRead_fst, classifyRead]
  split
  · rfl
  · split
    · rfl
    · rfl

/-! ### The transfer record (42_transfer_engine.md R237, R239) -/

/-- What an access that ends in r may make of the record x: `remaining` does not rise, `pos` does not fall, and on
OVERRUN or ERROR the record is kept. -/
def RecordMoves (r : Access) (x y : Xfer) : Prop :=
  y.remaining ≤ x.remaining ∧ x.pos ≤ y.pos ∧ y.buf = x.buf ∧ y.total = x.total
    ∧ ((r = .OVERRUN ∨ r = .ERROR) → y = x)

theorem RecordMoves.kept (r : Access) (x : Xfer) : RecordMoves r x x := ⟨le_rfl, le_rfl, rfl, rfl, fun _ => rfl⟩

theorem RecordMoves.of_moved {r : Access} {x : Xfer} {pos : Nat} (moved : r.moved = true) (forward : x.pos ≤ pos)
    (n : Nat) : RecordMoves r x { x with pos := pos, remaining := x.remaining - n } := by
  refine ⟨Nat.sub_le _ n, forward, rfl, rfl, ?_⟩
  rintro (rfl | rfl)
  · cases moved
  · cases moved

@[simp] theorem overran_pipe_self (p : Pipe) (bs : List Byte) (e : Env) (s : State) :
    (overran p bs e s).pipe p = { s.pipe p with building := [] } := by
  simp [overran]

theorem writeAccess_recordMoves (p : Pipe) (s : State) :
    RecordMoves (writeAccess p s).1 (s.pipe p).xfer ((writeAccess p s).2.pipe p).xfer := by
  rcases writeAccess_cases p s with ⟨e, timedOut⟩ | ⟨e, bound⟩
  · rw [timedOut, State.withEnv_pipe, afterBind_pipe]
    exact .kept ..
  · rw [bound, endWrite_xfer, wrote_pipe_self]
    exact .of_moved (endWrite_moved ..) (Nat.le_add_right ..) _

theorem readAccess_recordMoves (p : Pipe) (s : State) :
    RecordMoves (readAccess p s).1 (s.pipe p).xfer ((readAccess p s).2.pipe p).xfer := by
  rcases readAccess_cases p s with ⟨e, timedOut⟩ | ⟨rcv, e, bs, -, -, -, fits⟩ | ⟨rcv, e, bs, -, -, passes⟩
  · rw [timedOut, State.withEnv_pipe, afterBind_pipe]
    exact .kept ..
  · rw [fits, endRead_pipe, took_pipe_self]
    exact .of_moved (endRead_moved ..) (by split <;> omega) _
  · rw [passes, overran_pipe_self]
    exact .kept ..

/-- Settles O30, by what each access can do: it keeps the record, or moves it forward and ends in an outcome of a move. -/
theorem accessIsMonotone : Obligations.AccessIsMonotone := by
  rintro p s t r (write | read)
  · have moves := writeAccess_recordMoves p s
    rwa [write] at moves
  · have moves := readAccess_recordMoves p s
    rwa [read] at moves

/-! ### A write access (42_transfer_engine.md R221, R223, R236) -/

theorem State.logs_nil (s : State) : s.logs [] = s := by simp [State.logs]

@[simp] theorem handed_pipe_self (p : Pipe) (s : State) : (handed p s).pipe p = { s.pipe p with
    sent := (s.pipe p).sent ++ packetsOf (maxPacketSize p s) (s.pipe p).building
    building := [] } := by
  simp [handed]
theorem handed_pipe_ne {p q : Pipe} (s : State) (other : p ≠ q) : (handed p s).pipe q = s.pipe q :=
  State.pipe_modPipe_ne _ _ other
@[simp] theorem handed_mem (p : Pipe) (s : State) : (handed p s).mem = s.mem := rfl
@[simp] theorem handed_env (p : Pipe) (s : State) : (handed p s).env = s.env := rfl
@[simp] theorem handed_params (p : Pipe) (s : State) : (handed p s).params = s.params := rfl
@[simp] theorem handed_trace (p : Pipe) (s : State) : (handed p s).trace = s.trace := rfl
@[simp] theorem handed_fifo (p : Pipe) (s : State) (f : FifoId) : (handed p s).fifo f = s.fifo f := State.fifo_modPipe ..

/-- Whether a write access keeps its buffer from the controller: at the quiet zero-length end of pipe 2
(42_transfer_engine.md R223). -/
abbrev keptBack (p : Pipe) (s : State) : Prop :=
  (s.pipe p).xfer.remaining ≤ bufferSize p s ∧ (p = 2 ∧ s.params.nsp2 = true) ∧ writeCount p s = 0

section
variable {p : Pipe} {s u : State} (bound : bindFifo (some p) (fifoOf p s) .IN s = (true, u))
include bound

/-- The bytes' move adds nothing to the trace of the bind. -/
theorem wrote_trace_bound (n : Nat) : (wrote p n u.env s).trace = u.trace := by
  rw [bindFifo_state bound]
  rfl

/-- The outcome of a write access whose bind confirms. -/
theorem writeAccess_bound_fst : (writeAccess p s).1 = if bufferSize p s < (s.pipe p).xfer.remaining then .CONTINUE
    else if (writeCount p s = 0 ∨ writeCount p s % maxPacketSize p s ≠ 0) ∧ ¬ (p = 2 ∧ s.params.nsp2 = true)
      then .SHORT else .END := by
  rw [writeAccess_confirmed bound, endWrite_fst, wrote_params, maxPacketSize_wrote, classifyFinal_eq]
  rcases Nat.lt_or_ge (bufferSize p s) (s.pipe p).xfer.remaining with more | last
  · rw [decide_eq_false (Nat.not_le.mpr more), if_neg Bool.false_ne_true, if_pos more]
  · rw [decide_eq_true last, if_pos rfl, if_neg (Nat.not_lt.mpr last)]
    by_cases quiet : p = 2 ∧ s.params.nsp2 = true
    · rw [if_pos quiet, if_neg fun loud => loud.2 quiet]
    · simp only [if_neg quiet, and_iff_left quiet]

/-- The state it leaves: the buffer is kept back or handed over, and the data-valid action is issued at a final access
that hands it over. -/
theorem writeAccess_bound_snd : (writeAccess p s).2 =
    (if keptBack p s then wrote p (writeCount p s) u.env s else handed p (wrote p (writeCount p s) u.env s)).logs
      (if bufferSize p s < (s.pipe p).xfer.remaining ∨ keptBack p s then [] else [.dataValid (fifoOf p s)]) := by
  rw [writeAccess_confirmed bound, endWrite_snd _ _ (by simp [wrote_fifo]), wrote_params, fifoOf_wrote]
  rcases Nat.lt_or_ge (bufferSize p s) (s.pipe p).xfer.remaining with more | last
  · have handsOver : ¬ keptBack p s := fun ⟨last, _⟩ => Nat.not_le.mpr more last
    rw [decide_eq_false (Nat.not_le.mpr more), if_pos rfl, if_neg handsOver, if_pos (.inl more), State.logs_nil]
  · rw [decide_eq_true last, if_neg (by decide)]
    by_cases quiet : p = 2 ∧ s.params.nsp2 = true ∧ writeCount p s = 0
    · have keeps : keptBack p s := ⟨last, and_assoc.mpr quiet⟩
      rw [if_pos quiet, if_pos keeps, if_pos (.inr keeps), State.logs_nil]
    · have handsOver : ¬ keptBack p s := fun ⟨_, keeps⟩ => quiet (and_assoc.mp keeps)
      rw [if_neg quiet, if_neg handsOver, if_neg (not_or_intro (Nat.not_lt.mpr last) handsOver)]

/-- What neither handing over nor logging changes is as the bytes' move left it. -/
theorem writeAccess_bound_proj {α : Type} (φ : State → α) (hands : ∀ t, φ (handed p t) = φ t)
    (logs : ∀ t es, φ (t.logs es) = φ t) : φ (writeAccess p s).2 = φ (wrote p (writeCount p s) u.env s) := by
  rw [writeAccess_bound_snd bound, logs]
  split
  · rfl
  · exact hands _

theorem writeAccess_bound_trace : (writeAccess p s).2.trace = u.trace ++
    (if bufferSize p s < (s.pipe p).xfer.remaining ∨ keptBack p s then [] else [.dataValid (fifoOf p s)]) := by
  rw [writeAccess_bound_snd bound, State.logs_trace, ← wrote_trace_bound bound (writeCount p s)]
  congr 1
  split
  · rfl
  · exact handed_trace ..

theorem writeAccess_bound_pipe :
    let x := (s.pipe p).xfer
    let held := (s.pipe p).building ++ s.mem.readBytes x.pos (writeCount p s)
    (writeAccess p s).2.pipe p = { s.pipe p with
      xfer := { x with pos := x.pos + writeCount p s, remaining := x.remaining - writeCount p s }
      building := if keptBack p s then held else []
      sent := (s.pipe p).sent ++ (if keptBack p s then [] else packetsOf (maxPacketSize p s) held) } := by
  rw [writeAccess_bound_snd bound, State.pipe_logs]
  by_cases keeps : keptBack p s
  · simp only [if_pos keeps, wrote_pipe_self, List.append_nil]
  · simp only [if_neg keeps, handed_pipe_self, wrote_pipe_self, maxPacketSize_wrote]

theorem writeAccess_bound_pipe_ne {q : Pipe} (other : p ≠ q) : (writeAccess p s).2.pipe q = s.pipe q :=
  (writeAccess_bound_proj bound (·.pipe q) (handed_pipe_ne · other) fun _ _ => State.pipe_logs ..).trans
    (wrote_pipe_ne _ _ _ other)

theorem writeAccess_bound_mem : (writeAccess p s).2.mem = s.mem :=
  (writeAccess_bound_proj bound State.mem (handed_mem p) State.logs_mem).trans (wrote_mem ..)

theorem writeAccess_bound_env : (writeAccess p s).2.env = u.env :=
  (writeAccess_bound_proj bound State.env (handed_env p) State.logs_env).trans (wrote_env ..)

theorem writeAccess_bound_params : (writeAccess p s).2.params = s.params :=
  (writeAccess_bound_proj bound State.params (handed_params p) State.logs_params).trans (wrote_params ..)

theorem writeAccess_bound_fifo : (writeAccess p s).2.fifo (fifoOf p s) = ⟨some p, some p⟩ :=
  (writeAccess_bound_proj bound (·.fifo (fifoOf p s)) (handed_fifo p · _) fun _ _ => State.fifo_logs ..).trans
    (wrote_fifo ..)

end

/-- Settles O26: what the end of a bound access answers, does to its pipe, leaves alone and writes to the trace. -/
theorem writeAccessOutcome : Obligations.WriteAccessOutcome :=
  fun p s _ => ⟨fun bound => ⟨(writeAccess p s).2, Prod.ext (writeAccess_bound_fst bound) rfl,
    writeAccess_bound_pipe bound, fun _ other => writeAccess_bound_pipe_ne bound other.symm, writeAccess_bound_mem bound,
    congrArg FifoPort.owner (writeAccess_bound_fifo bound), writeAccess_bound_env bound, writeAccess_bound_trace bound⟩,
    writeAccess_unbound⟩

/-! ### The accesses of a write (42_transfer_engine.md R224) -/

section
variable {p : Pipe} {s : State} {n bs m fuel : Nat}

/-- An access that does not end in ERROR was bound. -/
theorem bound_of_writeAccess_ne_error (ok : (writeAccess p s).1 ≠ .ERROR) :
    ∃ u, bindFifo (some p) (fifoOf p s) .IN s = (true, u) := by
  rcases bound : bindFifo (some p) (fifoOf p s) .IN s with ⟨_ | _, u⟩
  · exact absurd (congrArg Prod.fst (writeAccess_unbound bound)) ok
  · exact ⟨u, rfl⟩

/-- What the next access of the write finds: a full buffer less, and the same sizes. -/
theorem writeAccess_next (ok : (writeAccess p s).1 ≠ .ERROR) :
    ((writeAccess p s).2.pipe p).xfer.remaining = (s.pipe p).xfer.remaining - bufferSize p s
    ∧ ((writeAccess p s).2.pipe p).cfg = (s.pipe p).cfg ∧ (writeAccess p s).2.params = s.params := by
  obtain ⟨u, bound⟩ := bound_of_writeAccess_ne_error ok
  rw [writeAccess_bound_pipe bound]
  exact ⟨tsub_min, rfl, writeAccess_bound_params bound⟩

theorem writeAccess_full (ok : (writeAccess p s).1 ≠ .ERROR) (more : bufferSize p s < (s.pipe p).xfer.remaining) :
    (writeAccess p s).1 = .CONTINUE := by
  obtain ⟨u, bound⟩ := bound_of_writeAccess_ne_error ok
  rw [writeAccess_bound_fst bound, if_pos more]

theorem writeAccess_last (ok : (writeAccess p s).1 ≠ .ERROR) (last : (s.pipe p).xfer.remaining ≤ bufferSize p s)
    (loud : ¬ (p = 2 ∧ s.params.nsp2 = true)) :
    (writeAccess p s).1 = classifyFinal (s.pipe p).xfer.remaining (maxPacketSize p s) := by
  obtain ⟨u, bound⟩ := bound_of_writeAccess_ne_error ok
  have count : writeCount p s = (s.pipe p).xfer.remaining := Nat.min_eq_left last
  simp only [writeAccess_bound_fst bound, if_neg (Nat.not_lt.mpr last), and_iff_left loud, count, classifyFinal_eq]

/-- A full buffer of whole packets less, the last access is classified as before. -/
theorem classifyFinal_sub (whole : bs % m = 0) (more : bs < n) : classifyFinal (n - bs) m = classifyFinal n m := by
  have rest : (n - bs) % m = n % m := by
    conv_rhs => rw [← Nat.sub_add_cancel more.le, Nat.add_mod, whole, Nat.add_zero, Nat.mod_mod]
  simp only [classifyFinal_eq, rest, Nat.sub_ne_zero_of_lt more, Nat.ne_zero_of_lt more]

theorem classifyFinal_ne_continue : classifyFinal n m ≠ .CONTINUE := by
  rw [classifyFinal_eq]
  split
  · decide
  · decide

theorem writeOutcomes_succ (p : Pipe) (n : Nat) (s : State) : writeOutcomes p (n + 1) s =
    (writeAccess p s).1 :: (if (writeAccess p s).1 = .CONTINUE then writeOutcomes p n (writeAccess p s).2 else []) := rfl

theorem accessesFor_pos : 0 < accessesFor n bs := Nat.le_max_left ..

/-- The outcomes of a write, by induction on the accesses allowed: a full buffer is followed by the write of the rest. -/
theorem writeOutcomes_eq (positive : 0 < bs) (whole : bs % m = 0) (size : bufferSize p s = bs)
    (packet : maxPacketSize p s = m) (loud : ¬ (p = 2 ∧ s.params.nsp2 = true))
    (enough : accessesFor (s.pipe p).xfer.remaining bs ≤ fuel) (noError : .ERROR ∉ writeOutcomes p fuel s) :
    writeOutcomes p fuel s = List.replicate (accessesFor (s.pipe p).xfer.remaining bs - 1) .CONTINUE
      ++ [classifyFinal (s.pipe p).xfer.remaining m] := by
  induction fuel generalizing s with
  | zero => exact absurd accessesFor_pos (Nat.not_lt.mpr enough)
  | succ fuel ih =>
    rw [writeOutcomes_succ] at noError ⊢
    obtain ⟨ok, noErrorAfter⟩ := not_or.mp (List.mem_cons.not.mp noError)
    rcases Nat.lt_or_ge bs (s.pipe p).xfer.remaining with more | last
    · have full := writeAccess_full (Ne.symm ok) (size ▸ more)
      obtain ⟨rest, cfg, params⟩ := writeAccess_next (Ne.symm ok)
      rw [size] at rest
      rw [accessesFor_more positive more] at enough ⊢
      rw [if_pos full] at noErrorAfter
      have next := ih (s := (writeAccess p s).2) (by simpa only [bufferSize, cfg, params] using size)
        (by simpa only [maxPacketSize, cfg, params] using packet) (by rwa [params])
        (by rw [rest]; exact Nat.le_of_succ_le_succ enough) noErrorAfter
      rw [rest, classifyFinal_sub whole more] at next
      rw [if_pos full, full, next, ← List.cons_append, ← List.replicate_succ, Nat.sub_add_cancel accessesFor_pos,
        Nat.add_sub_cancel]
    · have final := writeAccess_last (Ne.symm ok) (size ▸ last) loud
      rw [accessesFor_one positive last, final, packet, if_neg classifyFinal_ne_continue]
      rfl

end

/-- Settles O31: the outcomes of the write, access by access. -/
theorem writeAccessCount : Obligations.WriteAccessCount := by
  intro p s L bs m k positive fits whole answered fuel enough noError
  have loud : ¬ (p = 2 ∧ s.params.nsp2 = true) := by
    rintro ⟨pipe2, quiet⟩
    rcases answered with off | other
    · exact Bool.false_ne_true (off.symm.trans quiet)
    · exact other pipe2
  rw [← classifyFinal_eq]
  exact writeOutcomes_eq (Nat.lt_of_lt_of_le positive fits) whole rfl rfl loud enough noError

/-! ### A read access (42_transfer_engine.md R231, R234, R235, R236) -/

theorem readAccess_unbound {p : Pipe} {s u : State} (h : bindFifo (some p) (fifoOf p s) .OUT s = (false, u)) :
    readAccess p s = (.ERROR, u) := by
  simp only [readAccess, h]

/-- The end of a read access adds the data-valid action, unless the transfer goes on. -/
theorem endRead_snd (p : Pipe) (rcv : Nat) (s : State) : (endRead p rcv s).2 =
    s.logs (if (endRead p rcv s).1 = .CONTINUE then [] else [.dataValid (fifoOf p s)]) := by
  unfold endRead
  dsimp only
  split
  · exact (State.logs_nil s).symm
  · rfl

@[simp] theorem endRead_env (p : Pipe) (rcv : Nat) (s : State) : (endRead p rcv s).2.env = s.env := by
  rw [endRead_snd, State.logs_env]
@[simp] theorem endRead_fifo (p : Pipe) (rcv : Nat) (s : State) (f : FifoId) : (endRead p rcv s).2.fifo f = s.fifo f := by
  rw [endRead_snd, State.fifo_logs]
theorem endRead_trace {p : Pipe} {rcv : Nat} {s : State} {r : Access} (outcome : (endRead p rcv s).1 = r) :
    (endRead p rcv s).2.trace = s.trace ++ (if r = .CONTINUE then [] else [.dataValid (fifoOf p s)]) := by
  rw [endRead_snd, State.logs_trace, outcome]

/-- The outcome of a read access that has taken no more bytes than its transfer awaits. -/
theorem endRead_took_fst {p : Pipe} {rcv : Nat} {s : State} (a : Nat) (bs : List Byte) (e : Env)
    (fits : rcv ≤ (s.pipe p).xfer.remaining) : (endRead p rcv (took p rcv a bs e s)).1 =
      if rcv = 0 ∨ rcv % maxPacketSize p s ≠ 0 then .SHORT
      else if (s.pipe p).xfer.remaining = rcv then .END else .CONTINUE := by
  rw [endRead_fst, maxPacketSize_took, took_pipe_self]
  exact classifyRead_eq _ fits

theorem endRead_took_trace {p : Pipe} {rcv : Nat} {s : State} {a : Nat} {bs : List Byte} {e : Env} {r : Access}
    (outcome : (endRead p rcv (took p rcv a bs e s)).1 = r) : (endRead p rcv (took p rcv a bs e s)).2.trace =
      s.trace ++ .fifoSel (fifoOf p s) (some p) :: (if fifoOf p s = .C then [.fifoIsel .OUT] else [])
        ++ (if r = .CONTINUE then [] else [.dataValid (fifoOf p s)]) := by
  rw [endRead_trace outcome, took_trace, fifoOf_took]

/-- Settles O27: the access takes its bytes, and its end changes nothing but the trace. -/
theorem readAccessOutcome : Obligations.ReadAccessOutcome := by
  refine ⟨fun p s xs rs bytes ys budget polled counted fits lined awaited => ?_, fun _ _ _ => readAccess_unbound⟩
  rw [readAccess_first budget polled counted fits lined awaited]
  have outcome := endRead_took_fst (s.pipe p).xfer.pos bytes
    { s.env with fifoCur := xs, rcvLen := rs, data := ys } awaited
  exact ⟨_, Prod.ext outcome rfl, (endRead_mem ..).trans (took_mem ..), (endRead_pipe ..).trans (took_pipe_self ..),
    fun q other => (endRead_pipe ..).trans (took_pipe_ne _ _ _ _ _ other.symm),
    congrArg Env.data ((endRead_env ..).trans (took_env ..)),
    congrArg FifoPort.owner ((endRead_fifo ..).trans (took_fifo ..)), endRead_took_trace outcome⟩

theorem overran_pipe_ne {p q : Pipe} (bs : List Byte) (e : Env) (s : State) (other : p ≠ q) :
    (overran p bs e s).pipe q = s.pipe q := by
  simp [overran, State.pipe_modPipe_ne _ _ other]

theorem overran_trace (p : Pipe) (bs : List Byte) (e : Env) (s : State) : (overran p bs e s).trace =
    s.trace ++ .fifoSel (fifoOf p s) (some p) :: (if fifoOf p s = .C then [.fifoIsel .OUT] else [])
      ++ [.bufferClear (fifoOf p s)] := by
  simp [overran, afterBind_trace]

/-- Settles O28: the access overruns, and no read access writes memory outside the bytes awaited. -/
theorem readAccessOverrun : Obligations.ReadAccessOverrun := by
  intro p s xs rcv rs x f bs budget polled counted fits passes
  obtain ⟨e, bytes, -, access⟩ := readAccess_overrun budget polled counted fits passes
  refine ⟨_, access, overran_pipe_self .., fun q other => overran_pipe_ne _ _ _ other.symm, fun a outside => ?_,
    overran_trace ..⟩
  have kept := readAccess_mem_outside p s outside
  rwa [access] at kept

/-! ### Byte moves (42_transfer_engine.md R240, R241) -/

/-- The accesses of a move cover its range in address order. -/
theorem chunksFuel_cover {fuel a n : Nat} (enough : n ≤ fuel) :
    (chunksFuel fuel a n).flatMap (fun c => List.range' c.1 c.2) = List.range' a n := by
  induction fuel generalizing a n with
  | zero =>
    obtain rfl : n = 0 := by omega
    rfl
  | succ fuel ih =>
    rw [chunksFuel]
    split
    · next none => rw [none]; rfl
    · have moves := accessWidth_pos a n
      have within : accessWidth a n ≤ n := accessWidth_le (by omega)
      rw [List.flatMap_cons, ih (by omega), List.range'_append_1, Nat.add_sub_cancel' within]

/-- With its bytes lined up, a move in writes them to memory. -/
theorem moveIn_lined {bs ys : List Byte} {s : State} (a : Nat) (lined : s.env.data = bs ++ ys) :
    moveIn a bs.length s = (s.withEnv { s.env with data := ys }).withMem (s.mem.writeBytes a bs) := by
  rw [moveIn_eq, drawBytes_lined lined]

/-- Settles O32: the chunks of a move, what a move out pushes and a move in writes, and the packets of a buffer. -/
theorem byteMoves : Obligations.ByteMoves := by
  refine ⟨fun a n => ⟨fun x w => chunksFuel_aligned, chunksFuel_cover le_rfl⟩, fun f a n s => ⟨fun p owner => ?pushed, ?popped⟩,
    fun m bs positive => packetsOf_spec positive bs⟩
  case pushed => rw [moveOut_eq, fifoWrite, State.modOwner_of owner]
  case popped =>
    rintro bytes ys fits canonical lined rfl
    rw [moveIn_lined a lined]
    exact ⟨Memory.readBytes_writeBytes canonical fits, rfl, rfl, fun x outside => Memory.read_writeBytes_outside _ outside⟩

end Sys2Proof.Machine
end

section
/-! PROOFS. The pipe dispatcher (43_pipe_dispatcher.md): how the event of a data pipe runs its handler, what each handler
does when the class layer issues nothing in the callback, and the statements about the three events. -/

namespace Sys2Proof.Machine

/-! ### The event of a data pipe -/

/-- The state in which the handler of a data pipe's event runs: the status bit cleared by `clear` and logged as `e`, the
context the ISR's (44_device_hal.md R305). -/
def entered (p : Pipe) (clear : PipeState → PipeState) (e : TraceEntry) (s : State) : State :=
  ((s.modPipe p clear).logs [e]).withCtx .isr

@[simp] theorem entered_pipe_self (p : Pipe) (clear : PipeState → PipeState) (e : TraceEntry) (s : State) :
    (entered p clear e s).pipe p = clear (s.pipe p) := State.pipe_modPipe_self ..

theorem entered_pipe_ne {p q : Pipe} (clear : PipeState → PipeState) (e : TraceEntry) (s : State) (other : p ≠ q) :
    (entered p clear e s).pipe q = s.pipe q := State.pipe_modPipe_ne _ _ other

/-- The state in which the handler of a Not-Ready runs, as `brdyEntered` is that of a Ready. -/
def nrdyEntered (p : Pipe) (s : State) : State := entered p (fun x => { x with nrdySts := false }) (.nrdyClr p) s
/-- The state in which the handler of a Buffer-Empty runs. -/
def bempEntered (p : Pipe) (s : State) : State := entered p (fun x => { x with bempSts := false }) (.bempClr p) s

theorem brdyEntered_eq (p : Pipe) (s : State) :
    brdyEntered p s = entered p (fun x => { x with brdySts := false }) (.brdyClr p) s := rfl

theorem brdyEntered_pipe_self (p : Pipe) (s : State) :
    (brdyEntered p s).pipe p = { s.pipe p with brdySts := false } := by rw [brdyEntered_eq, entered_pipe_self]
theorem nrdyEntered_pipe_self (p : Pipe) (s : State) :
    (nrdyEntered p s).pipe p = { s.pipe p with nrdySts := false } := entered_pipe_self ..
theorem bempEntered_pipe_self (p : Pipe) (s : State) :
    (bempEntered p s).pipe p = { s.pipe p with bempSts := false } := entered_pipe_self ..

@[simp] theorem Res.inCtx_done {α : Type} (k : Context) (a : α) (s : State) :
    (Res.done a s).inCtx k = .done a (s.withCtx k) := rfl

theorem State.withEnv_withCtx (s : State) (e : Env) (c : Context) : (s.withEnv e).withCtx c = (s.withCtx c).withEnv e := rfl

/-- An event whose handler is done ends in the handler's state, in the context it began in. -/
theorem exec_pipeEvent {i : Instr} {x : Pipe → Source} {a : BitVec 4} {p : Pipe} {s t : State}
    (row : bodyOf i = serveField x a) (named : a.toNat = p.val) (running : live s) (seen : pending s (x p) = true)
    (ends : (handler (x p) (clearSts (x p) (isrEnter s))).inCtx s.ctx = .done () t) : exec i s = .next t := by
  rw [exec_running running.2, row, serveField_eq named, serveOne_pending running seen, Machine.served]
  revert ends
  cases handler (x p) (clearSts (x p) (isrEnter s)) with
  | done _ u => rintro ⟨⟩; rfl
  | halt u => nofun
  | refused r => nofun

section
variable {p : Pipe} {a : BitVec 4} {s t : State} (named : a.toNat = p.val) (data : p ≠ 0) (running : live s)
include named data running

theorem exec_evtBrdy (seen : pending s (.brdy p) = true)
    (ends : (onBrdy p (brdyEntered p s)).inCtx s.ctx = .done () t) : exec (.evtBrdy a) s = .next t :=
  exec_pipeEvent rfl named running seen ((congrArg (Res.inCtx _) (if_neg data)).trans ends)

theorem exec_evtNrdy (seen : pending s (.nrdy p) = true)
    (ends : (onNrdy p (nrdyEntered p s)).inCtx s.ctx = .done () t) :
    exec (.evtNrdy a) s = .next t :=
  exec_pipeEvent rfl named running seen ((congrArg (Res.inCtx _) (if_neg data)).trans ends)

theorem exec_evtBemp (seen : pending s (.bemp p) = true)
    (ends : (onBemp p (bempEntered p s)).inCtx s.ctx = .done () t) :
    exec (.evtBemp a) s = .next t :=
  exec_pipeEvent rfl named running seen ((congrArg (Res.inCtx _) (if_neg data)).trans ends)

end

/-- A handler that changes its pipe and writes to the trace, seen from before the event. -/
theorem entered_modPipe (p : Pipe) (clear g : PipeState → PipeState) (e : TraceEntry) (es : List TraceEntry) (s : State) :
    (((entered p clear e s).modPipe p g).logs es).withCtx s.ctx =
      { s.modPipe p fun x => g (clear x) with trace := s.trace ++ e :: es } := by
  change (((s.modPipe p clear).modPipe p g).logs [e]).logs es = _
  rw [State.modPipe_modPipe, State.logs_logs]
  rfl

/-- The same of a handler that then invokes the callback of its transfer's end. -/
theorem entered_notified (p : Pipe) (clear g : PipeState → PipeState) (e : TraceEntry) (es : List TraceEntry) (c : ErrCode)
    (s : State) : ((notified p c ((entered p clear e s).modPipe p g)).logs es).withCtx s.ctx =
      { notified p c (s.modPipe p fun x => g (clear x)) with trace := s.trace ++ e :: es } := by
  have changed : (entered p clear e s).modPipe p g = ((s.modPipe p fun x => g (clear x)).logs [e]).withCtx .isr := by
    rw [← State.modPipe_modPipe s p clear g]
    rfl
  rw [changed, notified_withCtx, notified_logs]
  simp [State.logs, State.withCtx]

/-! ### The end of a transfer -/

/-- The end of a transfer after changes to its pipe, the writes logged (43_pipe_dispatcher.md R280). -/
theorem finish_logs {p : Pipe} {e : ErrCode} {ans : SetupAnswer} {s : State} (g : PipeState → PipeState)
    (es : List TraceEntry) (idle : classIdle ans s) : finish p e ((s.modPipe p g).logs es) =
      .done () ((notified p e (s.modPipe p fun x => ended e (g x))).logs es) := by
  have issuesNothing : classIdle ans ((s.modPipe p g).logs es) := idle
  rw [finish_idle issuesNothing, State.logs_modPipe, State.modPipe_modPipe, notified_logs]

/-- The call that ends a transfer depends on the callbacks, the classes and the one the transfer was started with. -/
theorem completionCall_congr {p : Pipe} {e : ErrCode} {n : Nat} {s t : State} (cb : t.cb = s.cb)
    (params : t.params = s.params) (perCall : (t.pipe p).xfer.done = (s.pipe p).xfer.done) :
    completionCall p e n t = completionCall p e n s := by
  have cls : classOf p t = classOf p s := by simp only [classOf, params]
  have kind : defaultKind p t = defaultKind p s := by simp only [defaultKind, cls]
  have counts : carriesCount p t = carriesCount p s := by simp only [carriesCount, cls]
  have args : doneArgs p e n t = doneArgs p e n s := by simp only [doneArgs, counts]
  simp only [completionCall, perCall, kind, args, registeredCall, cb]

/-! ### The latches (43_pipe_dispatcher.md R272, R274) -/

/-- A pipe with an error latched and its three interrupts disabled. -/
def latched (v : PState) (x : PipeState) : PipeState :=
  { x with pstate := v, brdyEnb := false, nrdyEnb := false, bempEnb := false }

/-- The writes that disable the three interrupts of a pipe. -/
def latchTrace (p : Pipe) : List TraceEntry := [.brdyEnb p false, .nrdyEnb p false, .bempEnb p false]

theorem disableAll_setPState (p : Pipe) (v : PState) (s : State) :
    disableAll p (setPState p v s) = (s.modPipe p (latched v)).logs (latchTrace p) := by
  rw [disableAll_eq, setPState, State.modPipe_modPipe]
  rfl

section
variable {p : Pipe} {s : State} {ans : SetupAnswer}

theorem latchStall_inactive (inactive : (s.pipe p).xfer.active = false) :
    latchStall p s = .done () ((s.modPipe p (latched .stall)).logs (latchTrace p)) := by
  simp [latchStall, disableAll_setPState, latched, inactive]

theorem latchStall_active (runs : (s.pipe p).xfer.active = true) (idle : classIdle ans s) : latchStall p s =
    .done () ((notified p .stall (s.modPipe p fun x => ended .stall (latched .stall x))).logs (latchTrace p)) := by
  rw [← finish_logs _ _ idle]
  simp [latchStall, disableAll_setPState, latched, runs]

theorem latchNoResponse_active (runs : (s.pipe p).xfer.active = true) (idle : classIdle ans s) : latchNoResponse p s =
    .done () ((notified p .noResponse (s.modPipe p fun x =>
      ended .noResponse { latched .noResponse x with pid := .nak })).logs (latchTrace p ++ [.pid p .nak])) := by
  rw [← finish_logs _ _ idle]
  simp [latchNoResponse, disableAll_setPState, setPidNak_eq, State.logs_logs, latched, runs]

/-- A STALL that an event latches, seen from before the event (43_pipe_dispatcher.md R272). -/
theorem latchStall_entered {clear : PipeState → PipeState} (e : TraceEntry)
    (kept : (clear (s.pipe p)).xfer = (s.pipe p).xfer) (idle : (s.pipe p).xfer.active = true → classIdle ans s) :
    (latchStall p (entered p clear e s)).inCtx s.ctx = .done () (if (s.pipe p).xfer.active then
        { notified p .stall (s.modPipe p fun x => ended .stall (latched .stall (clear x))) with
          trace := s.trace ++ e :: latchTrace p }
      else { s.modPipe p fun x => latched .stall (clear x) with trace := s.trace ++ e :: latchTrace p }) := by
  have same : ((entered p clear e s).pipe p).xfer.active = (s.pipe p).xfer.active := by rw [entered_pipe_self, kept]
  split
  · next runs =>
    have issuesNothing : classIdle ans (entered p clear e s) := idle runs
    rw [latchStall_active (same.trans runs) issuesNothing, Res.inCtx_done, entered_notified]
  · next inactive =>
    rw [latchStall_inactive (same.trans (Bool.eq_false_of_not_eq_true inactive)), Res.inCtx_done, entered_modPipe]

/-! ### Buffer-Not-Ready (43_pipe_dispatcher.md R270, R271) -/

theorem onNrdy_stalled (stalled : (s.pipe p).pid = .stall) : onNrdy p s = latchStall p s := if_pos stalled

theorem onNrdy_inactive (answers : (s.pipe p).pid ≠ .stall) (inactive : (s.pipe p).xfer.active = false) :
    onNrdy p s = .done () (writeNrdyEnb p false s) := by
  simp [onNrdy, answers, inactive]

theorem setNrdyCount_succ (p : Pipe) (s : State) : setNrdyCount p ((s.pipe p).nrdyCount + 1) s =
    s.modPipe p fun x => { x with nrdyCount := x.nrdyCount + 1 } := State.modPipe_congr s p rfl

theorem onNrdy_retry (answers : (s.pipe p).pid ≠ .stall) (runs : (s.pipe p).xfer.active = true)
    (early : (s.pipe p).nrdyCount < 2) : onNrdy p s = .done ()
      ((s.modPipe p fun x => { x with nrdyCount := x.nrdyCount + 1, pid := .buf }).logs [.pid p .nak, .pid p .buf]) := by
  have below : ¬ Config.nrdyRetryLimit ≤ (s.pipe p).nrdyCount + 1 := by
    show ¬ 3 ≤ _
    omega
  simp [onNrdy, answers, runs, below, setNrdyCount_succ, setPidBuf_eq]

theorem onNrdy_third (answers : (s.pipe p).pid ≠ .stall) (runs : (s.pipe p).xfer.active = true)
    (late : ¬ (s.pipe p).nrdyCount < 2) (idle : classIdle ans s) : onNrdy p s =
      .done () ((notified p .noResponse (s.modPipe p fun x =>
        ended .noResponse { latched .noResponse x with nrdyCount := x.nrdyCount + 1, pid := .nak })).logs
          (latchTrace p ++ [.pid p .nak])) := by
  have reached : Config.nrdyRetryLimit ≤ (s.pipe p).nrdyCount + 1 := by
    show 3 ≤ _
    omega
  have issuesNothing : classIdle ans (s.modPipe p fun x => { x with nrdyCount := x.nrdyCount + 1 }) := idle
  have latches : onNrdy p s = latchNoResponse p (s.modPipe p fun x => { x with nrdyCount := x.nrdyCount + 1 }) := by
    simp [onNrdy, answers, runs, reached, setNrdyCount_succ]
  rw [latches, latchNoResponse_active (by rwa [State.pipe_modPipe_self]) issuesNothing, State.modPipe_modPipe]
  rfl

/-! ### Buffer-Empty (43_pipe_dispatcher.md R273) -/

theorem onBemp_stalled (stalled : (s.pipe p).pid = .stall) : onBemp p s = latchStall p s := if_pos stalled

theorem onBemp_out (answers : (s.pipe p).pid ≠ .stall) (out : (s.pipe p).cfg.dir = .OUT) :
    onBemp p s = .done () (writeBempEnb p false s) := by
  simp [onBemp, answers, out]

theorem drawInbufm_lined {full : Bool} {fs : List Bool} (drawn : s.env.inbufm = full :: fs) :
    drawInbufm s = (full, s.withEnv { s.env with inbufm := fs }) := by
  simp only [drawInbufm, drawn]
  rfl

theorem onBemp_full {fs : List Bool} (answers : (s.pipe p).pid ≠ .stall) (sends : (s.pipe p).cfg.dir ≠ .OUT)
    (drawn : s.env.inbufm = true :: fs) : onBemp p s = .done () (s.withEnv { s.env with inbufm := fs }) := by
  simp [onBemp, answers, sends, drawInbufm_lined drawn]

theorem onBemp_drained {fs : List Bool} (answers : (s.pipe p).pid ≠ .stall) (sends : (s.pipe p).cfg.dir ≠ .OUT)
    (drawn : s.env.inbufm = false :: fs) : onBemp p s =
      .done () (((s.modPipe p fun x => { x with bempEnb := false, pstate := .done }).logs [.bempEnb p false]).withEnv
        { s.env with inbufm := fs }) := by
  simp only [onBemp, if_neg answers, if_neg sends, drawInbufm_lined drawn, writeBempEnb, setPState, State.logs_modPipe,
    State.modPipe_modPipe]
  rfl

/-! ### Buffer-Ready (43_pipe_dispatcher.md R266, R268) -/

theorem onBrdy_inactive (inactive : (s.pipe p).xfer.active = false) : onBrdy p s = .done () (writeBrdyEnb p false s) := by
  simp [onBrdy, inactive]

theorem onBrdy_active {r : Access} {u : State} (runs : (s.pipe p).xfer.active = true)
    (access : (if (s.pipe p).cfg.dir = .OUT then readAccess p s else writeAccess p s) = (r, u)) :
    onBrdy p s = afterAccess p r u := by
  simp [onBrdy, runs, access]

/-- The access leaves the pipe its configuration. -/
theorem access_cfg (p : Pipe) (s : State) :
    ((readAccess p s).2.pipe p).cfg = (s.pipe p).cfg ∧ ((writeAccess p s).2.pipe p).cfg = (s.pipe p).cfg := by
  constructor
  · rcases readAccess_cases p s with ⟨e, timedOut⟩ | ⟨rcv, e, bs, -, -, -, fits⟩ | ⟨rcv, e, bs, -, -, passes⟩
    · rw [timedOut, State.withEnv_pipe, afterBind_pipe]
    · rw [fits, endRead_pipe, took_pipe_self]
    · rw [passes, overran_pipe_self]
  · rcases writeAccess_cases p s with ⟨e, timedOut⟩ | ⟨e, bound⟩
    · rw [timedOut, State.withEnv_pipe, afterBind_pipe]
    · rw [bound, endWrite_proj PipeState.cfg fun _ _ _ => rfl, wrote_pipe_self]

/-! ### What follows from an access (43_pipe_dispatcher.md R266, R268) -/

/-- A pipe whose read access ends its transfer, the record still to be closed. -/
def stopsReading (x : PipeState) : PipeState :=
  { x with nrdyCount := 0, brdyEnb := false, nrdyEnb := false, pid := .nak, pstate := .done }

/-- A pipe whose write access ends its transfer, the record still to be closed. -/
def stopsWriting (x : PipeState) : PipeState :=
  { x with nrdyCount := 0, brdyEnb := false, nrdyEnb := false, bempEnb := true }

/-- A pipe whose access could not bind its FIFO, the record still to be closed. -/
def stopsUnbound (x : PipeState) : PipeState :=
  { x with nrdyCount := 0, brdyEnb := false, nrdyEnb := false, pstate := .idle }

theorem stopReading_eq (p : Pipe) (s : State) : setPState p .done (setPidNak p (disableReady p (setNrdyCount p 0 s))) =
    (s.modPipe p stopsReading).logs [.brdyEnb p false, .nrdyEnb p false, .pid p .nak] := by
  simp only [setNrdyCount, disableReady_eq, setPidNak_eq, setPState, State.logs_modPipe, State.modPipe_modPipe,
    State.logs_logs]
  rfl

theorem stopWriting_eq (p : Pipe) (s : State) : writeBempEnb p true (disableReady p (setNrdyCount p 0 s)) =
    (s.modPipe p stopsWriting).logs [.brdyEnb p false, .nrdyEnb p false, .bempEnb p true] := by
  simp only [setNrdyCount, disableReady_eq, writeBempEnb, State.logs_modPipe, State.modPipe_modPipe, State.logs_logs]
  rfl

theorem stopUnbound_eq (p : Pipe) (s : State) :
    setNrdyCount p 0 (setPState p .idle (endTransfer p .bindTimeout (disableReady p s))) =
      (s.modPipe p fun x => ended .bindTimeout (stopsUnbound x)).logs [.brdyEnb p false, .nrdyEnb p false] := by
  simp only [disableReady_eq, endTransfer, setPState, setNrdyCount, State.logs_modPipe, State.modPipe_modPipe]
  rfl

theorem afterAccess_final {r : Access} (final : r = .END ∨ r = .SHORT) :
    afterAccess p r s = onFinalAccess p (setNrdyCount p 0 s) := by
  rcases final with rfl | rfl
  · rfl
  · rfl

theorem afterAccess_out {r : Access} (final : r = .END ∨ r = .SHORT) (out : (s.pipe p).cfg.dir = .OUT)
    (idle : classIdle ans s) : afterAccess p r s =
      .done () ((notified p .ok (s.modPipe p fun x => ended .ok (stopsReading x))).logs
        [.brdyEnb p false, .nrdyEnb p false, .pid p .nak]) := by
  have dir : ((disableReady p (setNrdyCount p 0 s)).pipe p).cfg.dir = .OUT := by
    simpa [disableReady_eq, setNrdyCount] using out
  rw [afterAccess_final final, onFinalAccess, if_pos dir, stopReading_eq, finish_logs _ _ idle]

theorem afterAccess_in {r : Access} (final : r = .END ∨ r = .SHORT) (sends : (s.pipe p).cfg.dir ≠ .OUT)
    (idle : classIdle ans s) : afterAccess p r s =
      .done () ((notified p .ok (s.modPipe p fun x => ended .ok (stopsWriting x))).logs
        [.brdyEnb p false, .nrdyEnb p false, .bempEnb p true]) := by
  have dir : ((disableReady p (setNrdyCount p 0 s)).pipe p).cfg.dir ≠ .OUT := by
    simpa [disableReady_eq, setNrdyCount] using sends
  rw [afterAccess_final final, onFinalAccess, if_neg dir, stopWriting_eq, finish_logs _ _ idle]

theorem afterAccess_overrun (idle : classIdle ans s) : afterAccess p .OVERRUN s =
    .done () ((notified p .overrun (s.modPipe p fun x => ended .overrun (stopsReading x))).logs
      [.brdyEnb p false, .nrdyEnb p false, .pid p .nak]) := by
  rw [afterAccess, onOverrun, stopReading_eq, finish_logs _ _ idle]

theorem registeredCall_onError (e : ErrCode) (s : State) :
    registeredCall .onError (.code e) s = ⟨.onError, s.cb.map (·.onError), .code e⟩ := by
  cases table : s.cb <;> simp [registeredCall, table, callbackFn]

theorem afterAccess_error (idle : classIdle ans s) : afterAccess p .ERROR s =
    .done () ((called ⟨.onError, s.cb.map (·.onError), .code .bindTimeout⟩
      (s.modPipe p fun x => ended .bindTimeout (stopsUnbound x))).logs [.brdyEnb p false, .nrdyEnb p false]) := by
  have issuesNothing : classIdle ans ((s.modPipe p fun x => ended .bindTimeout (stopsUnbound x)).logs
    [.brdyEnb p false, .nrdyEnb p false]) := idle
  rw [afterAccess, bindFailure, stopUnbound_eq, callback_idle issuesNothing, registeredCall_onError]
  rfl

/-- The end of a transfer in a pass, seen after the pass. -/
theorem inCtx_notified (p : Pipe) (g : PipeState → PipeState) (e : ErrCode) (es : List TraceEntry) (k : Context) (s : State) :
    (Res.done () ((notified p e (s.modPipe p g)).logs es)).inCtx k =
      .done () { notified p e (s.modPipe p g) with trace := s.trace ++ es, ctx := k } := by
  simp [State.logs, State.withCtx]

end

/-! ### A Ready that sends the last bytes (42_transfer_engine.md R236) -/

/-- An access that sends the rest of a data pipe's transfer, not as the quiet zero-length end of pipe 2: it is the final
one, and the buffer's bytes are packets handed over (42_transfer_engine.md R236). -/
theorem writeAccess_rest {p : Pipe} {s u : State} (bound : bindFifo (some p) (fifoOf p s) .IN s = (true, u)) (data : p ≠ 0)
    (fits : (s.pipe p).xfer.remaining ≤ (s.pipe p).cfg.bufSize)
    (loud : p = 2 → s.params.nsp2 = true → (s.pipe p).xfer.remaining ≠ 0) :
    ((writeAccess p s).1 = .END ∨ (writeAccess p s).1 = .SHORT)
    ∧ (writeAccess p s).2.pipe p = { s.pipe p with
        xfer := { (s.pipe p).xfer with pos := (s.pipe p).xfer.pos + (s.pipe p).xfer.remaining, remaining := 0 }
        building := []
        sent := (s.pipe p).sent ++ packetsOf (s.pipe p).cfg.mps
          ((s.pipe p).building ++ s.mem.readBytes (s.pipe p).xfer.pos (s.pipe p).xfer.remaining) } := by
  have size : bufferSize p s = (s.pipe p).cfg.bufSize := if_neg data
  have packet : maxPacketSize p s = (s.pipe p).cfg.mps := if_neg data
  have count : writeCount p s = (s.pipe p).xfer.remaining := Nat.min_eq_left (size ▸ fits)
  have handsOver : ¬ keptBack p s := fun ⟨_, ⟨pipe2, quiet⟩, nothing⟩ => loud pipe2 quiet (count ▸ nothing)
  constructor
  · rw [writeAccess_bound_fst bound, size, if_neg (Nat.not_lt.mpr fits)]
    split
    · exact .inr rfl
    · exact .inl rfl
  · rw [writeAccess_bound_pipe bound, if_neg handsOver, if_neg handsOver, count, packet, Nat.sub_self]

/-- No write access invokes a callback or changes the table of them. -/
theorem writeAccess_bound_calls {p : Pipe} {s u : State} (bound : bindFifo (some p) (fifoOf p s) .IN s = (true, u)) :
    (writeAccess p s).2.calls = s.calls ∧ (writeAccess p s).2.cb = s.cb := by
  have kept : ∀ f, (afterBind (some p) f .IN true s).calls = s.calls ∧ (afterBind (some p) f .IN true s).cb = s.cb := by
    intro f
    cases f <;> exact ⟨rfl, rfl⟩
  exact ⟨(writeAccess_bound_proj bound State.calls (fun _ => rfl) fun _ _ => rfl).trans (kept _).1,
    (writeAccess_bound_proj bound State.cb (fun _ => rfl) fun _ _ => rfl).trans (kept _).2⟩

/-- A Ready whose write access is the final one. -/
theorem onBrdy_sends {p : Pipe} {s : State} {ans : SetupAnswer} (runs : (s.pipe p).xfer.active = true)
    (sends : (s.pipe p).cfg.dir ≠ .OUT) (final : (writeAccess p s).1 = .END ∨ (writeAccess p s).1 = .SHORT)
    (idle : classIdle ans (writeAccess p s).2) : onBrdy p s =
      .done () ((notified p .ok ((writeAccess p s).2.modPipe p fun x => ended .ok (stopsWriting x))).logs
        [.brdyEnb p false, .nrdyEnb p false, .bempEnb p true]) := by
  have cfg := (access_cfg p s).2
  rw [← afterAccess_in final (cfg ▸ sends) idle]
  exact onBrdy_active runs (if_neg sends)

/-! ### The statements -/

/-- Settles O35: without a transfer the handler only writes the enable; with one, the access's outcome says which end
of a transfer, if any, follows. -/
theorem brdyOutcome : Obligations.BrdyOutcome := by
  constructor
  · intro p a s named data running seen inactive
    have pipe := brdyEntered_pipe_self p s
    refine exec_evtBrdy named data running seen ?_
    rw [onBrdy_inactive (by rwa [pipe]), brdyEntered_eq]
    exact congrArg (Res.done ()) (entered_modPipe ..)
  · intro p a s u r ans named data running seen runs access idle
    have pipe := brdyEntered_pipe_self p s
    have cfg : (u.pipe p).cfg = (s.pipe p).cfg := by
      obtain ⟨read, write⟩ := access_cfg p (brdyEntered p s)
      rw [pipe] at read write
      split at access
      · rwa [access] at read
      · rwa [access] at write
    have follows : onBrdy p (brdyEntered p s) = afterAccess p r u := onBrdy_active (by rwa [pipe]) (by rwa [pipe])
    refine exec_evtBrdy named data running seen ?_
    rw [follows]
    cases r
    case CONTINUE => rfl
    case END | SHORT =>
      dsimp only
      split
      · next out =>
        rw [afterAccess_out (by decide) (cfg ▸ out) (idle nofun), inCtx_notified, List.append_assoc]
        rfl
      · next sends =>
        rw [afterAccess_in (by decide) (cfg ▸ sends) (idle nofun), inCtx_notified, List.append_assoc]
        rfl
    case OVERRUN =>
      rw [afterAccess_overrun (idle nofun), inCtx_notified, List.append_assoc]
      rfl
    case ERROR => exact congrArg (Res.inCtx _) (afterAccess_error (idle nofun))

/-- Settles O36: the access is the final one, so the Ready ends the transfer with all its bytes sent. -/
theorem brdyCompletesIn : Obligations.BrdyCompletesIn := by
  intro p a s xs ans named data running seen runs dirIn fits loud budget polled idle
  have pipe := brdyEntered_pipe_self p s
  have bound := bindFifo_first (fifoOf p (brdyEntered p s)) .IN (s := brdyEntered p s) budget polled
  obtain ⟨final, sent⟩ := writeAccess_rest bound data (by rwa [pipe]) (by rwa [pipe])
  obtain ⟨calls, cb⟩ := writeAccess_bound_calls bound
  have params := writeAccess_bound_params bound
  have mem := writeAccess_bound_mem bound
  have others (q : Pipe) (other : p ≠ q) := writeAccess_bound_pipe_ne bound other
  have issuesNothing : classIdle ans (writeAccess p (brdyEntered p s)).2 := by
    rw [classIdle, writeAccess_bound_env bound]
    exact idle
  have serves := onBrdy_sends (by rwa [pipe]) (by rw [pipe, dirIn]; nofun) final issuesNothing
  generalize (writeAccess p (brdyEntered p s)).2 = u at *
  rw [pipe] at sent
  have ends := (congrArg (Res.inCtx s.ctx) serves).trans (Res.inCtx_done ..)
  refine ⟨_, exec_evtBrdy named data running seen ends, ?_⟩
  simp only [State.withCtx_pipe, State.pipe_logs, notified_pipe, State.pipe_modPipe_self, sent]
  refine ⟨rfl, rfl, rfl, rfl, rfl, rfl, rfl, rfl, ?invoked, (notified_mem ..).trans mem, fun q other => ?others⟩
  case invoked =>
    have call : completionCall p .ok (s.pipe p).xfer.total (u.modPipe p fun x => ended .ok (stopsWriting x))
        = completionCall p .ok (s.pipe p).xfer.total s :=
      completionCall_congr cb params (by rw [State.pipe_modPipe_self, sent]; rfl)
    refine (notified_calls ..).trans ?_
    rw [State.pipe_modPipe_self, sent, ← call]
    exact congrArg (· ++ _) calls
  case others =>
    rw [State.pipe_modPipe_ne _ _ other.symm, others q other.symm, brdyEntered_eq, entered_pipe_ne _ _ _ other.symm]

/-- Settles O37: STALL comes first, then the transfer, then the count of its Not-Readys. -/
theorem nrdyEvent : Obligations.NrdyEvent := by
  intro p a s ans named data running seen idle
  have pipe := nrdyEntered_pipe_self p s
  refine exec_evtNrdy named data running seen ?_
  split
  · next stalled =>
    rw [onNrdy_stalled (by rwa [pipe])]
    exact latchStall_entered _ rfl idle
  · next answers =>
    split
    · next inactive =>
      rw [onNrdy_inactive (by rwa [pipe]) (by rwa [pipe])]
      exact congrArg (Res.done ()) (entered_modPipe ..)
    · next notInactive =>
      have runs := Bool.eq_true_of_not_eq_false notInactive
      split
      · next early =>
        rw [onNrdy_retry (by rwa [pipe]) (by rwa [pipe]) (by rwa [pipe])]
        exact congrArg (Res.done ()) (entered_modPipe ..)
      · next late =>
        have issuesNothing : classIdle ans (nrdyEntered p s) := idle runs
        rw [onNrdy_third (by rwa [pipe]) (by rwa [pipe]) (by rwa [pipe]) issuesNothing, List.append_assoc]
        exact congrArg (Res.done ()) (entered_notified ..)

/-- Settles O38: STALL comes first, then the direction, then the in-buffer monitor. -/
theorem bempEvent : Obligations.BempEvent := by
  intro p a s ans full fs named data running seen idle drawn
  have pipe := bempEntered_pipe_self p s
  have lined : (bempEntered p s).env.inbufm = full :: fs := drawn
  refine exec_evtBemp named data running seen ?_
  split
  · next stalled =>
    rw [onBemp_stalled (by rwa [pipe])]
    exact latchStall_entered _ rfl idle
  · next answers =>
    split
    · next out =>
      rw [onBemp_out (by rwa [pipe]) (by rwa [pipe])]
      exact congrArg (Res.done ()) (entered_modPipe ..)
    · next sends =>
      cases full with
      | true =>
        rw [onBemp_full (by rwa [pipe]) (by rwa [pipe]) lined]
        rfl
      | false =>
        rw [onBemp_drained (by rwa [pipe]) (by rwa [pipe]) lined, Res.inCtx_done, State.withEnv_withCtx, bempEntered,
          entered_modPipe]
        rfl

end Sys2Proof.Machine
end

section
/-! PROOFS. The commands of the downward contract that invoke no callback (44_device_hal.md): what each answers before
`init`, the starts, the acknowledgement, `controlOut`, `stall`, the queries, `reset`, `cancel`, `resetEndpoints`. -/

namespace Sys2Proof.Machine

/-- An instruction whose operation is done ends in the state that the operation ends in. -/
theorem exec_done {i : Instr} {s t : State} (running : s.fatal = false) (ends : bodyOf i s = .done () t) :
    exec i s = .next t := by
  rw [exec_running running, ends, Res.toOutcome_done]

/-- A command whose code is an error and whose state is the one before is turned away. -/
theorem exec_turnedAway {i : Instr} {s : State} {e : ErrCode} (running : s.fatal = false)
    (ends : bodyOf i s = returnCode (e, s)) : exec i s = .next (turnedAway e s) :=
  exec_done running ends

/-! ### Before `init` (44_device_hal.md R341) -/

section
variable {s : State} (before : s.initialized = false)
include before

theorem insideOnSetup_beforeInit (f : State → Res Unit) : insideOnSetup f s = returnCode (.state, s) := by
  simp [insideOnSetup, before]

/-- A control command before `init`. -/
theorem exec_control_beforeInit {i : Instr} {f : State → Res Unit} (row : bodyOf i = insideOnSetup f)
    (running : s.fatal = false) : exec i s = .next (turnedAway .state s) := by
  refine exec_turnedAway running ?_
  rw [row, insideOnSetup_beforeInit before]

theorem start_beforeInit (p : Pipe) (d : Dir) (len : Len) (buf : Addr) (k : Option CbId) :
    start p d len buf k s = (.state, s) := by
  simp [start, startError, before]

theorem stallClass_beforeInit (cls : PipeClass) : stallClass cls s = (.state, s) := by simp [stallClass, before]

theorem blockReset_beforeInit : blockReset s = (.state, s) := by simp [blockReset, before]

theorem blockCancel_beforeInit : blockCancel s = (.state, s) := by simp [blockCancel, before]

theorem resetEndpoints_beforeInit (t : List CfgRec) : resetEndpoints t s = (.state, s) := by
  simp [resetEndpoints, before]

theorem endpointStalled_beforeInit (a : BitVec 4) : endpointStalled a s = false := by
  unfold endpointStalled
  split
  · simp [before]
  · rfl

end

/-- Settles O8: each command's first check is the one for `init`. -/
theorem commandsBeforeInit : Obligations.CommandsBeforeInit := by
  intro s running before
  have data (p : Pipe) (d : Dir) (len : Len) (buf : Addr) (k : Option CbId) :=
    congrArg returnCode (start_beforeInit before p d len buf k)
  have stall (cls : PipeClass) := congrArg returnCode (stallClass_beforeInit before cls)
  refine ⟨?listed, fun len buf => ?controlIn, fun len buf k => ⟨?controlOut, ?bulkIn, ?bulkOut, ?interruptIn⟩,
    fun t => ?resetEndpoints, fun disconnected => ?getDeviceState, fun a => ?isEndpointStalled⟩
  case listed =>
    simp only [List.forall_mem_cons, List.not_mem_nil, false_imp_iff, implies_true, and_true]
    exact ⟨exec_control_beforeInit before rfl running, exec_control_beforeInit before rfl running,
      exec_turnedAway running (stall _), exec_turnedAway running (stall _), exec_turnedAway running (stall _),
      exec_turnedAway running (congrArg returnCode (blockCancel_beforeInit before)),
      exec_turnedAway running (congrArg returnCode (blockReset_beforeInit before))⟩
  case controlIn => exact exec_control_beforeInit before rfl running
  case controlOut => exact exec_control_beforeInit before rfl running
  case bulkIn => exact exec_turnedAway running (data ..)
  case bulkOut => exact exec_turnedAway running (data ..)
  case interruptIn => exact exec_turnedAway running (data ..)
  case resetEndpoints => exact exec_turnedAway running (congrArg returnCode (resetEndpoints_beforeInit before t))
  case getDeviceState =>
    refine exec_done running (congrArg (fun b => Res.done () (setResult (.byte b) s)) ?_)
    rw [disconnected]
    rfl
  case isEndpointStalled =>
    refine exec_done running ?_
    rw [bodyOf, cmdIsEndpointStalled, endpointStalled_beforeInit before]
    rfl

/-! ### Data-transfer starts (44_device_hal.md R330) -/

/-- A start that breaks no check. -/
theorem start_unbroken {p : Pipe} {d : Dir} {len : Len} {buf : Addr} {s : State}
    (sound : startBroken p d len buf s = none) (k : Option CbId) :
    returnCode (start p d len buf k s) = .done () (started p d len buf k s) := by
  rw [startBroken_eq] at sound
  rw [start, sound, ← startEffect_eq]
  rfl

/-- Settles O14: the three starts are one operation on three pipes. -/
theorem startsTransfer : Obligations.StartsTransfer := by
  intro len buf k s running
  refine ⟨fun sound => ?bulkIn, fun sound => ?bulkOut, fun sound => ?interruptIn⟩
  all_goals exact exec_done running (start_unbroken sound k)

/-! ### Control commands inside `onSetup` (44_device_hal.md R335, R336, R339) -/

theorem controlLegal_iff (s : State) : controlLegal s = true ↔ s.initialized = true ∧ s.devState = .controlSetup := by
  simp [controlLegal]

/-- A control command inside `onSetup` that returns a code; before `init` it returns STATE too. -/
theorem insideOnSetup_returnCode {f : State → ErrCode × State} {s : State} (inside : s.ctx = .onSetup)
    (beforeInit : s.initialized = false → f s = (.state, s)) :
    insideOnSetup (fun s => returnCode (f s)) s = returnCode (f s) := by
  cases initialized : s.initialized with
  | true => exact insideOnSetup_onSetup initialized inside
  | false => rw [insideOnSetup_beforeInit initialized, beforeInit initialized]

theorem controlAck_illegal {s : State} (illegal : ¬ controlLegal s = true) : controlAck s = (.state, s) :=
  if_neg illegal

theorem controlOut_illegal {s : State} (illegal : ¬ controlLegal s = true) (len : Len) (buf : Addr) (k : Option CbId) :
    controlOut len buf k s = (.state, s) := by
  simp [controlOut, illegal]

theorem not_controlLegal_beforeInit {s : State} (before : s.initialized = false) : ¬ controlLegal s = true := by
  simp [controlLegal, before]

/-- Settles O16: the acknowledgement is legal in CONTROL_SETUP, and only there. -/
theorem controlAckCommand : Obligations.ControlAckCommand := by
  intro s running inside
  have body : bodyOf .controlAck s = returnCode (controlAck s) :=
    insideOnSetup_returnCode inside fun before => controlAck_illegal (not_controlLegal_beforeInit before)
  simp only [← controlLegal_iff]
  split
  · next legal =>
    obtain ⟨initialized, stage⟩ := (controlLegal_iff s).mp legal
    rw [controlAck_acked initialized stage] at body
    exact exec_done running body
  · next illegal =>
    rw [controlAck_illegal illegal] at body
    exact exec_turnedAway running body

/-- Pipe 0 with a control-OUT data stage armed (44_device_hal.md R339). -/
def armed (len : Len) (buf : Addr) (k : Option CbId) (x : PipeState) : PipeState :=
  { x with
    cfg := { x.cfg with dir := .OUT }
    xfer := { active := true, dir := .OUT, buf := buf, pos := buf.toNat, total := len.toNat,
              remaining := len.toNat, done := k }
    brdyEnb := true
    pid := .buf }

/-- A `controlOut` that breaks no check arms pipe 0 and enters CONTROL_OUT. -/
theorem controlOut_armed {len : Len} {buf : Addr} {s : State} (legal : controlLegal s = true)
    (whole : len.toNat = s.setup.length.toNat) (sends : len ≠ 0) (fits : buf ≠ 0 → buf.toNat + len.toNat ≤ 2 ^ 32)
    (k : Option CbId) : controlOut len buf k s =
      (.ok, { s.modPipe 0 (armed len buf k) with
        devState := .controlOut, trace := s.trace ++ [.brdyEnb 0 true, .pid 0 .nak, .pid 0 .buf] }) := by
  have checked : ¬ (len.toNat ≠ s.setup.length.toNat ∨ len = 0) := not_or.mpr ⟨not_not.mpr whole, sends⟩
  simp only [controlOut, legal, Bool.not_true, Bool.false_eq_true, if_false, if_neg checked, bufferWraps_false fits,
    setPidBuf_eq, writeBrdyEnb, setDevState]
  simp [State.logs, State.modPipe, State.pipe, newXfer, armed]

/-- Settles O17: each check of `controlOut` that is broken answers STATE. -/
theorem controlOutCommand : Obligations.ControlOutCommand := by
  intro len buf k s running inside
  have body : bodyOf (.controlOut len buf k) s = returnCode (controlOut len buf k s) :=
    insideOnSetup_returnCode inside fun before => controlOut_illegal (not_controlLegal_beforeInit before) len buf k
  split
  · next sound =>
    obtain ⟨initialized, stage, whole, sends, fits⟩ := sound
    rw [controlOut_armed ((controlLegal_iff s).mpr ⟨initialized, stage⟩) whole sends fits] at body
    exact exec_done running body
  · next broken =>
    have refused : controlOut len buf k s = (.state, s) := by
      by_cases legal : controlLegal s = true
      · obtain ⟨initialized, stage⟩ := (controlLegal_iff s).mp legal
        by_cases length : len.toNat ≠ s.setup.length.toNat ∨ len = 0
        · simp only [controlOut, if_pos length, ite_self]
        · obtain ⟨whole, sends⟩ := not_or.mp length
          refine controlOut_wraps ?_ k s
          by_contra fits
          exact broken ⟨initialized, stage, not_not.mp whole, sends, bufferWraps_bound fits⟩
      · exact controlOut_illegal legal len buf k
    rw [refused] at body
    exact exec_turnedAway running body

/-! ### Stall (44_device_hal.md R342) -/

/-- The stall of a class, with what it drops of a control transfer. -/
theorem stallClass_initialized {s : State} (initialized : s.initialized = true) (cls : PipeClass) : stallClass cls s =
    (.ok, if cls = .control ∧ s.devState.isControl = true then
        setDevState .ready (writeBrdyEnb 0 false (deactivate 0 (setPidStall 0 s)))
      else setPidStall (pipeOf cls s) s) := by
  simp only [stallClass, initialized, Bool.not_true, Bool.false_eq_true, if_false]
  by_cases drops : cls = .control ∧ s.devState.isControl = true
  · obtain ⟨rfl, control⟩ := drops
    have control' : (setPidStall (pipeOf .control s) s).devState.isControl = true := control
    rw [if_pos ⟨rfl, control'⟩, if_pos ⟨rfl, control⟩]
    rfl
  · rw [if_neg drops]
    exact if_neg drops

theorem isControl_iff (d : DevState) : d.isControl = true ↔ d ∈ [DevState.controlSetup, .controlIn, .controlOut] := by
  cases d <;> decide

/-- Settles O21: a stall is a write of STALL, and that of the control class ends the control transfer there is. -/
theorem stallCommand : Obligations.StallCommand := by
  intro s running stalled
  have plain (cls : PipeClass) (keeps : ¬ (cls = .control ∧ s.devState.isControl = true)) :
      returnCode (stallClass cls s) = .done () (stalled (pipeOf cls s)) := by
    cases initialized : s.initialized with
    | true =>
      simp [stalled, initialized, stallClass_initialized initialized, keeps, returnCode, setPidStall_eq, setResult,
        State.logs]
    | false => simp [stalled, initialized, stallClass_beforeInit initialized, returnCode, setResult, turnedAway]
  refine ⟨exec_done running (plain .bulkIn nofun), exec_done running (plain .bulkOut nofun),
    exec_done running (plain .intIn nofun), fun inside => exec_done running ?_⟩
  have body : bodyOf .stallControl s = returnCode (stallClass .control s) :=
    insideOnSetup_returnCode inside fun before => stallClass_beforeInit before _
  rw [body]
  split
  · next drops =>
    obtain ⟨initialized, control⟩ := drops
    rw [stallClass_initialized initialized, if_pos ⟨rfl, (isControl_iff _).mpr control⟩]
    simp [returnCode, setResult, setDevState, writeBrdyEnb, deactivate, setPidStall_eq, State.logs, State.modPipe,
      State.pipe]
  · next keeps =>
    by_cases initialized : s.initialized = true
    · exact plain .control fun drops => keeps ⟨initialized, (isControl_iff _).mp drops.2⟩
    · rw [stallClass_beforeInit (Bool.eq_false_of_not_eq_true initialized)]
      simp [stalled, initialized, returnCode, setResult, turnedAway]

/-! ### Queries (44_device_hal.md R343, R344) -/

theorem endpointStalled_eq (a : BitVec 4) (s : State) : endpointStalled a s =
    decide (s.initialized = true ∧ ∃ p : Pipe, p.val = a.toNat ∧ (s.pipe p).pid = .stall) := by
  by_cases inRange : a.toNat < 10
  · have named (p : Pipe) : p.val = a.toNat ↔ p = ⟨a.toNat, inRange⟩ := (Fin.ext_iff (b := ⟨_, inRange⟩)).symm
    simp [endpointStalled, pipeOfArg, inRange, named, Bool.decide_and, Bool.beq_eq_decide_eq]
  · have unnamed (p : Pipe) : p.val ≠ a.toNat := by omega
    simp [endpointStalled, pipeOfArg, inRange, unnamed]

/-- Settles O22: the byte by the sub-state, the flag by the pipe the argument names, if there is one. -/
theorem queryCommands : Obligations.QueryCommands := by
  intro s running
  refine ⟨exec_done running (congrArg (fun b => Res.done () (setResult (.byte b) s)) ?_), fun a => exec_done running ?_⟩
  · cases s.devState <;> rfl
  · rw [bodyOf, cmdIsEndpointStalled, endpointStalled_eq]
    rfl

/-! ### Reset (44_device_hal.md R345, R347) -/

/-- The sub-state after a reset: a control transfer is over (44_device_hal.md R345). -/
def DevState.afterReset (d : DevState) : DevState := if d.isControl then .ready else d

theorem DevState.afterReset_idem (d : DevState) : d.afterReset.afterReset = d.afterReset := by cases d <;> rfl

theorem resetEffect_silenced (s : State) : resetEffect s =
    { s.modAllPipes silenced with
      enb := ⟨true, true, true, true, true, true, true⟩
      devState := s.devState.afterReset
      trace := s.trace ++ resetTrace } := by
  rw [resetEffect_eq]
  rfl

theorem blockReset_initialized {s : State} (initialized : s.initialized = true) : blockReset s = (.ok, resetEffect s) :=
  if_pos initialized

/-- Changing every pipe to what it is changes nothing. -/
theorem State.modAllPipes_id {s : State} {g : PipeState → PipeState} (kept : ∀ p, g (s.pipe p) = s.pipe p) :
    s.modAllPipes g = s := by
  have pipes : (s.modAllPipes g).pipes = s.pipes := State.pipes_ext fun p => by rw [State.pipe_modAllPipes, kept]
  change { s with pipes := (s.modAllPipes g).pipes } = s
  rw [pipes]

/-- The effects of a second reset: its writes in the trace, and nothing else (44_device_hal.md R347). -/
theorem resetEffect_resetEffect (s : State) : resetEffect (resetEffect s) = (resetEffect s).logs resetTrace := by
  have pipes : (resetEffect s).modAllPipes silenced = resetEffect s := State.modAllPipes_id fun p => by
    rw [resetEffect_pipe]
    rfl
  have masters : (resetEffect s).enb = ⟨true, true, true, true, true, true, true⟩ := by
    rw [resetEffect_silenced]
  have stage : (resetEffect s).devState.afterReset = (resetEffect s).devState := by
    rw [resetEffect_silenced]
    exact s.devState.afterReset_idem
  rw [resetEffect_silenced (resetEffect s), pipes, stage, ← masters]
  rfl

/-- `reset` of an initialised block. -/
theorem exec_reset {s : State} (running : live s) :
    exec .reset s = .next { resetEffect s with result := some (.code .ok) } := by
  obtain ⟨initialized, notFatal⟩ := running
  refine exec_done notFatal ?_
  rw [bodyOf, cmdReset, blockReset_initialized initialized]
  rfl

/-- Settles O11: the 37 writes are those of the ten pipes, then the masters'. -/
theorem resetCommand : Obligations.ResetCommand := by
  intro s running
  cases initialized : s.initialized with
  | true =>
    rw [exec_reset ⟨initialized, running⟩, resetEffect_silenced, if_pos rfl]
    refine congrArg₂ (fun d es => Host.Outcome.next { s.modAllPipes silenced with
      enb := ⟨true, true, true, true, true, true, true⟩, devState := d, trace := es, result := some (.code .ok) })
      ?stage ?trace
    case stage => cases s.devState <;> rfl
    case trace => rw [List.append_assoc]; rfl
  | false => exact exec_turnedAway running (congrArg returnCode (blockReset_beforeInit initialized))

/-- Settles O12: a reset finds nothing to change after a reset, and logs its writes again. -/
theorem resetTwice : Obligations.ResetTwice := by
  intro s t running once
  rw [exec_reset running] at once
  obtain rfl : { resetEffect s with result := some (.code .ok) } = t := Host.Outcome.next.inj once
  have still : live { resetEffect s with result := some (.code .ok) } := by
    rw [resetEffect_silenced]
    exact running
  have again : resetEffect { resetEffect s with result := some (.code .ok) } =
      { (resetEffect s).logs resetTrace with result := some (.code .ok) } := by
    rw [← resetEffect_resetEffect, resetEffect_silenced, resetEffect_silenced (resetEffect s)]
    rfl
  refine ⟨⟨resetTrace, rfl, ?trace, ?twice⟩, fun p => ?pipe⟩
  case trace => rw [resetEffect_silenced]
  case twice =>
    rw [exec_reset still, again]
    rfl
  case pipe =>
    have silent : ({ resetEffect s with result := some (.code .ok) } : State).pipe p = resetPipe (s.pipe p) :=
      resetEffect_pipe s p
    rw [silent]
    exact ⟨rfl, rfl⟩

/-! ### Cancel (44_device_hal.md R346) -/

theorem blockCancel_initialized {s : State} (initialized : s.initialized = true) : blockCancel s =
    (.ok, { s.modAllPipes fun x => silenced (cancelPipe x) with
      enb := ⟨true, true, true, true, true, true, true⟩
      devState := s.devState.afterReset
      trace := s.trace ++ resetTrace }) := by
  rw [blockCancel, if_pos initialized, blockReset_initialized (s := s.modAllPipes cancelPipe) initialized,
    resetEffect_silenced, State.modAllPipes_modAllPipes]
  rfl

/-- Settles O13: the count and the error of each pending transfer, then the reset. -/
theorem cancelCommand : Obligations.CancelCommand := by
  intro s running
  cases initialized : s.initialized with
  | true =>
    refine exec_done running ?_
    rw [bodyOf, cmdCancel, blockCancel_initialized initialized]
    rfl
  | false => exact exec_turnedAway running (congrArg returnCode (blockCancel_beforeInit initialized))

/-! ### The configuration table (44_device_hal.md R349) -/

theorem LegalTable.bounded {t : List CfgRec} {s : State} (legal : LegalTable t s) : ∀ r ∈ t, r.pipe ≤ 9 :=
  fun r listed => (legal.1 r listed).2.1

/-- Settles O23: the three answers by the checks in their order, the effects of the last by `programTable_spec`. -/
theorem resetEndpointsCommand : Obligations.ResetEndpointsCommand := by
  intro t s running
  refine ⟨fun initialized legal free => ?programs, fun illegal => ?refused, fun initialized legal taken => ?busy⟩
  case programs =>
    have notBusy : ¬ tableBusy t s = true := by
      rw [busy_iff t s legal.bounded]
      rintro ⟨r, listed, p, named, busy⟩
      rw [free r listed p named] at busy
      cases busy
    obtain ⟨listed, others, all⟩ := programTable_spec t s legal.bounded legal.2.1
    refine ⟨{ programTable t s with result := some (.code .ok) }, exec_done running ?_, listed, others, ?_⟩
    · simp only [bodyOf, cmdResetEndpoints, resetEndpoints, initialized, (legal_iff t s).mpr legal, notBusy,
        Bool.not_true, Bool.false_eq_true, if_false]
      rfl
    · exact congrArg (setResult (.code .ok)) all
  case refused =>
    have state : resetEndpoints t s = (.state, s) := by
      rcases illegal with before | illegal
      · exact resetEndpoints_beforeInit before t
      · simp [resetEndpoints, legal_iff, illegal]
    exact exec_turnedAway running (congrArg returnCode state)
  case busy =>
    have busy : resetEndpoints t s = (.busy, s) := by
      simp [resetEndpoints, initialized, (legal_iff t s).mpr legal, (busy_iff t s legal.bounded).mpr taken]
    exact exec_turnedAway running (congrArg returnCode busy)

end Sys2Proof.Machine
end

section
/-! PROOFS. The administrative binds after a reset, and `init` (44_device_hal.md R315, R340). -/

namespace Sys2Proof.Machine

/-! ### Attaching (44_device_hal.md R315, R345; 41_fifo_binding.md R211) -/

/-- A block reset, its FIFOs bound for administration, `xs` the polls still lined up. -/
def attached (xs : List (Option Pipe)) (s : State) : State :=
  { adminBound (s.modAllPipes silenced) with
    enb := ⟨true, true, true, true, true, true, true⟩
    devState := s.devState.afterReset
    trace := s.trace ++ resetTrace ++ adminTrace
    env := { s.env with fifoCur := xs } }

/-- The reset and the administrative binds, each confirmed by its first poll. -/
theorem attach_first {s : State} {xs : List (Option Pipe)} (initialized : s.initialized = true)
    (polls : 0 < s.params.bindPollBudget) (attempts : 0 < s.params.uncondAttempts)
    (answers : s.env.fifoCur = some 0 :: none :: none :: xs) : attach s = .done () (attached xs s) := by
  rw [attach, blockReset_initialized initialized, resetEffect_silenced]
  exact bindAdmin_first polls attempts answers

/-! ### `init` (44_device_hal.md R340) -/

/-- The channel of an `init` whose descriptors are there, reset and bound, before it reads VBUS. -/
theorem blockInit_first {d : DescSet} (c : Callbacks) {s : State} {xs : List (Option Pipe)}
    (device : d.device.isSome = true) (config : d.config.isSome = true) (polls : 0 < s.params.bindPollBudget)
    (attempts : 0 < s.params.uncondAttempts) (answers : s.env.fifoCur = some 0 :: none :: none :: xs) :
    blockInit d c s = initVbus (attached xs (initChannel d c s)) := by
  have present : (d.device.isNone || d.config.isNone) = false :=
    Bool.or_eq_false_iff.mpr ⟨Option.isNone_eq_false_iff.mpr device, Option.isNone_eq_false_iff.mpr config⟩
  have bound : bindAdmin (blockReset (initChannel d c s)).2 = .done () (attached xs (initChannel d c s)) :=
    attach_first (s := initChannel d c s) rfl polls attempts answers
  rw [blockInit, present, bound]
  rfl

/-- Three reads that do not agree on high: `init` does not attach. -/
theorem initVbus_low {s : State} {v1 v2 v3 : Bool} {vs : List Bool} (reads : vbusReads v1 v2 v3 vs s)
    (low : (v1 && v2 && v3) = false) : initVbus s = .done .ok (s.withEnv { s.env with vbus := vs }) := by
  have notHigh : ∀ a b c : Bool, (a && b && c) = false → (if a = b ∧ b = c then some a else none) ≠ some true := by
    decide
  rw [initVbus, debounce_lined reads]
  split
  · next same => exact absurd (congrArg Prod.fst same) (notHigh _ _ _ low)
  · next same => rw [(Prod.mk.inj same).2]

/-- Three reads of high: `init` attaches. -/
theorem initVbus_high {s : State} {xs : List (Option Pipe)} {vs : List Bool} (reads : vbusReads true true true vs s)
    (initialized : s.initialized = true) (polls : 0 < s.params.bindPollBudget) (attempts : 0 < s.params.uncondAttempts)
    (answers : s.env.fifoCur = some 0 :: none :: none :: xs) : initVbus s =
      .done .ok (attached xs { s.withEnv { s.env with vbus := vs } with vbusLevel := true }) := by
  have attaches := attach_first (s := { s.withEnv { s.env with vbus := vs } with vbusLevel := true }) initialized polls
    attempts answers
  rw [initVbus, debounce_lined reads]
  exact congrArg (Res.bind · _) attaches

/-- Settles O9: the channel of `init`, the reset, the binds; and VBUS not high ends it there. -/
theorem initWithoutVbus : Obligations.InitWithoutVbus := by
  intro d c s xs v1 v2 v3 vs running device config polls attempts answers reads low
  refine exec_done running ?_
  have reads' : vbusReads v1 v2 v3 vs (attached xs (initChannel d c s)) := reads
  rw [bodyOf, cmdInit, blockInit_first c device config polls attempts answers, initVbus_low reads' low]
  rfl

/-- Settles O10: with VBUS high the reset and the binds come twice; and an absent descriptor is the first check. -/
theorem initAttaches : Obligations.InitAttaches := by
  refine ⟨fun d c s xs vs running device config polls attempts answers reads => ?attaches,
    fun d c s running absent => ?refused⟩
  case attaches =>
    have reads' : vbusReads true true true vs (attached (some 0 :: none :: none :: xs) (initChannel d c s)) := reads
    have ends := initVbus_high reads' rfl polls attempts rfl
    rw [← blockInit_first c device config polls attempts answers] at ends
    refine ⟨_, exec_done running (congrArg returnRes ends), rfl, rfl, rfl, rfl, rfl, rfl, rfl, rfl⟩
  case refused =>
    have missing : (d.device.isNone || d.config.isNone) = true :=
      Bool.or_eq_true_iff.mpr (absent.imp Option.isNone_iff_eq_none.mpr Option.isNone_iff_eq_none.mpr)
    refine exec_done running ?_
    rw [bodyOf, cmdInit, blockInit, missing]
    rfl

end Sys2Proof.Machine
end

section
/-! PROOFS. The events of a pass (44_device_hal.md R300 to R325): the slot of one source, the handlers of pipe 0 and of
the device-level sources when the class layer issues nothing in the callback, and the statements about them. -/

namespace Sys2Proof.Machine

/-! ### The slot of one source (44_device_hal.md R300, R303) -/

section
variable {i : Instr} {x : Source} {s t u : State}

/-- A source whose handler is done in `u` leaves `u`, back in the context before. -/
theorem served_done (ends : handler x (clearSts x (isrEnter s)) = .done () u) (leaves : u.withCtx s.ctx = t) :
    served x s = .done () t := by
  rw [served, ends, ← leaves]
  rfl

/-- An event word serves its source when a pass would see it. -/
theorem exec_served (row : bodyOf i = serveOne x) (running : live s) (seen : pending s x = true) :
    exec i s = (served x s).toOutcome := by
  rw [exec_running running.2, row, serveOne_pending running seen]

theorem exec_event (row : bodyOf i = serveOne x) (running : live s) (seen : pending s x = true)
    (ends : handler x (clearSts x (isrEnter s)) = .done () u) (leaves : u.withCtx s.ctx = t) : exec i s = .next t := by
  rw [exec_served row running seen, served_done ends leaves, Res.toOutcome_done]

/-- A pass whose snapshot holds one source serves that one. -/
theorem exec_evtIsr_only (running : live s) (only : onlyPending x s) : exec .evtIsr s = (served x s).toOutcome := by
  rw [exec_running running.2, bodyOf, isrTurn_only running only]

/-- Such a pass is the source's event. -/
theorem exec_evtIsr_eq (row : bodyOf i = serveOne x) (running : live s) (only : onlyPending x s) :
    exec .evtIsr s = exec i s := by
  rw [exec_evtIsr_only running only, exec_served row running only.1]

end

/-- Settles O45: a pass with the line low does nothing, and one with one source held serves it as its event word. -/
theorem isrServesOne : Obligations.IsrServesOne := by
  intro s running
  have event {i : Instr} {x : Source} (row : bodyOf i = serveOne x) (only : onlyPending x s) :
      exec .evtIsr s = exec i s := exec_evtIsr_eq row running only
  refine ⟨fun low => exec_done running.2 (isrTurn_none low), event rfl, event rfl, event rfl,
    fun p a _ named => ⟨event ?_, event ?_, event ?_⟩, event rfl, event rfl, event rfl, event rfl⟩
  all_goals exact funext fun t => serveField_eq named t

/-- Settles O39: the three handlers are done at once. -/
theorem quietEvents : Obligations.QuietEvents := by
  intro s running
  refine ⟨fun seen => exec_event rfl running seen rfl rfl, fun seen => exec_event rfl running seen rfl rfl,
    fun seen => exec_event rfl running seen rfl rfl, fun only => ?_⟩
  rw [exec_evtIsr_eq (i := .evtResm) rfl running only]
  exact exec_event rfl running only.1 rfl rfl

/-! ### Pipe 0's Buffer-Ready (44_device_hal.md R307) -/

theorem notified_setDevState (p : Pipe) (e : ErrCode) (d : DevState) (s : State) :
    notified p e (setDevState d s) = setDevState d (notified p e s) := by
  have call : ∀ n, completionCall p e n (setDevState d s) = completionCall p e n s := fun _ => rfl
  have pipe : (setDevState d s).pipe p = s.pipe p := rfl
  simp only [notified, call, pipe]
  cases completionCall p e ((s.pipe p).xfer.total - (s.pipe p).xfer.remaining) s <;> rfl

/-- The end of pipe 0's transfer by a handler that changes the pipe, writes to the trace and returns to READY. -/
theorem finish_ready {e : ErrCode} {ans : SetupAnswer} {s : State} (g : PipeState → PipeState) (es : List TraceEntry)
    (idle : classIdle ans s) : finish 0 e (setDevState .ready ((s.modPipe 0 g).logs es)) =
      .done () { notified 0 e (s.modPipe 0 fun x => ended e (g x)) with
        devState := .ready, trace := s.trace ++ es } := by
  have issuesNothing : classIdle ans (setDevState .ready s) := idle
  have ends := finish_logs (p := 0) (e := e) g es issuesNothing
  have devState : (setDevState .ready s).modPipe 0 (fun x => ended e (g x)) =
      setDevState .ready (s.modPipe 0 fun x => ended e (g x)) := rfl
  rw [devState, notified_setDevState] at ends
  refine ends.trans (congrArg (Res.done ()) ?_)
  simp [State.logs, setDevState]

section
variable {s : State} {ans : SetupAnswer}

theorem afterAccess0_final {r : Access} (final : r = .END ∨ r = .SHORT) (idle : classIdle ans s) : afterAccess0 r s =
    .done () { notified 0 .ok (s.modPipe 0 fun x => ended .ok { x with brdyEnb := false, pid := .buf }) with
      devState := .ready, trace := s.trace ++ [.brdyEnb 0 false, .pid 0 .nak, .pid 0 .buf, .ctrlComplete] } := by
  have stops : ackStatus (writeBrdyEnb 0 false s) = setDevState .ready
      ((s.modPipe 0 fun x => { x with brdyEnb := false, pid := .buf }).logs
        [.brdyEnb 0 false, .pid 0 .nak, .pid 0 .buf, .ctrlComplete]) := by
    simp [ackStatus, ctrlComplete, setPidBuf_eq, writeBrdyEnb, State.logs_logs]
  have ends : afterAccess0 r s = finish 0 .ok (ackStatus (writeBrdyEnb 0 false s)) := by
    rcases final with rfl | rfl
    · rfl
    · rfl
  rw [ends, stops, finish_ready _ _ idle]

theorem afterAccess0_overrun (idle : classIdle ans s) : afterAccess0 .OVERRUN s =
    .done () { notified 0 .overrun (s.modPipe 0 fun x => ended .overrun { x with brdyEnb := false, pid := .stall }) with
      devState := .ready, trace := s.trace ++ [.brdyEnb 0 false, .pid 0 .stall] } := by
  have stops : setPidStall 0 (writeBrdyEnb 0 false s) = (s.modPipe 0 fun x =>
      { x with brdyEnb := false, pid := .stall }).logs [.brdyEnb 0 false, .pid 0 .stall] := by
    simp [setPidStall_eq, writeBrdyEnb, State.logs_logs]
  rw [afterAccess0, stops, finish_ready _ _ idle]

theorem afterAccess0_error (idle : classIdle ans s) : afterAccess0 .ERROR s =
    .done () { called ⟨.onError, s.cb.map (·.onError), .code .bindTimeout⟩ (s.modPipe 0 fun x =>
        { x with brdyEnb := false, pid := .stall, xfer := { x.xfer with active := false } }) with
      devState := .ready, trace := s.trace ++ [.brdyEnb 0 false, .pid 0 .stall] } := by
  have stops : deactivate 0 (setDevState .ready (setPidStall 0 (writeBrdyEnb 0 false s))) = setDevState .ready
      ((s.modPipe 0 fun x => { x with brdyEnb := false, pid := .stall, xfer := { x.xfer with active := false } }).logs
        [.brdyEnb 0 false, .pid 0 .stall]) := by
    simp [setPidStall_eq, writeBrdyEnb, deactivate, setDevState, State.logs, State.modPipe, State.pipe]
  have issuesNothing : classIdle ans (setDevState .ready ((s.modPipe 0 fun x =>
      { x with brdyEnb := false, pid := .stall, xfer := { x.xfer with active := false } }).logs
        [.brdyEnb 0 false, .pid 0 .stall])) := idle
  rw [afterAccess0, stops, callback_idle issuesNothing, registeredCall_onError]
  rfl

end

/-- Settles O40: outside a control-OUT data stage only the enable is written; inside, the access's outcome decides. -/
theorem brdy0Event : Obligations.Brdy0Event := by
  intro s running seen
  have event {t u : State} (ends : onBrdy0 (brdyEntered 0 s) = .done () u) (leaves : u.withCtx s.ctx = t) :
      exec .evtBrdy0 s = .next t := exec_event rfl running seen ends leaves
  have pipe := brdyEntered_pipe_self 0 s
  refine ⟨fun outside => ?quiet, fun u r ans stage runs access idle => ?data⟩
  case quiet =>
    have outside' : ¬ ((brdyEntered 0 s).devState = .controlOut ∧ ((brdyEntered 0 s).pipe 0).xfer.active = true) := by
      rwa [pipe]
    have disables : onBrdy0 (brdyEntered 0 s) = .done () (((brdyEntered 0 s).modPipe 0 fun x =>
        { x with brdyEnb := false }).logs [.brdyEnb 0 false]) := if_neg outside'
    exact event disables (entered_modPipe 0 (fun x => { x with brdySts := false }) _ (.brdyClr 0) _ s)
  case data =>
    have inside : (brdyEntered 0 s).devState = .controlOut ∧ ((brdyEntered 0 s).pipe 0).xfer.active = true := by
      rw [pipe]
      exact ⟨stage, runs⟩
    have reads : onBrdy0 (brdyEntered 0 s) = afterAccess0 r u := by
      rw [onBrdy0, if_pos inside, access]
    cases r with
    | CONTINUE => exact event reads rfl
    | END => exact event (reads.trans (afterAccess0_final (.inl rfl) (idle nofun))) rfl
    | SHORT => exact event (reads.trans (afterAccess0_final (.inr rfl) (idle nofun))) rfl
    | OVERRUN => exact event (reads.trans (afterAccess0_overrun (idle nofun))) rfl
    | ERROR => exact event (reads.trans (afterAccess0_error (idle nofun))) rfl

/-! ### A bus reset (44_device_hal.md R316, R318) -/

theorem busReset_first {s : State} {xs : List (Option Pipe)} (initialized : s.initialized = true)
    (polls : 0 < s.params.bindPollBudget) (attempts : 0 < s.params.uncondAttempts)
    (answers : s.env.fifoCur = some 0 :: none :: none :: xs) : busReset s =
      .done () { attached xs s with
        configValue := 0, devState := if s.vbusLevel then .ready else s.devState.afterReset } := by
  have attaches : bindAdmin (blockReset s).2 = .done () (attached xs s) :=
    attach_first initialized polls attempts answers
  rw [busReset, attaches]
  cases high : s.vbusLevel <;> simp [attached, adminBound, high, setDevState]

/-- Settles O41: the handler is the reset and the administrative binds. -/
theorem busResetEvent : Obligations.BusResetEvent := by
  intro s xs running seen default polls attempts answers
  have handles : onDvst (clearSts .dvst (isrEnter s)) = busReset (clearSts .dvst (isrEnter s)) := by
    have default' : (clearSts .dvst (isrEnter s)).usbState = .defaultState := default
    rw [onDvst, default']
  refine exec_event rfl running seen (handles.trans (busReset_first running.1 polls attempts answers)) ?_
  simp only [attached, State.withCtx, clearSts, isrEnter, State.logs, List.append_assoc, List.cons_append,
    List.nil_append]
  rfl

/-! ### The other device states (44_device_hal.md R316, R319, R322) -/

/-- The configured BULK pipes of a list. -/
def bulkPipes (ps : List Pipe) (s : State) : List Pipe :=
  ps.filter fun p => (s.pipe p).cfgValid && (s.pipe p).cfg.kind == .bulk

theorem bulkPipes_cons (q : Pipe) (qs : List Pipe) (s : State) : bulkPipes (q :: qs) s =
    if (s.pipe q).cfgValid ∧ (s.pipe q).cfg.kind = .bulk then q :: bulkPipes qs s else bulkPipes qs s := by
  simp [bulkPipes, List.filter_cons]

theorem clearToggle_pipe (q p : Pipe) (s : State) :
    (clearToggle q s).pipe p = if q = p then { s.pipe p with toggle := .data0 } else s.pipe p := by
  simp only [clearToggle, State.pipe_logs, State.pipe_modPipe]
  split
  · next same => rw [same]
  · rfl

/-- Which pipes are configured BULK ones does not depend on their toggles. -/
theorem bulkPipes_clearToggle (q : Pipe) (ps : List Pipe) (s : State) :
    bulkPipes ps (clearToggle q s) = bulkPipes ps s := by
  unfold bulkPipes
  congr 1
  funext p
  rw [clearToggle_pipe]
  split <;> rfl

/-- Clearing toggles changes the toggle of each configured BULK pipe of the list, in its order, and no other field. -/
theorem clearBulkToggles_spec (ps : List Pipe) (s : State) :
    (∀ p, (clearBulkToggles ps s).pipe p = if p ∈ bulkPipes ps s then { s.pipe p with toggle := .data0 } else s.pipe p)
    ∧ clearBulkToggles ps s = { s with
        pipes := (clearBulkToggles ps s).pipes
        trace := s.trace ++ (bulkPipes ps s).map fun p => .toggle p .data0 } := by
  induction ps generalizing s with
  | nil => simp [clearBulkToggles, bulkPipes]
  | cons q qs ih =>
    rw [clearBulkToggles, bulkPipes_cons]
    split
    · next bulk =>
      obtain ⟨pipes, all⟩ := ih (clearToggle q s)
      rw [bulkPipes_clearToggle] at pipes all
      refine ⟨fun p => ?_, all.trans ?_⟩
      · rw [pipes, clearToggle_pipe]
        by_cases first : q = p
        · simp [first]
        · simp [first, Ne.symm first]
      · simp [clearToggle, State.logs, State.modPipe]
    · next other => exact ih s

theorem registeredCall_onCableChange (b : Bool) (s : State) :
    registeredCall .onCableChange (.connected b) s = ⟨.onCableChange, s.cb.map (·.onCableChange), .connected b⟩ := by
  cases table : s.cb <;> simp [registeredCall, table, callbackFn]

/-- The connection signalled, unless it has been (44_device_hal.md R322). -/
def signalled (s : State) : State :=
  if s.firstConnectFired then s
  else { called ⟨.onCableChange, s.cb.map (·.onCableChange), .connected true⟩ s with firstConnectFired := true }

theorem firstConnect_idle {s : State} {ans : SetupAnswer} (idle : s.firstConnectFired = false → classIdle ans s) :
    firstConnect s = .done () (signalled s) := by
  unfold firstConnect signalled
  split
  · rfl
  · next first =>
    have issuesNothing : classIdle ans { s with firstConnectFired := true } := idle (Bool.eq_false_of_not_eq_true first)
    rw [callback_idle issuesNothing, registeredCall_onCableChange]
    rfl

/-- Signalling the connection is a callback and nothing else. -/
theorem signalled_frame (s : State) : (∀ p, (signalled s).pipe p = s.pipe p) ∧ (signalled s).firstConnectFired = true
    ∧ (signalled s).calls = s.calls ++ (if s.firstConnectFired then [] else
        [⟨.onCableChange, s.cb.map (·.onCableChange), .connected true⟩])
    ∧ (signalled s).trace = s.trace ∧ (signalled s).devState = s.devState ∧ (signalled s).mem = s.mem := by
  unfold signalled
  split
  · next fired => exact ⟨fun _ => rfl, fired, (List.append_nil _).symm, rfl, rfl, rfl⟩
  · exact ⟨fun _ => rfl, rfl, rfl, rfl, rfl, rfl⟩

theorem onDvst_quiet {s : State} (quiet : s.usbState = .powered ∨ s.usbState = .address ∨ s.usbState = .suspended) :
    onDvst s = .done () s := by
  unfold onDvst
  rcases quiet with state | state | state <;> rw [state]

theorem onDvst_configured {s : State} (configured : s.usbState = .configured) : onDvst s = enterConfigured s := by
  rw [onDvst, configured]

/-- Settles O42: three states have an empty handler, and CONFIGURED clears toggles and signals the connection. -/
theorem deviceStateEvent : Obligations.DeviceStateEvent := by
  intro s ans running seen
  refine ⟨fun quiet => exec_event rfl running seen (onDvst_quiet quiet) rfl, fun configured idle => ?_⟩
  intro bulk
  obtain ⟨pipes, all⟩ := clearBulkToggles_spec dataPipes (clearSts .dvst (isrEnter s))
  have handles : onDvst (clearSts .dvst (isrEnter s)) =
      firstConnect (clearBulkToggles dataPipes (clearSts .dvst (isrEnter s))) := onDvst_configured configured
  generalize clearBulkToggles dataPipes (clearSts .dvst (isrEnter s)) = c at *
  have fired : c.firstConnectFired = s.firstConnectFired := (congrArg State.firstConnectFired all :)
  have issuesNothing : c.firstConnectFired = false → classIdle ans c := fun first => by
    rw [all]
    exact idle (fired ▸ first)
  obtain ⟨pipe, done, calls, trace, devState, mem⟩ := signalled_frame c
  refine ⟨(signalled c).withCtx s.ctx,
    exec_event rfl running seen (handles.trans (firstConnect_idle issuesNothing)) rfl,
    fun p => (pipe p).trans (pipes p), done, calls.trans ?_, trace.trans ?_, devState.trans ?_, mem.trans ?_⟩
  · rw [fired, all]
    rfl
  · rw [all]
    exact List.append_assoc ..
  · rw [all]
    rfl
  · rw [all]
    rfl

/-! ### The control stage (44_device_hal.md R320, R321) -/

theorem onCtrt_idle {s : State} (invalid : ¬ (s.ctrlStage = .setupReceived ∧ s.setupValid = true)) :
    onCtrt s = .done () s := if_neg invalid

theorem onCtrt_disconnected {s : State} (received : s.ctrlStage = .setupReceived) (valid : s.setupValid = true)
    (disconnected : s.devState = .disconnected) : onCtrt s = .done () (setPidStall 0 (clearSetupValid s)) := by
  have disconnected' : (clearSetupValid s).devState = .disconnected := disconnected
  rw [onCtrt, if_pos ⟨received, valid⟩, setupArrival, if_pos disconnected']

/-- A valid packet while DISCONNECTED is taken, and pipe 0 stalled. -/
theorem exec_evtCtrt_disconnected {s : State} (running : live s) (seen : pending s .ctrt = true)
    (received : s.ctrlStage = .setupReceived) (valid : s.setupValid = true)
    (disconnected : s.devState = .disconnected) : exec .evtCtrt s = .next
      { s.modPipe 0 fun x => { x with pid := .stall } with
        sts := { s.sts with ctrt := false }
        setupValid := false
        trace := s.trace ++ [.ctrtClr, .setupValid false, .pid 0 .stall] } := by
  refine exec_event rfl running seen (onCtrt_disconnected received valid disconnected) ?_
  simp [setPidStall_eq, clearSetupValid, clearSts, isrEnter, State.withCtx, State.logs, State.modPipe, State.pipe]

/-- A setup row is the packet's arrival and the ISR's turn (30_encoding.md R161). -/
theorem exec_setup_eq {i : Instr} {S : BitVec 64} (packet : packetOf i = some S) (s : State) :
    exec i s = exec .evtIsr (ctlSetup S s) := by
  rw [exec_eq, exec_eq, bodyOf_setup packet]
  rfl

/-- A packet already latched and reported arrives as itself. -/
theorem ctlSetup_latched {s : State} (seen : pending s .ctrt = true) (received : s.ctrlStage = .setupReceived)
    (valid : s.setupValid = true) : ctlSetup s.setupData s = s := by
  have reported : s.sts.ctrt = true := (Bool.and_eq_true_iff.mp seen).2
  have sts : { s.sts with ctrt := true } = s.sts := by rw [← reported]
  rw [ctlSetup, sts, ← received, ← valid]

/-- A packet that arrives with no other source pending is the one source of the pass. -/
theorem onlyPending_ctlSetup {s : State} (enabled : s.enb.ctre = true) (alone : ∀ y, y ≠ .ctrt → pending s y = false)
    (S : BitVec 64) : onlyPending .ctrt (ctlSetup S s) := by
  refine ⟨Bool.and_eq_true_iff.mpr ⟨enabled, rfl⟩, fun y other => ?_⟩
  rw [← alone y other]
  cases y
  case ctrt => exact absurd rfl other
  all_goals rfl

/-- Settles O43: what the handler does by the stage, the valid mark and the sub-state; and a latched packet that arrives
again changes nothing, so its setup row is the event. -/
theorem controlStageEvent : Obligations.ControlStageEvent := by
  refine ⟨fun s running seen => ⟨fun invalid => exec_event rfl running seen (onCtrt_idle invalid) rfl,
    exec_evtCtrt_disconnected running seen⟩, fun i S s packet => exec_setup_eq packet s,
    fun i s running only received valid packet => ?_⟩
  rw [exec_setup_eq packet, ctlSetup_latched only.1 received valid, exec_evtIsr_eq (i := .evtCtrt) rfl running only]

/-- Settles O55: the packet's pass is its control-stage event. -/
theorem setupWhileDisconnected : Obligations.SetupWhileDisconnected := by
  intro i S s packet running disconnected enabled alone
  have only := onlyPending_ctlSetup enabled alone S
  have running' : live (ctlSetup S s) := running
  rw [exec_setup_eq packet, exec_evtIsr_eq (i := .evtCtrt) rfl running' only,
    exec_evtCtrt_disconnected running' only.1 rfl rfl disconnected]
  rfl

/-! ### VBUS (44_device_hal.md R313, R314, R315, R317) -/

section
variable {s : State} {v1 v2 v3 : Bool} {vs : List Bool} (reads : vbusReads v1 v2 v3 vs s)
include reads

/-- Reads that disagree, or agree with the level the channel holds. -/
theorem onVbint_ignored (ignored : ¬ (v1 = v2 ∧ v2 = v3) ∨ v1 = s.vbusLevel) :
    onVbint s = .done () (s.withEnv { s.env with vbus := vs }) := by
  rw [onVbint, debounce_lined reads]
  by_cases agree : v1 = v2 ∧ v2 = v3
  · have level : v1 = (s.withEnv { s.env with vbus := vs }).vbusLevel := ignored.resolve_left (not_not.mpr agree)
    rw [if_pos agree]
    exact if_pos level
  · rw [if_neg agree]

/-- Reads that agree on another level than the channel's. -/
theorem onVbint_changed (agree : v1 = v2 ∧ v2 = v3) (change : v1 ≠ s.vbusLevel) : onVbint s =
    (if v1 then attach { s.withEnv { s.env with vbus := vs } with vbusLevel := v1 }
      else detach { s.withEnv { s.env with vbus := vs } with vbusLevel := v1 }) := by
  have change' : ¬ v1 = (s.withEnv { s.env with vbus := vs }).vbusLevel := change
  rw [onVbint, debounce_lined reads, if_pos agree]
  exact if_neg change'

end

/-- The block cancelled and DISCONNECTED (44_device_hal.md R317, R346). -/
def dropped (s : State) : State :=
  { s.modAllPipes fun x => silenced (cancelPipe x) with
    enb := ⟨true, true, true, true, true, true, true⟩
    devState := .disconnected
    trace := s.trace ++ resetTrace }

/-- A detach, with the loss signalled if the connection had been. -/
theorem detach_idle {s : State} {ans : SetupAnswer} (initialized : s.initialized = true)
    (idle : s.firstConnectFired = true → classIdle ans s) : detach s = .done ()
      (if s.firstConnectFired then
        { called ⟨.onCableChange, s.cb.map (·.onCableChange), .connected false⟩ (dropped s) with
          firstConnectFired := false }
      else dropped s) := by
  have drops : setDevState .disconnected (blockCancel s).2 = dropped s := by
    rw [blockCancel_initialized initialized]
    rfl
  have fired : (dropped s).firstConnectFired = s.firstConnectFired := rfl
  simp only [detach, drops, fired]
  split
  · next connected =>
    have issuesNothing : classIdle ans { dropped s with firstConnectFired := false } := idle connected
    rw [callback_idle issuesNothing, registeredCall_onCableChange]
    rfl
  · rfl

/-- Settles O44: the reads say whether the level changes, and to what. -/
theorem vbusEvent : Obligations.VbusEvent := by
  intro s v1 v2 v3 vs xs ans running seen reads
  have reads' : vbusReads v1 v2 v3 vs (clearSts .vbint (isrEnter s)) := reads
  refine ⟨fun ignored => exec_event rfl running seen (onVbint_ignored reads' ignored) rfl, ?rise, ?fall⟩
  case rise =>
    rintro rfl rfl rfl low polls attempts answers
    have change : true ≠ (clearSts .vbint (isrEnter s)).vbusLevel := fun same => nomatch same.trans low
    have handles := (onVbint_changed reads' ⟨rfl, rfl⟩ change).trans
      (attach_first (xs := xs) running.1 polls attempts answers)
    refine exec_event rfl running seen handles ?_
    simp only [attached, State.withCtx, State.withEnv, clearSts, isrEnter, State.logs, List.append_assoc,
      List.cons_append, List.nil_append]
    rfl
  case fall =>
    rintro rfl rfl rfl high idle
    have change : false ≠ (clearSts .vbint (isrEnter s)).vbusLevel := fun same => nomatch same.trans high
    have handles := (onVbint_changed reads' ⟨rfl, rfl⟩ change).trans (detach_idle (ans := ans) running.1 idle)
    refine exec_event rfl running seen handles ?_
    cases connected : s.firstConnectFired <;>
      simp [dropped, called, State.withCtx, State.withEnv, clearSts, isrEnter, State.logs, State.modAllPipes,
        State.pipe, cancelPipe, connected]

end Sys2Proof.Machine
end

section
/-! PROOFS. A control-IN data stage (44_device_hal.md R338): the command when its binds and waits are answered at once,
and the three places where it fails. -/

namespace Sys2Proof.Machine

theorem cmdControlIn_inside {s : State} (running : live s) (inside : s.ctx = .onSetup) (len : Len) (buf : Addr) :
    bodyOf (.controlIn len buf) s = returnRes (controlIn len buf s) :=
  insideOnSetup_onSetup running.1 inside

theorem controlIn_illegal {s : State} (illegal : ¬ controlLegal s = true) (len : Len) (buf : Addr) :
    controlIn len buf s = .done .state s := by
  simp [controlIn, illegal]

/-- With no data stage a `controlIn` is the acknowledgement (44_device_hal.md R337). -/
theorem controlIn_noData {s : State} (initialized : s.initialized = true) (stage : s.devState = .controlSetup)
    (noStage : s.setup.length = 0) (len : Len) (buf : Addr) : controlIn len buf s = .done .ok (acked s) := by
  simp [controlIn, (controlLegal_iff s).mpr ⟨initialized, stage⟩, noStage, controlAck_acked initialized stage]

/-- Settles O18: the checks in their order, and the answered data stage by `controlIn_sent`. -/
theorem controlInCommand : Obligations.ControlInCommand := by
  intro len buf s running inside n k
  have command {e : ErrCode} {t : State} (ends : controlIn len buf s = .done e t) :
      exec (.controlIn len buf) s = .next (setResult (.code e) t) :=
    exec_done running.2 ((cmdControlIn_inside running inside len buf).trans (congrArg returnRes ends))
  refine ⟨fun stage data null fits answers => ?sent, fun stage noStage => ?acknowledged, fun refused => ?refused⟩
  case sent => exact command (controlIn_sent ((controlLegal_iff s).mpr ⟨running.1, stage⟩) data null fits answers)
  case acknowledged => exact command (controlIn_noData running.1 stage noStage len buf)
  case refused =>
    refine command ?_
    rcases refused with stage | ⟨data, null | wraps⟩
    · exact controlIn_illegal (fun legal => stage ((controlLegal_iff s).mp legal).2) len buf
    · exact controlIn_refused data (.inl null)
    · exact controlIn_refused data (.inr ((bufferWraps_iff buf len).mpr wraps))

/-! ### A data stage that fails -/

/-- Pipe 0 stalled and its transfer dropped. -/
def stallDropped (x : PipeState) : PipeState := { x with xfer := { x.xfer with active := false }, pid := .stall }

/-- The failure of a data stage: pipe 0 stalled, its transfer dropped, READY, `onError` called. -/
def stageDropped (t : State) : State :=
  { called ⟨.onError, t.cb.map (·.onError), .code .bindTimeout⟩ (t.modPipe 0 stallDropped) with
    devState := .ready, trace := t.trace ++ [.pid 0 .stall] }

theorem controlInFail_idle {t : State} {a : SetupAnswer} (idle : classIdle a t) :
    controlInFail t = .done .bindTimeout (stageDropped t) := by
  have stops : setDevState .ready (setPidStall 0 (deactivate 0 t)) =
      setDevState .ready ((t.modPipe 0 stallDropped).logs [.pid 0 .stall]) := by
    simp only [deactivate, setPidStall_eq, State.modPipe_modPipe]
    rfl
  have issuesNothing : classIdle a (setDevState .ready ((t.modPipe 0 stallDropped).logs [.pid 0 .stall])) := idle
  rw [controlInFail, stops, onErrorInControlIn, invoke_idle issuesNothing, registeredCall_onError]
  rfl

/-- A data stage whose checks hold and whose accesses end in `t` without success. -/
theorem controlIn_failed {len : Len} {buf : Addr} {s t : State} {a : SetupAnswer} (legal : controlLegal s = true)
    (data : s.setup.length ≠ 0) (null : buf = 0 → min len.toNat s.setup.length.toNat = 0)
    (fits : buf ≠ 0 → buf.toNat + len.toNat ≤ 2 ^ 32)
    (fails : controlInData (min len.toNat s.setup.length.toNat)
      (controlInBegin (min len.toNat s.setup.length.toNat) buf s) = (false, t)) (idle : classIdle a t) :
    controlIn len buf s = .done .bindTimeout (stageDropped t) := by
  have source : ¬ (buf = 0 ∧ min len.toNat s.setup.length.toNat ≠ 0) := fun ⟨isNull, sends⟩ => sends (null isNull)
  simp only [controlIn, legal, data, source, bufferWraps_false fits, fails, Bool.not_true, Bool.false_eq_true, if_false]
  exact controlInFail_idle idle

/-- What stands after j full buffers of a data stage from `buf`: they are sent, and nothing else is done outside pipe 0,
FIFO C and the trace. -/
structure SentBuffers (buf : Addr) (j : Nat) (s t : State) : Prop where
  sent : (t.pipe 0).sent = (s.pipe 0).sent
    ++ (List.range j).map (fun i => s.mem.readBytes (buf.toNat + i * s.params.mps0.bytes) s.params.mps0.bytes)
  calls : t.calls = s.calls
  table : t.cb = s.cb
  mem : t.mem = s.mem
  others : ∀ p, p ≠ 0 → t.pipe p = s.pipe p
  classSteps : t.env.classSteps = s.env.classSteps

/-- A data stage that fails there. -/
theorem SentBuffers.stageFailed {buf : Addr} {j : Nat} {s t : State} (h : SentBuffers buf j s t) :
    stageFailed buf j s (setResult (.code .bindTimeout) (stageDropped t)) := by
  have pipe0 : (setResult (.code .bindTimeout) (stageDropped t)).pipe 0 =
      stallDropped (t.pipe 0) := State.pipe_modPipe_self t 0 stallDropped
  refine ⟨rfl, rfl, ?pid, ?active, ?sent, ?calls, h.mem, fun p other => ?others⟩
  case pid => rw [pipe0]; rfl
  case active => rw [pipe0]; rfl
  case sent => rw [pipe0]; exact h.sent
  case calls => rw [← h.calls, ← h.table]; rfl
  case others => exact (State.pipe_modPipe_ne t stallDropped (Ne.symm other)).trans (h.others p other)

/-- Pipe 0 set up for a data stage of n bytes from `buf`, its FIFO buffer cleared. -/
def openedPipe (n : Nat) (buf : Addr) (x : PipeState) : PipeState :=
  { x with cfg := { x.cfg with dir := .IN }, xfer := newXfer .IN buf n none, building := [] }

/-- A data stage of n bytes from `buf`, its FIFO bound and cleared, `ys` the polls still lined up. -/
def opened (n : Nat) (buf : Addr) (ys : List (Option Pipe)) (s : State) : State :=
  { s.modPipe 0 (openedPipe n buf) with
    devState := .controlIn
    fifoC := ⟨some 0, some 0⟩
    fifoIsel := .IN
    trace := s.trace ++ [.fifoSel .C (some 0), .fifoIsel .IN, .bufferClear .C]
    env := { s.env with fifoCur := ys } }

theorem opened_pipe_zero (n : Nat) (buf : Addr) (ys : List (Option Pipe)) (s : State) :
    (opened n buf ys s).pipe 0 = openedPipe n buf (s.pipe 0) := State.pipe_modPipe_self s 0 (openedPipe n buf)

theorem opened_pipe_ne (n : Nat) (buf : Addr) (ys : List (Option Pipe)) (s : State) {p : Pipe} (other : p ≠ 0) :
    (opened n buf ys s).pipe p = s.pipe p := State.pipe_modPipe_ne s (openedPipe n buf) (Ne.symm other)

/-- A data stage whose opening bind confirms at the first poll. -/
theorem controlInData_opened {n : Nat} {buf : Addr} {s : State} {ys : List (Option Pipe)}
    (polls : 0 < s.params.bindPollBudget) (answers : s.env.fifoCur = some 0 :: ys) :
    controlInData n (controlInBegin n buf s) = controlInLoop (n + 1) true (opened n buf ys s) := by
  have bound := bindFifo_first (s := controlInBegin n buf s) .C .IN polls answers
  have clears : bufferClear .C ((afterBind (some 0) .C .IN true (controlInBegin n buf s)).withEnv
      { (controlInBegin n buf s).env with fifoCur := ys }) = opened n buf ys s := by
    rw [bufferClear_of (p := 0) (by simp)]
    simp [opened, openedPipe, afterBind, controlInBegin, setDevState, State.modFifo, State.withEnv, State.logs,
      State.modPipe, State.pipe]
  simp only [controlInData, bound, clears]

/-- The bind that opens a data stage times out. -/
theorem controlInData_timeout {n : Nat} {buf : Addr} {s : State} {ws xs : List (Option Pipe)}
    (spent : ws.length = s.params.bindPollBudget) (others : ∀ w ∈ ws, w ≠ some 0) (answers : s.env.fifoCur = ws ++ xs) :
    controlInData n (controlInBegin n buf s) =
      (false, (afterBind (some 0) .C .IN false (controlInBegin n buf s)).withEnv { s.env with fifoCur := xs }) := by
  have timesOut := bindFifo_timeout (s := controlInBegin n buf s) (f := .C) (d := .IN) others spent answers
  simp only [controlInData, timesOut]
  rfl

/-- Nothing has been sent when the stage does not open. -/
theorem sentBuffers_unopened (n : Nat) (buf : Addr) (xs : List (Option Pipe)) (s : State) :
    SentBuffers buf 0 s ((afterBind (some 0) .C .IN false (controlInBegin n buf s)).withEnv
      { s.env with fifoCur := xs }) where
  sent := by simp [controlInBegin_pipe_zero]
  calls := rfl
  table := rfl
  mem := rfl
  others p other := by
    rw [State.withEnv_pipe, afterBind_pipe]
    exact controlInBegin_pipe_ne n buf s other
  classSteps := rfl

/-- The stage after j full buffers. -/
theorem sentBuffers_part (n : Nat) (buf : Addr) (j w : Nat) (ys : List (Option Pipe)) (s : State) :
    SentBuffers buf j s (sentPart j w (opened n buf ys s)) where
  sent := by
    rw [sentPart_pipe_zero, opened_pipe_zero]
    rfl
  calls := rfl
  table := rfl
  mem := rfl
  others p other := (sentPart_pipe_ne j w _ other).trans (opened_pipe_ne n buf ys s other)
  classSteps := rfl

/-- A state that differs from such a one in FIFO C, the trace and the other answers only is such a one. -/
theorem SentBuffers.of_eq {buf : Addr} {j : Nat} {s t u : State} (h : SentBuffers buf j s t) (pipes : u.pipes = t.pipes)
    (calls : u.calls = t.calls) (table : u.cb = t.cb) (mem : u.mem = t.mem)
    (classSteps : u.env.classSteps = t.env.classSteps) : SentBuffers buf j s u := by
  have pipe (p : Pipe) : u.pipe p = t.pipe p := congrArg (·[p]) pipes
  refine ⟨?_, calls.trans h.calls, table.trans h.table, mem.trans h.mem, fun p other => ?_,
    classSteps.trans h.classSteps⟩
  · rw [pipe]
    exact h.sent
  · rw [pipe]
    exact h.others p other

theorem stageTrace_succ (k : Nat) : stageTrace (k + 1) = stageTrace k ++ [.fifoSel .C (some 0), .fifoIsel .IN] := by
  simp [stageTrace, List.replicate_succ']

/-- A data stage that opens and sends j full buffers, each bind and each wait answered at once: the loop goes on from a
state t after them. -/
theorem controlInData_part {n j : Nat} {buf : Addr} {s : State} {zs : List (Option Pipe)}
    (more : j = 0 ∨ j * s.params.mps0.bytes < n) (polls : 0 < s.params.bindPollBudget)
    (waits : 0 < s.params.ctrlInPollBudget) (answers : s.env.fifoCur = List.replicate (j + 1) (some 0) ++ zs)
    (ready : s.env.fifoReady.take (j - 1) = List.replicate (j - 1) true) :
    ∃ m t, controlInData n (controlInBegin n buf s) = controlInLoop (m + 1) (decide (j = 0)) t ∧ SentBuffers buf j s t
      ∧ t.params = s.params ∧ t.fifoC.owner = some 0 ∧ t.trace = s.trace ++ stageTrace j
      ∧ t.env = { s.env with fifoCur := zs, fifoReady := s.env.fifoReady.drop (j - 1) } := by
  generalize listed : List.replicate j (some 0) ++ zs = ys
  have opens : s.env.fifoCur = some 0 :: ys := by
    rw [answers, ← listed]
    rfl
  have bounded : j ≤ n := by
    rcases more with rfl | more
    · exact Nat.zero_le n
    · exact Nat.le_of_lt (Nat.lt_of_le_of_lt (Nat.le_mul_of_pos_right j (mps0_pos _)) more)
  have remaining : ((opened n buf ys s).pipe 0).xfer.remaining = n := by rw [opened_pipe_zero]; rfl
  have building : ((opened n buf ys s).pipe 0).building = [] := by rw [opened_pipe_zero]; rfl
  have binds : ys.take j = List.replicate j (some 0) := by simp [← listed]
  have left : ys.drop j = zs := by simp [← listed]
  have part := controlInLoop_part (fuel := n - j + 1) (first := true) remaining more.symm building rfl rfl polls waits
    rfl binds ready
  have fuel : j + (n - j + 1) = n + 1 := by omega
  rw [fuel, Bool.true_and] at part
  refine ⟨n - j, sentPart j (j - 1) (opened n buf ys s), (controlInData_opened polls opens).trans part,
    sentBuffers_part n buf j (j - 1) ys s, rfl, rfl, List.append_assoc .., ?_⟩
  rw [← left]
  rfl

/-- An access whose bind times out ends the loop, its wait answered at once. -/
theorem controlInLoop_bindTimeout {m : Nat} {first : Bool} {t : State} {ws xs : List (Option Pipe)} {rs : List Bool}
    (waits : 0 < t.params.ctrlInPollBudget) (ready : t.env.fifoReady = if first then rs else true :: rs)
    (spent : ws.length = t.params.bindPollBudget) (others : ∀ w ∈ ws, w ≠ some 0) (answers : t.env.fifoCur = ws ++ xs) :
    controlInLoop (m + 1) first t = (false, (afterBind (some 0) .C .IN false t).withEnv
      { t.env with fifoReady := rs, fifoCur := xs }) := by
  have wait : (if first then (true, t) else pollFifoReady t.params.ctrlInPollBudget t) =
      (true, t.withEnv { t.env with fifoReady := rs }) := by
    cases first with
    | true => rw [← show t.env.fifoReady = rs from ready]; rfl
    | false => exact pollFifoReady_first waits ready
  have timesOut := bindFifo_timeout (s := t.withEnv { t.env with fifoReady := rs }) (f := .C) (d := .IN) others spent
    answers
  have access := writeAccess_unbound (p := 0) timesOut
  simp only [controlInLoop, wait, if_true, access]
  rfl

/-- A wait that finds FIFO C not ready at each of its polls ends the loop. -/
theorem controlInLoop_waitTimeout {m : Nat} {t : State} {rs : List Bool}
    (notReady : t.env.fifoReady = List.replicate t.params.ctrlInPollBudget false ++ rs) :
    controlInLoop (m + 1) false t = (false, t.withEnv { t.env with fifoReady := rs }) := by
  simp [controlInLoop, pollFifoReady_exhausted notReady]

/-- Settles O19: the stage does not open; or it opens, j buffers are sent, and the next bind or wait times out. -/
theorem controlInBindTimeout : Obligations.ControlInBindTimeout := by
  intro len buf s xs running inside stage data null fits ⟨a, idle⟩
  have failed {j : Nat} {t : State} (fails : controlInData (min len.toNat s.setup.length.toNat)
        (controlInBegin (min len.toNat s.setup.length.toNat) buf s) = (false, t)) (buffers : SentBuffers buf j s t) :
      exec (.controlIn len buf) s = .next (setResult (.code .bindTimeout) (stageDropped t)) := by
    have issuesNothing : classIdle a t := by
      rw [classIdle, buffers.classSteps]
      exact idle
    have ends := controlIn_failed ((controlLegal_iff s).mpr ⟨running.1, stage⟩) data null fits fails issuesNothing
    exact exec_done running.2 ((cmdControlIn_inside running inside len buf).trans (congrArg returnRes ends))
  generalize min len.toNat s.setup.length.toNat = n at failed ⊢
  refine ⟨fun ws spent others => ⟨fun answers => ?unopened, fun j rs more polls waits answers ready => ?unbound⟩,
    fun j rs later more polls waits answers ready => ?notReady⟩
  case unopened =>
    have buffers := sentBuffers_unopened n buf xs s
    exact ⟨_, failed (controlInData_timeout spent others answers) buffers, buffers.stageFailed, rfl,
      by simp [setResult, stageDropped, afterBind, controlInBegin, setDevState, State.withEnv, State.modFifo], rfl, rfl⟩
  case unbound =>
    obtain ⟨m, t, loop, sent, params, -, trace, env⟩ := controlInData_part (n := n) (buf := buf) more polls waits
      (answers.trans (List.append_assoc ..)) (by simp [ready, List.take_append])
    have waiting : t.env.fifoReady = if decide (j = 0) then rs else true :: rs := by
      rw [env]
      cases j with
      | zero => exact ready
      | succ j => simp [ready, List.drop_append]
    have stuck := controlInLoop_bindTimeout (m := m) (by rwa [params]) waiting (by rwa [params]) others (by rw [env])
    have buffers := sent.of_eq (u := (afterBind (some 0) .C .IN false t).withEnv
      { t.env with fifoReady := rs, fifoCur := xs }) rfl rfl rfl rfl rfl
    refine ⟨_, failed (loop.trans stuck) buffers, buffers.stageFailed, rfl, ?_, rfl, rfl⟩
    rw [stageTrace_succ, ← List.append_assoc, ← trace]
    rfl
  case notReady =>
    obtain ⟨m, t, loop, sent, params, owner, trace, env⟩ := controlInData_part (n := n) (buf := buf) (.inr more) polls
      waits answers (by simp [ready, List.append_assoc])
    have notReady : t.env.fifoReady = List.replicate t.params.ctrlInPollBudget false ++ rs := by
      simp [env, params, ready, List.append_assoc]
    have stuck := controlInLoop_waitTimeout (m := m) notReady
    have buffers := sent.of_eq (u := t.withEnv { t.env with fifoReady := rs }) rfl rfl rfl rfl rfl
    rw [decide_eq_false (Nat.ne_of_gt later)] at loop
    refine ⟨_, failed (loop.trans stuck) buffers, buffers.stageFailed, owner, ?_, congrArg Env.fifoCur env, rfl⟩
    rw [← trace]
    rfl

end Sys2Proof.Machine
end

section
/-! PROOFS. Setup requests that the HAL takes or passes on (44_device_hal.md R321 to R324): SET_CONFIGURATION, and a
request whose class layer arms a control-OUT data stage. -/

namespace Sys2Proof.Machine

/-- A setup row whose packet is resolved in `t` without the class layer. -/
theorem exec_resolved {i : Instr} {S : BitVec 64} {s t : State} (takes : takesSetup s) (packet : packetOf i = some S)
    (resolves : resolve (decodePacket S) ((arrived S s).withCtx .isr) = .done true t) :
    exec i s = .next (t.withCtx s.ctx) := by
  rw [exec_setup takes packet, resolves]
  rfl

/-- A setup row whose packet is passed to the class layer, which leaves it in `t`. -/
theorem exec_delegated {i : Instr} {S : BitVec 64} {s t : State} (takes : takesSetup s) (packet : packetOf i = some S)
    (unresolved : resolve (decodePacket S) ((arrived S s).withCtx .isr) = .done false ((arrived S s).withCtx .isr))
    (delegates : delegate S ((arrived S s).withCtx .isr) = .done () t) : exec i s = .next (t.withCtx s.ctx) := by
  rw [exec_setup takes packet, unresolved, Res.bind_done, if_neg Bool.false_ne_true, delegates]
  rfl

/-! ### SET_CONFIGURATION (44_device_hal.md R323) -/

theorem resolve_setConfiguration (v i l : BitVec 16) (s : State) :
    resolve (decodePacket (setupWord 0x00 0x09 v i l)) s =
      ruleSetConfiguration (decodePacket (setupWord 0x00 0x09 v i l)) s := by
  have row : rowOf (decodePacket (setupWord 0x00 0x09 v i l)).raw = .setConfiguration :=
    rowOf_fixed 0x00 0x09 v i l .setConfiguration (by decide)
  rw [resolve, row]

theorem ruleSetConfiguration_idle {q : SetupPacket} {s : State} {ans : SetupAnswer} (initialized : s.initialized = true)
    (stage : s.devState = .controlSetup) (idle : s.firstConnectFired = false → classIdle ans s) :
    ruleSetConfiguration q s = .done true (signalled (acked { s with configValue := q.value.extractLsb' 0 8 })) := by
  have signals := firstConnect_idle (s := acked { s with configValue := q.value.extractLsb' 0 8 }) (ans := ans) idle
  rw [ruleSetConfiguration, controlAck_acked (t := { s with configValue := q.value.extractLsb' 0 8 }) initialized stage,
    signals]
  rfl

/-- Settles O52: the value, the acknowledgement, and the connection signalled as `firstConnect_idle` says. -/
theorem setConfigurationRequest : Obligations.SetConfigurationRequest := by
  intro val idx ln s ans takes idle s'
  have value : (decodePacket (setupWord 0x00 0x09 val idx ln)).value = val := wValue_setupWord ..
  have resolves := (resolve_setConfiguration val idx ln _).trans
    (ruleSetConfiguration_idle (s := (arrived (setupWord 0x00 0x09 val idx ln) s).withCtx .isr) takes.1.1 rfl idle)
  rw [value] at resolves
  refine (exec_resolved takes rfl resolves).trans (congrArg Host.Outcome.next ?_)
  have fired : (acked { (arrived (setupWord 0x00 0x09 val idx ln) s).withCtx .isr with
      configValue := val.extractLsb' 0 8 }).firstConnectFired = s.firstConnectFired := rfl
  rw [signalled, fired]
  split <;> rfl

/-! ### A request passed to the class layer (44_device_hal.md R324, 45_setup_decoder.md R362) -/

theorem sendBlob_none (s : State) : sendBlob none s = .done false s := rfl

/-- A blob served only where a condition holds. -/
theorem sendBlob_ite (c : Prop) [Decidable c] (b : Option Blob) (s : State) :
    sendBlob (if c then b else none) s = if c then sendBlob b s else .done false s := by
  split <;> rfl

section
variable (S : BitVec 64) (s : State)

theorem ruleGetDescriptorDevice_eq : ruleGetDescriptorDevice (decodePacket S) s =
    sendBlob (blobAsked (.srGetDescriptorDevice (descIndex S) (wIndex S) (wLength S)) s) s := by
  cases set : s.desc <;> simp [ruleGetDescriptorDevice, blobOf, blobAsked, set]

theorem ruleGetDescriptorConfiguration_eq : ruleGetDescriptorConfiguration (decodePacket S) s =
    sendBlob (blobAsked (.srGetDescriptorConfiguration (descIndex S) (wIndex S) (wLength S)) s) s := by
  have asked : blobAsked (.srGetDescriptorConfiguration (descIndex S) (wIndex S) (wLength S)) s =
      if descIndex S = 0 then blobOf DescSet.config s else none := by
    cases set : s.desc <;> simp [blobOf, blobAsked, set]
  rw [asked, sendBlob_ite]
  rfl

theorem ruleGetDescriptorString_eq : ruleGetDescriptorString (decodePacket S) s =
    sendBlob (blobAsked (.srGetDescriptorString (descIndex S) (wIndex S) (wLength S)) s) s := by
  have raw : (decodePacket S).raw = S := rfl
  have index : (decodePacket S).index = wIndex S := rfl
  have zero : (descIndex S).toNat = 0 ↔ descIndex S = 0 := by rw [BitVec.toNat_eq]; rfl
  have asked : blobAsked (.srGetDescriptorString (descIndex S) (wIndex S) (wLength S)) s =
      if descIndex S = 0 then blobOf (fun d => d.strings[0]?) s
      else if s.desc.map DescSet.langId = some (wIndex S) then blobOf (fun d => d.strings[(descIndex S).toNat]?) s
      else none := by
    cases set : s.desc <;> simp [blobOf, blobAsked, set, eq_comm]
  rw [asked, ruleGetDescriptorString, raw, index]
  simp only [zero, ne_eq, ite_not]
  split
  · rfl
  · rw [sendBlob_ite]

theorem ruleGetDescriptorDeviceQualifier_eq : ruleGetDescriptorDeviceQualifier (decodePacket S) s =
    sendBlob (blobAsked (.srGetDescriptorDeviceQualifier (descIndex S) (wIndex S) (wLength S)) s) s := by
  cases set : s.desc <;> simp [ruleGetDescriptorDeviceQualifier, blobOf, blobAsked, set]

theorem ruleGetDescriptorOtherSpeed_eq : ruleGetDescriptorOtherSpeed (decodePacket S) s =
    sendBlob (blobAsked (.srGetDescriptorOtherSpeed (descIndex S) (wIndex S) (wLength S)) s) s := by
  have asked : blobAsked (.srGetDescriptorOtherSpeed (descIndex S) (wIndex S) (wLength S)) s =
      if descIndex S = 0 then blobOf DescSet.otherSpeed s else none := by
    cases set : s.desc <;> simp [blobOf, blobAsked, set]
  rw [asked, sendBlob_ite]
  rfl

end

/-- The setup core resolves no request that it delegates. -/
theorem resolve_delegated {S : BitVec 64} {s : State} (passes : delegated (decodeSetup S) s = true) :
    resolve (decodePacket S) s = .done false s := by
  have absent {b : Option Blob} (missing : b.isNone = true) : sendBlob b s = .done false s := by
    rw [Option.isNone_iff_eq_none.mp missing, sendBlob_none]
  have raw : (decodePacket S).raw = S := rfl
  unfold decodeSetup at passes
  rw [resolve, raw]
  cases row : rowOf S <;> rw [row] at passes
  case getDescriptorDevice => exact (ruleGetDescriptorDevice_eq S s).trans (absent passes)
  case getDescriptorConfiguration => exact (ruleGetDescriptorConfiguration_eq S s).trans (absent passes)
  case getDescriptorString => exact (ruleGetDescriptorString_eq S s).trans (absent passes)
  case getDescriptorDeviceQualifier => exact (ruleGetDescriptorDeviceQualifier_eq S s).trans (absent passes)
  case getDescriptorOtherSpeed => exact (ruleGetDescriptorOtherSpeed_eq S s).trans (absent passes)
  case getStatusEndpoint =>
    have unbound : pipeOfEp (decodePacket S).index s = none := Option.isNone_iff_eq_none.mp passes
    simp only [ruleGetStatusEndpoint, unbound]
  case clearFeatureEpHalt =>
    have unbound : pipeOfEp (decodePacket S).index s = none := Option.isNone_iff_eq_none.mp passes
    simp only [ruleClearFeatureEpHalt, unbound]
  case setFeatureEpHalt =>
    have unbound : pipeOfEp (decodePacket S).index s = none := Option.isNone_iff_eq_none.mp passes
    simp only [ruleSetFeatureEpHalt, unbound]
  case standardOther => rfl
  case classRequest => rfl
  case vendor => rfl
  case reservedType => rfl
  all_goals cases passes

/-- What is delegated depends on the descriptors and on the data pipes' configurations, which an arrival keeps. -/
theorem delegated_arrived (i : Instr) (S : BitVec 64) (c : Context) (s : State) :
    delegated i ((arrived S s).withCtx c) = delegated i s := by
  have lookup (index : BitVec 16) := pipeOfEp_arrived S index c s
  have blob : blobAsked i ((arrived S s).withCtx c) = blobAsked i s := rfl
  cases i <;> simp only [delegated, lookup, blob]

/-- `call cb(args)` with a class layer whose commands and answer are lined up. -/
theorem invoke_lined {issue : Cmd → State → Res Unit} {c : Call} {k : ClassStep} {s : State}
    (lined : s.env.classSteps.head? = some k) :
    invoke issue c s = (runCmds issue k.cmds (called c s)).bind fun _ t => .done k.answer t := by
  obtain ⟨ks, steps⟩ := List.head?_eq_some_iff.mp lined
  simp [invoke, drawClassStep, logCall, steps, called]

section
variable {s : State} {len : Len} {buf : Addr} (legal : controlLegal s = true) (whole : len.toNat = s.setup.length.toNat)
  (sends : len ≠ 0) (fits : buf ≠ 0 → buf.toNat + len.toNat ≤ 2 ^ 32)
include legal whole sends fits

/-- A `controlOut` issued inside `onSetup` arms the data stage (44_device_hal.md R339). -/
theorem issue_controlOut (inside : s.ctx = .onSetup) (k : Option CbId) : issue (.controlOut len buf k) s =
    .done () { s.modPipe 0 (armed len buf k) with
      devState := .controlOut
      trace := s.trace ++ [.brdyEnb 0 true, .pid 0 .nak, .pid 0 .buf]
      result := some (.code .ok) } := by
  have command : issue (.controlOut len buf k) s = returnCode (controlOut len buf k s) :=
    insideOnSetup_onSetup (f := fun s => returnCode (controlOut len buf k s)) ((controlLegal_iff s).mp legal).1 inside
  rw [command, controlOut_armed legal whole sends fits]
  rfl

/-- The class layer arms the data stage in answer to a packet. -/
theorem callOnSetup_arms {S : BitVec 64} {k : Option CbId}
    (lined : s.env.classSteps.head? = some ⟨.handled, [.controlOut len buf k]⟩) :
    callOnSetup S s = .done .handled { (called (registeredCall .onSetup (.raw S) s) s).modPipe 0 (armed len buf k) with
      devState := .controlOut
      trace := s.trace ++ [.brdyEnb 0 true, .pid 0 .nak, .pid 0 .buf]
      result := some (.code .ok) } := by
  have arms := issue_controlOut (s := called (registeredCall .onSetup (.raw S) s) { s with ctx := .onSetup }) legal
    whole sends fits rfl k
  rw [callOnSetup, invoke_lined (s := { s with ctx := .onSetup }) lined, runCmds, arms]
  rfl

end

/-- The instruction of a setup row is the one its packet decodes to. -/
theorem decodeSetup_packetOf {i : Instr} {S : BitVec 64} (wf : WellFormed i) (packet : packetOf i = some S) :
    decodeSetup S = i := by
  have encoded : encode i = .setup S := by
    unfold packetOf at packet
    split at packet
    · next word => rw [word, Option.some.inj packet]
    · cases packet
    · cases packet
  have decoded := decodeEncode i wf
  rw [encoded] at decoded
  exact Except.ok.inj decoded

/-- Settles O54: the class layer's `controlOut` is legal in the state the packet arrives in. -/
theorem classArmsDataStage : Obligations.ClassArmsDataStage := by
  intro i S s buf k takes wf packet passes data fits lined
  have length : ((wLength S).setWidth 32).toNat = (wLength S).toNat := by
    rw [BitVec.toNat_setWidth, Nat.mod_eq_of_lt (by omega)]
  have sends : (wLength S).setWidth 32 ≠ 0 := fun zero => data (BitVec.eq_of_toNat_eq (by rw [← length, zero]; rfl))
  have unresolved : resolve (decodePacket S) ((arrived S s).withCtx .isr) = .done false ((arrived S s).withCtx .isr) :=
    resolve_delegated (by rwa [decodeSetup_packetOf wf packet, delegated_arrived])
  have legal : controlLegal ((arrived S s).withCtx .isr) = true := (controlLegal_iff _).mpr ⟨takes.1.1, rfl⟩
  have answers := callOnSetup_arms (S := S) legal length sends (by rwa [length]) lined
  have delegates := congrArg (Res.bind · fun a t =>
    if a = .unknown ∧ t.devState = .controlSetup then Res.done () (stallClass .control t).2 else .done () t) answers
  have pipe := State.pipe_modPipe_self (arrived S s) 0 (armed ((wLength S).setWidth 32) buf k)
  refine ⟨_, exec_delegated takes packet unresolved delegates, rfl, ?_, ?_, ?_, ?_, ?_, rfl, rfl, rfl⟩
  · exact congrArg (·.xfer.active) pipe
  · exact congrArg (·.xfer.buf) pipe
  · exact (congrArg (·.xfer.total) pipe).trans length
  · exact congrArg (·.brdyEnb) pipe
  · exact congrArg (·.pid) pipe

end Sys2Proof.Machine
end

section
/-! PROOFS. The setup core (45_setup_decoder.md): the endpoint lookup, the requests it acknowledges, the requests it
answers with a control-IN data stage, and those it passes to the class layer. -/

namespace Sys2Proof.Machine

/-! ### The endpoint lookup (45_setup_decoder.md R365) -/

theorem mem_dataPipes_iff : ∀ p : Pipe, p ∈ dataPipes ↔ p ≠ 0 := by decide

/-- A pipe has a valid configuration of an endpoint: its number and direction. -/
def bindsEndpoint (num : Nat) (d : Dir) (x : PipeState) : Prop :=
  x.cfgValid = true ∧ x.cfg.epNum = num ∧ x.cfg.dir = d

/-- Under the invariant at most one data pipe binds an endpoint. -/
theorem State.Inv.bindsEndpoint_unique {s : State} (inv : s.Inv) {num : Nat} {d : Dir} {p q : Pipe} (data : p ≠ 0)
    (data' : q ≠ 0) (binds : bindsEndpoint num d (s.pipe p)) (binds' : bindsEndpoint num d (s.pipe q)) : p = q := by
  obtain ⟨-, distinct⟩ := inv.config
  obtain ⟨valid, number, dir⟩ := binds
  obtain ⟨valid', number', dir'⟩ := binds'
  simp only [endpointsDistinct, List.all_eq_true, Bool.or_eq_true, beq_iff_eq] at distinct
  have same_or := distinct p ((mem_dataPipes_iff p).mpr data) q ((mem_dataPipes_iff q).mpr data')
  refine same_or.resolve_right fun differ => ?_
  simp [cfgInForce, valid, valid', sameEndpoint, number, number', dir, dir'] at differ

theorem epDir_eq (idx : BitVec 16) : epDir idx = if idx.extractLsb' 7 1 = 1 then .IN else .OUT := by
  have bit : idx.extractLsb' 7 1 = BitVec.ofBool (idx.getLsbD 7) := by
    refine BitVec.eq_of_getLsbD_eq fun j low => ?_
    obtain rfl : j = 0 := by omega
    simp
  rw [epDir, bit]
  cases idx.getLsbD 7 <;> rfl

/-- The lookup of a data endpoint: the pipe found binds it, and one that binds it is the one found. -/
theorem pipeOfEp_eq_some_iff {idx : BitVec 16} {s : State} (inv : s.Inv) (data : epNumber idx ≠ 0) (p : Pipe) :
    pipeOfEp idx s = some p ↔ p ≠ 0 ∧ bindsEndpoint (epNumber idx).toNat (epDir idx) (s.pipe p) := by
  have matches_iff (q : Pipe) : ((s.pipe q).cfgValid && (s.pipe q).cfg.epNum == (epNumber idx).toNat
      && (s.pipe q).cfg.dir == epDir idx) = true ↔ bindsEndpoint (epNumber idx).toNat (epDir idx) (s.pipe q) := by
    simp [bindsEndpoint, and_assoc]
  have found {q : Pipe} (finds : pipeOfEp idx s = some q) :
      q ≠ 0 ∧ bindsEndpoint (epNumber idx).toNat (epDir idx) (s.pipe q) := by
    rw [pipeOfEp, if_neg data] at finds
    have hit := List.find?_some finds
    exact ⟨(mem_dataPipes_iff q).mp (List.mem_of_find?_eq_some finds), (matches_iff q).mp hit⟩
  refine ⟨found, fun ⟨nonzero, binds⟩ => ?_⟩
  cases finds : pipeOfEp idx s with
  | some q =>
    obtain ⟨nonzero', binds'⟩ := found finds
    rw [inv.bindsEndpoint_unique nonzero nonzero' binds binds']
  | none =>
    rw [pipeOfEp, if_neg data] at finds
    exact absurd ((matches_iff p).mpr binds) (List.find?_eq_none.mp finds p ((mem_dataPipes_iff p).mpr nonzero))

/-- Settles O47: number 0 by definition, any other by the distinctness of the configurations in force. -/
theorem endpointLookup : Obligations.EndpointLookup := by
  intro idx s inv num d
  have zero_iff : num = 0 ↔ epNumber idx = 0 := by
    rw [BitVec.toNat_eq]
    rfl
  refine ⟨fun zero => if_pos (zero_iff.mp zero), fun nonzero p => ?_⟩
  have lookup := pipeOfEp_eq_some_iff inv (fun zero => nonzero (zero_iff.mpr zero)) p
  rwa [epDir_eq] at lookup

/-! ### Acknowledged requests (45_setup_decoder.md R363) -/

theorem arrived_initialized {s : State} (takes : takesSetup s) (S : BitVec 64) : (arrived S s).initialized = true :=
  takes.1.1

/-- A setup row that is acknowledged, in the state `u` its rule has made of the arrival. -/
theorem exec_acknowledged {i : Instr} {S : BitVec 64} {s u : State} (takes : takesSetup s)
    (packet : packetOf i = some S)
    (acknowledges : resolve (decodePacket S) ((arrived S s).withCtx .isr) = acknowledge (u.withCtx .isr))
    (initialized : u.initialized = true) (stage : u.devState = .controlSetup) (ctx : u.ctx = s.ctx) :
    exec i s = .next (acked u) := by
  have ends : acknowledge (u.withCtx .isr) = .done true ((acked u).withCtx .isr) := by
    rw [acknowledge, controlAck_acked (t := u.withCtx .isr) initialized stage, acked_withCtx]
  refine (exec_resolved takes packet (acknowledges.trans ends)).trans (congrArg Host.Outcome.next ?_)
  rw [← ctx]
  rfl

/-- A rule that acknowledges in the state of the arrival. -/
theorem exec_acknowledged_arrived {i : Instr} {S : BitVec 64} {s : State} (takes : takesSetup s)
    (packet : packetOf i = some S)
    (acknowledges : resolve (decodePacket S) ((arrived S s).withCtx .isr) = acknowledge ((arrived S s).withCtx .isr)) :
    exec i s = .next (acked (arrived S s)) :=
  exec_acknowledged takes packet acknowledges (arrived_initialized takes S) rfl rfl

section
variable (v i l : BitVec 16) (s : State)

theorem resolve_setAddress : resolve (decodePacket (setupWord 0x00 0x05 v i l)) s = acknowledge s := by
  have row : rowOf (decodePacket (setupWord 0x00 0x05 v i l)).raw = .setAddress :=
    rowOf_fixed 0x00 0x05 v i l .setAddress (by decide)
  rw [resolve, row]
  rfl

theorem resolve_setInterface : resolve (decodePacket (setupWord 0x01 0x0B v i l)) s = acknowledge s := by
  have row : rowOf (decodePacket (setupWord 0x01 0x0B v i l)).raw = .setInterface :=
    rowOf_fixed 0x01 0x0B v i l .setInterface (by decide)
  rw [resolve, row]
  rfl

end

section
variable {i l : BitVec 16} {s : State} {p : Pipe} (binds : pipeOfEp i s = some p)
include binds

theorem resolve_clearHalt : resolve (decodePacket (setupWord 0x02 0x01 0 i l)) s =
    acknowledge (if p ≠ 0 ∧ s.params.autoClearHalt = true then autoClear p s else s) := by
  have row : rowOf (decodePacket (setupWord 0x02 0x01 0 i l)).raw = .clearFeatureEpHalt :=
    rowOf_halt 0x01 i l (.inl rfl)
  have index : (decodePacket (setupWord 0x02 0x01 0 i l)).index = i := wIndex_setupWord ..
  rw [resolve, row]
  simp only [ruleClearFeatureEpHalt, index, binds]

theorem resolve_setHalt : resolve (decodePacket (setupWord 0x02 0x03 0 i l)) s =
    acknowledge (if p ≠ 0 then setPidStall p s else s) := by
  have row : rowOf (decodePacket (setupWord 0x02 0x03 0 i l)).raw = .setFeatureEpHalt :=
    rowOf_halt 0x03 i l (.inr rfl)
  have index : (decodePacket (setupWord 0x02 0x03 0 i l)).index = i := wIndex_setupWord ..
  rw [resolve, row]
  simp only [ruleSetFeatureEpHalt, index, binds]

end

/-- Settles O48: the four rules acknowledge in the state of the arrival. -/
theorem acknowledgedRequests : Obligations.AcknowledgedRequests := by
  intro val idx ln s takes
  refine ⟨exec_acknowledged_arrived takes rfl (resolve_setAddress val idx ln _),
    exec_acknowledged_arrived takes rfl (resolve_setInterface val idx ln _), fun zero => ?_⟩
  have control (t : State) : pipeOfEp idx t = some 0 := if_pos zero
  exact ⟨exec_acknowledged_arrived takes rfl (resolve_clearHalt (control _)),
    exec_acknowledged_arrived takes rfl (resolve_setHalt (control _))⟩

/-- A pipe whose halt has been cleared: a STALL taken back, the toggle cleared, a latched STALL dropped. -/
def haltCleared (x : PipeState) : PipeState :=
  { x with
    pid := if x.pid = .stall then .buf else x.pid
    toggle := .data0
    pstate := if x.pstate = .stall then .idle else x.pstate }

/-- The auto-clear of a halt, as a change of one pipe and entries of the trace (45_setup_decoder.md R374). -/
theorem autoClear_eq (p : Pipe) (s : State) : autoClear p s = (s.modPipe p haltCleared).logs
    ((if (s.pipe p).pid = .stall then [.pid p .nak, .pid p .buf] else []) ++ [.toggle p .data0]) := by
  have resumes : (if (s.pipe p).pid = .stall then setPidBuf p s else s) =
      (s.modPipe p fun x => { x with pid := if x.pid = .stall then .buf else x.pid }).logs
        (if (s.pipe p).pid = .stall then [.pid p .nak, .pid p .buf] else []) := by
    split
    · next stalled =>
      rw [setPidBuf_eq]
      exact congrArg (State.logs · _) (State.modPipe_congr s p (by simp [stalled]))
    · next other =>
      rw [State.modPipe_id s p (by simp [other])]
      simp [State.logs]
  simp only [autoClear, resumes, clearToggle, State.logs_modPipe, State.modPipe_modPipe, State.logs_logs,
    State.pipe_logs, State.pipe_modPipe_self, setPState]
  split
  · next latched => exact congrArg (State.logs · _) (State.modPipe_congr s p (by simp [haltCleared, latched]))
  · next other => exact congrArg (State.logs · _) (State.modPipe_congr s p (by simp [haltCleared, other]))

/-- Settles O49: the rules' writes to the data pipe, then the acknowledgement. -/
theorem haltRequests : Obligations.HaltRequests := by
  intro idx ln s p takes binds data
  have lookup (S : BitVec 64) : pipeOfEp idx ((arrived S s).withCtx .isr) = some p :=
    (pipeOfEp_arrived S idx .isr s).trans binds
  refine ⟨?set, fun off => ?keeps, fun on => ?clears⟩
  case set =>
    have initialized := arrived_initialized takes (setupWord 0x02 0x03 0 idx ln)
    refine exec_acknowledged takes rfl ((resolve_setHalt (lookup _)).trans ?_) initialized rfl rfl
    rw [if_pos data]
    rfl
  case keeps =>
    have kept : ¬ (p ≠ 0 ∧ s.params.autoClearHalt = true) := by simp [off]
    refine exec_acknowledged_arrived takes rfl ((resolve_clearHalt (lookup _)).trans ?_)
    exact congrArg acknowledge (if_neg kept)
  case clears =>
    have initialized := arrived_initialized takes (setupWord 0x02 0x01 0 idx ln)
    refine exec_acknowledged takes rfl ((resolve_clearHalt (lookup _)).trans ?_) initialized rfl rfl
    rw [if_pos ⟨data, on⟩, autoClear_eq, State.withCtx_pipe, arrived_pipe_ne _ s data, State.logs,
      ← List.append_assoc]
    rfl

/-! ### Answered requests (45_setup_decoder.md R363, R364) -/

/-- An answer that `controlIn` refuses with STATE changes nothing. -/
theorem respond_refused {len : Len} {buf : Addr} {s : State} (data : s.setup.length ≠ 0)
    (refused : (buf = 0 ∧ min len.toNat s.setup.length.toNat ≠ 0) ∨ bufferWraps buf len = true) :
    respond len buf s = .done true s := by
  rw [respond, controlIn_refused data refused]
  rfl

section
variable {i : Instr} {S : BitVec 64} {s : State} {len : Len} {buf : Addr} {m : Memory} (takes : takesSetup s)
  (packet : packetOf i = some S)
  (responds : resolve (decodePacket S) ((arrived S s).withCtx .isr) =
    respond len buf (((arrived S s).withMem m).withCtx .isr))
include takes packet responds

/-- A setup row that is answered, with no data stage. -/
theorem exec_answered_noData (noStage : wLength S = 0) : exec i s = .next (acked ((arrived S s).withMem m)) :=
  exec_resolved takes packet (responds.trans ((respond_arrived takes _ m rfl).1 noStage))

/-- A setup row that is answered by a data stage, each bind and each wait answered at once. -/
theorem exec_answered_sent {n k : Nat} (count : n = min len.toNat (wLength S).toNat)
    (accesses : k = accessesFor n s.params.mps0.bytes) (data : wLength S ≠ 0) (null : buf = 0 → n = 0)
    (fits : buf ≠ 0 → buf.toNat + len.toNat ≤ 2 ^ 32) (answers : answersIn k s) :
    exec i s = .next (sentIn buf n k ((arrived S s).withMem m)) := by
  subst accesses count
  exact exec_resolved takes packet (responds.trans ((respond_arrived takes _ m rfl).2 data null fits answers))

/-- A setup row whose answer is refused. -/
theorem exec_answered_refused (data : wLength S ≠ 0)
    (refused : (buf = 0 ∧ min len.toNat (wLength S).toNat ≠ 0) ∨ bufferWraps buf len = true) :
    exec i s = .next ((arrived S s).withMem m) :=
  exec_resolved takes packet (responds.trans (respond_refused data refused))

end

/-- What a data stage after an arrival gives to the controller. -/
theorem sentIn_arrived_sent (buf : Addr) (n k : Nat) (S : BitVec 64) (s : State) (m : Memory) :
    ((sentIn buf n k ((arrived S s).withMem m)).pipe 0).sent =
      (s.pipe 0).sent ++ packetsOf s.params.mps0.bytes (m.readBytes buf.toNat n) := by
  have sent : (((arrived S s).withMem m).pipe 0).sent = (s.pipe 0).sent := congrArg (·.sent) (arrived_pipe_zero S s)
  rw [← sent]
  have params : (arrived S s).params = s.params := rfl
  simp [sentIn, State.modPipe, State.pipe, params]

/-! ### Answers from the response area (45_setup_decoder.md R370 to R372, R385, R386) -/

/-- The status of an endpoint in wire order, pipe 0 not stalled. -/
theorem wireOrder_endpointStatus {s : State} (running : (s.pipe 0).pid ≠ .stall) (p : Pipe) :
    wireOrder (endpointStatus p s) = if p ≠ 0 ∧ (s.pipe p).pid = .stall then [0x01, 0x00] else [0x00, 0x00] := by
  by_cases halted : (s.pipe p).pid = .stall
  · have data : p ≠ 0 := by
      rintro rfl
      exact running halted
    rw [endpointStatus, if_pos halted, if_pos ⟨data, halted⟩]
    decide
  · rw [endpointStatus, if_neg halted, if_neg fun both => halted both.2]
    decide

/-- The setup core answers a request with the bytes the statement names, pipe 0 not stalled. -/
theorem resolve_response {S : BitVec 64} {s : State} {bytes : List Byte} (running : (s.pipe 0).pid ≠ .stall)
    (answers : responseOf (decodeSetup S) s = some bytes) : resolve (decodePacket S) s = respondBytes bytes s := by
  have raw : (decodePacket S).raw = S := rfl
  unfold decodeSetup at answers
  rw [resolve, raw]
  cases row : rowOf S <;> rw [row] at answers
  case getStatusDevice | getStatusInterface | getConfiguration | getInterface =>
    cases answers
    rfl
  case getStatusEndpoint =>
    obtain ⟨p, binds, status⟩ := Option.map_eq_some_iff.mp answers
    have lookup : pipeOfEp (decodePacket S).index s = some p := binds
    simp only [ruleGetStatusEndpoint, lookup, wireOrder_endpointStatus running, status]
  all_goals cases answers

/-- A request answered from the response area is well formed, and its answer has one byte or two. -/
theorem responseOf_some {i : Instr} {s : State} {bytes : List Byte} (answers : responseOf i s = some bytes) :
    WellFormed i ∧ bytes.length ≤ 2 := by
  cases i
  case srGetStatusEndpoint =>
    obtain ⟨p, -, status⟩ := Option.map_eq_some_iff.mp answers
    refine ⟨rfl, ?_⟩
    rw [← status]
    split <;> decide
  case srGetStatusDevice | srGetStatusInterface | srGetConfiguration | srGetInterface =>
    cases answers
    exact ⟨rfl, by simp⟩
  all_goals cases answers

/-- What is answered depends on the configured value, and on the data pipes, which an arrival leaves alone. -/
theorem responseOf_arrived (i : Instr) (S : BitVec 64) (c : Context) (s : State) :
    responseOf i ((arrived S s).withCtx c) = responseOf i s := by
  have status (p : Pipe) : (p ≠ 0 ∧ (((arrived S s).withCtx c).pipe p).pid = .stall) ↔
      p ≠ 0 ∧ (s.pipe p).pid = .stall :=
    and_congr_right fun data => by rw [State.withCtx_pipe, arrived_pipe_ne S s data]
  cases i
  case srGetStatusEndpoint v idx l => simp only [responseOf, pipeOfEp_arrived, status]
  all_goals rfl

/-- The first bytes of a run of writes are read back. -/
theorem Memory.readBytes_writeBytes_take {m : Memory} (w : m.wf = true) {a n : Nat} {bs : List Byte}
    (fits : a + bs.length ≤ 2 ^ 32) (within : n ≤ bs.length) : (m.writeBytes a bs).readBytes a n = bs.take n := by
  have whole := Memory.readBytes_writeBytes w fits
  rw [← Nat.add_sub_of_le within, Memory.readBytes_add] at whole
  have first := congrArg (List.take n) whole
  rwa [List.take_left' (Memory.readBytes_length ..)] at first

/-- Settles O50: the answer is in the response area before the data stage reads it, and fits one packet. -/
theorem answeredRequests : Obligations.AnsweredRequests := by
  intro i S s bytes takes packet answers nonnull fits canonical s' n
  obtain ⟨wf, short⟩ := responseOf_some answers
  have running : (((arrived S s).withCtx .isr).pipe 0).pid ≠ .stall := by
    rw [State.withCtx_pipe, arrived_pipe_zero]
    nofun
  have responds : resolve (decodePacket S) ((arrived S s).withCtx .isr) =
      respond (BitVec.ofNat 32 bytes.length) s.params.respBase
        (((arrived S s).withMem (s.mem.writeBytes s.params.respBase.toNat bytes)).withCtx .isr) :=
    resolve_response running (by rwa [decodeSetup_packetOf wf packet, responseOf_arrived])
  have length : (BitVec.ofNat 32 bytes.length).toNat = bytes.length := by
    rw [BitVec.toNat_ofNat, Nat.mod_eq_of_lt (by omega)]
  have onePacket : n ≤ s.params.mps0.bytes := by
    have : 2 ≤ s.params.mps0.bytes := by cases s.params.mps0 <;> decide
    omega
  refine ⟨exec_answered_noData takes packet responds, fun data confirmed => ⟨?sent, ?packet⟩⟩
  case sent =>
    exact exec_answered_sent takes packet responds (by rw [length]) (accessesFor_one (mps0_pos _) onePacket).symm data
      (fun null => absurd null nonnull) (fun _ => by omega) confirmed
  case packet =>
    refine (sentIn_arrived_sent _ n 1 S s _).trans ?_
    rw [Memory.readBytes_writeBytes_take canonical (by omega) (Nat.min_le_left ..),
      packetsOf_short (by rw [List.length_take]; omega)]

/-! ### Descriptors (45_setup_decoder.md R378 to R384) -/

/-- The setup core sends the blob that the statement names. -/
theorem resolve_descriptor {S : BitVec 64} {s : State} {b : Blob} (asked : blobAsked (decodeSetup S) s = some b) :
    resolve (decodePacket S) s = respond b.len b.addr s := by
  have served {o : Option Blob} (found : o = some b) : sendBlob o s = respond b.len b.addr s := by rw [found, sendBlob]
  have raw : (decodePacket S).raw = S := rfl
  unfold decodeSetup at asked
  rw [resolve, raw]
  cases row : rowOf S <;> rw [row] at asked
  case getDescriptorDevice => exact (ruleGetDescriptorDevice_eq S s).trans (served asked)
  case getDescriptorConfiguration => exact (ruleGetDescriptorConfiguration_eq S s).trans (served asked)
  case getDescriptorString => exact (ruleGetDescriptorString_eq S s).trans (served asked)
  case getDescriptorDeviceQualifier => exact (ruleGetDescriptorDeviceQualifier_eq S s).trans (served asked)
  case getDescriptorOtherSpeed => exact (ruleGetDescriptorOtherSpeed_eq S s).trans (served asked)
  all_goals cases asked

/-- A request that asks for a blob is well formed. -/
theorem wellFormed_of_blobAsked {i : Instr} {s : State} {b : Blob} (asked : blobAsked i s = some b) : WellFormed i := by
  unfold blobAsked at asked
  split at asked
  case h_6 => cases asked
  all_goals rfl

/-- Settles O51: a data stage from the blob, an acknowledgement, or a refusal by the two checks of `controlIn`. -/
theorem descriptorRequests : Obligations.DescriptorRequests := by
  intro i S s b takes packet asked n k wraps
  have responds : resolve (decodePacket S) ((arrived S s).withCtx .isr) =
      respond b.len b.addr (((arrived S s).withMem s.mem).withCtx .isr) :=
    resolve_descriptor (by rwa [decodeSetup_packetOf (wellFormed_of_blobAsked asked) packet])
  refine ⟨exec_answered_noData takes packet responds, fun data null fits answers => ⟨?sent, ?packets⟩,
    fun data refused => ?refused⟩
  case sent =>
    exact exec_answered_sent takes packet responds rfl rfl data null
      (fun nonnull => Nat.not_lt.mp fun past => fits ⟨nonnull, past⟩) answers
  case packets => exact sentIn_arrived_sent b.addr n k S s s.mem
  case refused =>
    exact exec_answered_refused takes packet responds data (refused.imp_right (bufferWraps_iff b.addr b.len).mpr)

/-! ### Delegated requests (45_setup_decoder.md R362, R388, R389, 44_device_hal.md R324) -/

theorem registeredCall_onSetup (S : BitVec 64) (s : State) :
    registeredCall .onSetup (.raw S) s = ⟨.onSetup, s.cb.map (·.onSetup), .raw S⟩ := by
  cases table : s.cb <;> simp [registeredCall, table, callbackFn]

/-- Pipe 0 stalled in answer to a packet that nobody knows. -/
def packetStalled (x : PipeState) : PipeState := { x with pid := .stall, brdyEnb := false }

/-- The stall of the control class in CONTROL_SETUP, no transfer running. -/
theorem stallClass_control_setup {s : State} (initialized : s.initialized = true) (stage : s.devState = .controlSetup)
    (idle : (s.pipe 0).xfer.active = false) : stallClass .control s =
      (.ok, setDevState .ready ((s.modPipe 0 packetStalled).logs [.pid 0 .stall, .brdyEnb 0 false])) := by
  have control : s.devState.isControl = true := by rw [stage]; rfl
  rw [stallClass_initialized initialized, if_pos ⟨rfl, control⟩]
  simp only [setPidStall_eq, deactivate, writeBrdyEnb, State.logs_modPipe, State.modPipe_modPipe, State.logs_logs]
  refine congrArg (fun t => (ErrCode.ok, setDevState .ready (State.logs t _))) (State.modPipe_congr s 0 ?_)
  simp only [packetStalled, ← idle]

/-- A class layer that only answers a packet. -/
theorem delegate_idle {S : BitVec 64} {s : State} {ans : SetupAnswer} (idle : classIdle ans s) : delegate S s =
    if ans = .unknown ∧ s.devState = .controlSetup then
      .done () (stallClass .control (called ⟨.onSetup, s.cb.map (·.onSetup), .raw S⟩ s)).2
    else .done () (called ⟨.onSetup, s.cb.map (·.onSetup), .raw S⟩ s) := by
  rw [delegate, callOnSetup_idle idle, registeredCall_onSetup]
  rfl

/-- Settles O53: the setup core leaves the packet to the class layer, whose answer decides whether pipe 0 stalls. -/
theorem delegatedRequests : Obligations.DelegatedRequests := by
  intro i S s takes wf packet passes s'
  have unresolved : resolve (decodePacket S) ((arrived S s).withCtx .isr) = .done false ((arrived S s).withCtx .isr) :=
    resolve_delegated (by rwa [decodeSetup_packetOf wf packet, delegated_arrived])
  have dropped : ((arrived S s).pipe 0).xfer.active = false := congrArg (·.xfer.active) (arrived_pipe_zero S s)
  have answered {ans : SetupAnswer} (idle : classIdle ans s) := delegate_idle (S := S)
    (s := (arrived S s).withCtx .isr) idle
  refine ⟨fun idle => ?unknown, fun idle => ?handled⟩
  case unknown =>
    have stalls := stallClass_control_setup (s := called ⟨.onSetup, s.cb.map (·.onSetup), .raw S⟩
      ((arrived S s).withCtx .isr)) (arrived_initialized takes S) rfl dropped
    have delegates := (answered idle).trans (if_pos ⟨rfl, rfl⟩)
    exact exec_delegated takes packet unresolved (delegates.trans (congrArg (fun r => Res.done () r.2) stalls))
  case handled =>
    have delegates := (answered idle).trans (if_neg fun ⟨unknown, _⟩ => nomatch unknown)
    exact exec_delegated takes packet unresolved delegates

end Sys2Proof.Machine
end

section
/-! PROOFS. What a command or a pass turns away or clears (60_exceptions.md): a start that breaks a check, the status
bits, and a pass that finds a Not-Ready and a Ready of one pipe. -/

namespace Sys2Proof.Machine

/-! ### A start that breaks a check (60_exceptions.md R421) -/

/-- A start that breaks a check answers the error of the first it breaks, in the state it was issued in. -/
theorem start_broken {p : Pipe} {d : Dir} {len : Len} {buf : Addr} {s : State} {e : ErrCode}
    (broken : startBroken p d len buf s = some e) (k : Option CbId) : start p d len buf k s = (e, s) := by
  rw [startBroken_eq] at broken
  rw [start, broken]

/-- Settles O15: the three starts are one operation on three pipes, whose checks are those of R330 in their order. -/
theorem startReportsFirstError : Obligations.StartReportsFirstError := by
  intro len buf k s e running
  refine ⟨fun broken => ?bulkIn, fun broken => ?bulkOut, fun broken => ?interruptIn⟩
  all_goals exact exec_turnedAway running (congrArg returnCode (start_broken broken k))

/-! ### The status bits (60_exceptions.md R407) -/

/-- An instruction that ends in a next state has run its operation. -/
theorem bodyOf_of_exec_next {i : Instr} {s t : State} (ends : exec i s = .next t) : (bodyOf i s).toOutcome = .next t := by
  cases fatal : s.fatal with
  | true => rw [exec_fatal fatal] at ends; cases ends
  | false => rwa [exec_running fatal] at ends

/-- A turn of the ISR leaves the status bits that its snapshot does not hold. -/
theorem Turn.statusBit_eq {s t : State} (turn : Turn s t) {x : Source} (unseen : pending s x = false) :
    statusBit t x = statusBit s x := by
  obtain rfl | ⟨-, pass, -⟩ := turn
  · rfl
  · exact pass.sts x unseen

/-- Settles O56: the status bits are in the frame of every command, and a pass is a turn of the ISR. -/
theorem statusBitsKept : Obligations.StatusBitsKept := by
  refine ⟨fun i s t command ends => ?command, fun s t ends x unseen => ?pass⟩
  case command =>
    have kept : Keeps False s t := (keeps_command command s).next (bodyOf_of_exec_next ends)
    exact kept.frame.sts
  case pass => exact ((turn_isrTurn s).next (bodyOf_of_exec_next ends)).statusBit_eq unseen

/-! ### A Not-Ready and a Ready in one pass (60_exceptions.md R420, 44_device_hal.md R302) -/

/-- Two sources held: the one that comes first in the order is served first, and the other in the state it leaves. -/
theorem serveAll_two {snap : Source → Bool} {h : Source → State → Res Unit} {a b c : List Source} {x y : Source}
    (seenX : snap x = true) (seenY : snap y = true) (before : ∀ z ∈ a, snap z = false) (between : ∀ z ∈ b, snap z = false)
    (after : ∀ z ∈ c, snap z = false) {s t u : State} (first : h x (clearSts x s) = .done () t)
    (second : h y (clearSts y t) = .done () u) : serveAll snap h (a ++ x :: (b ++ y :: c)) s = .done () u := by
  rw [serveAll_append, serveAll_none before, Res.bind_done, serveAll, if_pos seenX, first, Res.bind_done,
    serveAll_append, serveAll_none between, Res.bind_done, serveAll, if_pos seenY, second, Res.bind_done,
    serveAll_none after]

section
variable {p : Pipe} {s t : State}

/-- A pass that finds just these two serves the Not-Ready, then the Ready. -/
theorem exec_evtIsr_nrdy_brdy {u : State} (data : p ≠ 0) (running : live s) (nrdy : pending s (.nrdy p) = true)
    (brdy : pending s (.brdy p) = true) (alone : ∀ y, y ≠ .nrdy p → y ≠ .brdy p → pending s y = false)
    (first : onNrdy p (nrdyEntered p s) = .done () t) (second : onBrdy p (clearSts (.brdy p) t) = .done () u) :
    exec .evtIsr s = .next (u.withCtx s.ctx) := by
  obtain ⟨a, b, c, order, before, between, after⟩ := split_order p data
  have unseen {l : List Source} (others : ∀ x ∈ l, x ≠ .nrdy p ∧ x ≠ .brdy p) : ∀ x ∈ l, pending s x = false :=
    fun x mem => alone x (others x mem).1 (others x mem).2
  have serves : serveAll (pending s) handler passOrder (isrEnter s) = .done () u :=
    order ▸ serveAll_two nrdy brdy (unseen before) (unseen between) (unseen after) ((if_neg data).trans first)
      ((if_neg data).trans second)
  have asserted : lineAsserted s = true := (lineAsserted_iff s).mpr ⟨running, _, nrdy⟩
  refine exec_done running.2 ?_
  rw [bodyOf, isrTurn, if_pos asserted, isrPass, takeInterrupt, serves]
  rfl

/-- A pipe whose third Not-Ready has latched NO_RESPONSE and ended its transfer (43_pipe_dispatcher.md R271, R274). -/
def retriesSpent (x : PipeState) : PipeState :=
  ended .noResponse { latched .noResponse x with nrdyCount := x.nrdyCount + 1, pid := .nak, nrdySts := false }

/-- The state that Not-Ready leaves, in the context before the pass. -/
def nrdyLatched (p : Pipe) (s : State) : State :=
  { notified p .noResponse (s.modPipe p retriesSpent) with
    trace := s.trace ++ .nrdyClr p :: (latchTrace p ++ [.pid p .nak]) }

theorem nrdyLatched_pipe_self (p : Pipe) (s : State) : (nrdyLatched p s).pipe p = retriesSpent (s.pipe p) :=
  (notified_pipe ..).trans (State.pipe_modPipe_self ..)

theorem nrdyLatched_mem (p : Pipe) (s : State) : (nrdyLatched p s).mem = s.mem :=
  notified_mem p .noResponse (s.modPipe p retriesSpent)

theorem nrdyLatched_trace (p : Pipe) (s : State) : (nrdyLatched p s).trace =
    s.trace ++ [.nrdyClr p, .brdyEnb p false, .nrdyEnb p false, .bempEnb p false, .pid p .nak] := rfl

theorem nrdyLatched_calls (p : Pipe) (s : State) : (nrdyLatched p s).calls = s.calls ++
    (completionCall p .noResponse ((s.pipe p).xfer.total - (s.pipe p).xfer.remaining) s).toList := by
  have call (n : Nat) :
      completionCall p .noResponse n (s.modPipe p retriesSpent) = completionCall p .noResponse n s :=
    completionCall_congr rfl rfl (by rw [State.pipe_modPipe_self]; rfl)
  refine (notified_calls p .noResponse (s.modPipe p retriesSpent)).trans ?_
  rw [State.pipe_modPipe_self, call]
  rfl

/-- The third Not-Ready of a transfer latches NO_RESPONSE (43_pipe_dispatcher.md R271). -/
theorem onNrdy_latches {ans : SetupAnswer} (answers : (s.pipe p).pid ≠ .stall) (runs : (s.pipe p).xfer.active = true)
    (late : ¬ (s.pipe p).nrdyCount < 2) (idle : classIdle ans s) :
    ∃ t, onNrdy p (nrdyEntered p s) = .done () t ∧ t.withCtx s.ctx = nrdyLatched p s := by
  have pipe := nrdyEntered_pipe_self p s
  have issuesNothing : classIdle ans (nrdyEntered p s) := idle
  exact ⟨_, onNrdy_third (by rwa [pipe]) (by rwa [pipe]) (by rwa [pipe]) issuesNothing, entered_notified ..⟩

/-- What a Ready writes when no transfer runs: its status bit and its enable (43_pipe_dispatcher.md R266). -/
def brdySilenced (p : Pipe) (s : State) : State := writeBrdyEnb p false (clearSts (.brdy p) s)

theorem brdySilenced_pipe_self (p : Pipe) (s : State) :
    (brdySilenced p s).pipe p = { s.pipe p with brdySts := false, brdyEnb := false } := by
  simp [brdySilenced, writeBrdyEnb, clearSts]

theorem brdySilenced_mem (p : Pipe) (s : State) : (brdySilenced p s).mem = s.mem := rfl

theorem brdySilenced_calls (p : Pipe) (s : State) : (brdySilenced p s).calls = s.calls := rfl

theorem brdySilenced_trace (p : Pipe) (s : State) :
    (brdySilenced p s).trace = s.trace ++ [.brdyClr p, .brdyEnb p false] :=
  List.append_assoc ..

/-- The pass of R420: the Not-Ready ends the transfer, so the Ready finds none. -/
theorem exec_evtIsr_third_nrdy_brdy {ans : SetupAnswer} (data : p ≠ 0) (running : live s)
    (nrdy : pending s (.nrdy p) = true) (brdy : pending s (.brdy p) = true)
    (alone : ∀ y, y ≠ .nrdy p → y ≠ .brdy p → pending s y = false) (runs : (s.pipe p).xfer.active = true)
    (answers : (s.pipe p).pid ≠ .stall) (late : ¬ (s.pipe p).nrdyCount < 2) (idle : classIdle ans s) :
    exec .evtIsr s = .next (brdySilenced p (nrdyLatched p s)) := by
  obtain ⟨t, latches, left⟩ := onNrdy_latches answers runs late idle
  have pipe : t.pipe p = retriesSpent (s.pipe p) :=
    (congrArg (State.pipe · p) left).trans (nrdyLatched_pipe_self p s)
  have inactive : ((clearSts (.brdy p) t).pipe p).xfer.active = false := by
    rw [clearSts, State.pipe_logs, State.pipe_modPipe_self, pipe]
    rfl
  rw [exec_evtIsr_nrdy_brdy data running nrdy brdy alone latches (onBrdy_inactive inactive), ← left]
  rfl

end

/-- Settles O46: the Not-Ready comes first in the order of a pass, and leaves the Ready no transfer to serve. -/
theorem nrdyBeforeBrdy : Obligations.NrdyBeforeBrdy := by
  intro p s ans data running nrdy brdy alone runs answers count idle
  have pipe : (brdySilenced p (nrdyLatched p s)).pipe p =
      { retriesSpent (s.pipe p) with brdySts := false, brdyEnb := false } := by
    rw [brdySilenced_pipe_self, nrdyLatched_pipe_self]
  refine ⟨_, exec_evtIsr_third_nrdy_brdy data running nrdy brdy alone runs answers (by omega) idle,
    ?latched, ?count, ?error, ?notBusy, ?memory, ?calls, ?trace⟩
  case latched => rw [pipe]; rfl
  case count => rw [pipe]; exact congrArg (· + 1) count
  case error => rw [pipe]; rfl
  case notBusy => rw [pipe]; rfl
  case memory => rw [brdySilenced_mem, nrdyLatched_mem]
  case calls => rw [brdySilenced_calls, nrdyLatched_calls, List.length_append]
  case trace => rw [brdySilenced_trace, nrdyLatched_trace, List.append_assoc]; rfl

end Sys2Proof.Machine
end

section
/-! PROOFS. Whole-machine rules (70_reset_and_hazards.md): what every step adds to the trace, what leaves DISCONNECTED,
what is left after `fatal`, and where a control command has a step. -/

namespace Sys2Proof.Machine

/-! ### The trace (70_reset_and_hazards.md R471, R474) -/

/-- The trace of `t` is that of `s` with disciplined entries after it. -/
def TraceGrows (s t : State) : Prop := ∃ es, t.trace = s.trace ++ es ∧ disciplined es = true

theorem TraceGrows.of_eq {s t : State} (same : t.trace = s.trace) : TraceGrows s t :=
  ⟨[], by rw [same, List.append_nil], rfl⟩

/-- A turn of the ISR adds disciplined entries: each of its handlers does. -/
theorem Turn.traceGrows {s t : State} (turn : Turn s t) : TraceGrows s t := by
  obtain rfl | ⟨-, pass, -⟩ := turn
  · exact .of_eq rfl
  · exact pass.trace

/-- Every agent's move adds disciplined entries. -/
theorem Moves.traceGrows {s t : State} (m : Moves s t) : TraceGrows s t := by
  cases m with
  | command keeps => exact keeps.frame.trace
  | event u latched turn =>
    obtain rfl | ⟨S, rfl⟩ := latched
    · exact turn.traceGrows
    · exact turn.traceGrows
  | calm same => exact .of_eq same

/-- Settles O59: a step is the move of one agent, and each kind of move adds disciplined entries. -/
theorem stepKeepsTrace : Obligations.StepKeepsTrace := by
  intro s t ends
  obtain ⟨-, _, m⟩ := step_moves ends
  exact m.traceGrows

/-! ### Leaving DISCONNECTED (70_reset_and_hazards.md R460) -/

/-- An initialised block to which a bus reset is reported (44_device_hal.md R301, R316). -/
def BusResetPending (s : State) : Prop :=
  s.initialized = true ∧ s.usbState = .defaultState ∧ pending s .dvst = true

/-- From one state to the other, the block leaves DISCONNECTED. -/
def Connects (s t : State) : Prop := s.devState = .disconnected ∧ t.devState ≠ .disconnected

/-- A turn of the ISR that leaves DISCONNECTED serves a bus reset. -/
theorem Turn.busResetPending {s t : State} (turn : Turn s t) (connects : Connects s t) : BusResetPending s := by
  obtain ⟨before, after⟩ := connects
  obtain rfl | ⟨initialized, pass, -⟩ := turn
  · exact absurd before after
  · obtain ⟨reported, default⟩ | stays := pass.disc
    · exact ⟨initialized, default, reported⟩
    · exact absurd (stays before) after

/-- An agent's move that leaves DISCONNECTED serves a bus reset; a setup packet that the controller latches before its
turn reports none. -/
theorem Moves.busResetPending {s t : State} (m : Moves s t) (connects : Connects s t) : BusResetPending s := by
  cases m with
  | command keeps =>
    obtain impossible | stays := keeps.disc
    · exact impossible.elim
    · exact absurd (stays connects.1) connects.2
  | event u latched turn =>
    obtain rfl | ⟨S, rfl⟩ := latched
    · exact turn.busResetPending connects
    · exact turn.busResetPending connects
  | calm _ _ same => exact absurd (same.trans connects.1) connects.2

/-- Settles O60: only a pass that serves a bus reset leaves DISCONNECTED, and the invariant after it has VBUS high. -/
theorem onlyBusResetConnects : Obligations.OnlyBusResetConnects := by
  intro s t inv ends before after
  obtain ⟨-, _, m⟩ := step_moves ends
  obtain ⟨initialized, default, reported⟩ := m.busResetPending ⟨before, after⟩
  obtain ⟨enabled, status⟩ : s.enb.dvse = true ∧ s.sts.dvst = true := Bool.and_eq_true_iff.mp reported
  exact ⟨initialized, default, status, enabled, (stepKeepsInv s t inv ends).connected after⟩

/-! ### After `fatal` (70_reset_and_hazards.md R466) -/

/-- An operation that leaves the last result alone, and changes `fatal` only where it halts. -/
def Res.Unanswered {α : Type} (s : State) (r : Res α) : Prop :=
  match r with
  | .done _ t => t.fatal = s.fatal ∧ t.result = s.result
  | .halt t => t.result = s.result
  | .refused _ => True

theorem unanswered_done {α : Type} (a : α) (s : State) : (Res.done a s).Unanswered s := ⟨rfl, rfl⟩

section
variable {α β : Type} {r : Res α} {s u : State}

/-- An operation that runs after a change of neither field. -/
theorem Res.Unanswered.after (h : r.Unanswered u) (fatal : u.fatal = s.fatal) (result : u.result = s.result) :
    r.Unanswered s := by
  cases r with
  | done a t => exact ⟨h.1.trans fatal, h.2.trans result⟩
  | halt t => exact Eq.trans h result
  | refused e => trivial

theorem Res.Unanswered.bind {f : α → State → Res β} (h : r.Unanswered s) (hf : ∀ a t, (f a t).Unanswered t) :
    (r.bind f).Unanswered s := by
  cases r with
  | done a t => exact (hf a t).after h.1 h.2
  | halt t => exact h
  | refused e => trivial

end

@[simp] theorem afterBind_result (p : Option Pipe) (f : FifoId) (d : Dir) (b : Bool) (s : State) :
    (afterBind p f d b s).result = s.result := by cases f <;> rfl

theorem bindFifo_fatal_result (p : Option Pipe) (f : FifoId) (d : Dir) (s : State) :
    (bindFifo p f d s).2.fatal = s.fatal ∧ (bindFifo p f d s).2.result = s.result := by
  obtain ⟨e, bound⟩ := bindFifo_spec p f d s
  rw [bound]
  exact ⟨afterBind_fatal p f d _ s, afterBind_result p f d _ s⟩

theorem unanswered_bindAttempts (p : Option Pipe) (f : FifoId) (d : Dir) (n : Nat) (s : State) :
    (bindAttempts p f d n s).Unanswered s := by
  induction n generalizing s with
  | zero => exact rfl
  | succ n ih =>
    have kept := bindFifo_fatal_result p f d s
    rw [bindAttempts]
    split
    · next bound => rwa [bound] at kept
    · next t timedOut =>
      rw [timedOut] at kept
      exact (ih t).after kept.1 kept.2

theorem unanswered_bindAdmin (s : State) : (bindAdmin s).Unanswered s :=
  (unanswered_bindAttempts ..).bind fun _ _ =>
    (unanswered_bindAttempts ..).bind fun _ _ => unanswered_bindAttempts ..

/-- `Reset` and the administrative binds (44_device_hal.md R315). -/
theorem unanswered_attach (s : State) : (attach s).Unanswered s := by
  have admin := unanswered_bindAdmin (blockReset s).2
  rw [attach]
  cases initialized : s.initialized with
  | true =>
    rw [blockReset_initialized initialized, resetEffect_silenced] at admin ⊢
    exact admin.after rfl rfl
  | false =>
    rw [blockReset_beforeInit initialized] at admin ⊢
    exact admin

theorem unanswered_initVbus (s : State) : (initVbus s).Unanswered s := by
  obtain ⟨e, read⟩ := debounce_spec s
  rw [initVbus]
  split
  · next t high =>
    rw [high] at read
    subst read
    have attaches : (attach { s.withEnv e with vbusLevel := true }).Unanswered s := (unanswered_attach _).after rfl rfl
    exact attaches.bind fun _ u => unanswered_done ErrCode.ok u
  · next t _ low =>
    rw [low] at read
    subst read
    exact unanswered_done ErrCode.ok (s.withEnv e)

/-- `init` up to its code: its two attaches are all that can halt. -/
theorem unanswered_blockInit (d : DescSet) (c : Callbacks) (s : State) : (blockInit d c s).Unanswered s := by
  rw [blockInit]
  split
  · exact unanswered_done ErrCode.state s
  · have begins : (attach (initChannel d c s)).Unanswered s := (unanswered_attach _).after rfl rfl
    exact begins.bind fun _ t => unanswered_initVbus t

theorem step_fatal {s : State} (fatal : s.fatal = true) : step s = .fault .stuckFatal := if_pos fatal

/-- Settles O6: the test for `fatal` comes first in every step; and an `init` that is done has not set it. -/
theorem fatalIsStuck : Obligations.FatalIsStuck := by
  refine ⟨fun s fatal => ⟨step_fatal fatal, exec_fatal fatal⟩, fun d c s t running ends fatal => ?exhausted⟩
  have ends : (returnRes (blockInit d c s)).toOutcome = .next t := bodyOf_of_exec_next (i := .init d c) ends
  have unanswered := unanswered_blockInit d c s
  cases init : blockInit d c s with
  | done code u =>
    rw [init] at ends unanswered
    obtain rfl : setResult (.code code) u = t := Host.Outcome.next.inj ends
    have stillRunning : u.fatal = false := unanswered.1.trans running
    exact absurd (stillRunning.symm.trans fatal) nofun
  | halt u =>
    rw [init] at ends unanswered
    obtain rfl : u = t := Host.Outcome.next.inj ends
    exact unanswered
  | refused e =>
    rw [init] at ends
    cases ends

/-! ### Control commands by context (70_reset_and_hazards.md R473; 44_device_hal.md R335; 60_exceptions.md R441) -/

section
variable {i : Instr} {f : State → Res Unit} {s : State} (row : bodyOf i = insideOnSetup f) (running : live s)
include row running

/-- A control command issued by a task. -/
theorem exec_control_task (context : s.ctx = .task) : exec i s = .refused .taskControlCommand := by
  rw [exec_running running.2, row, insideOnSetup_task running.1 context]
  rfl

/-- A control command issued in a callback other than `onSetup`. -/
theorem exec_control_isr (context : s.ctx = .isr) : exec i s = .next (turnedAway .state s) := by
  refine exec_turnedAway running.2 ?_
  rw [row, insideOnSetup_isr running.1 context]

/-- A control command issued inside `onSetup` that its sub-state turns away. -/
theorem exec_control_onSetup (context : s.ctx = .onSetup) (turned : f s = returnCode (.state, s)) :
    exec i s = .next (turnedAway .state s) := by
  refine exec_turnedAway running.2 ?_
  rw [row, insideOnSetup_onSetup running.1 context, turned]

end

/-- Settles O20: the context decides first, and inside `onSetup` the sub-state. -/
theorem controlCommandContext : Obligations.ControlCommandContext := by
  intro s running
  refine ⟨fun context => ?task, fun context => ?isr, fun context stage => ?onSetup⟩
  case task =>
    exact ⟨exec_control_task rfl running context, fun _ _ => exec_control_task rfl running context,
      fun _ _ _ => exec_control_task rfl running context, exec_control_task rfl running context⟩
  case isr =>
    exact ⟨exec_control_isr rfl running context, fun _ _ => exec_control_isr rfl running context,
      fun _ _ _ => exec_control_isr rfl running context, exec_control_isr rfl running context⟩
  case onSetup =>
    have illegal : ¬ controlLegal s = true := fun legal => stage ((controlLegal_iff s).mp legal).2
    exact ⟨exec_control_onSetup rfl running context (congrArg returnCode (controlAck_illegal illegal)),
      fun len buf => exec_control_onSetup rfl running context (congrArg returnRes (controlIn_illegal illegal len buf)),
      fun len buf k =>
        exec_control_onSetup rfl running context (congrArg returnCode (controlOut_illegal illegal len buf k))⟩

end Sys2Proof.Machine
end
